-- ==== Sys2Proof/Word.lean ====
section
/-!
DEFINITION. The word types of the Ilumund and their plainest views (R1, R2).
-/
namespace Sys2Proof

/-- A byte of memory. -/
abbrev Byte := BitVec 8

/-- A 32-bit word: one lane's element of a vector name, or a code word. -/
abbrev Word := BitVec 32

/-- A 64-bit value: a register of the register view, a pair of names, a set of lanes. -/
abbrev DWord := BitVec 64

/-- A set of lanes of a group: bit l stands for lane l. -/
abbrev LaneSet := BitVec 64

/-- A 7-bit register field of a code word (R85). -/
abbrev Reg := BitVec 7

end Sys2Proof
end

