-- ==== Sys2Proof/Syntax.lean ====
section
/-!
DEFINITION. The instructions: one constructor of `Instr` per row of spec/opcode_table.json. The first 116 are the code
words of R94, with their operands already taken apart; the other 90 are the events, each one indivisible step of an agent
other than a lane (95_what_each_step_holds.md), with the data that names the agent and what it acts on.
-/
namespace Sys2Proof

/-- Operands of format R with two sources (R86). -/
structure R3 where
  lrb : Bool
  lra : Bool
  sb : Reg
  sa : Reg
  d : Reg
  deriving DecidableEq, Repr

/-- Operands of formats R and I with one vector-name source (R86, R87). -/
structure R2 where
  lra : Bool
  sa : Reg
  d : Reg
  deriving DecidableEq, Repr

/-- The memory space of a format M address (R89, R115). -/
inductive Space where
  | flat | loc | cluster | host
  deriving DecidableEq, Repr

/-- Address and data operands of format M (R89). -/
structure MArgs where
  lra : Bool
  spc : Space
  a : Reg
  d : Reg
  deriving DecidableEq, Repr

/-- Width of a plain access per lane (R89). -/
inductive Width where
  | b1 | b2 | b4 | b8 | b16
  deriving DecidableEq, Repr

/-- Scope codes (R89, R151). -/
inductive Scope where
  | group | core | cluster | device | system
  deriving DecidableEq, Repr

/-- The three treatments of an integer sum or difference (R357). -/
inductive SatMode where
  | wrap | sat | satu
  deriving DecidableEq, Repr

/-- The three products of IMUL (R357). -/
inductive MulMode where
  | lo | hi | hiu
  deriving DecidableEq, Repr

/-- Integer conditions (R359). -/
inductive IntCmp where
  | eq | ne | lt | le
  deriving DecidableEq, Repr

/-- Floating-point conditions (R345). -/
inductive FloatCmp where
  | eq | lt | le | un
  deriving DecidableEq, Repr

/-- Sign operations of FSGN (R350). -/
inductive SignOp where
  | copy | neg | xor
  deriving DecidableEq, Repr

/-- Floating-point formats of FCVT (R342). -/
inductive FloatFmt where
  | f32 | bf16 | f16 | e4m3 | e5m2 | e2m1
  deriving DecidableEq, Repr

/-- Element format of the packed instructions (R356). -/
inductive HalfFmt where
  | bf16 | f16
  deriving DecidableEq, Repr

/-- Forms of VOTE (R408). -/
inductive VoteOp where
  | any | all | ballot | eq
  deriving DecidableEq, Repr

/-- Forms of SHFL (R397). -/
inductive ShflOp where
  | idx | up | down | xor
  deriving DecidableEq, Repr

/-- Patterns of QSWZ (R379). -/
inductive QuadPat where
  | x1 | x2 | x3 | bc (k : BitVec 2)
  deriving DecidableEq, Repr

/-- The operation of REDL and SCANL (R384, R393). -/
inductive LaneOp where
  | iadd | fadd | imax | fmax
  deriving DecidableEq, Repr

/-- AOP names (R90). -/
inductive AtomOp where
  | add | min | max | minu | maxu | and | or | xor | exch | cas | fadd | fmin | fmax
  deriving DecidableEq, Repr

/-- Special registers that SREAD names (R96). -/
inductive SReg where
  | laneid | groupid | blockid | gangid | launchid | coreid | clusterid | wingid | tenantid | actlo | acthi | winid
  | streamid | fmode | fstat | wb | rgncnt | corecyc | capatom | capunits
  | tcause | tpc | trgnpc | trgncnt | taddr | tmasklo | tmaskhi | tshapes | tpchi | trgnpchi | taddrhi | tword
  deriving DecidableEq, Repr

/-- Registers that SWRITE names (R97, R399). -/
inductive WReg where
  | fmode | fstat
  deriving DecidableEq, Repr

/-- Element types of MMA (R212). -/
inductive MType where
  | e4m3 | e5m2 | i8 | bf16 | e2m1
  deriving DecidableEq, Repr

/-- Fields of MMA (R214). -/
structure MmaArgs where
  afrag : BitVec 3
  ta : MType
  scaled : Bool
  bfrag : BitVec 3
  tb : MType
  guest : Option (BitVec 2)
  pair : Bool
  tile : BitVec 3
  deriving DecidableEq, Repr

/-- Element width of a scaled TLD or COPY (R225, R239). -/
inductive ElemW where
  | w4 | w8 | w16
  deriving DecidableEq, Repr

/-- Store formats of TST (R224). -/
inductive TstFmt where
  | f32 | bf16 | f16 | e4m3 | e5m2
  deriving DecidableEq, Repr

/-- Gate programs (R226); LSTM names its output offset. -/
inductive GateProg where
  | lstm (out : Reg) | gru | ssm | swiglu | relu | tanh | sig | add
  deriving DecidableEq, Repr

/-- A register of a register view whose write has no behaviour of its own (R3; the row REGISTER_WRITE). -/
inductive PlainReg where
  | plimit
  | weights (w : Nat)
  | jctl (p : Nat)
  | s1rootLo (w t : Nat) | s1rootHi (w t : Nat)
  | s2rootLo (w : Nat) | s2rootHi (w : Nat)
  | fqbaseLo (w : Nat) | fqbaseHi (w : Nat)
  | fqhead (w : Nat) | fqlog (w : Nat) | fqrseq (w : Nat)
  | xctl (w : Nat)
  | xaddrLo (w : Nat) | xaddrHi (w : Nat)
  | nmask (w : Nat)
  | attnonce (view k : Nat)
  | attbufLo (view : Nat) | attbufHi (view : Nat)
  | attop (view : Nat)
  | readOnly (off : Nat)
  deriving DecidableEq, Repr

/-- Where an uncorrectable error is found (R313): a line of an L1, a sector of a core-side slice by its key there, a granule in a home
slice, an entry of a core's or a cluster's translation cache, a granule of DRAM, a line of scratchpad, a store of a context's own, and
what the device shares. -/
inductive ErrorSite where
  | l1 (core line : Nat)
  | l2 (slice key : Nat)
  | home (a : Nat)
  | coreTlb (core i : Nat)
  | clusterTlb (cluster i : Nat)
  | memory (a : Nat)
  | scratch (core block line : Nat)
  | ownedStore (w t : Nat)
  | fabric
  deriving DecidableEq, Repr

/-- The memory a host or peer access names (R179, R317). -/
inductive HostSpace where
  | device
  | hostMem
  | wingBar (w : Nat)
  deriving DecidableEq, Repr

/-- An access that arrives through a Joesh port (R320, R321). -/
inductive PeerAccess where
  | read (a n : Nat)
  | write (a : Nat) (bs : List Byte)
  | atom (op : AtomOp) (wide : Bool) (a : Nat) (x cmp : DWord)
  | red (op : AtomOp) (a : Nat) (x : Word) (ftz cnan sat : Bool)
  | message (core tag srcCore n : Nat) (ws : List Word)
  deriving DecidableEq, Repr

/-- The instructions and events of spec/opcode_table.json. -/
inductive Instr where
  -- control flow (R334, R335, R385, R362, R340, R412, R409)
  | bra (off : BitVec 17)
  | brc (lrc : Bool) (c : Reg) (off : BitVec 17)
  | brz (lrc : Bool) (c : Reg) (off : BitVec 17)
  | call (frame : BitVec 5) (off : BitVec 20)
  | ret
  | jmpr (sa : Reg)
  | exit
  | yield
  | wbase (n : BitVec 10)
  -- markers, votes and barriers (R371, R372, R408, R332)
  | mjoin (k : BitVec 4)
  | mleave (k : BitVec 4)
  | mwait (k : BitVec 4)
  | mreadEnr (k : BitVec 4) (d : Reg)
  | mreadArr (k : BitVec 4) (d : Reg)
  | vote (op : VoteOp) (r : R2)
  | bar
  -- integer (R357 to R361, R333, R336, R394)
  | iadd (m : SatMode) (r : R3)
  | isub (m : SatMode) (r : R3)
  | imul (m : MulMode) (r : R3)
  | imad (r : R3)
  | imin (u : Bool) (r : R3)
  | imax (u : Bool) (r : R3)
  | iand (r : R3)
  | ior (r : R3)
  | ixor (r : R3)
  | ishl (r : R3)
  | ishr (sg : Bool) (r : R3)
  | popc (r : R2)
  | clz (r : R2)
  | bfe (sg : Bool) (r : R3)
  | bfi (r : R3)
  | icmp (c : IntCmp) (r : R3)
  | icmpu (c : IntCmp) (r : R3)
  | sel (r : R3)
  | iaddi (imm : BitVec 10) (r : R2)
  | iandi (imm : BitVec 10) (r : R2)
  | ishli (n : BitVec 5) (r : R2)
  | ishri (n : BitVec 5) (r : R2)
  | isari (n : BitVec 5) (r : R2)
  -- floating point (R344, R345, R350, R348, R343, R356)
  | fadd (r : R3)
  | fsub (r : R3)
  | fmul (r : R3)
  | ffma (r : R3)
  | fmin (nan : Bool) (r : R3)
  | fmax (nan : Bool) (r : R3)
  | fcmp (c : FloatCmp) (r : R3)
  | fsgn (o : SignOp) (r : R3)
  | frcp (r : R2)
  | frsq (r : R2)
  | fexp2 (r : R2)
  | flog2 (r : R2)
  | ftanh (r : R2)
  | fsig (r : R2)
  | fcvt (src dst : FloatFmt) (r : R2)
  | i2f (u : Bool) (r : R2)
  | f2i (z u : Bool) (r : R2)
  | hadd2 (f : HalfFmt) (r : R3)
  | hmul2 (f : HalfFmt) (r : R3)
  | hfma2 (f : HalfFmt) (r : R3)
  -- moves, lanes and special registers (R375, R376, R379, R380, R384, R393, R396 to R399, R341)
  | mov (r : R2)
  | movi (imm : BitVec 10) (d : Reg)
  | movl (lit : Word) (d : Reg)
  | shfl (o : ShflOp) (r : R3)
  | qswz (p : QuadPat) (r : R2)
  | rdlane (r : R3)
  | rdlaneImm (k : BitVec 6) (r : R2)
  | scanl (o : LaneOp) (r : R2)
  | redl (o : LaneOp) (r : R2)
  | shape (r : R2)
  | expand (d : Reg)
  | sread (x : SReg) (d : Reg)
  | swrite (x : WReg) (sa : Reg)
  -- memory (R365, R400, R369, R402, R330, R382, R346, R347, R378, R377)
  | ld (w : Width) (ep : BitVec 2) (lu : Bool) (m : MArgs)
  | st (w : Width) (ep : BitVec 2) (lu : Bool) (m : MArgs)
  | lda (wide : Bool) (scp : Scope) (m : MArgs)
  | stl (wide : Bool) (scp : Scope) (m : MArgs)
  | atom (op : AtomOp) (sb sa d : Reg)
  | atom64 (op : AtomOp) (sb sa d : Reg)
  | red (op : AtomOp) (scp : Scope) (sat cnan ftz : Bool) (sb sa : Reg)
  | fence (scp : Scope)
  | fenceUnpin (scp : Scope) (sb sa : Reg)
  | qpop (q : BitVec 3) (d : Reg)
  | pres (m : MArgs)
  -- engines (R338, R374, R406, R405, R407, R353, R230, R390, R220)
  | copy (sa : Reg)
  | copyQueue (q : BitVec 3) (sa : Reg)
  | mma (m : MmaArgs)
  | tnew (t : BitVec 3)
  | tld (scaled : Option (BitVec 2 × ElemW)) (sb sa : Reg)
  | tst (f : TstFmt) (free : Bool) (t : BitVec 3) (sb sa : Reg)
  | gate (p : GateProg) (t : BitVec 3) (sa : Reg)
  | scan (st k : Bool) (r : R3)
  | scale (k : BitVec 2) (sa : Reg)
  | gbsign (k : BitVec 2) (sa : Reg)
  | gbsignBlk (k : BitVec 2) (sa : Reg)
  -- windows and streams (R207 to R210)
  | wsusp
  | wclose
  | wemit (sa : Reg)
  | wpane (sel : BitVec 2) (d : Reg)
  | winfo (sel : BitVec 3) (d : Reg)
  | strctlArm (sa : Reg)
  | strctlPause (sa : Reg)
  | strctlResume (sa : Reg)
  | strctlSetcarry (sb sa : Reg)
  | strctlClrreset (sa : Reg)
  -- messages, launches, events, service calls, handler returns (R235, R236, R234, R249, R250, R289, R285)
  | send (sb sa d : Reg)
  | rpost (sa d : Reg)
  | fwd (sa : Reg)
  | frecv (d : Reg)
  | launch (n : BitVec 6) (sa : Reg)
  | evsigSet (sa : Reg)
  | evsigClr (sa : Reg)
  | svc (n : BitVec 4) (sa d : Reg)
  | rftRestart (mute stp : Bool)
  | rftGoto (mute stp : Bool) (sa : Reg)
  | rftEnd
  -- events: issue and core
  | pick (core slot : Nat)
  | groupSwitch (core : Nat) (side : Bool)
  | localityInterval (core : Nat)
  | tokenIdleRelease (core slot : Nat)
  | tokenHoldRelease (core slot : Nat)
  | loadReturn (core i : Nat)
  | cloakFillComplete (core slot : Nat)
  | trapEntry (core : Nat)
  -- events: memory system
  | storeBufferDrain (core i : Nat)
  | l2WriteBack (cluster sector : Nat)
  | combineAgeFlush (core : Nat)
  | refresh (bank waited : Nat)
  | forcedRefresh (pc waited : Nat)
  | patrolScrub (granule : Nat) (corrected : Option (List Byte)) (intervened : Bool)
  | refwaitRead (channel : Nat)
  | thrlossRead (w t : Nat)
  | linePresent (core block line : Nat)
  -- events: engines
  | engineQueueStart (cluster i : Nat)
  | reservationEnter (cluster : Nat)
  | engineGrant (cluster i : Nat)
  | engineOpComplete (cluster i : Nat)
  | tileAllocate (cluster : Nat)
  | copyProgress (cluster i rows : Nat)
  -- events: messages
  | fwdArrival (core : Nat)
  | messageArrival (core i : Nat)
  | sendComplete (core i : Nat)
  -- events: streams
  | tailWriteSeen (w t st : Nat)
  | tailPoll (w t st : Nat)
  | dataRecord (w t st : Nat)
  | watermarkRecord (w t st : Nat)
  | resetRecord (w t st : Nat)
  | endRecord (w t st : Nat)
  | reservedKindRecord (w t st : Nat)
  | idleStash (w t st win : Nat)
  | delivery (w t st i : Nat)
  | graft (w t st i : Nat)
  | wemitSlotResume (core slot : Nat)
  | directoryWriteback (w t st : Nat)
  -- events: scheduling
  | qtailWriteSeen (w t q : Nat)
  | qtailPoll (w t q : Nat)
  | launchStart (w t q : Nat)
  | gangPlace (w : Nat)
  | launchComplete (w t i : Nat)
  | slotRowEnd (w : Nat)
  | groupHalt (core slot : Nat)
  | grace1Expiry (w : Nat)
  | grace2Expiry (w : Nat)
  | edgeCommit (w : Nat)
  | idleDonation (w : Nat)
  | preemptTimeout (w : Nat)
  -- events: register writes with behaviour of their own
  | wingEnable (w : Nat)
  | wingDisable (w : Nat)
  | wingPreempt (w : Nat)
  | slotRowWrite (w row : Nat) (v : BitVec 128)
  | contextRegWrite (w t : Nat) (v : DWord)
  | wingBitmapWrite (w off : Nat) (v : Word)
  | grace1Write (w : Nat) (v : Word)
  | grace2Write (w : Nat) (v : Word)
  -- events: translation and faults
  | xinvPage (w t : Nat)
  | xinvTenant (w t : Nat)
  | xinvWing (w t : Nat)
  | xinvComplete (w : Nat)
  | fqReplay (w : Nat)
  | fqFail (w : Nat)
  | walkComplete (core i : Nat)
  | faultRecordWrite (w : Nat)
  -- events: service ring and host view
  | svcRecordWrite (core slot : Nat)
  | svcReply (core slot : Nat)
  | svcRefused (core slot : Nat)
  | notifyClear (w : Nat) (v : Word)
  | evsWrite (w t k : Nat) (v : Word)
  | evcWrite (w t k : Nat) (v : Word)
  | stropArm (w t : Nat) (ix : BitVec 14)
  | stropPause (w t : Nat) (ix : BitVec 14)
  | stropResume (w t : Nat) (ix : BitVec 14)
  -- events: attestation, plain registers, power, errors, resets
  | attestReport (view : Nat)
  | attestCert (view : Nat)
  | attestDone (view : Nat) (ok : Bool)
  | registerWrite (r : PlainReg) (v : Word)
  | throttleStep (power temp : Nat) (raise : Bool)
  | overtempStop
  | uncorrectableError (e : ErrorSite)
  | coldReset (verified : Bool)
  | warmReset (verified : Bool)
  | vfFlr (w : Nat)
  -- events: Joesh, host accesses, peers
  | joeshLinkTrain (p : Nat) (up : Bool)
  | joeshFlitError (p : Nat)
  | joeshIncomingAccess (p : Nat) (a : PeerAccess)
  | hostWrite (sp : HostSpace) (a : Nat) (bs : List Byte)
  | hostRead (sp : HostSpace) (a n : Nat)
  | peerHomeAcknowledgement (p : Nat)
  deriving DecidableEq, Repr

end Sys2Proof
end

