-- ==== Sys2Proof/Config.lean ====
section
/-!
DEFINITION. What the device fixes (R9 to R13) and the free values: opaque constants without a body, so that nothing can be
proved of the value the spec leaves open. A claim that uses one holds for every value of it.
-/
namespace Sys2Proof.Config

/-! ### Counts of a full part (R9, R10, R11) -/

def numDies : Nat := 4
def numClusters : Nat := 96
def numCores : Nat := 384
def numChannels : Nat := 256
def numPseudoChannels : Nat := 512
def numWings : Nat := 24
def numTenants : Nat := 8
def numQueues : Nat := 64
def numPorts : Nat := 8
def numSlots : Nat := 64
/-- The key under which a core's access processor stands beside its 64 groups (R137). -/
def apSlot : Nat := 64
def numNames : Nat := 1024
def numMarkers : Nat := 12
def numFlags : Nat := 12
def vectorPool : Nat := 2032
def scalarPool : Nat := 24512
def trapVectorPool : Nat := 16
def trapScalarPool : Nat := 64
def apScalarPool : Nat := 240
def numTiles : Nat := 128
def combineEntries : Nat := 32
def vitrineEntries : Nat := 64
def reservationEntries : Nat := 32
def inboxEntries : Nat := 8
def postedEntries : Nat := 32
def overflowEntries : Nat := 64
def queueEntries : Nat := 32
def coreTlbEntries : Nat := 256
def clusterTlbEntries : Nat := 4096
def victimTags : Nat := 1024
def maxOutstanding : Nat := 1024
def cloakBytes : Nat := 266240
/-- Bytes of a core's SRAM, split between scratchpad and L1 (R11, R12). -/
def coreSram : Nat := 393216
/-- Sets of a core-side L2 slice: 2 MiB in 16 ways of 128 B lines (R9, R13). -/
def l2Sets : Nat := 1024
/-- Sets of a memory-side slice: 1 MiB in 16 ways of 128 B lines (R13). -/
def homeSets : Nat := 512
/-- Bytes of device memory behind one channel, 1.5 GiB (R13). -/
def channelBytes : Nat := 1610612736
/-- The scratchpad aperture (R117). -/
def apertureBase : Nat := 0xFFFFFFFF000000
def deviceCode : Nat := 0x0E04
def svcSlotBytes : Nat := 4864
def stashSlotBytes : Nat := 6144

/-! ### Free values -/

/-- What the device returns for a transcendental function (first argument, R348) of an input word, where the spec leaves
the bits open within a bound (R110): the meaning takes it where it lies within the bound. Log entry 11, DESIGN CHOICE, safe. -/
opaque transcendental : Nat → Word → Word

/-- The owned L2 slice that a line hashes to (R257), an index below the number of owned slices after reduction. Log entry 12, DESIGN CHOICE, safe. -/
opaque sliceHash : Nat → Nat

/-- The live channel that serves a device line, as an index into the live channels (R130). Log entry 12, DESIGN CHOICE, safe. -/
opaque channelHash : Nat → Nat

/-- The set of its home slice that a line falls into, an index below the number of sets after reduction (R133). Log entry 12, DESIGN CHOICE, safe. -/
opaque homeSet : Nat → Nat

/-- The set of a core-side L2 slice that a line falls into, reduced alike (R129). Log entry 12, DESIGN CHOICE, safe. -/
opaque l2Set : Nat → Nat

/-- Bytes that belong to the part itself (R324): 0 the serial number and the digests of its firmware and fuses, 1 the certificate
chain, 2 its length; the offset. Log entry 13, DESIGN CHOICE, unsafe. -/
opaque attestationByte : Nat → Nat → Byte

/-- A byte of the identity key's signature over bytes (R324): the bytes and the offset. Log entry 13, DESIGN CHOICE, unsafe. -/
opaque signatureByte : List Byte → Nat → Byte

/-- A byte read in the scratchpad of a block that has ended: the block's number, or the number of the access; the offset.
Log entry 18, DESIGN CHOICE, unsafe. -/
opaque goneByte : Nat → Nat → Byte

/-- What an operation stores where the spec states no value: applied to the state's free-value counter. Log entry 10, DESIGN CHOICE, safe. -/
opaque freeWord : Nat → Word

end Sys2Proof.Config
end

