-- ==== Sys2Proof/Machine/Float.lean ====
section
/-!
DEFINITION. Floating-point arithmetic on exact values: every operation computes the exact result and rounds it once
(R7, R102 to R111). A finite value is kept as a sign, a natural mantissa and a power of two.
-/
namespace Sys2Proof.Machine

/-! ### Flags and modes (R105, R106) -/

/-- The exceptions of one operation, in the bits of `FSTAT` (R106). -/
abbrev FFlags := BitVec 5

def flagNone : FFlags := 0
def flagInv : FFlags := 1
def flagDz : FFlags := 2
def flagOvf : FFlags := 4
def flagUnf : FFlags := 8
def flagInx : FFlags := 16

/-- Rounding modes (R105). -/
inductive Rm where
  | rne | rz | ru | rd
  deriving DecidableEq, Repr

/-- The fields of `FMODE` that arithmetic reads (R105). -/
structure FMode where
  rm : Rm
  ftzi : Bool
  ftzo : Bool
  cnan : Bool
  deriving DecidableEq, Repr

def rmOfBits (b : BitVec 2) : Rm :=
  if b == 0 then .rne else if b == 1 then .rz else if b == 2 then .ru else .rd

def fmodeOf (w : Word) : FMode :=
  { rm := rmOfBits (w.extractLsb' 0 2), ftzi := w.getLsbD 2, ftzo := w.getLsbD 3, cnan := w.getLsbD 4 }

/-- The traps that `FMODE` enables, in the bits of `FSTAT` (R105). -/
def trapEnables (w : Word) : FFlags := w.extractLsb' 5 5

/-! ### Formats (R102) -/

def fmtExpBits : FloatFmt → Nat
  | .f32 => 8 | .bf16 => 8 | .f16 => 5 | .e4m3 => 4 | .e5m2 => 5 | .e2m1 => 2

def fmtFracBits : FloatFmt → Nat
  | .f32 => 23 | .bf16 => 7 | .f16 => 10 | .e4m3 => 3 | .e5m2 => 2 | .e2m1 => 1

def fmtBias : FloatFmt → Nat
  | .f32 => 127 | .bf16 => 127 | .f16 => 15 | .e4m3 => 7 | .e5m2 => 15 | .e2m1 => 1

/-- The formats whose top exponent holds the infinities and NaNs. -/
def fmtSpecials : FloatFmt → Bool
  | .e4m3 | .e2m1 => false
  | _ => true

def fmtWidth (f : FloatFmt) : Nat := 1 + fmtExpBits f + fmtFracBits f

/-- The largest finite magnitude, as a bit pattern (R102). -/
def fmtMaxBits : FloatFmt → Nat
  | .f32 => 0x7F7FFFFF | .bf16 => 0x7F7F | .f16 => 0x7BFF | .e4m3 => 0x7E | .e5m2 => 0x7B | .e2m1 => 7

/-- The canonical quiet NaN; E2M1 has no NaN and takes +0 (R103, R105, R356). Of E4M3, which has one NaN of each sign and for which no
rule names a canonical one, it is the NaN of sign 0. (Log entry 80, DESIGN CHOICE, unsafe.) -/
def fmtCanon : FloatFmt → Nat
  | .f32 => 0x7FC00000 | .bf16 => 0x7FC0 | .f16 => 0x7E00 | .e4m3 => 0x7F | .e5m2 => 0x7E | .e2m1 => 0

/-- The infinity of a format that has one, as a magnitude. -/
def fmtInfBits (f : FloatFmt) : Nat := (2 ^ fmtExpBits f - 1) * 2 ^ fmtFracBits f

def signBit (f : FloatFmt) (neg : Bool) : Nat := if neg then 2 ^ (fmtWidth f - 1) else 0

/-- The exponent of the format's smallest subnormal. -/
def fmtEmin (f : FloatFmt) : Int := 1 - (fmtBias f : Int) - fmtFracBits f

/-! ### Values -/

/-- A floating-point datum: the number is (−1)^neg · m · 2^e. -/
inductive FVal where
  | nan (neg quiet : Bool) (frac : Nat)
  | inf (neg : Bool)
  | num (neg : Bool) (m : Nat) (e : Int)
  deriving DecidableEq, Repr

def fvalIsNan : FVal → Bool
  | .nan .. => true
  | _ => false

def fvalIsSnan : FVal → Bool
  | .nan _ q _ => !q
  | _ => false

def fvalIsZero : FVal → Bool
  | .num _ m _ => m == 0
  | _ => false

def fvalNeg : FVal → Bool
  | .nan n .. | .inf n | .num n .. => n

/-- The value of a bit pattern (R102); bits above the format's width are ignored. -/
def unpack (f : FloatFmt) (b : Nat) : FVal :=
  let fb := fmtFracBits f
  let frac := b % 2 ^ fb
  let ex := b / 2 ^ fb % 2 ^ fmtExpBits f
  let neg := b / 2 ^ (fmtWidth f - 1) % 2 == 1
  if fmtSpecials f && ex == 2 ^ fmtExpBits f - 1 then
    if frac == 0 then .inf neg else .nan neg (frac / 2 ^ (fb - 1) == 1) frac
  else if f == .e4m3 && ex == 15 && frac == 7 then .nan neg true frac
  else if ex == 0 then .num neg frac (fmtEmin f)
  else .num neg (frac + 2 ^ fb) ((ex : Int) - fmtBias f - fb)

/-- The input stage: the value, with subnormals as zeros of their sign under `FTZI` (R107). -/
def unpackIn (f : FloatFmt) (ftzi : Bool) (b : Nat) : FVal :=
  match unpack f b with
  | .num n m e => if ftzi && decide (m < 2 ^ fmtFracBits f) then .num n 0 e else .num n m e
  | v => v

/-- m · 2^e as a multiple of 2^q, rounded, and whether the rounding was inexact. -/
def roundAt (rm : Rm) (neg : Bool) (m : Nat) (e q : Int) : Nat × Bool :=
  if q ≤ e then (m * 2 ^ (e - q).toNat, false)
  else
    let s := 2 ^ (q - e).toNat
    let t := m / s
    let r := m % s
    if r == 0 then (t, false)
    else
      let up := match rm with
        | .rne => decide (s < 2 * r) || (2 * r == s && t % 2 == 1)
        | .rz => false
        | .ru => !neg
        | .rd => neg
      (if up then t + 1 else t, true)

/-- Whether a finite overflow becomes an infinity under the rounding mode (R103). -/
def overflowsToInf (rm : Rm) (neg : Bool) : Bool :=
  match rm with
  | .rne => true
  | .rz => false
  | .ru => !neg
  | .rd => neg

/-- One rounding of (−1)^neg · m · 2^e to a format (R103, R107): the bits and the flags. `sat` makes a finite overflow the
largest finite value whatever the mode (R112, R143). Tininess is detected after rounding. -/
def roundPack (f : FloatFmt) (rm : Rm) (ftzo sat : Bool) (neg : Bool) (m : Nat) (e : Int) : Nat × FFlags :=
  if m == 0 then (signBit f neg, flagNone)
  else
    let fb := fmtFracBits f
    let top : Int := (Nat.log2 m : Int) + e
    let free := roundAt rm neg m e (top - fb)
    let tiny := decide ((Nat.log2 free.1 : Int) + (top - fb) < 1 - (fmtBias f : Int))
    let q := max (top - fb) (fmtEmin f)
    let r := roundAt rm neg m e q
    if tiny && ftzo then (signBit f neg, flagUnf ||| flagInx)
    else
      -- the biased exponent minus one, so that a mantissa of fb + 1 bits carries into it
      let mag := (q - fmtEmin f).toNat * 2 ^ fb + r.1
      let fl := (if r.2 then flagInx else flagNone) ||| (if tiny && r.2 then flagUnf else flagNone)
      if fmtMaxBits f < mag then
        (signBit f neg + (if fmtSpecials f && !sat && overflowsToInf rm neg then fmtInfBits f else fmtMaxBits f),
          flagOvf ||| flagInx)
      else (signBit f neg + mag, fl)

/-- A NaN made quiet, in its own format. -/
def packNan (f : FloatFmt) (neg : Bool) (frac : Nat) : Nat :=
  let fb := fmtFracBits f
  if f == .e4m3 then signBit f neg + 0x7F
  else signBit f neg + fmtInfBits f + (if frac / 2 ^ (fb - 1) % 2 == 1 then frac else frac + 2 ^ (fb - 1))

/-- The result of an invalid operation. -/
def invalidResult (f : FloatFmt) : Nat × FFlags := (fmtCanon f, flagInv)

/-- The first NaN of a list of operands, made quiet, or the canonical NaN under `CNAN` (R107); the flags stand as given. -/
def nanResult (f : FloatFmt) (cnan : Bool) (fl : FFlags) : List FVal → Nat × FFlags
  | .nan n _ fr :: _ => (if cnan then fmtCanon f else packNan f n fr, fl)
  | _ :: vs => nanResult f cnan fl vs
  | [] => (fmtCanon f, fl)

/-! ### Exact sums and products -/

/-- A signed mantissa over a power of two. -/
structure Exact where
  m : Int
  e : Int
  deriving DecidableEq, Repr

def exactOf (neg : Bool) (m : Nat) (e : Int) : Exact := ⟨if neg then -(m : Int) else m, e⟩

def exactAdd (a b : Exact) : Exact :=
  let e := min a.e b.e
  ⟨a.m * 2 ^ (a.e - e).toNat + b.m * 2 ^ (b.e - e).toNat, e⟩

def exactMul (a b : Exact) : Exact := ⟨a.m * b.m, a.e + b.e⟩

def exactShift (a : Exact) (k : Int) : Exact := ⟨a.m, a.e + k⟩

def exactLt (a b : Exact) : Bool := decide ((exactAdd a ⟨-b.m, b.e⟩).m < 0)

def exactLe (a b : Exact) : Bool := !exactLt b a

/-- One rounding of an exact value; an exact zero takes the sign given. -/
def roundExact (f : FloatFmt) (rm : Rm) (ftzo sat zeroNeg : Bool) (x : Exact) : Nat × FFlags :=
  if x.m == 0 then (signBit f zeroNeg, flagNone)
  else roundPack f rm ftzo sat (decide (x.m < 0)) x.m.natAbs x.e

/-- The sign of an exact zero sum of two numbers: their common sign where both are zeros of one sign, else + and − under RD (R344). -/
def zeroSumNeg (rm : Rm) (an bn : Bool) (am bm : Nat) : Bool :=
  if am == 0 && bm == 0 && an == bn then an else rm == .rd

/-! ### The arithmetic of R344 and R356, in any format -/

/-- The sum of two data that are not NaN. -/
def addVals (f : FloatFmt) (md : FMode) (sat : Bool) (x y : FVal) : Nat × FFlags :=
  match x, y with
  | .inf a, .inf b => if a == b then (signBit f a + fmtInfBits f, flagNone) else invalidResult f
  | .inf a, _ => (signBit f a + fmtInfBits f, flagNone)
  | _, .inf b => (signBit f b + fmtInfBits f, flagNone)
  | .num an am ae, .num bn bm be =>
    roundExact f md.rm md.ftzo sat (zeroSumNeg md.rm an bn am bm) (exactAdd (exactOf an am ae) (exactOf bn bm be))
  | _, _ => invalidResult f

def negVal : FVal → FVal
  | .nan n q fr => .nan n q fr
  | .inf n => .inf (!n)
  | .num n m e => .num (!n) m e

/-- The invalid operation, or the NaN that the operands propagate (R107, R344): `none` where neither holds. -/
def nanRule (f : FloatFmt) (md : FMode) (invalid : Bool) (vs : List FVal) : Option (Nat × FFlags) :=
  if vs.any fvalIsSnan || invalid then some (invalidResult f)
  else if vs.any fvalIsNan then some (nanResult f md.cnan flagNone vs)
  else none

def opAdd (f : FloatFmt) (md : FMode) (a b : Nat) : Nat × FFlags :=
  let x := unpackIn f md.ftzi a
  let y := unpackIn f md.ftzi b
  (nanRule f md false [x, y]).getD (addVals f md false x y)

def opSub (f : FloatFmt) (md : FMode) (a b : Nat) : Nat × FFlags :=
  let x := unpackIn f md.ftzi a
  let y := unpackIn f md.ftzi b
  (nanRule f md false [x, y]).getD (addVals f md false x (negVal y))

/-- Whether a product is 0 × ∞. -/
def zeroTimesInf : FVal → FVal → Bool
  | .inf _, y => fvalIsZero y
  | x, .inf _ => fvalIsZero x
  | _, _ => false

def opMul (f : FloatFmt) (md : FMode) (a b : Nat) : Nat × FFlags :=
  let x := unpackIn f md.ftzi a
  let y := unpackIn f md.ftzi b
  (nanRule f md (zeroTimesInf x y) [x, y]).getD <|
    match x, y with
    | .num an am ae, .num bn bm be => roundPack f md.rm md.ftzo false (an != bn) (am * bm) (ae + be)
    | x, y => (signBit f (fvalNeg x != fvalNeg y) + fmtInfBits f, flagNone)

/-- x · y + z with one rounding. -/
def opFma (f : FloatFmt) (md : FMode) (a b c : Nat) : Nat × FFlags :=
  let x := unpackIn f md.ftzi a
  let y := unpackIn f md.ftzi b
  let z := unpackIn f md.ftzi c
  (nanRule f md (zeroTimesInf x y) [x, y, z]).getD <|
    match x, y with
    | .num an am ae, .num bn bm be => addVals f md false (.num (an != bn) (am * bm) (ae + be)) z
    | x, y => addVals f md false (.inf (fvalNeg x != fvalNeg y)) z

/-- The order of numbers and infinities, with −0 below +0. -/
def fvalLe (x y : FVal) : Bool :=
  match x, y with
  | .inf true, _ => true
  | _, .inf false => true
  | .inf false, _ => false
  | _, .inf true => false
  | .num an am ae, .num bn bm be =>
    if am == 0 && bm == 0 then an || !bn
    else exactLe (exactOf an am ae) (exactOf bn bm be)
  | _, _ => false

/-- The bits of a datum that is the operand itself after `FTZI`. -/
def keepBits (f : FloatFmt) (b : Nat) (v : FVal) : Nat :=
  if fvalIsZero v then signBit f (fvalNeg v) else b % 2 ^ fmtWidth f

/-- `FMIN` and `FMAX` (R344): the number form, or the form in which a NaN operand gives a NaN. -/
def opMinMax (f : FloatFmt) (md : FMode) (isMax nanForm : Bool) (a b : Nat) : Nat × FFlags :=
  let x := unpackIn f md.ftzi a
  let y := unpackIn f md.ftzi b
  let fl := if fvalIsSnan x || fvalIsSnan y then flagInv else flagNone
  if nanForm then
    (nanRule f md false [x, y]).getD (if fvalLe x y != isMax then keepBits f a x else keepBits f b y, flagNone)
  else if fvalIsNan x && fvalIsNan y then (fmtCanon f, fl)
  else if fvalIsNan x then (keepBits f b y, fl)
  else if fvalIsNan y then (keepBits f a x, fl)
  else (if fvalLe x y != isMax then keepBits f a x else keepBits f b y, flagNone)

/-- `FCMP` (R345). -/
def opFcmp (md : FMode) (c : FloatCmp) (a b : Nat) : Bool × FFlags :=
  let x := unpackIn .f32 md.ftzi a
  let y := unpackIn .f32 md.ftzi b
  let nan := fvalIsNan x || fvalIsNan y
  let snan := fvalIsSnan x || fvalIsSnan y
  let eq := (fvalLe x y && fvalLe y x) || (fvalIsZero x && fvalIsZero y)
  match c with
  | .eq => (!nan && eq, if snan then flagInv else flagNone)
  | .lt => (!nan && !eq && fvalLe x y, if nan then flagInv else flagNone)
  | .le => (!nan && (eq || fvalLe x y), if nan then flagInv else flagNone)
  | .un => (nan, if snan then flagInv else flagNone)

/-! ### Conversions (R103, R343) -/

/-- Conversion between formats. -/
def opConvert (md : FMode) (src dst : FloatFmt) (b : Nat) : Nat × FFlags :=
  match unpackIn src md.ftzi b with
  | .nan n q fr =>
    if dst == .e2m1 then (0, flagInv)
    else
      let fl := if q then flagNone else flagInv
      if md.cnan then (fmtCanon dst, fl)
      else
        let sb := fmtFracBits src
        let db := fmtFracBits dst
        let fr' := if sb ≤ db then fr * 2 ^ (db - sb) else fr / 2 ^ (sb - db)
        (packNan dst n fr', fl)
  | .inf n => if fmtSpecials dst then (signBit dst n + fmtInfBits dst, flagNone) else (signBit dst n + fmtMaxBits dst, flagInv)
  | .num n m e => roundPack dst md.rm md.ftzo false n m e

/-- `F2I` (R343). -/
def opF2i (md : FMode) (trunc uns : Bool) (b : Nat) : Word × FFlags :=
  let lo : Int := if uns then 0 else -2147483648
  let hi : Int := if uns then 4294967295 else 2147483647
  match unpackIn .f32 md.ftzi b with
  | .nan .. => (0, flagInv)
  | .inf n => (BitVec.ofInt 32 (if n then lo else hi), flagInv)
  | .num n m e =>
    let r := roundAt (if trunc then .rz else md.rm) n m e (min 0 (max e 0))
    let y : Int := if 0 ≤ e then (if n then -((m : Int) * 2 ^ e.toNat) else (m : Int) * 2 ^ e.toNat)
      else if n then -(r.1 : Int) else r.1
    if y < lo then (BitVec.ofInt 32 lo, flagInv)
    else if hi < y then (BitVec.ofInt 32 hi, flagInv)
    else (BitVec.ofInt 32 y, if e < 0 && r.2 then flagInx else flagNone)

/-- `I2F` (R343). -/
def opI2f (md : FMode) (uns : Bool) (w : Word) : Nat × FFlags :=
  let v : Int := if uns then w.toNat else w.toInt
  roundPack .f32 md.rm md.ftzo false (decide (v < 0)) v.natAbs 0

/-! ### Sign operations (R350) -/

def opSign (o : SignOp) (a b : Word) : Word :=
  let s := match o with
    | .copy => b.getLsbD 31
    | .neg => !b.getLsbD 31
    | .xor => a.getLsbD 31 != b.getLsbD 31
  BitVec.ofBool s ++ a.extractLsb' 0 31

/-! ### Transcendentals (R110, R111, R348)

The reference value is computed in fixed point far beyond the bounds of R110. The device's bits are the free value
`Config.transcendental`, taken where it lies within the bound of the reference; the rounded reference stands where it does not. -/

inductive TransFn where
  | rcp | rsq | exp2 | log2 | tanh | sig
  deriving DecidableEq, Repr

def transKey : TransFn → Nat
  | .rcp => 0 | .rsq => 1 | .exp2 => 2 | .log2 => 3 | .tanh => 4 | .sig => 5

/-- Fraction bits of the fixed point. -/
def fixBits : Nat := 192

def fixOne : Nat := 2 ^ 192

/-- ln 2 in fixed point. -/
def fixLn2 : Nat := 4350955369971217654477563090224794165364344896676135745069

/-- log2 e in fixed point. -/
def fixLog2e : Nat := 9055943544797870567083544809312461607371518589544137143473

def fixMul (a b : Nat) : Nat := a * b / fixOne

/-- The sum of y^n / n! from the term given on. -/
def fixExpSum (y : Nat) : Nat → Nat → Nat → Nat → Nat
  | 0, _, _, acc => acc
  | fuel + 1, n, term, acc => fixExpSum y fuel (n + 1) (fixMul term y / n) (acc + term)

/-- 2^f for a fraction f in fixed point. -/
def fixExp2 (f : Nat) : Nat := fixExpSum (fixMul f fixLn2) 60 1 fixOne 0

/-- e^−x for x in fixed point. -/
def fixExpNeg (x : Nat) : Nat :=
  let t := fixMul x fixLog2e
  let k := t / fixOne
  let f := t % fixOne
  if 256 < k then 0
  else if f == 0 then fixOne / 2 ^ k else fixExp2 (fixOne - f) / 2 ^ (k + 1)

/-- The leading bits of log2 of a value in [1, 2): one squaring a bit. -/
def fixLog2Frac : Nat → Nat → Nat → Nat
  | 0, _, acc => acc
  | fuel + 1, x, acc =>
    let y := fixMul x x
    if 2 * fixOne ≤ y then fixLog2Frac fuel (y / 2) (2 * acc + 1) else fixLog2Frac fuel y (2 * acc)

/-- The integer square root, bit by bit from 2^k down. -/
def isqrtFrom (n : Nat) : Nat → Nat → Nat
  | 0, r => r
  | k + 1, r => if (r + 2 ^ k) * (r + 2 ^ k) ≤ n then isqrtFrom n k (r + 2 ^ k) else isqrtFrom n k r

/-- A dyadic in fixed point. -/
def toFix (m : Nat) (e : Int) : Nat :=
  if 0 ≤ e + fixBits then m * 2 ^ (e + fixBits).toNat else m / 2 ^ (-(e + fixBits)).toNat

/-- The reference value of an inexact case: a sign and a dyadic magnitude, its last bit sticky. -/
def transRef (fn : TransFn) (neg : Bool) (m : Nat) (e : Int) : Exact :=
  match fn with
  | .rcp => exactOf neg (2 * (2 ^ 260 / m) + 1) (-e - 261)
  | .rsq =>
    -- make the exponent even, then 2^h / √m
    let m' := if e % 2 == 0 then m else 2 * m
    let e' := if e % 2 == 0 then e else e - 1
    exactOf false (2 * isqrtFrom (2 ^ 300 / m') 160 0 + 1) (-e' / 2 - 151)
  | .exp2 =>
    let x := toFix m e
    let k := x / fixOne
    let f := x % fixOne
    if neg then
      if f == 0 then exactOf false 1 (-k) else exactOf false (2 * fixExp2 (fixOne - f) + 1) (-(k : Int) - 1 - 193)
    else exactOf false (2 * fixExp2 f + 1) ((k : Int) - 193)
  | .log2 =>
    let t := Nat.log2 m
    let k : Int := (t : Int) + e
    let fr := fixLog2Frac 90 (m * 2 ^ (192 - t)) 0
    let v : Int := 2 * (k * 2 ^ 90 + fr) + 1
    ⟨v, -91⟩
  | .tanh =>
    -- (1 − t) / (1 + t) with t = e^(−2|x|)
    let x := toFix m e
    let t := fixExpNeg (2 * x)
    exactOf neg (2 * ((fixOne - t) * fixOne / (fixOne + t)) + 1) (-193)
  | .sig =>
    let t := fixExpNeg (toFix m e)
    if neg then exactOf false (2 * (t * fixOne / (fixOne + t)) + 1) (-193)
    else exactOf false (2 * (fixOne * fixOne / (fixOne + t)) + 1) (-193)

/-- The exact cases of R110 among the finite non-zero inputs. -/
def transExact (fn : TransFn) (neg : Bool) (m : Nat) (e : Int) : Option Exact :=
  let k : Int := (Nat.log2 m : Int) + e
  let pow2 := 2 ^ Nat.log2 m == m
  match fn with
  | .rcp => if pow2 then some (exactOf neg 1 (-k)) else none
  | .rsq => if pow2 && k % 2 == 0 then some (exactOf false 1 (-k / 2)) else none
  | .log2 => if pow2 then some ⟨k, 0⟩ else none
  | .exp2 =>
    if 0 ≤ e then some (exactOf false 1 (if neg then -((m : Int) * 2 ^ e.toNat) else (m : Int) * 2 ^ e.toNat))
    else if m % 2 ^ (-e).toNat == 0 then
      some (exactOf false 1 (if neg then -((m / 2 ^ (-e).toNat : Nat) : Int) else ((m / 2 ^ (-e).toNat : Nat) : Int)))
    else none
  | _ => none

/-- The bound of R110 on the distance from the true value. -/
def transBound (fn : TransFn) (m : Nat) (e : Int) (ref : Exact) : Exact :=
  let k : Int := (Nat.log2 m : Int) + e
  let ulp : Int := max ((Nat.log2 ref.m.natAbs : Int) + ref.e - 23) (-149)
  match fn with
  | .rcp | .rsq => ⟨1, ulp⟩
  | .exp2 => ⟨2, ulp⟩
  -- inside [0.5, 2]
  | .log2 => if k == -1 || k == 0 then ⟨1, -22⟩ else ⟨2, ulp⟩
  | .tanh => if k < -4 then ⟨1, -24⟩ else ⟨2, ulp⟩
  | .sig => ⟨1, -24⟩

/-- Whether a word is a finite number within a distance of a value. -/
def withinBound (ref bound : Exact) (w : Word) : Bool :=
  match unpack .f32 w.toNat with
  | .num n m e =>
    let d := exactAdd (exactOf n m e) ⟨-ref.m, ref.e⟩
    exactLe ⟨d.m.natAbs, d.e⟩ bound
  | _ => false

/-- The finite non-zero inputs, outside the invalid ones. -/
def transFinite (fn : TransFn) (md : FMode) (neg : Bool) (m : Nat) (e : Int) (a : Word) : Nat × FFlags :=
  if fn == .exp2 && !neg && decide (128 * fixOne ≤ toFix m e) then
    (fmtInfBits .f32, flagOvf ||| flagInx)
  else if fn == .exp2 && neg && decide (149 * fixOne < toFix m e) then (0, flagUnf ||| flagInx)
  else
    match transExact fn neg m e with
    | some x => roundExact .f32 .rne md.ftzo false false x
    | none =>
      let ref := transRef fn neg m e
      let r := Config.transcendental (transKey fn) a
      if withinBound ref (transBound fn m e ref) r then
        -- the device's bits: tiny ones follow R107
        let mag := r.toNat % 2 ^ 31
        let tiny := decide (mag < 2 ^ 23)
        if tiny && md.ftzo then (r.toNat - mag, flagUnf ||| flagInx)
        else (r.toNat, flagInx ||| if tiny then flagUnf else flagNone)
      else
        let q := roundExact .f32 .rne md.ftzo false false ref
        (q.1, q.2 ||| flagInx)

/-- A transcendental function of a word. A signalling NaN is made quiet, with `INV` (log entry 85, DESIGN CHOICE, unsafe). -/
def opTrans (fn : TransFn) (md : FMode) (a : Word) : Nat × FFlags :=
  match unpackIn .f32 md.ftzi a.toNat with
  | .nan n q fr => nanResult .f32 md.cnan (if q then flagNone else flagInv) [.nan n q fr]
  | .inf neg =>
    match fn, neg with
    | .rcp, n => (signBit .f32 n, flagInx)
    | .rsq, true | .log2, true => invalidResult .f32
    | .rsq, false => (0, flagInx)
    | .exp2, true | .sig, true => (0, flagInx)
    | .exp2, false | .log2, false => (fmtInfBits .f32, flagNone)
    | .tanh, n => (signBit .f32 n + 0x3F800000, flagInx)
    | .sig, false => (0x3F800000, flagInx)
  | .num neg m e =>
    if m == 0 then
      match fn with
      | .rcp | .rsq => (signBit .f32 neg + fmtInfBits .f32, flagDz)
      | .exp2 => (0x3F800000, flagNone)
      | .log2 => (signBit .f32 true + fmtInfBits .f32, flagDz)
      | .tanh => (signBit .f32 neg, flagNone)
      | .sig => (0x3F000000, flagNone)
    else if neg && (fn == .rsq || fn == .log2) then invalidResult .f32
    else transFinite fn md neg m e a

/-! ### The packed instructions (R356) -/

def halfFmt : HalfFmt → FloatFmt
  | .bf16 => .bf16
  | .f16 => .f16

/-- The two elements of a word, each computed on its own, with the union of their flags. -/
def opPacked (g : Nat → Nat → Nat → Nat × FFlags) (a b c : Word) : Word × FFlags :=
  let lo := g (a.toNat % 65536) (b.toNat % 65536) (c.toNat % 65536)
  let hi := g (a.toNat / 65536) (b.toNat / 65536) (c.toNat / 65536)
  (BitVec.ofNat 32 (lo.1 % 65536 + hi.1 * 65536), lo.2 ||| hi.2)

end Sys2Proof.Machine
end

