-- ==== Sys2Proof/WellFormed.lean ====
section
/-!
DEFINITION. Which terms of `Instr` are instructions of the device: the reserved values and combinations that the syntax
can still write are refused here (R87, R90, R212, R364, R371, R373, R381), and the numbers an event carries are in range.
-/
namespace Sys2Proof

/-- AOP values that ATOM64 accepts (R90). -/
def AtomOp.wideOk : AtomOp → Bool
  | .fadd | .fmin | .fmax => false
  | _ => true

/-- AOP values that RED accepts (R90, R381). -/
def AtomOp.redOk : AtomOp → Bool
  | .exch | .cas => false
  | _ => true

/-- The floating-point reductions, the only ones that take the control bits `ftz`, `cnan` and `sat` (R381). -/
def AtomOp.isFloat : AtomOp → Bool
  | .fadd | .fmin | .fmax => true
  | _ => false

/-- The pairs of element types of R212. -/
def MType.pairOk : MType → MType → Bool
  | .e4m3, .e4m3 | .e4m3, .e5m2 | .e5m2, .e4m3 | .e5m2, .e5m2 => true
  | .i8, .i8 | .bf16, .bf16 | .e2m1, .e2m1 => true
  | _, _ => false

/-- The hint combinations of LD and ST that are not reserved (R364). -/
def hintsOk (ep : BitVec 2) (lu : Bool) (spc : Space) : Bool :=
  (spc == .flat || (ep == 0 && !lu)) && !(ep == 3 && lu)

namespace Instr

/-- The code words of R94; the other constructors are events. -/
def isCode : Instr → Bool
  | pick .. | groupSwitch .. | localityInterval .. | tokenIdleRelease .. | tokenHoldRelease .. | loadReturn ..
  | cloakFillComplete .. | trapEntry .. | storeBufferDrain .. | l2WriteBack .. | combineAgeFlush .. | refresh ..
  | forcedRefresh .. | patrolScrub .. | refwaitRead .. | thrlossRead .. | linePresent .. | engineQueueStart ..
  | reservationEnter .. | engineGrant .. | engineOpComplete .. | tileAllocate .. | copyProgress .. | fwdArrival ..
  | messageArrival .. | sendComplete .. | tailWriteSeen .. | tailPoll .. | dataRecord .. | watermarkRecord ..
  | resetRecord .. | endRecord .. | reservedKindRecord .. | idleStash .. | delivery .. | graft .. | wemitSlotResume ..
  | directoryWriteback .. | qtailWriteSeen .. | qtailPoll .. | launchStart .. | gangPlace .. | launchComplete ..
  | slotRowEnd .. | groupHalt .. | grace1Expiry .. | grace2Expiry .. | edgeCommit .. | idleDonation ..
  | preemptTimeout .. | wingEnable .. | wingDisable .. | wingPreempt .. | slotRowWrite .. | contextRegWrite ..
  | wingBitmapWrite .. | grace1Write .. | grace2Write .. | xinvPage .. | xinvTenant .. | xinvWing .. | xinvComplete ..
  | fqReplay .. | fqFail .. | walkComplete .. | faultRecordWrite .. | svcRecordWrite .. | svcReply .. | svcRefused ..
  | notifyClear .. | evsWrite .. | evcWrite .. | stropArm .. | stropPause .. | stropResume .. | attestReport ..
  | attestCert .. | attestDone .. | registerWrite .. | throttleStep .. | overtempStop | uncorrectableError ..
  | coldReset .. | warmReset .. | vfFlr .. | joeshLinkTrain .. | joeshFlitError .. | joeshIncomingAccess ..
  | hostWrite .. | hostRead .. | peerHomeAcknowledgement .. => false
  | _ => true

/-- A code word the device executes: no reserved value in any field. -/
def codeOk : Instr → Bool
  | wbase n => n.toNat % 8 == 0
  | mjoin k | mleave k | mwait k | mreadEnr k _ | mreadArr k _ => k.toNat < Config.numMarkers
  | ld _ ep lu m | st _ ep lu m => hintsOk ep lu m.spc
  | atom64 op .. => op.wideOk
  | red op _ sat cnan ftz _ _ => op.redOk && (op.isFloat || !(sat || cnan || ftz))
  | mma m => m.ta.pairOk m.tb && (m.scaled || !m.pair)
  | scan s _ r => !s || (r.sb == 0 && !r.lrb)
  | _ => true

def coreOk (c : Nat) : Bool := c < Config.numCores
def slotOk (k : Nat) : Bool := k ≤ Config.apSlot
def clusterOk (c : Nat) : Bool := c < Config.numClusters
def wingOk (w : Nat) : Bool := w < Config.numWings
def tenantOk (t : Nat) : Bool := t < Config.numTenants
def streamOk (st : Nat) : Bool := st < 16384
def portOk (p : Nat) : Bool := p < Config.numPorts

/-- An event whose numbers name units of the device (R10, R242, R244, R182, R321). -/
def eventOk : Instr → Bool
  | pick c k | tokenIdleRelease c k | tokenHoldRelease c k | cloakFillComplete c k | wemitSlotResume c k | groupHalt c k
  | svcRecordWrite c k | svcReply c k | svcRefused c k => coreOk c && slotOk k
  | groupSwitch c _ | localityInterval c | loadReturn c _ | trapEntry c | storeBufferDrain c _ | combineAgeFlush c
  | linePresent c _ _ | fwdArrival c | messageArrival c _ | sendComplete c _ | walkComplete c _ => coreOk c
  | l2WriteBack c _ | engineQueueStart c _ | reservationEnter c | engineGrant c _ | engineOpComplete c _ | tileAllocate c
  | copyProgress c _ _ => clusterOk c
  | refresh b _ => b / 256 < Config.numPseudoChannels
  | forcedRefresh p _ => p < Config.numPseudoChannels
  | refwaitRead h => h < Config.numChannels
  | tailWriteSeen w t s | tailPoll w t s | dataRecord w t s | watermarkRecord w t s | resetRecord w t s | endRecord w t s
  | reservedKindRecord w t s | idleStash w t s _ | delivery w t s _ | graft w t s _ | directoryWriteback w t s =>
    wingOk w && tenantOk t && streamOk s
  | qtailWriteSeen w t q | qtailPoll w t q | launchStart w t q => wingOk w && tenantOk t && q < Config.numQueues
  | thrlossRead w t | launchComplete w t _ | contextRegWrite w t _ | xinvPage w t | xinvTenant w t | xinvWing w t
  | stropArm w t _ | stropPause w t _ | stropResume w t _ => wingOk w && tenantOk t
  | evsWrite w t k _ | evcWrite w t k _ => wingOk w && tenantOk t && k < 8
  | gangPlace w | slotRowEnd w | grace1Expiry w | grace2Expiry w | edgeCommit w | idleDonation w | preemptTimeout w
  | wingEnable w | wingDisable w | wingPreempt w | wingBitmapWrite w _ _ | grace1Write w _ | grace2Write w _
  | xinvComplete w | fqReplay w | fqFail w | faultRecordWrite w | notifyClear w _ | vfFlr w => wingOk w
  | slotRowWrite w r _ => wingOk w && r < 32
  | attestReport v | attestCert v | attestDone v _ => v ≤ Config.numWings
  | joeshLinkTrain p _ | joeshFlitError p | joeshIncomingAccess p _ | peerHomeAcknowledgement p => portOk p
  | _ => true

/-- The instructions of the device. -/
def wf (i : Instr) : Bool := if i.isCode then i.codeOk else i.eventOk

end Instr
end Sys2Proof
end

