-- ==== Sys2Proof/Decode.lean ====
section
/-!
DEFINITION. The decoder: bytes to an instruction, total, rejecting by name (R73, R94, R95), and the encoder beside it,
written from the same tables (R86 to R93 and the reference entries).
-/
namespace Sys2Proof

/-- Bits [lo + len - 1 : lo] of a code word (R1). -/
def fld (w lo len : Nat) : Nat := w / 2 ^ lo % 2 ^ len

/-- Bit lo of a code word as a truth value. -/
def bitAt (w lo : Nat) : Bool := fld w lo 1 == 1

/-- A register field. -/
def regAt (w lo : Nat) : Reg := BitVec.ofNat 7 (fld w lo 7)

/-- Why bytes are no instruction (R95). -/
inductive Reject where
  | shortInput
  | reservedOpcode
  | reservedValue
  | reservedField
  | literalOutside
  deriving DecidableEq, Repr

abbrev Decoded := Except Reject Instr

/-- The instruction, when the reserved fields are zero (R4, R95). -/
def whenZero (fields : Nat) (i : Instr) : Decoded := if fields = 0 then .ok i else .error .reservedField

/-- The instruction, when its values are not reserved (R95). -/
def whenOk (ok : Bool) (i : Instr) : Decoded := if ok then .ok i else .error .reservedValue

/-- The instruction a value selects, or a reserved value (R95). -/
def select {α : Type} (o : Option α) (f : α → Decoded) : Decoded :=
  match o with
  | some x => f x
  | none => .error .reservedValue

/-! ### Codes of the variant fields -/

def SatMode.ofCode : Nat → Option SatMode
  | 0 => some .wrap | 1 => some .sat | 2 => some .satu | _ => none
def SatMode.code : SatMode → Nat
  | .wrap => 0 | .sat => 1 | .satu => 2

def MulMode.ofCode : Nat → Option MulMode
  | 0 => some .lo | 1 => some .hi | 2 => some .hiu | _ => none
def MulMode.code : MulMode → Nat
  | .lo => 0 | .hi => 1 | .hiu => 2

def IntCmp.ofCode : Nat → Option IntCmp
  | 0 => some .eq | 1 => some .ne | 2 => some .lt | 3 => some .le | _ => none
def IntCmp.code : IntCmp → Nat
  | .eq => 0 | .ne => 1 | .lt => 2 | .le => 3

def FloatCmp.ofCode : Nat → Option FloatCmp
  | 0 => some .eq | 1 => some .lt | 2 => some .le | 3 => some .un | _ => none
def FloatCmp.code : FloatCmp → Nat
  | .eq => 0 | .lt => 1 | .le => 2 | .un => 3

def SignOp.ofCode : Nat → Option SignOp
  | 0 => some .copy | 1 => some .neg | 2 => some .xor | _ => none
def SignOp.code : SignOp → Nat
  | .copy => 0 | .neg => 1 | .xor => 2

def FloatFmt.ofCode : Nat → Option FloatFmt
  | 0 => some .f32 | 1 => some .bf16 | 2 => some .f16 | 3 => some .e4m3 | 4 => some .e5m2 | 5 => some .e2m1 | _ => none
def FloatFmt.code : FloatFmt → Nat
  | .f32 => 0 | .bf16 => 1 | .f16 => 2 | .e4m3 => 3 | .e5m2 => 4 | .e2m1 => 5

def HalfFmt.ofCode : Nat → Option HalfFmt
  | 0 => some .bf16 | 1 => some .f16 | _ => none
def HalfFmt.code : HalfFmt → Nat
  | .bf16 => 0 | .f16 => 1

def VoteOp.ofCode : Nat → Option VoteOp
  | 0 => some .any | 1 => some .all | 2 => some .ballot | 3 => some .eq | _ => none
def VoteOp.code : VoteOp → Nat
  | .any => 0 | .all => 1 | .ballot => 2 | .eq => 3

def ShflOp.ofCode : Nat → Option ShflOp
  | 0 => some .idx | 1 => some .up | 2 => some .down | 3 => some .xor | _ => none
def ShflOp.code : ShflOp → Nat
  | .idx => 0 | .up => 1 | .down => 2 | .xor => 3

/-- MOD and the two low bits of SB (R379). -/
def QuadPat.ofCode (md k : Nat) : Option QuadPat :=
  match md with
  | 0 => if k = 0 then some .x1 else none
  | 1 => if k = 0 then some .x2 else none
  | 2 => if k = 0 then some .x3 else none
  | 3 => some (.bc (BitVec.ofNat 2 k))
  | _ => none
def QuadPat.code : QuadPat → Nat
  | .x1 => 0 | .x2 => 1 | .x3 => 2 | .bc _ => 3
def QuadPat.index : QuadPat → Nat
  | .bc k => k.toNat
  | _ => 0

def LaneOp.ofCode : Nat → Option LaneOp
  | 0 => some .iadd | 1 => some .fadd | 2 => some .imax | 3 => some .fmax | _ => none
def LaneOp.code : LaneOp → Nat
  | .iadd => 0 | .fadd => 1 | .imax => 2 | .fmax => 3

def AtomOp.ofCode : Nat → Option AtomOp
  | 0 => some .add | 1 => some .min | 2 => some .max | 3 => some .minu | 4 => some .maxu | 5 => some .and | 6 => some .or
  | 7 => some .xor | 8 => some .exch | 9 => some .cas | 10 => some .fadd | 11 => some .fmin | 12 => some .fmax | _ => none
def AtomOp.code : AtomOp → Nat
  | .add => 0 | .min => 1 | .max => 2 | .minu => 3 | .maxu => 4 | .and => 5 | .or => 6 | .xor => 7 | .exch => 8 | .cas => 9
  | .fadd => 10 | .fmin => 11 | .fmax => 12

def Width.ofCode : Nat → Option Width
  | 0 => some .b1 | 1 => some .b2 | 2 => some .b4 | 3 => some .b8 | 4 => some .b16 | _ => none
def Width.code : Width → Nat
  | .b1 => 0 | .b2 => 1 | .b4 => 2 | .b8 => 3 | .b16 => 4

/-- W of LDA and STL: 2 or 3 (R368, R402). -/
def wideOfCode : Nat → Option Bool
  | 2 => some false | 3 => some true | _ => none
def wideCode (b : Bool) : Nat := if b then 3 else 2

def Space.ofCode : Nat → Option Space
  | 0 => some .flat | 1 => some .loc | 2 => some .cluster | 3 => some .host | _ => none
def Space.code : Space → Nat
  | .flat => 0 | .loc => 1 | .cluster => 2 | .host => 3

def Scope.ofCode : Nat → Option Scope
  | 0 => some .group | 1 => some .core | 2 => some .cluster | 3 => some .device | 4 => some .system | _ => none
def Scope.code : Scope → Nat
  | .group => 0 | .core => 1 | .cluster => 2 | .device => 3 | .system => 4

/-- The special-register numbers (R96). -/
def SReg.ofCode : Nat → Option SReg
  | 0x00 => some .laneid | 0x01 => some .groupid | 0x02 => some .blockid | 0x03 => some .gangid | 0x04 => some .launchid
  | 0x05 => some .coreid | 0x06 => some .clusterid | 0x07 => some .wingid | 0x08 => some .tenantid | 0x09 => some .actlo
  | 0x0A => some .acthi | 0x0B => some .winid | 0x0C => some .streamid | 0x0D => some .fmode | 0x0E => some .fstat
  | 0x0F => some .wb | 0x10 => some .rgncnt | 0x11 => some .corecyc | 0x12 => some .capatom | 0x13 => some .capunits
  | 0x40 => some .tcause | 0x41 => some .tpc | 0x42 => some .trgnpc | 0x43 => some .trgncnt | 0x44 => some .taddr
  | 0x45 => some .tmasklo | 0x46 => some .tmaskhi | 0x47 => some .tshapes | 0x48 => some .tpchi | 0x49 => some .trgnpchi
  | 0x4A => some .taddrhi | 0x4B => some .tword | _ => none
def SReg.code : SReg → Nat
  | .laneid => 0x00 | .groupid => 0x01 | .blockid => 0x02 | .gangid => 0x03 | .launchid => 0x04 | .coreid => 0x05
  | .clusterid => 0x06 | .wingid => 0x07 | .tenantid => 0x08 | .actlo => 0x09 | .acthi => 0x0A | .winid => 0x0B
  | .streamid => 0x0C | .fmode => 0x0D | .fstat => 0x0E | .wb => 0x0F | .rgncnt => 0x10 | .corecyc => 0x11
  | .capatom => 0x12 | .capunits => 0x13 | .tcause => 0x40 | .tpc => 0x41 | .trgnpc => 0x42 | .trgncnt => 0x43
  | .taddr => 0x44 | .tmasklo => 0x45 | .tmaskhi => 0x46 | .tshapes => 0x47 | .tpchi => 0x48 | .trgnpchi => 0x49
  | .taddrhi => 0x4A | .tword => 0x4B

def WReg.ofCode : Nat → Option WReg
  | 0x0D => some .fmode | 0x0E => some .fstat | _ => none
def WReg.code : WReg → Nat
  | .fmode => 0x0D | .fstat => 0x0E

def MType.ofCode : Nat → Option MType
  | 0 => some .e4m3 | 1 => some .e5m2 | 2 => some .i8 | 3 => some .bf16 | 4 => some .e2m1 | _ => none
def MType.code : MType → Nat
  | .e4m3 => 0 | .e5m2 => 1 | .i8 => 2 | .bf16 => 3 | .e2m1 => 4

def ElemW.ofCode : Nat → Option ElemW
  | 0 => some .w4 | 1 => some .w8 | 2 => some .w16 | _ => none
def ElemW.code : ElemW → Nat
  | .w4 => 0 | .w8 => 1 | .w16 => 2

def TstFmt.ofCode : Nat → Option TstFmt
  | 0 => some .f32 | 1 => some .bf16 | 2 => some .f16 | 3 => some .e4m3 | 4 => some .e5m2 | _ => none
def TstFmt.code : TstFmt → Nat
  | .f32 => 0 | .bf16 => 1 | .f16 => 2 | .e4m3 => 3 | .e5m2 => 4

/-- D[6], D[5:3] and SB of GATE (R226, R352). -/
def GateProg.ofFields (six prog : Nat) (sb : Reg) : Option GateProg :=
  if six = 1 then (if prog = 0 then some (.lstm sb) else none)
  else if sb ≠ 0 then none
  else match prog with
    | 1 => some .gru | 2 => some .ssm | 3 => some .swiglu | 4 => some .relu | 5 => some .tanh | 6 => some .sig | 7 => some .add
    | _ => none
def GateProg.code : GateProg → Nat
  | .lstm _ => 0 | .gru => 1 | .ssm => 2 | .swiglu => 3 | .relu => 4 | .tanh => 5 | .sig => 6 | .add => 7
def GateProg.six : GateProg → Nat
  | .lstm _ => 1
  | _ => 0
def GateProg.outField : GateProg → Reg
  | .lstm o => o
  | _ => 0

/-! ### Reading the formats -/

/-- Format R, two sources (R86). -/
def r3At (w : Nat) : R3 := ⟨bitAt w 22, bitAt w 21, regAt w 14, regAt w 7, regAt w 0⟩
/-- Format R, one source; the caller checks SB and LRB (R86). -/
def r2At (w : Nat) : R2 := ⟨bitAt w 21, regAt w 7, regAt w 0⟩
/-- Format I (R87). -/
def i2At (w : Nat) : R2 := ⟨bitAt w 24, regAt w 7, regAt w 0⟩

/-- Format R with every MOD value reserved but 0. -/
def plainR3 (w : Nat) (f : R3 → Instr) : Decoded := whenOk (fld w 23 2 == 0) (f (r3At w))
/-- Format R with one source, SB and LRB reserved, every MOD value reserved but 0. -/
def plainR2 (w : Nat) (f : R2 → Instr) : Decoded :=
  if fld w 23 2 = 0 then whenZero (fld w 14 7 + fld w 22 1) (f (r2At w)) else .error .reservedValue
/-- Format R with one source, SB and LRB reserved; MOD selects. -/
def modR2 (w : Nat) (f : R2 → Decoded) : Decoded :=
  if fld w 14 7 + fld w 22 1 = 0 then f (r2At w) else .error .reservedField

/-- The operands of a format M word (R89). -/
def mAt (w : Nat) (f : MArgs → Decoded) : Decoded :=
  select (Space.ofCode (fld w 14 4)) fun sp => f ⟨bitAt w 18, sp, regAt w 7, regAt w 0⟩

/-- A marker number in the low bits of a field whose three high bits are zero (R85, R371). -/
def markerAt (w lo : Nat) (f : BitVec 4 → Decoded) : Decoded :=
  if fld w (lo + 4) 3 ≠ 0 then .error .reservedField
  else if fld w lo 4 < 12 then f (BitVec.ofNat 4 (fld w lo 4)) else .error .reservedValue

/-- Format E with FN zero (R93). -/
def fnZero (w : Nat) (k : Decoded) : Decoded := if fld w 21 4 = 0 then k else .error .reservedField

/-- The operation group of opcode 0x79 (R94, R207 to R210). -/
def decodeWindow (w : Nat) : Decoded :=
  match fld w 21 4 with
  | 0 => whenZero (fld w 0 21) .wsusp
  | 1 => whenZero (fld w 0 21) .wclose
  | 2 => whenZero (fld w 14 7 + fld w 0 7) (.wemit (regAt w 7))
  | 3 => if fld w 14 7 ≠ 0 then .error .reservedField
         else whenOk (fld w 7 7 < 4) (.wpane (BitVec.ofNat 2 (fld w 7 2)) (regAt w 0))
  | 4 => if fld w 14 7 ≠ 0 then .error .reservedField
         else whenOk (fld w 7 7 < 8) (.winfo (BitVec.ofNat 3 (fld w 7 3)) (regAt w 0))
  | 5 => match fld w 0 7 with
    | 0 => whenZero (fld w 14 7) (.strctlArm (regAt w 7))
    | 1 => whenZero (fld w 14 7) (.strctlPause (regAt w 7))
    | 2 => whenZero (fld w 14 7) (.strctlResume (regAt w 7))
    | 3 => .ok (.strctlSetcarry (regAt w 14) (regAt w 7))
    | 4 => whenZero (fld w 14 7) (.strctlClrreset (regAt w 7))
    | _ => .error .reservedValue
  | _ => .error .reservedValue

/-- The operation group of opcode 0x7A (R94, R234 to R236). -/
def decodeMessage (w : Nat) : Decoded :=
  match fld w 21 4 with
  | 0 => .ok (.send (regAt w 14) (regAt w 7) (regAt w 0))
  | 1 => whenZero (fld w 14 7) (.rpost (regAt w 7) (regAt w 0))
  | 2 => whenZero (fld w 14 7 + fld w 0 7) (.fwd (regAt w 7))
  | 3 => whenZero (fld w 7 14) (.frecv (regAt w 0))
  | _ => .error .reservedValue

/-- MMA (R214, R373). -/
def decodeMma (w : Nat) : Decoded :=
  if fld w 14 1 ≠ 0 then .error .reservedField
  else select (MType.ofCode (fld w 8 3)) fun ta =>
    select (MType.ofCode (fld w 15 3)) fun tb =>
      let m : MmaArgs :=
        { afrag := BitVec.ofNat 3 (fld w 11 3), ta := ta, scaled := bitAt w 7, bfrag := BitVec.ofNat 3 (fld w 18 3), tb := tb,
          guest := if fld w 6 1 = 1 then some (BitVec.ofNat 2 (fld w 3 2)) else none,
          pair := bitAt w 5, tile := BitVec.ofNat 3 (fld w 0 3) }
      if fld w 6 1 = 0 ∧ fld w 3 2 ≠ 0 then .error .reservedField
      else whenOk (ta.pairOk tb && (m.scaled || !m.pair)) (.mma m)

/-- TLD (R225, R405). -/
def decodeTld (w : Nat) : Decoded :=
  if fld w 0 2 ≠ 0 then .error .reservedField
  else if fld w 6 1 = 0 then whenZero (fld w 2 4) (.tld none (regAt w 14) (regAt w 7))
  else select (ElemW.ofCode (fld w 2 2)) fun e =>
    .ok (.tld (some (BitVec.ofNat 2 (fld w 4 2), e)) (regAt w 14) (regAt w 7))

/-- RFT (R285). -/
def decodeRft (w : Nat) : Decoded :=
  if fld w 14 7 + fld w 4 3 ≠ 0 then .error .reservedField
  else match fld w 0 2 with
    | 0 => whenZero (fld w 7 7) (.rftRestart (bitAt w 3) (bitAt w 2))
    | 1 => .ok (.rftGoto (bitAt w 3) (bitAt w 2) (regAt w 7))
    | 2 => whenZero (fld w 7 7 + fld w 2 2) .rftEnd
    | _ => .error .reservedValue

/-- The instruction of one code word; `lit` is the word after it, where there is one (R88). -/
def decodeNat (w : Nat) (lit : Option Word) : Decoded :=
  match fld w 25 7 with
  | 0x01 => whenZero (fld w 17 8) (.bra (BitVec.ofNat 17 (fld w 0 17)))
  | 0x02 => .ok (.brc (bitAt w 24) (regAt w 17) (BitVec.ofNat 17 (fld w 0 17)))
  | 0x03 => .ok (.brz (bitAt w 24) (regAt w 17) (BitVec.ofNat 17 (fld w 0 17)))
  | 0x04 => .ok (.call (BitVec.ofNat 5 (fld w 20 5)) (BitVec.ofNat 20 (fld w 0 20)))
  | 0x05 => whenZero (fld w 0 25) .ret
  | 0x06 => whenZero (fld w 14 11 + fld w 0 7) (.jmpr (regAt w 7))
  | 0x07 => whenZero (fld w 0 25) .exit
  | 0x08 => whenZero (fld w 0 25) .yield
  | 0x09 => if fld w 24 1 + fld w 0 14 ≠ 0 then .error .reservedField
            else whenOk (fld w 14 10 % 8 == 0) (.wbase (BitVec.ofNat 10 (fld w 14 10)))
  | 0x0A => if fld w 7 18 ≠ 0 then .error .reservedField else markerAt w 0 fun k => .ok (.mjoin k)
  | 0x0B => if fld w 7 18 ≠ 0 then .error .reservedField else markerAt w 0 fun k => .ok (.mleave k)
  | 0x0C => if fld w 7 18 ≠ 0 then .error .reservedField else markerAt w 0 fun k => .ok (.mwait k)
  | 0x0D => if fld w 15 10 ≠ 0 then .error .reservedField
            else markerAt w 7 fun k => .ok (if fld w 14 1 = 0 then .mreadEnr k (regAt w 0) else .mreadArr k (regAt w 0))
  | 0x0E => modR2 w fun r => select (VoteOp.ofCode (fld w 23 2)) fun o => .ok (.vote o r)
  | 0x0F => whenZero (fld w 0 25) .bar
  | 0x10 => select (SatMode.ofCode (fld w 23 2)) fun m => .ok (.iadd m (r3At w))
  | 0x11 => select (SatMode.ofCode (fld w 23 2)) fun m => .ok (.isub m (r3At w))
  | 0x12 => select (MulMode.ofCode (fld w 23 2)) fun m => .ok (.imul m (r3At w))
  | 0x13 => plainR3 w .imad
  | 0x14 => whenOk (fld w 24 1 == 0) (.imin (bitAt w 23) (r3At w))
  | 0x15 => whenOk (fld w 24 1 == 0) (.imax (bitAt w 23) (r3At w))
  | 0x16 => plainR3 w .iand
  | 0x17 => plainR3 w .ior
  | 0x18 => plainR3 w .ixor
  | 0x19 => plainR3 w .ishl
  | 0x1A => whenOk (fld w 24 1 == 0) (.ishr (bitAt w 23) (r3At w))
  | 0x1B => plainR2 w .popc
  | 0x1C => plainR2 w .clz
  | 0x1D => whenOk (fld w 24 1 == 0) (.bfe (bitAt w 23) (r3At w))
  | 0x1E => plainR3 w .bfi
  | 0x1F => select (IntCmp.ofCode (fld w 23 2)) fun c => .ok (.icmp c (r3At w))
  | 0x20 => select (IntCmp.ofCode (fld w 23 2)) fun c => .ok (.icmpu c (r3At w))
  | 0x21 => plainR3 w .sel
  | 0x22 => .ok (.iaddi (BitVec.ofNat 10 (fld w 14 10)) (i2At w))
  | 0x23 => .ok (.iandi (BitVec.ofNat 10 (fld w 14 10)) (i2At w))
  | 0x24 => whenOk (fld w 19 5 == 0) (.ishli (BitVec.ofNat 5 (fld w 14 5)) (i2At w))
  | 0x25 => whenOk (fld w 19 5 == 0) (.ishri (BitVec.ofNat 5 (fld w 14 5)) (i2At w))
  | 0x26 => whenOk (fld w 19 5 == 0) (.isari (BitVec.ofNat 5 (fld w 14 5)) (i2At w))
  | 0x30 => plainR3 w .fadd
  | 0x31 => plainR3 w .fsub
  | 0x32 => plainR3 w .fmul
  | 0x33 => plainR3 w .ffma
  | 0x34 => whenOk (fld w 24 1 == 0) (.fmin (bitAt w 23) (r3At w))
  | 0x35 => whenOk (fld w 24 1 == 0) (.fmax (bitAt w 23) (r3At w))
  | 0x36 => select (FloatCmp.ofCode (fld w 23 2)) fun c => .ok (.fcmp c (r3At w))
  | 0x37 => select (SignOp.ofCode (fld w 23 2)) fun o => .ok (.fsgn o (r3At w))
  | 0x38 => plainR2 w .frcp
  | 0x39 => plainR2 w .frsq
  | 0x3A => plainR2 w .fexp2
  | 0x3B => plainR2 w .flog2
  | 0x3C => plainR2 w .ftanh
  | 0x3D => plainR2 w .fsig
  | 0x3E => if fld w 23 2 ≠ 0 then .error .reservedValue
            else if fld w 22 1 + fld w 20 1 ≠ 0 then .error .reservedField
            else select (FloatFmt.ofCode (fld w 17 3)) fun s =>
              select (FloatFmt.ofCode (fld w 14 3)) fun d => .ok (.fcvt s d (r2At w))
  | 0x3F => if fld w 24 1 ≠ 0 then .error .reservedValue else modR2 w fun r => .ok (.i2f (bitAt w 23) r)
  | 0x40 => modR2 w fun r => .ok (.f2i (bitAt w 24) (bitAt w 23) r)
  | 0x41 => select (HalfFmt.ofCode (fld w 23 2)) fun f => .ok (.hadd2 f (r3At w))
  | 0x42 => select (HalfFmt.ofCode (fld w 23 2)) fun f => .ok (.hmul2 f (r3At w))
  | 0x43 => select (HalfFmt.ofCode (fld w 23 2)) fun f => .ok (.hfma2 f (r3At w))
  | 0x50 => plainR2 w .mov
  | 0x51 => whenZero (fld w 24 1 + fld w 7 7) (.movi (BitVec.ofNat 10 (fld w 14 10)) (regAt w 0))
  | 0x52 => if fld w 7 18 ≠ 0 then .error .reservedField
            else match lit with
              | some l => .ok (.movl l (regAt w 0))
              | none => .error .literalOutside
  | 0x53 => select (ShflOp.ofCode (fld w 23 2)) fun o => .ok (.shfl o (r3At w))
  | 0x54 => if fld w 16 5 + fld w 22 1 ≠ 0 then .error .reservedField
            else select (QuadPat.ofCode (fld w 23 2) (fld w 14 2)) fun p => .ok (.qswz p (r2At w))
  | 0x55 => match fld w 23 2 with
    | 0 => .ok (.rdlane (r3At w))
    | 1 => whenZero (fld w 20 1 + fld w 22 1) (.rdlaneImm (BitVec.ofNat 6 (fld w 14 6)) (r2At w))
    | _ => .error .reservedValue
  | 0x56 => modR2 w fun r => select (LaneOp.ofCode (fld w 23 2)) fun o => .ok (.scanl o r)
  | 0x57 => modR2 w fun r => select (LaneOp.ofCode (fld w 23 2)) fun o => .ok (.redl o r)
  | 0x58 => plainR2 w .shape
  | 0x59 => whenZero (fld w 7 18) (.expand (regAt w 0))
  | 0x5A => fnZero w (if fld w 14 7 ≠ 0 then .error .reservedField
            else select (SReg.ofCode (fld w 7 7)) fun x => .ok (.sread x (regAt w 0)))
  | 0x5B => fnZero w (if fld w 14 7 ≠ 0 then .error .reservedField
            else select (WReg.ofCode (fld w 0 7)) fun x => .ok (.swrite x (regAt w 7)))
  | 0x60 => select (Width.ofCode (fld w 22 3)) fun wd => mAt w fun m =>
      whenOk (hintsOk (BitVec.ofNat 2 (fld w 20 2)) (bitAt w 19) m.spc)
        (.ld wd (BitVec.ofNat 2 (fld w 20 2)) (bitAt w 19) m)
  | 0x61 => select (Width.ofCode (fld w 22 3)) fun wd => mAt w fun m =>
      whenOk (hintsOk (BitVec.ofNat 2 (fld w 20 2)) (bitAt w 19) m.spc)
        (.st wd (BitVec.ofNat 2 (fld w 20 2)) (bitAt w 19) m)
  | 0x62 => select (wideOfCode (fld w 22 3)) fun wd => select (Scope.ofCode (fld w 19 3)) fun sc =>
      mAt w fun m => .ok (.lda wd sc m)
  | 0x63 => select (wideOfCode (fld w 22 3)) fun wd => select (Scope.ofCode (fld w 19 3)) fun sc =>
      mAt w fun m => .ok (.stl wd sc m)
  | 0x64 => select (AtomOp.ofCode (fld w 21 4)) fun o => .ok (.atom o (regAt w 14) (regAt w 7) (regAt w 0))
  | 0x65 => select (AtomOp.ofCode (fld w 21 4)) fun o =>
      whenOk o.wideOk (.atom64 o (regAt w 14) (regAt w 7) (regAt w 0))
  | 0x66 => if fld w 3 1 ≠ 0 then .error .reservedField
            else select (AtomOp.ofCode (fld w 21 4)) fun o => select (Scope.ofCode (fld w 4 3)) fun sc =>
              whenOk (o.redOk && (o.isFloat || !(bitAt w 2 || bitAt w 1 || bitAt w 0)))
                (.red o sc (bitAt w 2) (bitAt w 1) (bitAt w 0) (regAt w 14) (regAt w 7))
  | 0x67 => fnZero w (if fld w 4 3 ≠ 0 then .error .reservedField
            else select (Scope.ofCode (fld w 0 3)) fun sc =>
              if fld w 3 1 = 1 then .ok (.fenceUnpin sc (regAt w 14) (regAt w 7))
              else whenZero (fld w 7 14) (.fence sc))
  | 0x68 => fnZero w (if fld w 14 7 ≠ 0 then .error .reservedField
            else whenOk (120 ≤ fld w 7 7) (.qpop (BitVec.ofNat 3 (fld w 7 3)) (regAt w 0)))
  | 0x69 => if fld w 19 6 ≠ 0 then .error .reservedField else mAt w fun m => .ok (.pres m)
  | 0x70 => fnZero w (if fld w 14 7 ≠ 0 then .error .reservedField
            else if fld w 0 7 = 0 then .ok (.copy (regAt w 7))
            else whenOk (120 ≤ fld w 0 7) (.copyQueue (BitVec.ofNat 3 (fld w 0 3)) (regAt w 7)))
  | 0x71 => fnZero w (decodeMma w)
  | 0x72 => whenZero (fld w 3 22) (.tnew (BitVec.ofNat 3 (fld w 0 3)))
  | 0x73 => fnZero w (decodeTld w)
  | 0x74 => fnZero w (select (TstFmt.ofCode (fld w 3 3)) fun f =>
      .ok (.tst f (bitAt w 6) (BitVec.ofNat 3 (fld w 0 3)) (regAt w 14) (regAt w 7)))
  | 0x75 => fnZero w (select (GateProg.ofFields (fld w 6 1) (fld w 3 3) (regAt w 14)) fun p =>
      .ok (.gate p (BitVec.ofNat 3 (fld w 0 3)) (regAt w 7)))
  | 0x76 => if fld w 24 1 = 1 ∧ fld w 14 7 + fld w 22 1 ≠ 0 then .error .reservedField
            else .ok (.scan (bitAt w 24) (bitAt w 23) (r3At w))
  | 0x77 => fnZero w (whenZero (fld w 14 7 + fld w 2 5) (.scale (BitVec.ofNat 2 (fld w 0 2)) (regAt w 7)))
  | 0x78 => fnZero w (if fld w 14 7 + fld w 3 4 ≠ 0 then .error .reservedField
            else .ok (if fld w 2 1 = 0 then .gbsign (BitVec.ofNat 2 (fld w 0 2)) (regAt w 7)
                      else .gbsignBlk (BitVec.ofNat 2 (fld w 0 2)) (regAt w 7)))
  | 0x79 => decodeWindow w
  | 0x7A => decodeMessage w
  | 0x7B => fnZero w (whenZero (fld w 14 7 + fld w 6 1) (.launch (BitVec.ofNat 6 (fld w 0 6)) (regAt w 7)))
  | 0x7C => fnZero w (if fld w 14 7 + fld w 1 6 ≠ 0 then .error .reservedField
            else .ok (if fld w 0 1 = 0 then .evsigSet (regAt w 7) else .evsigClr (regAt w 7)))
  | 0x7D => fnZero w (whenZero (fld w 18 3) (.svc (BitVec.ofNat 4 (fld w 14 4)) (regAt w 7) (regAt w 0)))
  | 0x7E => fnZero w (decodeRft w)
  | _ => .error .reservedOpcode

/-- How many code words an instruction has (R74, R88). -/
def Instr.words : Instr → Nat
  | .movl .. => 2
  | _ => 1

/-- The instruction of a code word and the word after it. -/
def decodeWord (w : Word) (lit : Option Word) : Decoded := decodeNat w.toNat lit

/-- Four bytes, the lowest address first, as a word (R2, R73). -/
def wordOfBytes (b0 b1 b2 b3 : Byte) : Word :=
  BitVec.ofNat 32 (b0.toNat + 256 * b1.toNat + 65536 * b2.toNat + 16777216 * b3.toNat)

/-- A word as four bytes, the lowest address first (R2). -/
def bytesOfWord (w : Word) : List Byte :=
  [BitVec.ofNat 8 w.toNat, BitVec.ofNat 8 (w.toNat / 256), BitVec.ofNat 8 (w.toNat / 65536), BitVec.ofNat 8 (w.toNat / 16777216)]

/-- The words that bytes hold, lowest address first; a rest of fewer than four bytes is dropped. -/
def wordsOfBytes : List Byte → List Word
  | b0 :: b1 :: b2 :: b3 :: rest => wordOfBytes b0 b1 b2 b3 :: wordsOfBytes rest
  | _ => []

/-- The instruction at the start of a byte string, with the bytes after it. -/
def decode (bs : List Byte) : Except Reject (Instr × List Byte) :=
  match wordsOfBytes bs with
  | [] => .error .shortInput
  | w :: rest =>
    match decodeWord w rest.head? with
    | .ok i => .ok (i, bs.drop (4 * i.words))
    | .error r => .error r

/-- The decoder's reading of a row of the opcode table: the first word is `w`'s low 32 bits, the literal word of a MOVL is
its bits [63:32]. -/
def decodeTableWord (nbits w : Nat) : Option Instr :=
  let v := w % 2 ^ nbits
  match decode (bytesOfWord (BitVec.ofNat 32 v) ++ bytesOfWord (BitVec.ofNat 32 (v / 2 ^ 32))) with
  | .ok (i, _) => some i
  | .error _ => none

/-! ### The encoder -/

def b2n (b : Bool) : Nat := if b then 1 else 0

/-- Format R (R86). -/
def encR (op md : Nat) (r : R3) : Nat :=
  op * 2 ^ 25 + md * 2 ^ 23 + b2n r.lrb * 2 ^ 22 + b2n r.lra * 2 ^ 21 + r.sb.toNat * 2 ^ 14 + r.sa.toNat * 2 ^ 7 + r.d.toNat
/-- Format R with one source; `sb` is what stands in SB. -/
def encR2 (op md sb : Nat) (r : R2) : Nat :=
  op * 2 ^ 25 + md * 2 ^ 23 + b2n r.lra * 2 ^ 21 + sb * 2 ^ 14 + r.sa.toNat * 2 ^ 7 + r.d.toNat
/-- Format I (R87). -/
def encI (op imm : Nat) (r : R2) : Nat :=
  op * 2 ^ 25 + b2n r.lra * 2 ^ 24 + imm * 2 ^ 14 + r.sa.toNat * 2 ^ 7 + r.d.toNat
/-- Format M (R89); `h` is bits [21:19]. -/
def encM (op wd h : Nat) (m : MArgs) : Nat :=
  op * 2 ^ 25 + wd * 2 ^ 22 + h * 2 ^ 19 + b2n m.lra * 2 ^ 18 + m.spc.code * 2 ^ 14 + m.a.toNat * 2 ^ 7 + m.d.toNat
/-- Formats A and E (R90, R93). -/
def encE (op fn sb sa d : Nat) : Nat := op * 2 ^ 25 + fn * 2 ^ 21 + sb * 2 ^ 14 + sa * 2 ^ 7 + d
/-- Format B (R91). -/
def encB (op lr c off : Nat) : Nat := op * 2 ^ 25 + lr * 2 ^ 24 + c * 2 ^ 17 + off

def encMma (m : MmaArgs) : Nat :=
  encE 0x71 0 (m.bfrag.toNat * 16 + m.tb.code * 2) (m.afrag.toNat * 16 + m.ta.code * 2 + b2n m.scaled)
    ((match m.guest with | some g => 64 + g.toNat * 8 | none => 0) + b2n m.pair * 32 + m.tile.toNat)

def encTld : Option (BitVec 2 × ElemW) → Nat
  | none => 0
  | some (k, e) => 64 + k.toNat * 16 + e.code * 4

/-- The first code word of an instruction; 0 for an event, which has no encoding. -/
def encodeNat : Instr → Nat
  | .bra off => encB 0x01 0 0 off.toNat
  | .brc l c off => encB 0x02 (b2n l) c.toNat off.toNat
  | .brz l c off => encB 0x03 (b2n l) c.toNat off.toNat
  | .call f off => 0x04 * 2 ^ 25 + f.toNat * 2 ^ 20 + off.toNat
  | .ret => encE 0x05 0 0 0 0
  | .jmpr a => encE 0x06 0 0 a.toNat 0
  | .exit => encE 0x07 0 0 0 0
  | .yield => encE 0x08 0 0 0 0
  | .wbase n => 0x09 * 2 ^ 25 + n.toNat * 2 ^ 14
  | .mjoin k => encE 0x0A 0 0 0 k.toNat
  | .mleave k => encE 0x0B 0 0 0 k.toNat
  | .mwait k => encE 0x0C 0 0 0 k.toNat
  | .mreadEnr k d => encE 0x0D 0 0 k.toNat d.toNat
  | .mreadArr k d => encE 0x0D 0 1 k.toNat d.toNat
  | .vote o r => encR2 0x0E o.code 0 r
  | .bar => encE 0x0F 0 0 0 0
  | .iadd m r => encR 0x10 m.code r
  | .isub m r => encR 0x11 m.code r
  | .imul m r => encR 0x12 m.code r
  | .imad r => encR 0x13 0 r
  | .imin u r => encR 0x14 (b2n u) r
  | .imax u r => encR 0x15 (b2n u) r
  | .iand r => encR 0x16 0 r
  | .ior r => encR 0x17 0 r
  | .ixor r => encR 0x18 0 r
  | .ishl r => encR 0x19 0 r
  | .ishr s r => encR 0x1A (b2n s) r
  | .popc r => encR2 0x1B 0 0 r
  | .clz r => encR2 0x1C 0 0 r
  | .bfe s r => encR 0x1D (b2n s) r
  | .bfi r => encR 0x1E 0 r
  | .icmp c r => encR 0x1F c.code r
  | .icmpu c r => encR 0x20 c.code r
  | .sel r => encR 0x21 0 r
  | .iaddi i r => encI 0x22 i.toNat r
  | .iandi i r => encI 0x23 i.toNat r
  | .ishli n r => encI 0x24 n.toNat r
  | .ishri n r => encI 0x25 n.toNat r
  | .isari n r => encI 0x26 n.toNat r
  | .fadd r => encR 0x30 0 r
  | .fsub r => encR 0x31 0 r
  | .fmul r => encR 0x32 0 r
  | .ffma r => encR 0x33 0 r
  | .fmin n r => encR 0x34 (b2n n) r
  | .fmax n r => encR 0x35 (b2n n) r
  | .fcmp c r => encR 0x36 c.code r
  | .fsgn o r => encR 0x37 o.code r
  | .frcp r => encR2 0x38 0 0 r
  | .frsq r => encR2 0x39 0 0 r
  | .fexp2 r => encR2 0x3A 0 0 r
  | .flog2 r => encR2 0x3B 0 0 r
  | .ftanh r => encR2 0x3C 0 0 r
  | .fsig r => encR2 0x3D 0 0 r
  | .fcvt s d r => encR2 0x3E 0 (s.code * 8 + d.code) r
  | .i2f u r => encR2 0x3F (b2n u) 0 r
  | .f2i z u r => encR2 0x40 (b2n z * 2 + b2n u) 0 r
  | .hadd2 f r => encR 0x41 f.code r
  | .hmul2 f r => encR 0x42 f.code r
  | .hfma2 f r => encR 0x43 f.code r
  | .mov r => encR2 0x50 0 0 r
  | .movi i d => 0x51 * 2 ^ 25 + i.toNat * 2 ^ 14 + d.toNat
  | .movl _ d => 0x52 * 2 ^ 25 + d.toNat
  | .shfl o r => encR 0x53 o.code r
  | .qswz p r => encR2 0x54 p.code p.index r
  | .rdlane r => encR 0x55 0 r
  | .rdlaneImm k r => encR2 0x55 1 k.toNat r
  | .scanl o r => encR2 0x56 o.code 0 r
  | .redl o r => encR2 0x57 o.code 0 r
  | .shape r => encR2 0x58 0 0 r
  | .expand d => 0x59 * 2 ^ 25 + d.toNat
  | .sread x d => encE 0x5A 0 0 x.code d.toNat
  | .swrite x a => encE 0x5B 0 0 a.toNat x.code
  | .ld wd ep lu m => encM 0x60 wd.code (ep.toNat * 2 + b2n lu) m
  | .st wd ep lu m => encM 0x61 wd.code (ep.toNat * 2 + b2n lu) m
  | .lda wd sc m => encM 0x62 (wideCode wd) sc.code m
  | .stl wd sc m => encM 0x63 (wideCode wd) sc.code m
  | .atom o sb sa d => encE 0x64 o.code sb.toNat sa.toNat d.toNat
  | .atom64 o sb sa d => encE 0x65 o.code sb.toNat sa.toNat d.toNat
  | .red o sc st cn fz sb sa => encE 0x66 o.code sb.toNat sa.toNat (sc.code * 16 + b2n st * 4 + b2n cn * 2 + b2n fz)
  | .fence sc => encE 0x67 0 0 0 sc.code
  | .fenceUnpin sc sb sa => encE 0x67 0 sb.toNat sa.toNat (8 + sc.code)
  | .qpop q d => encE 0x68 0 0 (120 + q.toNat) d.toNat
  | .pres m => encM 0x69 0 0 m
  | .copy a => encE 0x70 0 0 a.toNat 0
  | .copyQueue q a => encE 0x70 0 0 a.toNat (120 + q.toNat)
  | .mma m => encMma m
  | .tnew t => encE 0x72 0 0 0 t.toNat
  | .tld sc sb sa => encE 0x73 0 sb.toNat sa.toNat (encTld sc)
  | .tst f fr t sb sa => encE 0x74 0 sb.toNat sa.toNat (b2n fr * 64 + f.code * 8 + t.toNat)
  | .gate p t sa => encE 0x75 0 p.outField.toNat sa.toNat (p.six * 64 + p.code * 8 + t.toNat)
  | .scan s k r => encR 0x76 (b2n s * 2 + b2n k) r
  | .scale k a => encE 0x77 0 0 a.toNat k.toNat
  | .gbsign k a => encE 0x78 0 0 a.toNat k.toNat
  | .gbsignBlk k a => encE 0x78 0 0 a.toNat (4 + k.toNat)
  | .wsusp => encE 0x79 0 0 0 0
  | .wclose => encE 0x79 1 0 0 0
  | .wemit a => encE 0x79 2 0 a.toNat 0
  | .wpane s d => encE 0x79 3 0 s.toNat d.toNat
  | .winfo s d => encE 0x79 4 0 s.toNat d.toNat
  | .strctlArm a => encE 0x79 5 0 a.toNat 0
  | .strctlPause a => encE 0x79 5 0 a.toNat 1
  | .strctlResume a => encE 0x79 5 0 a.toNat 2
  | .strctlSetcarry sb a => encE 0x79 5 sb.toNat a.toNat 3
  | .strctlClrreset a => encE 0x79 5 0 a.toNat 4
  | .send sb sa d => encE 0x7A 0 sb.toNat sa.toNat d.toNat
  | .rpost sa d => encE 0x7A 1 0 sa.toNat d.toNat
  | .fwd a => encE 0x7A 2 0 a.toNat 0
  | .frecv d => encE 0x7A 3 0 0 d.toNat
  | .launch n a => encE 0x7B 0 0 a.toNat n.toNat
  | .evsigSet a => encE 0x7C 0 0 a.toNat 0
  | .evsigClr a => encE 0x7C 0 0 a.toNat 1
  | .svc n sa d => encE 0x7D 0 n.toNat sa.toNat d.toNat
  | .rftRestart m s => encE 0x7E 0 0 0 (b2n m * 8 + b2n s * 4)
  | .rftGoto m s a => encE 0x7E 0 0 a.toNat (b2n m * 8 + b2n s * 4 + 1)
  | .rftEnd => encE 0x7E 0 0 0 2
  | _ => 0

/-- The code words of an instruction, first word first; none for an event. -/
def encode (i : Instr) : List Word :=
  if i.isCode then
    BitVec.ofNat 32 (encodeNat i) :: (match i with | .movl l _ => [l] | _ => [])
  else []

/-- The bytes of an instruction's code words, lowest address first (R2, R73). -/
def encodeBytes (i : Instr) : List Byte := (encode i).flatMap bytesOfWord

/-! ### Headers (R79) -/

/-- A clause header (format H). `none` for SETA or SETB stands for 0xF. -/
structure Header where
  wait : BitVec 12
  seta : Option (BitVec 4)
  setb : Option (BitVec 4)
  len : BitVec 4
  pri : BitVec 6
  rgn : Bool
  deriving DecidableEq, Repr

/-- The flag a SETA or SETB field names; 12 to 14 are reserved. -/
def flagField (n : Nat) : Option (Option (BitVec 4)) :=
  if n < 12 then some (some (BitVec.ofNat 4 n)) else if n = 15 then some none else none

/-- A header word, or nothing where its fields are illegal (R76, R79). -/
def decodeHeader (w : Word) : Option Header :=
  let n := w.toNat
  match flagField (fld n 16 4), flagField (fld n 12 4) with
  | some a, some b =>
    if fld n 8 4 = 0 ∨ fld n 0 1 = 1 then none
    else some ⟨BitVec.ofNat 12 (fld n 20 12), a, b, BitVec.ofNat 4 (fld n 8 4), BitVec.ofNat 6 (fld n 2 6), bitAt n 1⟩
  | _, _ => none

/-- PRI of a header word, whatever the word's other fields hold (R27). -/
def headerPri (w : Word) : Nat := fld w.toNat 2 6
/-- LEN of a header word. -/
def headerLen (w : Word) : Nat := fld w.toNat 8 4

def encodeHeader (h : Header) : Word :=
  let f := fun (o : Option (BitVec 4)) => match o with | some k => k.toNat | none => 15
  BitVec.ofNat 32 (h.wait.toNat * 2 ^ 20 + f h.seta * 2 ^ 16 + f h.setb * 2 ^ 12 + h.len.toNat * 2 ^ 8 + h.pri.toNat * 4
    + b2n h.rgn * 2)

end Sys2Proof
end

