-- ==== Sys2Proof/Machine/Sparse.lean ====
section
/-!
DEFINITION. Finite maps from numbers as plain data: lists of (key, value) pairs with strictly rising keys. `sget` and `sset`
read and write them as total maps with a default that is never listed, so that equal maps are equal data.
-/
namespace Sys2Proof.Machine

/-- A finite map. -/
abbrev FMap (α : Type) := List (Nat × α)

def fget {α : Type} : FMap α → Nat → Option α
  | [], _ => none
  | (k, v) :: m, n => if k = n then some v else fget m n

def ferase {α : Type} (m : FMap α) (n : Nat) : FMap α := m.filter (fun p => decide (p.1 ≠ n))

/-- Put an entry before the first larger key. -/
def finsert {α : Type} : FMap α → Nat → α → FMap α
  | [], n, x => [(n, x)]
  | (k, v) :: m, n, x => if n < k then (n, x) :: (k, v) :: m else (k, v) :: finsert m n x

/-- Write one key, keeping the keys rising. -/
def fset {α : Type} (m : FMap α) (n : Nat) (x : α) : FMap α := finsert (ferase m n) n x

/-- Read a map that is total with a default. -/
def sget {α : Type} (d : α) (m : FMap α) (n : Nat) : α := (fget m n).getD d

/-- Write a map that is total with a default: the default itself is not listed. -/
def sset {α : Type} [DecidableEq α] (d : α) (m : FMap α) (n : Nat) (x : α) : FMap α :=
  if x = d then ferase m n else fset m n x

/-- Keys strictly rising. -/
def keysRising {α : Type} : FMap α → Bool
  | [] => true
  | [_] => true
  | (a, _) :: (b, y) :: m => decide (a < b) && keysRising ((b, y) :: m)

/-- The canonical form of a total map: keys rising, no entry equal to the default. -/
def canonical {α : Type} [DecidableEq α] (d : α) (m : FMap α) : Bool :=
  keysRising m && m.all (fun e => decide (e.2 ≠ d))

def fkeys {α : Type} (m : FMap α) : List Nat := m.map (·.1)

def fvals {α : Type} (m : FMap α) : List α := m.map (·.2)

/-- Change the value at a key that is present. -/
def fmodify {α : Type} (m : FMap α) (n : Nat) (f : α → α) : FMap α :=
  match fget m n with
  | some v => fset m n (f v)
  | none => m

/-- A list with the element at a place replaced. -/
def setAt {α : Type} : List α → Nat → α → List α
  | [], _, _ => []
  | _ :: xs, 0, y => y :: xs
  | x :: xs, n + 1, y => x :: setAt xs n y

/-- A list without the element at a place. -/
def removeAt {α : Type} : List α → Nat → List α
  | [], _ => []
  | _ :: xs, 0 => xs
  | x :: xs, n + 1 => x :: removeAt xs n

end Sys2Proof.Machine
end

