-- ==== Sys2Proof/Machine/State.lean ====
section
/-!
DEFINITION. The state of the device as plain data: everything the spec names (INVENTORY.md lists it with the rules), and the
model's own fields (the agenda of turns, the resolved choices, the clock and the counter of free values).
-/
namespace Sys2Proof.Machine

/-- A program counter: a byte address of 56 bits (R27, R91). -/
abbrev Pc := BitVec 56

/-! ### Memory -/

/-- Bytes by address, canonical with default 0: an unlisted byte reads as 0. (Log entry 1, DESIGN CHOICE, unsafe.) -/
abbrev Memory := List Host.Cell

/-- The canonical form of a memory: addresses rising, no listed byte equal to 0. -/
def Memory.wf (m : Memory) : Bool := canonical (0 : Byte) m

/-- The home of an access (R127). -/
inductive Tgt where
  | dev
  | host
  | peer (p : Nat)
  | scr (core block : Nat)
  deriving DecidableEq, Repr

/-- A physical place: its home and the address or offset there. -/
structure PLoc where
  tgt : Tgt
  a : Nat
  deriving DecidableEq, Repr

/-- A tenant context: wing and tenant number (R256). -/
structure Ctx where
  wing : Nat
  ten : Nat
  deriving DecidableEq, Repr

/-- A release that a unit's last write carried: its scope and core (R169). -/
structure RelMark where
  scope : Scope
  core : Nat
  ctx : Ctx
  seq : Nat
  deriving DecidableEq, Repr

/-- A translation-cache entry: one combined translation of both stages (R300). -/
structure TlbEntry where
  ctx : Ctx
  /-- Flat address of the page's first byte. -/
  va : Nat
  /-- Base-2 logarithm of the page size. -/
  log : Nat
  /-- Base-2 logarithm of the size of the stage-1 page that holds it. -/
  log1 : Nat
  loc : PLoc
  r : Bool
  w : Bool
  x : Bool
  /-- Supervisor only (R298). -/
  sup : Bool
  own : Nat
  deriving DecidableEq, Repr

/-- A cached sector of 32 B: which bytes are valid and which are the cluster's own newer writes (R128, R129). -/
structure Sector where
  ctx : Ctx
  bytes : List Byte
  valid : BitVec 32
  dirty : BitVec 32
  ep : Nat
  /-- Releases that were the last writes of its units, by unit (R169). -/
  rel : FMap RelMark
  /-- When it was last used, and whether a store with `LU` made its line the next to be evicted (R131). -/
  use : Nat
  last : Bool
  deriving DecidableEq, Repr

/-! ### Groups -/

/-- The shape of a name with its storage (R55). -/
inductive Shaped where
  | unalloc
  | uniform (u : Word)
  | affine (base stride : Word)
  | general (ws : List Word)
  deriving DecidableEq, Repr

/-- A name of a group: its value, whether its payload lies in the cloakroom (R65), and its use time (R66). -/
structure Name where
  val : Shaped
  spilled : Bool
  use : Nat
  deriving DecidableEq, Repr

def Name.free : Name := ⟨.unalloc, false, 0⟩

/-- What a lane of a window group holds (R193, R194). -/
structure LaneWin where
  win : Nat
  busy : Bool
  /-- The entry of the delivery being executed: 0 none, 1 open, 2 record, 3 pane, 4 close, 5 graft. -/
  entry : Nat
  /-- The record that caused the delivery, and the delivery buffer it uses. -/
  cause : Word
  buf : Option Nat
  /-- The window's trigger fires at the commit of this delivery (R199). -/
  last : Bool
  deriving DecidableEq, Repr

/-- Per-lane state. -/
structure LaneSt where
  wb : BitVec 10
  fmode : Word
  fstat : Word
  rgnPc : Pc
  rgnCnt : Word
  nonRep : Bool
  hvb : BitVec 10
  savedTe : BitVec 5
  /-- Returned from a handler and not yet begun the clause returned to (R285). -/
  fresh : Bool
  /-- Returned by `RESTART` to its region's header: it begins a region there (R386). -/
  restart : Bool
  step : Bool
  mute : Bool
  win : Option LaneWin
  deriving DecidableEq, Repr

def LaneSt.start (pc : Pc) : LaneSt :=
  { wb := 0, fmode := 0, fstat := 0, rgnPc := pc, rgnCnt := 0, nonRep := false, hvb := 0, savedTe := 0, fresh := false,
    restart := false, step := false, mute := false, win := none }

/-- Why the lanes of an entry are parked (R48). -/
inductive Park where
  | none
  | marker (k : Nat)
  | bar
  /-- Absent scratchpad lines awaited. -/
  | absent (lines : List PLoc)
  | emptyQueue (q : Nat)
  | inbox
  | receive (id : Nat)
  /-- At an `MMA` that names a guestbook. -/
  | guestbook (g : Nat) (m : MmaArgs)
  | resting
  deriving DecidableEq, Repr

/-- The clause an entry is executing. -/
structure ClauseCtx where
  hdr : Pc
  word : Word
  /-- The first word of the clause has issued: the pick has taken effect (R31). -/
  begun : Bool
  /-- Resumed in the middle of the clause after a lane-level park (R49). -/
  resumed : Bool
  /-- The clause has helper lanes (R26): it holds a `QSWZ`, or a word that could not be fetched when it was reached (log entry 66,
  DEDUCED, unsafe); and the address of the last such word. -/
  swz : Bool
  lastQ : Pc
  /-- Helper copies, by name and lane (R26). -/
  hvals : FMap (FMap Word)
  /-- A word of the clause could not be fetched when it was reached: the words are checked as they issue (R28, R76). -/
  unseen : Bool
  /-- The entry traps `ILLEGAL` at its word when it is next selected (R221). -/
  bad : Bool
  deriving DecidableEq, Repr

/-- How a translation fails (R299): whether the fault is replayable, whether stage 2 failed, and whether it is a right that
a valid leaf does not grant. -/
structure XlFault where
  replay : Bool
  stage2 : Bool
  perm : Bool
  deriving DecidableEq, Repr

/-- A failed fetch that an entry carries (R27, R73). (Log entry 66, DEDUCED, unsafe.) -/
inductive FetchFail where
  | perm
  | xlate (f : XlFault)
  | memerr
  /-- A replayable fault that has been raised and awaits the host's answer (R304). -/
  | again
  deriving DecidableEq, Repr

/-- An entry of the frontier (R29). -/
structure Entry where
  pc : Pc
  pri : Nat
  lanes : LaneSet
  park : Park
  pass : Nat
  mark : Bool
  /-- The header fetch at `pc` failed (R27). -/
  fail : Option FetchFail
  clause : Option ClauseCtx
  deriving DecidableEq, Repr

/-- A rejoin marker (R35). -/
structure Marker where
  enr : LaneSet
  arr : LaneSet
  deriving DecidableEq, Repr

/-- Why a whole group is parked (R48). -/
inductive GPark where
  | none
  /-- A cloakroom fill of the names given. -/
  | fill (ns : List Nat)
  /-- An allocation that finds no victim (R66). -/
  | pool
  | trapPool
  /-- A replayable fault: the number of its record, and the lanes that met it. -/
  | fault (id : Nat) (m : LaneSet)
  /-- A store of the group is held by the fault record given (R310). -/
  | storeFault (id : Nat)
  | svc
  | noDelivery
  | fullQueue
  deriving DecidableEq, Repr

/-- The trap registers (R96, R277, R278), without their halves: addresses are kept whole. -/
structure TrapRegs where
  cause : Word
  pc : Pc
  rgnPc : Pc
  rgnCnt : Word
  addr : DWord
  mask : LaneSet
  shapes : Word
  word : Word
  deriving DecidableEq, Repr

def TrapRegs.zero : TrapRegs := ⟨0, 0, 0, 0, 0, 0, 0, 0⟩

/-- A group in its handler (R281, R283). -/
structure Handler where
  lanes : LaneSet
  returned : LaneSet
  hdrTrap : Bool
  /-- The group's other entries, halted, with those formed by the lanes that have returned. -/
  halted : List Entry
  names : FMap Name
  deriving DecidableEq, Repr

/-- A trap that waits for the core's trap pool (R281): the entry and the registers it records. -/
structure PendTrap where
  entry : Entry
  regs : TrapRegs
  deriving DecidableEq, Repr

/-- What a group is (R23, R191, R137). -/
inductive GKind where
  | compute
  | window (st num : Nat)
  | ap
  deriving DecidableEq, Repr

/-- A pending service call (R289): the record's number once it is written, the calling lanes, the word, and the reply name
of each lane. -/
structure SvcCall where
  seq : Option Word
  lanes : LaneSet
  pc : Pc
  argn : Nat
  args : List (List Word)
  names : List Nat
  entry : Entry
  deriving DecidableEq, Repr

/-- How a group stands in a slot edge (R265). -/
inductive HaltSt where
  | run
  | halted
  deriving DecidableEq, Repr

/-- The place of a group in the work it belongs to. -/
structure GroupId where
  ctx : Ctx
  /-- Key of the launch in its context; the stream index for a window group. -/
  launch : Nat
  launchId : Word
  gang : Nat
  block : Nat
  group : Nat
  /-- Key of the block on its core. -/
  blockKey : Nat
  minRegs : Nat
  /-- Flat address of the cloakroom area (R65). -/
  cloak : Nat
  /-- Order of placement on the core (R41). -/
  age : Nat
  deriving DecidableEq, Repr

structure Group where
  kind : GKind
  id : GroupId
  live : LaneSet
  lanes : FMap LaneSt
  names : FMap Name
  /-- The shape tags that names awaiting a result still show, by name (R59). -/
  tags : FMap Nat
  frontier : List Entry
  active : Option Entry
  markers : FMap Marker
  /-- Outstanding operations of each completion flag (R80). -/
  flags : FMap Nat
  scales : FMap Word
  /-- Tile names and their physical tiles (R216). -/
  tiles : FMap Nat
  rgnCnt : Word
  gpark : GPark
  handler : Option Handler
  traps : TrapRegs
  pendTrap : Option PendTrap
  svc : Option SvcCall
  halt : HaltSt
  /-- When the group became ready or last issued, and whether it was ready when time last passed (R40). -/
  readyAt : Nat
  waits : Bool
  token : Bool
  tokenSince : Nat
  tokenLast : Nat
  /-- Lanes whose `WEMIT` records are still to be appended (R411). -/
  wemit : LaneSet
  /-- `TADDR` values of `OVERFLOWQ` traps to raise at the next clause boundary (R237). -/
  ovfq : List Word
  deriving DecidableEq, Repr

/-! ### A core's queues -/

/-- A fault record (R305) and the work it concerns. -/
structure FaultRec where
  id : Nat
  /-- Sequence number once written. -/
  seq : Option Word
  kind : Nat
  cause : Nat
  ten : Nat
  replay : Bool
  exited : Bool
  stage2 : Bool
  acc : Nat
  fsize : Bool
  clu : Nat
  rgnCnt : Word
  addr : Nat
  launch : Word
  gangWord : Word
  coreIx : Nat
  rgnPc : Pc
  /-- Whether the host has answered it. -/
  answered : Bool
  deriving DecidableEq, Repr

/-- The translation of a store-buffer entry (R310). -/
inductive SbXlate where
  | done (loc : PLoc)
  | walking
  | held (id : Nat)
  deriving DecidableEq, Repr

/-- What an entry of the store buffer does when it drains: a store, or a reduction that waits for its translation. -/
inductive SbOp where
  | store
  | red (op : AtomOp) (ftz cnan sat : Bool)
  deriving DecidableEq, Repr

/-- A store-buffer entry: one lane's bytes in one single-copy unit (R157). -/
structure SbEntry where
  seq : Nat
  /-- Number of the store or reduction it belongs to. -/
  opNo : Nat
  ctx : Ctx
  slot : Nat
  age : Nat
  lane : Nat
  va : Nat
  xl : SbXlate
  bytes : List Byte
  op : SbOp
  /-- Scope of a release (`STL`). -/
  rel : Option Scope
  flag : Option Nat
  /-- Snooping host store (`SPC` 3). -/
  snoop : Bool
  ep : Nat
  /-- Its line is the next to be evicted (R131). -/
  lu : Bool
  /-- The record that a fault of its walk asks for, as it stood at issue (R310). -/
  frec : FaultRec
  win : Bool
  launch : Nat
  deriving DecidableEq, Repr

/-- One lane's part of an outstanding load or atomic: where its value goes. -/
structure LoadPart where
  lane : Nat
  /-- Absolute destination names (handler names from 1024 up). -/
  dests : List Nat
  va : Nat
  loc : PLoc
  width : Nat
  /-- The bound value (R153). -/
  val : Option (List Byte)
  deriving DecidableEq, Repr

/-- What an outstanding operation of the load-return path writes (R152). -/
inductive LoadDest where
  /-- Names under the lanes given; `full` and `uni` say the mask and the shape of R56. -/
  | names (full uni : Bool)
  /-- Entries of an access queue. -/
  | queue (q first n : Nat)
  deriving DecidableEq, Repr

structure LoadOp where
  id : Nat
  ctx : Ctx
  slot : Nat
  /-- Age of the group that issued it: it tells a later group of the slot apart. -/
  age : Nat
  flag : Option Nat
  dest : LoadDest
  parts : List LoadPart
  /-- The sector requests that it made at issue (R134). -/
  reqs : Nat
  /-- Drop the lines after the read (R131). -/
  lu : Bool
  ep : Nat
  snoop : Bool
  deriving DecidableEq, Repr

/-- A combining-buffer entry (R144). -/
structure CombEntry where
  ctx : Ctx
  slot : Nat
  /-- Device address of the granule. -/
  granule : Nat
  op : AtomOp
  ftz : Bool
  cnan : Bool
  sat : Bool
  /-- Values of the valid words. -/
  words : FMap Word
  born : Nat
  deriving DecidableEq, Repr

/-- A guestbook that is filled (R219, R220). -/
structure Guestbook where
  /-- Group mode. -/
  blk : Bool
  /-- The declared lane mask or count as the first signature gave it. -/
  orig : DWord
  /-- The declared lanes that have not been struck (R340, R355), or the count. -/
  decl : DWord
  /-- Slot of the owning group in lane mode. -/
  owner : Nat
  signed : LaneSet
  /-- `GROUPID`s of the groups that have signed. -/
  groups : List Nat
  /-- Signed groups that have ended (R355). -/
  gone : List Nat
  /-- The last signature: its group's slot and lanes (R221). -/
  lastSlot : Nat
  lastLanes : LaneSet
  deriving DecidableEq, Repr

/-- A block on a core (R23, R123, R251). -/
structure Block where
  ctx : Ctx
  launch : Nat
  gang : Nat
  block : Nat
  cluster : Nat
  groups : Nat
  /-- Declared scratchpad in bytes. -/
  scratch : Nat
  apUsed : Bool
  mem : Memory
  /-- Outstanding writes of the lines that are not present (R124). -/
  absent : FMap Nat
  poison : List Nat
  /-- The block's groups have ended; the queue region remains (R140). -/
  ended : Bool
  /-- A window group's block (R191). -/
  win : Bool
  books : FMap Guestbook
  deriving DecidableEq, Repr

/-- The access queues of a core (R139, R140). -/
structure ApQueues where
  ctx : Ctx
  launch : Nat
  /-- Block whose scratchpad holds the queue region. -/
  holder : Nat
  /-- Number of the head entry of each queue, and how many entries are claimed from it. -/
  head : FMap Nat
  count : FMap Nat
  deriving DecidableEq, Repr

/-! ### Messages (R234 to R238) -/

/-- A forwarded register; it takes its place in the inbox when sent, and is there once arrived. -/
structure Forward where
  launch : Nat
  win : Bool
  val : Shaped
  arrived : Bool
  deriving DecidableEq, Repr

/-- A message; its source is laid out as in R235. -/
structure Msg where
  tag : Nat
  src : Word
  n : Nat
  words : List Word
  deriving DecidableEq, Repr

/-- A posted receive. -/
structure Posted where
  id : Nat
  slot : Nat
  age : Nat
  lanes : LaneSet
  /-- Names of each lane, in the order of R236. -/
  dests : List (Nat × List Nat)
  tag : Nat
  src : Word
  anyTag : Bool
  anySrc : Bool
  flag : Option Nat
  deriving DecidableEq, Repr

/-- The message state of a tenant context on a core (R238). -/
structure MsgBox where
  ctx : Ctx
  inbox : List Forward
  posted : List Posted
  overflow : List Msg
  deriving DecidableEq, Repr

/-- A `SEND` that has not completed. -/
structure SendOp where
  id : Nat
  ctx : Ctx
  slot : Nat
  age : Nat
  lanes : LaneSet
  /-- A full-mask send: its status is written uniform (R395). -/
  full : Bool
  dests : List (Nat × Nat)
  flag : Option Nat
  /-- Port of a peer destination. -/
  port : Option Nat
  dst : Nat
  msg : Msg
  /-- The status, once delivered or refused. -/
  status : Option Word
  deriving DecidableEq, Repr

structure Core where
  groups : FMap Group
  corecyc : Word
  /-- Next number for issue order, use times and ages of this core. -/
  seq : Nat
  sb : List SbEntry
  comb : List CombEntry
  loads : List LoadOp
  l1 : FMap Sector
  /-- Code words that the core keeps, by place: stores do not reach them (R78). -/
  code : FMap Word
  tlb : List TlbEntry
  victims : List Nat
  l1Lookups : Nat
  victimHits : Nat
  cap : Nat
  /-- Slot issuing on side 0 and on side 1 (R40). -/
  side0 : Option Nat
  side1 : Option Nat
  trapOwner : Option Nat
  trapQueue : List Nat
  blocks : FMap Block
  apq : Option ApQueues
  boxes : List MsgBox
  sends : List SendOp
  deriving DecidableEq, Repr

def Core.reset : Core :=
  { groups := [], corecyc := 0, seq := 0, sb := [], comb := [], loads := [], l1 := [], code := [], tlb := [], victims := [],
    l1Lookups := 0, victimHits := 0, cap := 64, side0 := none, side1 := none, trapOwner := none, trapQueue := [],
    blocks := [], apq := none, boxes := [], sends := [] }

/-- A vitrine entry (R171). -/
structure VitEntry where
  ctx : Ctx
  op : Nat
  dst : Bool
  space : PLoc
  flat : Nat
  len : Nat
  deriving DecidableEq, Repr

/-! ### Engines -/

/-- An accumulator tile: elements by 64 × row + column (R216). -/
structure Tile where
  ctx : Ctx
  vals : FMap Word
  deriving DecidableEq, Repr

/-- Where a `GATE` keeps its state: scratchpad, or `CARRY` in memory (R226, R228). -/
inductive GatePlace where
  | scratch (block off : Nat)
  | carry (a : Nat)
  deriving DecidableEq, Repr

/-- What an operation of the reservation table does. -/
inductive RtKind where
  /-- Captured fragments as 16 names of 64 words, and captured shift counts (R215). -/
  | mma (ta tb : MType) (fa fb : List (List Word)) (sa sb : Word)
  /-- The state tile, the block and offset of an output tile, and whether the state reads as +0. -/
  | gate (p : GateProg) (st : GatePlace) (out : Option Nat) (zero : Bool)
  | tst (f : TstFmt) (a pitch : Nat) (free : Option Nat)
  deriving DecidableEq, Repr

/-- An operation in the reservation table (R223). -/
structure RtOp where
  id : Nat
  ctx : Ctx
  core : Nat
  slot : Nat
  age : Nat
  /-- Block whose scratchpad its local offsets name. -/
  block : Nat
  /-- Completion flags of the executing entries. -/
  flags : List Nat
  tile : Nat
  kind : RtKind
  /-- Scratchpad place of a `TST` destination. -/
  dst : Option PLoc
  /-- The captured `FMODE`, and the group and lane whose `FSTAT` takes the flags. -/
  fmode : Word
  fslot : Nat
  fage : Nat
  lane : Nat
  pri : Nat
  passes : Nat
  started : Bool
  /-- Number of the group-mode post it belongs to. -/
  post : Option Nat
  /-- Once it has run: the pieces not yet moved, each with the fault record that holds it. -/
  rest : Option (List (Nat × Option Nat))
  /-- The record that a fault of it asks for. -/
  frec : FaultRec
  win : Bool
  launch : Nat
  /-- Numbers of the core's operations issued before it (R170). -/
  before : Nat
  deriving DecidableEq, Repr

/-- A `COPY` descriptor as read (R239). -/
structure CopyDesc where
  saddr : Nat
  daddr : Nat
  rbytes : Nat
  rows : Nat
  spitch : Nat
  dpitch : Nat
  bar : Option Nat
  cvt : Nat
  esz : Nat
  scaled : Bool
  scales : Nat
  deriving DecidableEq, Repr

inductive EqKind where
  | copy (d : CopyDesc)
  /-- A copy into entries of an access queue: the queue, the first entry and how many. -/
  | queue (d : CopyDesc) (q first n : Nat)
  | tld (src pitch dst : Nat) (scale : Option (Word × ElemW))
  deriving DecidableEq, Repr

/-- An operation in the engine queue of a cluster. -/
structure EqOp where
  id : Nat
  ctx : Ctx
  core : Nat
  slot : Nat
  age : Nat
  /-- Block whose scratchpad its local offsets name. -/
  block : Nat
  flag : Option Nat
  fmode : Word
  lane : Nat
  kind : EqKind
  /-- Scratchpad places of the source, the destination and the shift counts. -/
  src : Option PLoc
  dst : Option PLoc
  scl : Option PLoc
  started : Bool
  /-- Pieces of the copy order that have moved before its run, and destination bytes counted in the barrier word (R241). -/
  done : Nat
  told : Nat
  /-- Once it has run: the pieces not yet moved, each with the fault record that holds it. -/
  rest : Option (List (Nat × Option Nat))
  /-- Destination lines that have become present before its end (R124). -/
  landed : List PLoc
  /-- What has bound of pieces that a fault holds: the source's bytes, and the shift counts, by piece (R308). -/
  keptSrc : FMap (List Byte)
  keptScl : FMap Byte
  /-- The record that a fault of it asks for. -/
  frec : FaultRec
  win : Bool
  launch : Nat
  /-- Numbers of the core's operations issued before it (R170). -/
  before : Nat
  deriving DecidableEq, Repr

/-- An instruction, or the fill of a guestbook, that waits for a tile or for room in the reservation table. -/
structure EngReq where
  core : Nat
  slot : Nat
  age : Nat
  pc : Pc
  book : Option Nat
  deriving DecidableEq, Repr

structure Cluster where
  l2 : FMap Sector
  tlb : List TlbEntry
  vit : List VitEntry
  queue : List EqOp
  resv : List RtOp
  nextOp : Nat
  tiles : FMap Tile
  /-- Requests for a tile in order, and those served but not yet taken up, with the tile. -/
  tileReqs : List EngReq
  tileGrants : List (EngReq × Nat)
  /-- Requests for a place in the reservation table, and the places given. -/
  rtReqs : List EngReq
  rtGrants : List EngReq
  deriving DecidableEq, Repr

def Cluster.reset : Cluster :=
  { l2 := [], tlb := [], vit := [], queue := [], resv := [], nextOp := 0, tiles := [], tileReqs := [], tileGrants := [],
    rtReqs := [], rtGrants := [] }

/-! ### Streams (R182 to R206) -/

/-- The configuration of a stream as armed (R183). -/
structure StreamCfg where
  ring : Nat
  taila : Nat
  ordered : Bool
  kind : Nat
  pane : Bool
  fold : Nat
  rsize : Nat
  ringlog : Nat
  keyoff : Nat
  foldoff : Nat
  wlen : Nat
  wstep : Nat
  wgap : Nat
  code : Nat
  /-- Offsets of the entries open, record, pane, close, graft. -/
  entries : List Nat
  minregs : Nat
  scr : Nat
  clu : Nat
  outv : Bool
  out : Nat
  stash : Nat
  dir : Nat
  wgmax : Nat
  statesz : Nat
  stashn : Nat
  dirn : Nat
  idle : Nat
  deriving DecidableEq, Repr

/-- Where an open window stands. -/
inductive WinPlace where
  | lane (num l : Nat)
  | stash (slot : Nat)
  deriving DecidableEq, Repr

/-- An open window (R188, R209). -/
structure Win where
  key : Word
  /-- Window number; 0 for a session. -/
  k : Nat
  /-- Start: kS, or a. -/
  start : Nat
  /-- End E; b + G for a session. -/
  fin : Nat
  /-- Last record time b of a session. -/
  b : Nat
  place : WinPlace
  /-- Data records delivered, or folded into delivered panes. -/
  data : Nat
  lastTime : Nat
  panes : Nat
  paneCnt : Nat
  /-- Records consumed when it was last delivered to, and the number of that delivery among the stream's (R193, R202). -/
  touch : Nat
  given : Nat
  /-- Out of the end order: no later record reaches it. -/
  shut : Bool
  /-- Its trigger has fired (R199). -/
  trig : Bool
  /-- `WCLOSE` awaits its close (R207). -/
  early : Bool
  /-- The end record has been processed (R201). -/
  ended : Bool
  /-- Its close delivery is queued or made. -/
  closed : Bool
  deriving DecidableEq, Repr

/-- An entry of the directory (R190). -/
inductive DirEnt where
  | win (w : Win)
  | key (k : Word) (n : Nat)
  /-- A pane in progress: key, index, fold, records, and the event time of the last. -/
  | pane (k : Word) (p : Nat) (acc : Word) (n t : Nat)
  deriving DecidableEq, Repr

/-- A delivery that has not begun, to one window (R194, R195). -/
structure Item where
  win : Nat
  entry : Nat
  cause : Word
  /-- `v0` to `v3`. -/
  vals : List Word
  time : Nat
  v6 : Word
  record : List Byte
  /-- Event time of the last data record it brings. -/
  stamp : Nat
  /-- Data records it brings to the window. -/
  data : Nat
  last : Bool
  /-- The later session of a graft (R205). -/
  other : Nat
  deriving DecidableEq, Repr

structure Stream where
  cfg : StreamCfg
  armed : Bool
  /-- The tail as acquired, and the next record to take. -/
  tail : Word
  next : Word
  head : Word
  wmark : Nat
  late : Word
  badkind : Word
  dropdir : Word
  droplane : Word
  /-- Records consumed since arming. -/
  taken : Nat
  dir : FMap DirEnt
  /-- Windows by key and number whose first record or pane has come (R188). -/
  seen : List (Word × Nat)
  items : List Item
  /-- Serving pauses for a fault record (R304). -/
  held : Option Nat
  /-- `STATUS` as the engine keeps it while the stream is armed (R182); and whether `STATUS` or `HEAD` is still to be written. -/
  status : Word
  owed : Bool
  /-- Deliveries made since arming. -/
  given : Nat
  /-- The directory's header as last written back (R190); nothing where none is due any more. -/
  hdr : Option (List Byte)
  /-- In an `ORDERED` stream, the watermark or end record (the flag) whose panes and closes are still to be made (R198, R199, R201). -/
  due : Option (Word × Bool)
  deriving DecidableEq, Repr

/-- A stream whose entry has never been read. -/
def Stream.blank : Stream :=
  { cfg := { ring := 0, taila := 0, ordered := false, kind := 0, pane := false, fold := 0, rsize := 16, ringlog := 0, keyoff := 0, foldoff := 0,
             wlen := 0, wstep := 0, wgap := 0, code := 0, entries := [], minregs := 0, scr := 0, clu := 0x7F, outv := false, out := 0, stash := 0,
             dir := 0, wgmax := 0, statesz := 0, stashn := 0, dirn := 0, idle := 0 },
    armed := false, tail := 0, next := 0, head := 0, wmark := 0, late := 0, badkind := 0, dropdir := 0, droplane := 0, taken := 0, dir := [],
    seen := [], items := [], held := none, status := 0, owed := false, given := 0, hdr := none, due := none }

/-! ### Wings -/

/-- The trap descriptor as read (R279). -/
structure TrapDesc where
  hentry : Pc
  tsave : Nat
  tenable : BitVec 13
  bpen : BitVec 4
  wpen : BitVec 4
  bpa : List Nat
  /-- Watchpoints: first byte, length, loads, writes. -/
  wp : List (Nat × Nat × Bool × Bool)
  deriving DecidableEq, Repr

/-- The context block as read (R242). -/
structure CtxBlock where
  lqtab : Nat
  strtab : Nat
  strn : Nat
  save : Nat
  savesz : Nat
  trapbase : Nat
  svcring : Nat
  deriving DecidableEq, Repr

/-- A started launch (R245, R247, R252). -/
structure Launch where
  launchId : Word
  desc : Nat
  queue : Nat
  pri : Nat
  kentry : Pc
  ap : Option Pc
  cloak : Nat
  cloakN : Nat
  /-- Cloakroom areas in use (R254). -/
  cloakUsed : List Nat
  gangs : Nat
  groups : Nat
  blocks : Nat
  minRegs : Nat
  /-- Declared scratchpad in bytes. -/
  scratch : Nat
  args : List Word
  sets : BitVec 256
  nextGang : Nat
  /-- Blocks that have started and not ended. -/
  resident : Nat
  /-- The cores on which its access processor has been started (R136). -/
  apOn : List Nat
  aborted : Bool
  deriving DecidableEq, Repr

/-- What a queue's head keeps (R247): the descriptor address, and the waited events as read; a bad address is not read. The events that
its start consumes are those that its descriptor, once read, names. -/
structure QHead where
  desc : Nat
  bad : Bool
  waits : BitVec 256
  consume : BitVec 256
  deriving DecidableEq, Repr

/-- A launch queue as the scheduler knows it. -/
structure LQueue where
  tail : Word
  /-- `QHEAD` once the scheduler has read it, and `BADDESC` with it: only the scheduler changes them (R3, R244). -/
  qhead : Option Word
  bad : Bool
  head : Option QHead
  /-- The descriptor address of a head whose reading a record holds; 0 where its slot has not been read (R304). -/
  taking : Option Nat
  /-- The launch it started last. -/
  last : Option Nat
  held : Option Nat
  /-- An append whose access a record holds (R304): core, slot and number of its group, and whether the host has answered `FAIL`. -/
  app : Option (Nat × Nat × Nat × Bool)
  /-- `QEN` as last seen: its rise clears `BADDESC` (R244). -/
  en : Bool
  deriving DecidableEq, Repr

def LQueue.reset : LQueue := ⟨0, none, false, none, none, none, none, none, false⟩

/-- What a slot edge saves of a context on one core (R269). -/
structure SavedCore where
  core : Nat
  groups : FMap Group
  blocks : FMap Block
  apq : Option ApQueues
  boxes : List MsgBox
  sends : List SendOp
  trapOwner : Option Nat
  trapQueue : List Nat
  deriving DecidableEq, Repr

/-- A saved context: its cores, and its tiles by cluster and physical number. (Log entry 14, DESIGN CHOICE, unsafe.) -/
structure SavedCtx where
  half : Nat
  cores : List SavedCore
  tiles : List (Nat × FMap Tile)
  deriving DecidableEq, Repr

structure Tenant where
  /-- The context register (R261); its reset value is log entry 8, DESIGN CHOICE, unsafe. -/
  ctxReg : DWord
  s1root : DWord
  block : Option CtxBlock
  trap : Option TrapDesc
  events : BitVec 256
  launchCtr : Word
  /-- Started launches, by order of their start. -/
  launches : FMap Launch
  launchSeq : Nat
  queues : FMap LQueue
  streams : FMap Stream
  saved : Option SavedCtx
  /-- Half of the split files in use (R264). -/
  half : Nat
  /-- A read of the context block or the trap descriptor is held by a record (R304). -/
  held : Option Nat
  /-- The read of the context block has failed; a write of the context register clears it (R242). -/
  blockFail : Bool
  /-- The read of the trap descriptor has failed. -/
  trapFail : Bool
  thrloss : DWord
  thrlatch : Word
  edgewait : Word
  overruns : Word
  deriving DecidableEq, Repr

def Tenant.reset : Tenant :=
  { ctxReg := 0, s1root := 0, block := none, trap := none, events := 0, launchCtr := 0, launches := [], launchSeq := 0,
    queues := [], streams := [], saved := none, half := 0, held := none, blockFail := false, trapFail := false, thrloss := 0, thrlatch := 0, edgewait := 0,
    overruns := 0 }

/-- A gang that waits on a cluster (R252, R253). -/
structure WaitGang where
  ctx : Ctx
  launch : Nat
  gang : Nat
  placed : List Nat
  /-- Passes counted, and the cores of the cluster that it still needed at the fourth (R253). -/
  passes : Nat
  closed : List Nat
  deriving DecidableEq, Repr

/-- A slot edge, or a pre-emption, in progress (R265, R270). -/
structure Edge where
  out : Option Nat
  /-- Incoming row and tenant; none under a pre-emption. -/
  row : Option Nat
  inc : Option Nat
  /-- A donation of the row given (R263). -/
  donor : Option Nat
  /-- The microsecond of the wing's timing die at which it was scheduled (R262, R265). -/
  t0 : Nat
  grace1 : Bool
  grace2 : Bool
  /-- The outgoing tenant has been killed (R268). -/
  killed : Bool
  deriving DecidableEq, Repr

structure Wing where
  en : Bool
  s2root : DWord
  fqbase : DWord
  fqtail : Word
  fqhead : Word
  fqlog : BitVec 5
  fqrseq : Word
  fqlost : Word
  xscope : BitVec 2
  xten : BitVec 3
  xaddr : DWord
  faults : List FaultRec
  faultCtr : Nat
  tenants : FMap Tenant
  nfq : Bool
  nsvc : BitVec 8
  nmask : BitVec 9
  wclu : BitVec 96
  wl2s : BitVec 96
  wweng : BitVec 96
  wcopy : BitVec 96
  wchan : BitVec 256
  whq : BitVec 32
  /-- Slot table (R260): rows of 128 bits. -/
  rows : FMap (BitVec 128)
  /-- The rows in effect: each as it stood at its last start, or when the wing was enabled (R260). -/
  eff : FMap (BitVec 128)
  /-- `RINGW`, `BRGW`, `JOESHW`, `HOSTW`. -/
  weights : BitVec 32
  preempt : Bool
  pdone : Bool
  tblerr : Bool
  row : BitVec 5
  curt : BitVec 3
  grace1 : BitVec 16
  grace2 : BitVec 20
  xbusy : Bool
  /-- A tenant's slot runs (R262). -/
  running : Bool
  /-- The current row as it stood at its start (R260). -/
  curRow : BitVec 128
  edge : Option Edge
  /-- `EN` was written 0 while the wing ran (R270). -/
  disabling : Bool
  /-- The row that has donated its rest (R263). -/
  donated : Option Nat
  /-- Waiting gangs, by 128 × tenant + cluster. -/
  waiting : FMap WaitGang
  deriving DecidableEq, Repr

def Wing.reset : Wing :=
  { en := false, s2root := 0, fqbase := 0, fqtail := 0, fqhead := 0, fqlog := 0, fqrseq := 0, fqlost := 0,
    xscope := 0, xten := 0, xaddr := 0, faults := [], faultCtr := 0, tenants := [], nfq := false, nsvc := 0, nmask := 0,
    wclu := 0, wl2s := 0, wweng := 0, wcopy := 0, wchan := 0, whq := 0, rows := [], eff := [],
    weights := 0x01010101, preempt := false, pdone := false, tblerr := false, row := 0, curt := 0, grace1 := 50,
    grace2 := 500, xbusy := false, running := false, curRow := 0, edge := none, disabling := false, donated := none,
    waiting := [] }

/-! ### The whole device -/

/-- What moves next (log entry 3, DESIGN CHOICE, safe). -/
inductive Turn where
  | event (i : Instr)
  | issue (core slot : Nat)
  /-- Arithmetic cycles pass (log entry 4, DESIGN CHOICE, unsafe). -/
  | tick (n : Nat)
  /-- A core receives some of them, and throttling withholds others (R16, R267). -/
  | cycles (core given withheld : Nat)
  /-- An L1 drops a line, and an L2 slice a sector, on its own (R128, R129). -/
  | l1Evict (core line : Nat)
  | l2Evict (cluster sector : Nat)
  /-- A core drops the code words that it keeps (R78). -/
  | codeDrop (core : Nat)
  /-- A home slice writes a line back to DRAM and drops it (R130, R131). -/
  | homeEvict (line : Nat)
  /-- A DRAM granule has a correctable error; a demand write will come before the write-back that a read of it makes (R148). -/
  | dramError (granule : Nat) (intervened : Bool)
  /-- Data of the host, or behind a port, is marked as poisoned (R312). -/
  | farPoison (l : PLoc)
  /-- A peer refuses accesses to 64 KiB behind a port, or accepts them again (R321). -/
  | peerRefuse (port page : Nat) (refuse : Bool)
  /-- The slot sequencer of a die counts microseconds (R14, R15). -/
  | micro (die n : Nat)
  /-- The Milusk controller settles the live units that the next reset brings (R18, R20). -/
  | fuses (clu : BitVec 96) (chan : BitVec 256)
  deriving DecidableEq, Repr

/-- A write to peer memory on its way through a Joesh port (R180). -/
structure PeerWrite where
  ctx : Ctx
  core : Nat
  slot : Nat
  age : Nat
  flag : Option Nat
  a : Nat
  bytes : List Byte
  deriving DecidableEq, Repr

/-- A pinned line of a home slice and the context whose ways hold it (R132). -/
structure Pin where
  line : Nat
  ctx : Ctx
  deriving DecidableEq, Repr

/-- A line that a home slice holds, in the ways of a context (R130, R131): its `EP`, its last use, and whether a store with `LU`
made it the next to be evicted. -/
structure HomeLine where
  line : Nat
  ctx : Ctx
  ep : Nat
  use : Nat
  last : Bool
  deriving DecidableEq, Repr

/-- The counters of a channel (R149). -/
structure Channel where
  refwait : DWord
  latch : Word
  pinbyp : Word
  scrubdrop : BitVec 16
  scrubfix : BitVec 16
  deriving DecidableEq, Repr

def Channel.reset : Channel := ⟨0, 0, 0, 0, 0⟩

/-- The registers of a Joesh port (R321). -/
structure Port where
  jup : Bool
  jen : Bool
  jwing : BitVec 5
  jten : BitVec 3
  jretry : Word
  deriving DecidableEq, Repr

def Port.reset : Port := ⟨false, false, 0, 0, 0⟩

/-- An attestation mailbox (R324), with what an accepted request has captured: its operation, its buffer, and the signed part of a
report. -/
structure Mailbox where
  nonce : BitVec 256
  buf : DWord
  go : Bool
  err : Bool
  op : Bool
  goOp : Bool
  goBuf : DWord
  captured : List Byte
  deriving DecidableEq, Repr

def Mailbox.reset : Mailbox := ⟨0, 0, false, false, false, false, 0, []⟩

/-- The device. The fuses at reset are log entry 5, DESIGN CHOICE, unsafe; what was observed last, log entry 68, DESIGN CHOICE, safe. -/
structure State where
  turns : List Turn
  choices : List Nat
  freeCtr : Nat
  clock : Nat
  focusCore : Nat
  focusSlot : Nat
  liveClu : BitVec 96
  liveChan : BitVec 256
  stepping : BitVec 8
  /-- The live units from the next reset on, where the Milusk controller changes them (R20). -/
  newFuses : Option (BitVec 96 × BitVec 256)
  /-- Microseconds that the slot sequencer of each die has counted (R14). -/
  micros : FMap Nat
  cores : FMap Core
  clusters : FMap Cluster
  wings : FMap Wing
  mem : Memory
  dram : Memory
  /-- The lines that the home slices hold; DRAM alone holds the others (R130). -/
  slice : List HomeLine
  /-- Granules of DRAM with a correctable error, and whether a demand write comes before the write-back (R148). -/
  correctable : FMap Bool
  /-- Counts uses of cached lines (R131). -/
  useCtr : Nat
  poison : List Nat
  /-- Poisoned granules of host memory, and behind each port (R312). -/
  hostBad : List Nat
  peerBad : FMap (List Nat)
  /-- What a peer refuses, by port: numbers of 64 KiB (R321). -/
  peerRefused : FMap (List Nat)
  lastRel : FMap RelMark
  pins : List Pin
  channels : FMap Channel
  /-- Refreshes postponed, by bank (R147). -/
  postponed : FMap Nat
  hostMem : Memory
  peerMem : FMap Memory
  /-- Writes to peer memory not yet acknowledged, by port, oldest first. -/
  peerOut : FMap (List PeerWrite)
  ports : FMap Port
  /-- Messages that have left through a port, oldest first (R320). -/
  peerMsgs : FMap (List Msg)
  /-- MSI-X messages sent: function (24 the physical one) and vector (R319, R327). -/
  msi : List (Nat × Nat)
  stopped : Bool
  booterr : Bool
  plimit : BitVec 16
  clkstep : BitVec 5
  temp : BitVec 8
  /-- Mailboxes by view: 0 to 23 the wings', 24 the physical function's. -/
  mailboxes : FMap Mailbox
  reports : Word
  /-- What the last host read of device memory returned (R179): nothing for an Unsupported Request. -/
  hostRead : Option (List Byte)
  /-- The data it returned was marked as poisoned (R312). -/
  hostPoison : Bool
  /-- What the last read or atomic through a Joesh port returned (R321): nothing where it was refused. -/
  peerReply : Option (List Byte)
  deriving DecidableEq, Repr

def State.reset : State :=
  { turns := [], choices := [], freeCtr := 0, clock := 0, focusCore := 0, focusSlot := 0,
    liveClu := BitVec.allOnes 96, liveChan := BitVec.allOnes 256, stepping := 0, newFuses := none, micros := [],
    cores := [], clusters := [], wings := [], mem := [], dram := [], slice := [], correctable := [], useCtr := 0, poison := [], hostBad := [],
    peerBad := [], peerRefused := [], lastRel := [], pins := [],
    channels := [], postponed := [], hostMem := [], peerMem := [], peerOut := [], ports := [], peerMsgs := [], msi := [],
    stopped := false, booterr := false, plimit := 2400, clkstep := 16, temp := 0, mailboxes := [], reports := 0, hostRead := none, hostPoison := false, peerReply := none }

/-- Faults of the model itself: the machine has none, every stop of the spec being a trap, a park, a hold or an abort. -/
inductive Fault where
  /-- Raised by a code word's meaning when no group is executing a clause at the focus of issue: there is nothing of the
  device to step. Safe: the device issues a code word only for a group. -/
  | noIssuer
  deriving DecidableEq, Repr

/-- Refusals of the model. -/
inductive Refusal where
  /-- Raised by the dispatcher for an instruction that has no meaning yet. Safe. -/
  | notModelled (mnemonic : String)
  deriving DecidableEq, Repr

/-- The outcome of a step of this machine. -/
abbrev Out := Host.Outcome State Fault Refusal

end Sys2Proof.Machine
end

