-- ==== Sys2Proof/Machine/Base.lean ====
section
/-!
DEFINITION. Reading and writing the parts of the state, sets of lanes, bytes of memory, and the model's own devices: resolved
choices and free values.
-/
namespace Sys2Proof.Machine

/-! ### Sets of lanes -/

def laneBit (l : Nat) : LaneSet := BitVec.ofNat 64 (2 ^ l)

/-- The lanes of a set in ascending order. -/
def lanesOf (m : LaneSet) : List Nat := (List.range 64).filter (fun l => m.getLsbD l)

/-- The lanes that satisfy a test. -/
def laneSetOf (f : Nat → Bool) : LaneSet :=
  BitVec.ofNat 64 ((List.range 64).foldl (fun a l => if f l then a + 2 ^ l else a) 0)

def laneSetOfList (ls : List Nat) : LaneSet := ls.foldl (fun a l => a ||| laneBit l) 0

def hasLane (m : LaneSet) (l : Nat) : Bool := m.getLsbD l

/-- The lowest lane of a set; 0 of the empty set. -/
def lowLane (m : LaneSet) : Nat := ((lanesOf m).head?).getD 0

def allLanes : LaneSet := BitVec.allOnes 64

/-- Put a value before the first of a list that it does not come after. -/
def insertBy {α : Type} (le : α → α → Bool) (x : α) : List α → List α
  | [] => [x]
  | y :: ys => if le x y then x :: y :: ys else y :: insertBy le x ys

/-- A list in order; equals keep their places. -/
def sortBy {α : Type} (le : α → α → Bool) (xs : List α) : List α := xs.foldr (insertBy le) []

/-! ### Parts of the state -/

def getCore (s : State) (c : Nat) : Core := sget Core.reset s.cores c

def setCore (s : State) (c : Nat) (k : Core) : State := { s with cores := sset Core.reset s.cores c k }

def getCluster (s : State) (n : Nat) : Cluster := sget Cluster.reset s.clusters n

def setCluster (s : State) (n : Nat) (k : Cluster) : State := { s with clusters := sset Cluster.reset s.clusters n k }

def getWing (s : State) (w : Nat) : Wing := sget Wing.reset s.wings w

def setWing (s : State) (w : Nat) (k : Wing) : State := { s with wings := sset Wing.reset s.wings w k }

def getTenant (s : State) (x : Ctx) : Tenant := sget Tenant.reset (getWing s x.wing).tenants x.ten

def setTenant (s : State) (x : Ctx) (t : Tenant) : State :=
  let w := getWing s x.wing
  setWing s x.wing { w with tenants := sset Tenant.reset w.tenants x.ten t }

def getGroup (s : State) (c k : Nat) : Option Group := fget (getCore s c).groups k

def setGroup (s : State) (c k : Nat) (g : Group) : State :=
  let q := getCore s c
  setCore s c { q with groups := fset q.groups k g }

def dropGroup (s : State) (c k : Nat) : State :=
  let q := getCore s c
  setCore s c { q with groups := ferase q.groups k }

/-- The cluster of a core (R10). -/
def clusterOf (c : Nat) : Nat := c / 4

def laneSt (g : Group) (l : Nat) : LaneSt := sget (LaneSt.start 0) g.lanes l

def setLane (g : Group) (l : Nat) (x : LaneSt) : Group := { g with lanes := sset (LaneSt.start 0) g.lanes l x }

/-- Change the state of every lane of a set. -/
def mapLanes (g : Group) (m : LaneSet) (f : Nat → LaneSt → LaneSt) : Group :=
  (lanesOf m).foldl (fun g l => setLane g l (f l (laneSt g l))) g

def getMarker (g : Group) (k : Nat) : Marker := sget ⟨0, 0⟩ g.markers k

def setMarker (g : Group) (k : Nat) (m : Marker) : Group := { g with markers := sset ⟨0, 0⟩ g.markers k m }

/-- Number of outstanding operations of a completion flag. -/
def flagCount (g : Group) (f : Nat) : Nat := sget 0 g.flags f

def setFlagCount (g : Group) (f n : Nat) : Group := { g with flags := sset 0 g.flags f n }

def flagUp (g : Group) : Option Nat → Group
  | none => g
  | some f => setFlagCount g f (flagCount g f + 1)

def flagDown (g : Group) : Option Nat → Group
  | none => g
  | some f => setFlagCount g f (flagCount g f - 1)

/-- The group of a slot, if it is still the one of the age given. -/
def groupOfAge (s : State) (c k age : Nat) : Option Group :=
  match getGroup s c k with
  | some g => if g.id.age == age then some g else none
  | none => none

/-- One outstanding operation of a flag of the group that issued it has completed (R80). -/
def flagDone (s : State) (c k age : Nat) (f : Option Nat) : State :=
  match groupOfAge s c k age with
  | some g => setGroup s c k (flagDown g f)
  | none => s

def isWindow (g : Group) : Bool :=
  match g.kind with
  | .window .. => true
  | _ => false

def isAp (g : Group) : Bool := g.kind == .ap

def inHandler (g : Group) : Bool := g.handler.isSome

/-- `STREAMID` (R96). -/
def streamOf (g : Group) : Word :=
  match g.kind with
  | .window st _ => BitVec.ofNat 32 st
  | _ => 0xFFFFFFFF

/-! ### The slot table (R260) -/

def getRow (w : Wing) (r : Nat) : BitVec 128 := sget 0 w.rows r

def rowValid (v : BitVec 128) : Bool := v.getLsbD 31

def rowTenant (v : BitVec 128) : Nat := (v.extractLsb' 28 3).toNat

/-- The tenants that the valid rows of a table name. -/
def rowTenants (m : FMap (BitVec 128)) : List Nat := ((m.filter (fun r => rowValid r.2)).map (fun r => rowTenant r.2)).eraseDups

/-- The valid rows in effect name more than one tenant: files and slots are split in halves (R260, R264). -/
def splitWing (s : State) (w : Nat) : Bool := decide (1 < (rowTenants (getWing s w).eff).length)

/-- The row in effect of a tenant (R260). -/
def tenantRow (w : Wing) (t : Nat) : Option (BitVec 128) :=
  (w.eff.find? (fun r => rowValid r.2 && rowTenant r.2 == t)).map (·.2)

/-! ### The model's own devices -/

/-- Take the next resolved choice among n possibilities; the first where none is listed (log entry 9, DESIGN CHOICE, safe). -/
def choose (s : State) (n : Nat) : Nat × State :=
  match s.choices with
  | [] => (0, s)
  | k :: ks => (k % n, { s with choices := ks })

/-- A fresh free value (log entry 10, DESIGN CHOICE, safe). -/
def freshWord (s : State) : Word × State := (Config.freeWord s.freeCtr, { s with freeCtr := s.freeCtr + 1 })

/-! ### Bytes -/

def memByte (m : Memory) (a : Nat) : Byte := sget 0 m a

def memRead (m : Memory) (a n : Nat) : List Byte := (List.range n).map (fun i => memByte m (a + i))

def memWrite (m : Memory) (a : Nat) : List Byte → Memory
  | [] => m
  | b :: bs => memWrite (sset 0 m a b) (a + 1) bs

/-- The listed bytes of a range, by their offset in it. -/
def memSlice (m : Memory) (a n : Nat) : Memory :=
  (m.filter (fun p => decide (a ≤ p.1) && decide (p.1 < a + n))).map (fun p => (p.1 - a, p.2))

/-- A range replaced by bytes given by their offset in it, the others 0; only at addresses that a test admits. -/
def memPut (may : Nat → Bool) (m : Memory) (a n : Nat) (cells : Memory) : Memory :=
  (cells.filter (fun p => decide (p.1 < n) && may (a + p.1))).foldl (fun m p => sset 0 m (a + p.1) p.2)
    (m.filter (fun p => !(decide (a ≤ p.1) && decide (p.1 < a + n) && may p.1)))

/-- The number a list of bytes holds, little-endian (R2). -/
def leNat : List Byte → Nat
  | [] => 0
  | b :: bs => b.toNat + 256 * leNat bs

/-- A number as n bytes, little-endian (R2). -/
def leBytes : Nat → Nat → List Byte
  | 0, _ => []
  | n + 1, v => BitVec.ofNat 8 v :: leBytes n (v / 256)

def zeroBytes (n : Nat) : List Byte := List.replicate n 0

/-- Read a field of a structure held in bytes. -/
def fieldAt (bs : List Byte) (off n : Nat) : Nat := leNat ((bs.drop off).take n)

/-- Bits [hi:lo] of a number. -/
def bitsOf (v hi lo : Nat) : Nat := v / 2 ^ lo % 2 ^ (hi - lo + 1)

def testBit (v i : Nat) : Bool := v / 2 ^ i % 2 == 1

/-! ### Homes -/

/-- Size of a single-copy atomic unit (R120). -/
def unitSize : Tgt → Nat
  | .scr .. => 64
  | .dev => 32
  | _ => 8

/-- A number for a place, distinct over homes. -/
def locKey (l : PLoc) : Nat :=
  match l.tgt with
  | .dev => l.a
  | .host => 2 ^ 60 + l.a
  | .peer p => 2 ^ 64 * (1 + p) + l.a
  | .scr c b => 2 ^ 70 * (1 + c * 256 + b) + l.a

def locAdd (l : PLoc) (n : Nat) : PLoc := ⟨l.tgt, l.a + n⟩

def getBlock (s : State) (c b : Nat) : Option Block := fget (getCore s c).blocks b

def setBlock (s : State) (c b : Nat) (k : Block) : State :=
  let q := getCore s c
  setCore s c { q with blocks := fset q.blocks b k }

/-- What the home holds; of a scratchpad whose block has ended, free values (log entry 18, DESIGN CHOICE, unsafe).
(Log entry 2, DESIGN CHOICE, unsafe.) -/
def homeRead (s : State) (l : PLoc) (n : Nat) : List Byte :=
  match l.tgt with
  | .dev => memRead s.mem l.a n
  | .host => memRead s.hostMem l.a n
  | .peer p => memRead (sget [] s.peerMem p) l.a n
  | .scr c b =>
    match getBlock s c b with
    | some k => memRead k.mem l.a n
    | none => (List.range n).map (fun j => Config.goneByte b (l.a + j))

/-- A place behind a Joesh port whose link is down, or that the peer refuses (R321). (Log entry 57, DEDUCED, unsafe.) -/
def peerDown (s : State) (l : PLoc) : Bool :=
  match l.tgt with
  | .peer p => !(sget Port.reset s.ports p).jup || (sget [] s.peerRefused p).contains (l.a / 65536)
  | _ => false

/-- The granules of 32 B that a range touches, by their first address. -/
def granulesOf (a n : Nat) : List Nat :=
  if n == 0 then [] else (List.range ((a + n - 1) / 32 - a / 32 + 1)).map (fun i => (a / 32 + i) * 32)

/-- The units of a home that a range touches, by key. -/
def unitsOf (l : PLoc) (n : Nat) : List Nat :=
  let u := unitSize l.tgt
  if n == 0 then [] else (List.range ((l.a + n - 1) / u - l.a / u + 1)).map (fun i => locKey ⟨l.tgt, (l.a / u + i) * u⟩)

/-- Whether a range covers a whole block of a size that begins at an address. -/
def covers (a n g size : Nat) : Bool := decide (a ≤ g) && decide (g + size ≤ a + n)

/-- Whether a home slice holds a line of device memory (R130). -/
def inSlice (s : State) (line : Nat) : Bool := s.slice.any (fun h => h.line == line)

/-- Write to DRAM the bytes of a range whose lines no home slice holds (R130, R133). -/
def dramWrite (s : State) (m : Memory) (a : Nat) : List Byte → Memory
  | [] => m
  | b :: bs => dramWrite s (if inSlice s (a / 128) then m else sset 0 m a b) (a + 1) bs

/-- A write at the home: it enters coherence order, ends the unit's last release (R169), and clears the poison of what it
covers whole (R312). A device line that no home slice holds is written in DRAM as well (R130, R133). -/
def homeWrite (s : State) (l : PLoc) (bs : List Byte) : State :=
  let n := bs.length
  let s := { s with lastRel := (unitsOf l n).foldl ferase s.lastRel }
  match l.tgt with
  | .dev => { s with mem := memWrite s.mem l.a bs, dram := dramWrite s s.dram l.a bs,
                     poison := s.poison.filter (fun g => !covers l.a n g 32) }
  | .host => { s with hostMem := memWrite s.hostMem l.a bs, hostBad := s.hostBad.filter (fun g => !covers l.a n g 32) }
  | .peer p => { s with peerMem := sset [] s.peerMem p (memWrite (sget [] s.peerMem p) l.a bs),
                        peerBad := sset [] s.peerBad p ((sget [] s.peerBad p).filter (fun g => !covers l.a n g 32)) }
  | .scr c b =>
    match getBlock s c b with
    | some k => setBlock s c b { k with mem := memWrite k.mem l.a bs, poison := k.poison.filter (fun g => !covers l.a n g 128) }
    | none => s

/-- A write at the home of n bytes given by their offset, the others 0: as `homeWrite`, for large structures of mostly zeros. -/
def homePut (s : State) (l : PLoc) (n : Nat) (cells : Memory) : State :=
  let k := locKey l / unitSize l.tgt * unitSize l.tgt
  let s := { s with lastRel := s.lastRel.filter (fun r => !(decide (k ≤ r.1) && decide (r.1 < locKey l + n))) }
  let all := fun (_ : Nat) => true
  match l.tgt with
  | .dev => { s with mem := memPut all s.mem l.a n cells, dram := memPut (fun a => !inSlice s (a / 128)) s.dram l.a n cells,
                     poison := s.poison.filter (fun g => !covers l.a n g 32) }
  | .host => { s with hostMem := memPut all s.hostMem l.a n cells, hostBad := s.hostBad.filter (fun g => !covers l.a n g 32) }
  | .peer p => { s with peerMem := sset [] s.peerMem p (memPut all (sget [] s.peerMem p) l.a n cells),
                        peerBad := sset [] s.peerBad p ((sget [] s.peerBad p).filter (fun g => !covers l.a n g 32)) }
  | .scr c b =>
    match getBlock s c b with
    | some k => setBlock s c b { k with mem := memPut all k.mem l.a n cells, poison := k.poison.filter (fun g => !covers l.a n g 128) }
    | none => s

/-- The listed bytes of n bytes at a home, by their offset. -/
def homeSlice (s : State) (l : PLoc) (n : Nat) : Memory :=
  match l.tgt with
  | .dev => memSlice s.mem l.a n
  | .host => memSlice s.hostMem l.a n
  | .peer p => memSlice (sget [] s.peerMem p) l.a n
  | .scr c b => match getBlock s c b with | some k => memSlice k.mem l.a n | none => []

/-- The first poisoned granule (or scratchpad line) that a read touches (R312). -/
def poisonIn (s : State) (l : PLoc) (n : Nat) : Option Nat :=
  match l.tgt with
  | .dev => (granulesOf l.a n).find? (fun g => s.poison.contains g)
  | .scr c b =>
    match getBlock s c b with
    | some k => if k.poison.isEmpty then none else ((granulesOf l.a n).map (fun g => g / 128 * 128)).find? (fun g => k.poison.contains g)
    | none => none
  | .host => (granulesOf l.a n).find? (fun g => s.hostBad.contains g)
  | .peer p => (granulesOf l.a n).find? (fun g => (sget [] s.peerBad p).contains g)

/-! ### Words of a group's identity -/

def bw (n : Nat) : Word := BitVec.ofNat 32 n

def popCount (n : Nat) : Nat → Nat
  | 0 => 0
  | k + 1 => (if testBit n k then 1 else 0) + popCount n k

/-- Unit counts laid out as `CAPUNITS` (R22). (Log entry 5, DESIGN CHOICE, unsafe.) -/
def capUnits (l2s weng chan clus : Nat) : Word := bw (l2s * 2 ^ 23 + weng * 2 ^ 16 + chan * 2 ^ 7 + clus)

/-- `CAPUNITS` of a wing. -/
def wingUnits (w : Wing) : Word :=
  capUnits (popCount w.wl2s.toNat 96) (popCount w.wweng.toNat 96) (popCount w.wchan.toNat 256) (popCount w.wclu.toNat 96)

/-- The number of the n-th set bit of a mask from bit i up; the first argument bounds the bits. -/
def nthBit (m : Nat) : Nat → Nat → Nat → Option Nat
  | 0, _, _ => none
  | k + 1, i, n => if testBit m i then (match n with | 0 => some i | n + 1 => nthBit m k (i + 1) n) else nthBit m k (i + 1) n

/-- A device address lies within a wing's own channels (R257, R296): the n-th live channel has the n-th 1.5 GiB of the address
space. (Log entry 29, DEDUCED, unsafe.) -/
def ownsAddr (s : State) (w : Wing) (a : Nat) : Bool :=
  match nthBit s.liveChan.toNat Config.numChannels 0 (a / Config.channelBytes) with
  | some c => w.wchan.getLsbD c
  | none => false

/-- Bytes of live device memory (R13, R21). -/
def deviceBytes (s : State) : Nat := popCount s.liveChan.toNat 256 * Config.channelBytes

end Sys2Proof.Machine
end

