-- ==== Sys2Proof/Machine/Trans.lean ====
section
/-!
DEFINITION. Two-stage translation: the radix walk, the translation caches, and the rights (R296 to R301).
-/
namespace Sys2Proof.Machine

/-- A leaf that a walk ends at. -/
structure Leaf where
  out : Nat
  log : Nat
  pte : Nat
  deriving DecidableEq, Repr

/-- The levels of the tables: lowest index bit and number of index bits (R297). -/
def xlLevels : List (Nat × Nat) := [(48, 8), (39, 9), (30, 9), (21, 9), (16, 5), (12, 4)]

/-- Whether a valid entry breaks a limit of R298 or R299 at its level. -/
def pteBad (stage2 : Bool) (log lvl pte : Nat) : Bool :=
  let isTable := testBit pte 1
  let port := bitsOf pte 62 60
  let tgt := bitsOf pte 59 58
  let own := bitsOf pte 57 56
  testBit pte 63 || bitsOf pte 11 8 != 0 || testBit pte 6
    || (isTable && lvl == 5) || (!isTable && lvl < 2)
    || (if isTable || !stage2 then port != 0 || tgt != 0 || own != 0
        else (tgt != 2 && port != 0) || tgt == 3 || (tgt != 0 && own != 0) || own == 3)
    || (!isTable && pte / 2 ^ 12 % 2 ^ 44 * 2 ^ 12 % 2 ^ log != 0)

/-- Walk the levels given from a table; `rd` reads a table entry of this stage. -/
def walkFrom (stage2 : Bool) (rd : Nat → Except XlFault Nat) (va : Nat) : List (Nat × Nat) → Nat → Nat → Except XlFault Leaf
  | [], _, _ => .error ⟨false, stage2, false⟩
  | (sh, nb) :: ls, lvl, tbl =>
    match rd (tbl + 8 * (va / 2 ^ sh % 2 ^ nb)) with
    | .error f => .error f
    | .ok pte =>
      if !testBit pte 0 then .error ⟨!testBit pte 7, stage2, false⟩
      else if pteBad stage2 sh lvl pte then .error ⟨false, stage2, false⟩
      else
        let oa := pte / 2 ^ 12 % 2 ^ 44 * 2 ^ 12
        if testBit pte 1 then walkFrom stage2 rd va ls (lvl + 1) oa
        else .ok ⟨oa + va % 2 ^ sh, sh, pte⟩

/-- Stage 2: an intermediate address (R296). -/
def walkStage2 (s : State) (w : Wing) (ia : Nat) : Except XlFault Leaf :=
  if w.s2root == 0 then .error ⟨false, true, false⟩
  else walkFrom true (fun a => .ok (leNat (memRead s.mem a 8))) ia xlLevels 0 w.s2root.toNat

/-- The target of a stage-2 leaf. A page outside the wing's own channels, or of the host for a wing that owns no host queue
(R259), is a fault that no replay mends. -/
def leafTgt (s : State) (w : Wing) (l : Leaf) : Except XlFault Tgt :=
  match bitsOf l.pte 59 58 with
  | 0 => if ownsAddr s w l.out then .ok .dev else .error ⟨false, true, false⟩
  | 1 => if w.whq == 0 then .error ⟨false, true, false⟩ else .ok .host
  | _ => .ok (.peer (bitsOf l.pte 62 60))

/-- The entry of a stage-1 table, its address translated by stage 2; every table lies in device memory (R297). -/
def readStage1 (s : State) (w : Wing) (ia : Nat) : Except XlFault Nat :=
  match walkStage2 s w ia with
  | .error f => .error f
  | .ok l =>
    match leafTgt s w l with
    | .ok .dev => if l.log == 12 then .error ⟨false, true, false⟩ else .ok (leNat (memRead s.mem l.out 8))
    | .ok _ => .error ⟨false, true, false⟩
    | .error f => .error f

/-- A whole walk (R299): the combined translation of a page. (Log entry 29, DEDUCED, unsafe.) -/
def walk (s : State) (x : Ctx) (va : Nat) : Except XlFault TlbEntry :=
  let w := getWing s x.wing
  let root := (getTenant s x).s1root
  if root == 0 then .error ⟨false, false, false⟩
  else
    match walkFrom false (readStage1 s w) va xlLevels 0 root.toNat with
    | .error f => .error f
    | .ok l1 =>
      match walkStage2 s w l1.out with
      | .error f => .error f
      | .ok l2 =>
        match leafTgt s w l2 with
        | .error f => .error f
        | .ok t =>
          let log := min l1.log l2.log
          if log == 12 && t != .host then .error ⟨false, l2.log == 12, false⟩
          else
            let off := va % 2 ^ log
            .ok { ctx := x, va := va - off, log := log, log1 := l1.log, loc := ⟨t, l2.out - off⟩,
                  r := testBit l1.pte 2 && testBit l2.pte 2, w := testBit l1.pte 3 && testBit l2.pte 3,
                  x := testBit l1.pte 4 && testBit l2.pte 4, sup := testBit l1.pte 5, own := bitsOf l2.pte 57 56 }

/-- The level at which a walk of the levels given fails, as the base-2 logarithm of what its entry maps; 0 where it ends at a
leaf. -/
def spanFrom (stage2 : Bool) (rd : Nat → Except XlFault Nat) (va : Nat) : List (Nat × Nat) → Nat → Nat → Nat
  | [], _, _ => 12
  | (sh, nb) :: ls, lvl, tbl =>
    match rd (tbl + 8 * (va / 2 ^ sh % 2 ^ nb)) with
    | .error _ => sh
    | .ok pte =>
      if !testBit pte 0 || pteBad stage2 sh lvl pte then sh
      else if testBit pte 1 then spanFrom stage2 rd va ls (lvl + 1) (pte / 2 ^ 12 % 2 ^ 44 * 2 ^ 12)
      else 0

/-- What a walk that fails was about to map: an access that leaves it crosses a page (R122), whatever page the host puts there.
(Log entry 28, DEDUCED, unsafe.) -/
def failSpan (s : State) (x : Ctx) (va : Nat) : Nat :=
  let w := getWing s x.wing
  let root := (getTenant s x).s1root
  if root == 0 then 56
  else
    match walkFrom false (readStage1 s w) va xlLevels 0 root.toNat with
    | .error _ => spanFrom false (readStage1 s w) va xlLevels 0 root.toNat
    | .ok l1 =>
      match walkStage2 s w l1.out with
      | .ok l2 => min l1.log l2.log
      | .error _ =>
        if w.s2root == 0 then l1.log
        else min l1.log (spanFrom true (fun a => .ok (leNat (memRead s.mem a 8))) l1.out xlLevels 0 w.s2root.toNat)

/-- Whether n bytes at an address leave a block of 2^log bytes. -/
def crosses (log va n : Nat) : Bool := decide (2 ^ log < va % 2 ^ log + n)

/-- The cached translation of an address. -/
def tlbFind (t : List TlbEntry) (x : Ctx) (va : Nat) : Option TlbEntry :=
  t.find? (fun e => e.ctx == x && e.va == va / 2 ^ e.log * 2 ^ e.log)

/-- The translation that a core has cached, in its own cache or its cluster's (R300). -/
def tlbLookup (s : State) (c : Nat) (x : Ctx) (va : Nat) : Option TlbEntry :=
  match tlbFind (getCore s c).tlb x va with
  | some e => some e
  | none => tlbFind (getCluster s (clusterOf c)).tlb x va

/-- Put a translation into both caches of a core. -/
def tlbInsert (s : State) (c : Nat) (e : TlbEntry) : State :=
  let k := getCore s c
  let s := setCore s c { k with tlb := (e :: k.tlb).take Config.coreTlbEntries }
  let n := getCluster s (clusterOf c)
  setCluster s (clusterOf c) { n with tlb := (e :: n.tlb).take Config.clusterTlbEntries }

/-- The place an address maps to under a translation. -/
def placeOf (e : TlbEntry) (va : Nat) : PLoc := locAdd e.loc (va - e.va)

/-- The rights an access needs. -/
structure Rights where
  r : Bool
  w : Bool
  x : Bool
  /-- A program access: a supervisor page refuses it (R298). -/
  prog : Bool
  deriving DecidableEq, Repr

def rightsLoad : Rights := ⟨true, false, false, true⟩
def rightsStore : Rights := ⟨false, true, false, true⟩
def rightsAtomic : Rights := ⟨true, true, false, true⟩
def rightsFetch : Rights := ⟨false, false, true, true⟩

def rightsOk (e : TlbEntry) (q : Rights) : Bool :=
  (!q.r || e.r) && (!q.w || e.w) && (!q.x || e.x) && !(q.prog && e.sup)

/-- Where a flat address lies. -/
def apertureAddr (va : Nat) : Bool := decide (Config.apertureBase ≤ va)

/-- An address that the device's own accesses cannot use: outside the flat space, or in the scratchpad aperture, which is not
translated (R117, R296). -/
def noFlat (va : Nat) : Bool := apertureAddr va || decide (2 ^ 56 ≤ va)

end Sys2Proof.Machine
end

