-- ==== Sys2Proof/Machine/Home.lean ====
section
/-!
DEFINITION. The home slices of device memory (R130 to R133, R148): their lines, evictions and pins, the fetch from DRAM, and what the
device's own reads, fetches of code and walks do there.
-/
namespace Sys2Proof.Machine

/-- Ways of the memory-side slices that a tenant's rows give it (R260); all of them for a context that no row in effect names.
(Log entry 12, DESIGN CHOICE, safe.) -/
def memWays (s : State) (x : Ctx) : Nat :=
  match tenantRow (getWing s x.wing) x.ten with
  | some r => popCount (r.extractLsb' 32 16).toNat 16
  | none => 16

/-- A fresh stamp of use (R131). -/
def stamp (s : State) : Nat × State := (s.useCtr, { s with useCtr := s.useCtr + 1 })

/-! ### Eviction (R131): a line marked by `LU`, then the lower `EP`, then the least recently used -/

def evictBefore (a b : HomeLine) : Bool :=
  if a.last != b.last then a.last else decide (a.ep < b.ep) || (a.ep == b.ep && decide (a.use < b.use))

/-- The line of a list that is evicted first. -/
def firstOut : List HomeLine → Option HomeLine
  | [] => none
  | h :: hs =>
    match firstOut hs with
    | none => some h
    | some b => if evictBefore b h then some b else some h

/-! ### The home slices (R130 to R133) -/

def lineOf (l : PLoc) : Nat := l.a / 128

def isPinned (s : State) (line : Nat) : Bool := s.pins.any (fun p => p.line == line)

/-- The channel that serves a line of device memory: one of the wing's own (R257), for an access without a wing a live one
(R130). -/
def channelOf (s : State) (w : Option Nat) (line : Nat) : Nat :=
  let own := match w with
    | some w => (getWing s w).wchan
    | none => s.liveChan
  let cs := (List.range Config.numChannels).filter (fun c => own.getLsbD c)
  cs.getD (Config.channelHash line % max 1 cs.length) 0

/-- Two lines lie in one set of one home slice: each channel has its own (R13). -/
def sameHomeSet (s : State) (w a b : Nat) : Bool :=
  Config.homeSet a % Config.homeSets == Config.homeSet b % Config.homeSets && channelOf s (some w) a == channelOf s (some w) b

/-- Every way of the set that a context may use is pinned (R133). -/
def setPinned (s : State) (x : Ctx) (line : Nat) : Bool :=
  let ps := s.pins.filter (fun p => p.ctx == x)
  if ps.length < memWays s x then false else decide (memWays s x ≤ (ps.filter (fun p => sameHomeSet s x.wing p.line line)).length)

def removePin (s : State) (line : Nat) : State := { s with pins := s.pins.filter (fun p => p.line != line) }

def getChannel (s : State) (ch : Nat) : Channel := sget Channel.reset s.channels ch

def setChannel (s : State) (ch : Nat) (k : Channel) : State := { s with channels := sset Channel.reset s.channels ch k }

/-- The write-back of a corrected granule is counted: made, or discarded for a demand write that came between (R148). -/
def countScrub (s : State) (ch : Nat) (intervened : Bool) : State :=
  let k := getChannel s ch
  let one := fun (v : BitVec 16) => if v == BitVec.allOnes 16 then v else v + 1
  setChannel s ch (if intervened then { k with scrubdrop := one k.scrubdrop } else { k with scrubfix := one k.scrubfix })

/-- A line is read from DRAM by a demand access: its correctable errors are corrected, and written back (R148). -/
def dramFetch (s : State) (x : Ctx) (line : Nat) : State :=
  let bad := s.correctable.filter (fun p => p.1 / 128 == line)
  bad.foldl (fun s p => countScrub { s with correctable := ferase s.correctable p.1 } (channelOf s (some x.wing) line) p.2) s

/-- A home slice writes a line back to DRAM (R130). -/
def lineToDram (s : State) (line : Nat) : State :=
  { s with dram := memWrite s.dram (line * 128) (memRead s.mem (line * 128) 128) }

/-- A home slice drops a line, written back to DRAM. -/
def homeDrop (s : State) (line : Nat) : State :=
  { lineToDram s line with slice := s.slice.filter (fun h => h.line != line) }

/-- Room for a line of a context in its set: where the context's ways are full, its first line out goes, pinned lines apart. -/
def homeRoom (s : State) (x : Ctx) (line : Nat) : State :=
  let own := s.slice.filter (fun h => h.ctx == x)
  if own.length < memWays s x then s
  else
    let here := own.filter (fun h => sameHomeSet s x.wing h.line line)
    if here.length < memWays s x then s
    else match firstOut (here.filter (fun h => !isPinned s h.line)) with
      | some h => homeDrop s h.line
      | none => s

/-- A demand access reaches the home slice of a device line, with its `EP` where it has one (R131): a miss is fetched from DRAM into
the context's ways, may take a pin, or is served without allocation and counted (R133). `last` is the hint `LU` of a store. -/
def homeTouch (s : State) (x : Ctx) (l : PLoc) (ep : Option Nat) (last : Bool) : State :=
  let line := lineOf l
  if l.tgt != .dev then s
  else
    let u := stamp s
    let pin := fun (s : State) => if ep == some 3 && !isPinned s line then { s with pins := ⟨line, x⟩ :: s.pins } else s
    if inSlice s line then
      if ep == some 3 && !isPinned s line && setPinned s x line then
        { u.2 with slice := s.slice.map (fun h => if h.line == line then { h with use := u.1 } else h) }
      else
        pin { u.2 with slice := s.slice.map (fun h =>
          if h.line == line then { h with use := u.1, ep := min 2 (ep.getD h.ep), last := last } else h) }
    else
      let s := dramFetch u.2 x line
      if setPinned s x line then
        let ch := channelOf s (some x.wing) line
        let k := getChannel s ch
        setChannel s ch { k with pinbyp := k.pinbyp + 1 }
      else
        let s := homeRoom s x line
        pin { s with slice := ⟨line, x, min 2 (ep.getD 0), u.1, last⟩ :: s.slice }

/-- `LU` on a load drops the line from the home slice without write-back: DRAM's bytes stand (R131). -/
def dropHomeLine (s : State) (line : Nat) : State :=
  removePin { s with mem := memWrite s.mem (line * 128) (memRead s.dram (line * 128) 128),
                     slice := s.slice.filter (fun h => h.line != line) } line

/-! ### The device's own accesses (R148, R301) -/

/-- Every line of a range of device memory is touched for a read or a write of a context; other places have no home slice. -/
def touchLines (s : State) (x : Ctx) (l : PLoc) (n : Nat) : State :=
  if l.tgt != .dev || n == 0 then s
  else (List.range ((l.a + n - 1) / 128 - l.a / 128 + 1)).foldl (fun s k => homeTouch s x ⟨.dev, (l.a / 128 + k) * 128⟩ none false) s

/-- The addresses of the entries that a walk of one stage reads, from a table on; `rd` reads an entry. -/
def trailFrom (stage2 : Bool) (rd : Nat → Except XlFault Nat) (va : Nat) : List (Nat × Nat) → Nat → Nat → List Nat
  | [], _, _ => []
  | (sh, nb) :: ls, lvl, tbl =>
    let a := tbl + 8 * (va / 2 ^ sh % 2 ^ nb)
    match rd a with
    | .error _ => [a]
    | .ok pte =>
      if testBit pte 0 && testBit pte 1 && !pteBad stage2 sh lvl pte then a :: trailFrom stage2 rd va ls (lvl + 1) (pte / 2 ^ 12 % 2 ^ 44 * 2 ^ 12)
      else [a]

/-- The device addresses of the stage-2 entries that the translation of an intermediate address reads. -/
def trailStage2 (s : State) (w : Wing) (ia : Nat) : List Nat :=
  if w.s2root == 0 then [] else trailFrom true (fun a => .ok (leNat (memRead s.mem a 8))) ia xlLevels 0 w.s2root.toNat

/-- The device addresses of the table entries that a walk reads (R299). -/
def walkTrail (s : State) (x : Ctx) (va : Nat) : List Nat :=
  let w := getWing s x.wing
  let root := (getTenant s x).s1root
  if root == 0 then []
  else
    (trailFrom false (readStage1 s w) va xlLevels 0 root.toNat).flatMap (fun ia =>
      trailStage2 s w ia ++ (match walkStage2 s w ia with | .ok l => [l.out] | .error _ => []))
      ++ (match walkFrom false (readStage1 s w) va xlLevels 0 root.toNat with
        | .ok l1 => trailStage2 s w l1.out
        | .error _ => [])

/-- A walk reads each table entry at the entry's home slice (R301). -/
def walkTouch (s : State) (x : Ctx) (va : Nat) : State :=
  ((walkTrail s x va).map (· / 128)).eraseDups.foldl (fun s ln => homeTouch s x ⟨.dev, ln * 128⟩ none false) s

/-- Writes to a peer are delivered in order; those on their way arrive before a reduction or an atomic of the same port
(R180, R320). -/
def deliverPeer (s : State) (l : PLoc) : State :=
  match l.tgt with
  | .peer p =>
    let ws := sget [] s.peerOut p
    let s := ws.foldl (fun s w => homeWrite s ⟨.peer p, w.a⟩ w.bytes) s
    { s with peerOut := sset [] s.peerOut p (ws.map (fun w => { w with bytes := [] })) }
  | _ => s

/-- A write of a context's data by the device itself reaches its home: the lines of device memory, or the port of a peer, where the older
writes arrive first (R320). -/
def reachHome (s : State) (x : Ctx) (va : Nat) (l : PLoc) (n : Nat) : State := deliverPeer (touchLines (walkTouch s x va) x l n) l

/-- A read by the device itself of a structure at a flat address of a context, page by page (the first argument bounds
the pages). -/
def devReadFuel (s : State) (x : Ctx) : Nat → Nat → Nat → Except XlFault (List Byte)
  | 0, _, _ => .ok []
  | fuel + 1, va, n =>
    if n == 0 then .ok []
    else if noFlat va then .error ⟨false, false, false⟩
    else
      match walk s x va with
      | .error f => .error f
      | .ok e =>
        if !e.r then .error ⟨false, false, true⟩ else
        if peerDown s (placeOf e va) then .error ⟨false, false, false⟩ else
        let k := min (min n (65536 - va % 65536)) (2 ^ e.log - (va - e.va))
        match devReadFuel s x fuel (va + k) (n - k) with
        | .error f => .error f
        | .ok bs => .ok (homeRead s (placeOf e va) k ++ bs)

def devRead (s : State) (x : Ctx) (va n : Nat) : Except XlFault (List Byte) := devReadFuel s x (n / 4096 + 2) va n

/-- A write by the device itself to a flat address of a context. -/
def devWriteFuel (x : Ctx) : Nat → State → Nat → List Byte → Except XlFault State
  | 0, s, _, _ => .ok s
  | fuel + 1, s, va, bs =>
    if bs.isEmpty then .ok s
    else if noFlat va then .error ⟨false, false, false⟩
    else
      match walk s x va with
      | .error f => .error f
      | .ok e =>
        if !e.w then .error ⟨false, false, true⟩ else
        if peerDown s (placeOf e va) then .error ⟨false, false, false⟩ else
        let k := min (min bs.length (65536 - va % 65536)) (2 ^ e.log - (va - e.va))
        devWriteFuel x fuel (homeWrite (reachHome s x va (placeOf e va) k) (placeOf e va) (bs.take k)) (va + k) (bs.drop k)

def devWrite (s : State) (x : Ctx) (va : Nat) (bs : List Byte) : Except XlFault State :=
  devWriteFuel x (bs.length / 4096 + 2) s va bs

/-- A structure of mostly zeros written by the device itself: its bytes by offset (the first argument bounds the pages). -/
def devPutFuel (x : Ctx) : Nat → State → Nat → Nat → Memory → Except XlFault State
  | 0, s, _, _, _ => .ok s
  | fuel + 1, s, va, n, cells =>
    if n == 0 then .ok s
    else if noFlat va then .error ⟨false, false, false⟩
    else
      match walk s x va with
      | .error f => .error f
      | .ok e =>
        if !e.w then .error ⟨false, false, true⟩ else
        if peerDown s (placeOf e va) then .error ⟨false, false, false⟩ else
        let k := min (min n (65536 - va % 65536)) (2 ^ e.log - (va - e.va))
        devPutFuel x fuel (homePut (reachHome s x va (placeOf e va) k) (placeOf e va) k cells) (va + k) (n - k) (memSlice cells k (n - k))

def devPut (s : State) (x : Ctx) (va n : Nat) (cells : Memory) : Except XlFault State := devPutFuel x (n / 4096 + 2) s va n cells

/-- A structure read by the device itself, as its listed bytes by offset; `off` is the offset reached. -/
def devSliceFuel (s : State) (x : Ctx) : Nat → Nat → Nat → Nat → Except XlFault Memory
  | 0, _, _, _ => .ok []
  | fuel + 1, va, n, off =>
    if n == 0 then .ok []
    else if noFlat va then .error ⟨false, false, false⟩
    else
      match walk s x va with
      | .error f => .error f
      | .ok e =>
        if !e.r then .error ⟨false, false, true⟩ else
        if peerDown s (placeOf e va) then .error ⟨false, false, false⟩ else
        let k := min (min n (65536 - va % 65536)) (2 ^ e.log - (va - e.va))
        match devSliceFuel s x fuel (va + k) (n - k) (off + k) with
        | .error f => .error f
        | .ok m => .ok ((homeSlice s (placeOf e va) k).map (fun p => (off + p.1, p.2)) ++ m)

def devSlice (s : State) (x : Ctx) (va n : Nat) : Except XlFault Memory := devSliceFuel s x (n / 4096 + 2) va n 0

/-- The device has accessed n bytes at a flat address of a context itself: the walks of its pages, and the lines of each (the first
argument bounds the pages). -/
def devTouchFuel (x : Ctx) : Nat → State → Nat → Nat → State
  | 0, s, _, _ => s
  | fuel + 1, s, va, n =>
    if n == 0 || noFlat va then s
    else
      let s := walkTouch s x va
      match walk s x va with
      | .error _ => s
      | .ok e =>
        let k := min (min n (65536 - va % 65536)) (2 ^ e.log - (va - e.va))
        devTouchFuel x fuel (touchLines s x (placeOf e va) k) (va + k) (n - k)

def devTouch (s : State) (x : Ctx) (va n : Nat) : State := devTouchFuel x (n / 4096 + 2) s va n

/-- Translate an address for a core, walking on a miss. -/
def translate (s : State) (c : Nat) (x : Ctx) (va : Nat) : Except XlFault TlbEntry × State :=
  match tlbLookup s c x va with
  | some e => (.ok e, s)
  | none =>
    match walk s x va with
    | .ok e => (.ok e, tlbInsert (walkTouch s x va) c e)
    | .error f => (.error f, walkTouch s x va)

end Sys2Proof.Machine
end

