-- ==== Sys2Proof/Machine/Ops.lean ====
section
/-!
DEFINITION. The shared operations of issue: the frontier (R29 to R33), parking (R48), the fetch of code (R73), fault records
(R305), the end of a group (R24) and of lanes (R36), taking a trap (R276 to R281) and returning from one (R283, R285).
-/
namespace Sys2Proof.Machine

/-! ### The frontier (R29) -/

/-- The clauses of two entries are the same: none, or that of one header. An entry that is to trap at its word stays apart (R221). -/
def sameClause : Option ClauseCtx → Option ClauseCtx → Bool
  | none, none => true
  | some a, some b => a.hdr == b.hdr && a.word == b.word && a.bad == b.bad
  | _, _ => false

/-- Two entries that R29 merges: same PC, same priority, same park state (and the same clause in progress, where they have
one). A resting window lane keeps an entry of its own (R194). -/
def mergeable (a b : Entry) : Bool :=
  a.park != .resting && a.pc == b.pc && a.pri == b.pri && a.park == b.park && sameClause a.clause b.clause

/-- One entry of the lanes of two, the second joining the first. A failed fetch stays only where both carry one: else the header is
fetched again when the entry is selected. Where both hold a helper copy of one name in one lane, the first entry's stays (R29; log
entry 82, DESIGN CHOICE, unsafe). -/
def mergeEntries (a e : Entry) : Entry :=
  { a with lanes := a.lanes ||| e.lanes, pass := max a.pass e.pass, mark := a.mark && e.mark,
           fail := if e.fail.isSome then a.fail else none,
           clause := match a.clause, e.clause with
             | some x, some y => some { x with begun := x.begun && y.begun, resumed := x.resumed && y.resumed,
                                               swz := x.swz || y.swz, unseen := x.unseen || y.unseen,
                                               lastQ := if y.swz then y.lastQ else x.lastQ,
                                               hvals := y.hvals.foldl (fun m p => fset m p.1 (p.2.foldl (fun n q =>
                                                 if (fget n q.1).isSome then n else fset n q.1 q.2) (sget [] m p.1))) x.hvals }
             | c, _ => c }

/-- Put an entry into a frontier, merging by R29 and R33; an entry without lanes is none. -/
def addEntry (fr : List Entry) (e : Entry) : List Entry :=
  if e.lanes == 0 then fr
  else
    match fr with
    | [] => [e]
    | a :: as =>
      if mergeable a e then mergeEntries a e :: as
      else a :: addEntry as e

def addEntries (fr es : List Entry) : List Entry := es.foldl addEntry fr

/-- Take lanes out of every entry. -/
def removeLanes (fr : List Entry) (m : LaneSet) : List Entry :=
  (fr.map (fun e => { e with lanes := e.lanes &&& ~~~m })).filter (fun e => e.lanes != 0)

def eligible (e : Entry) : Bool := e.park == .none

/-- Whether an entry is selected before another (R30). -/
def ranksAbove (a b : Entry) : Bool :=
  let ua := decide (256 ≤ a.pass)
  let ub := decide (256 ≤ b.pass)
  if ua != ub then ua
  else if ua then decide (b.pass < a.pass) || (a.pass == b.pass && decide (a.pc.toNat < b.pc.toNat))
  else if a.mark != b.mark then !a.mark
  else decide (b.pri < a.pri) || (a.pri == b.pri && decide (a.pc.toNat < b.pc.toNat))

/-- The entry that R30 selects. -/
def selectEntry : List Entry → Option Entry
  | [] => none
  | e :: es =>
    match selectEntry es with
    | none => if eligible e then some e else none
    | some b => if eligible e && !ranksAbove b e then some e else some b

/-- A frontier without one occurrence of an entry. -/
def dropEntry (fr : List Entry) (e : Entry) : List Entry := fr.erase e

/-- The pick takes effect: every other eligible entry gains a pass (R31). -/
def passOthers (fr : List Entry) : List Entry := fr.map (fun e => if eligible e then { e with pass := e.pass + 1 } else e)

/-- Change every entry of a group, the halted ones of a group in its handler too. -/
def mapEntries (g : Group) (f : List Entry → List Entry) : Group :=
  { g with frontier := f g.frontier,
           handler := g.handler.map (fun h => { h with halted := f h.halted }) }

/-- Unpark the entries that a test names; they merge again by R29. -/
def unparkList (p : Entry → Bool) (fr : List Entry) : List Entry :=
  fr.foldl (fun acc e => addEntry acc (if p e then { e with park := .none } else e)) []

def unpark (g : Group) (p : Entry → Bool) : Group := mapEntries g (unparkList p)

/-- All entries of a group, the active one among them. -/
def allEntries (g : Group) : List Entry :=
  g.active.toList ++ g.frontier ++ (match g.handler with | some h => h.halted | none => [])

/-! ### Fetching code (R73) -/

inductive FetchRes where
  | word (w : Word)
  | fail (f : FetchFail)
  deriving DecidableEq, Repr

/-- Fetch a code word, translated like any other access: what the core has kept of it, else what the home holds (R78; log entry 15,
DEDUCED, unsafe). At an address
in the scratchpad aperture, which is not translated, no execute right exists: `PERM` (log entry 66, DEDUCED, unsafe). -/
def fetchWith (s : State) (c : Nat) (r : Except XlFault TlbEntry) (va : Nat) : FetchRes :=
  if apertureAddr va then .fail .perm
  else
    match r with
    | .error f => .fail (.xlate f)
    | .ok e =>
      if !rightsOk e rightsFetch then .fail .perm
      else if peerDown s (placeOf e va) then .fail (.xlate ⟨false, false, false⟩)
      else
        let l := placeOf e va
        match fget (getCore s c).code (locKey l) with
        | some w => .word w
        | none =>
          match poisonIn s l 4 with
          | some _ => .fail .memerr
          | none => .word (BitVec.ofNat 32 (leNat (homeRead s l 4)))

/-- A core keeps a code word that it has fetched (R78). -/
def keepCode (s : State) (c : Nat) (r : Except XlFault TlbEntry) (va : Nat) (w : Word) : State :=
  match r with
  | .ok e => let q := getCore s c; setCore s c { q with code := fset q.code (locKey (placeOf e va)) w }
  | .error _ => s

/-- A core drops the code words that it keeps, so that what is fetched next is what the homes hold (R78). -/
def dropCode (s : State) (c : Nat) : State := setCore s c { getCore s c with code := [] }

/-- A word that the core has not kept is read at its home slice (R130, R148). -/
def fetchTouch (s : State) (c : Nat) (x : Ctx) (r : Except XlFault TlbEntry) (va : Nat) : State :=
  match r with
  | .ok e => if (fget (getCore s c).code (locKey (placeOf e va))).isSome then s else homeTouch s x (placeOf e va) none false
  | .error _ => s

def fetchWord (s : State) (c : Nat) (x : Ctx) (pc : Pc) : FetchRes × State :=
  let t := translate s c x pc.toNat
  let r := fetchWith t.2 c t.1 pc.toNat
  (r, match r with
    | .word w => keepCode (fetchTouch t.2 c x t.1 pc.toNat) c t.1 pc.toNat w
    | .fail _ => t.2)

/-- The fetch as it would go, without filling a translation cache. -/
def peekWord (s : State) (c : Nat) (x : Ctx) (pc : Pc) : FetchRes :=
  match tlbLookup s c x pc.toNat with
  | some e => fetchWith s c (.ok e) pc.toNat
  | none => fetchWith s c (walk s x pc.toNat) pc.toNat

/-- Lanes that reach a PC: the entry takes the priority of the header there, or keeps the one given where its fetch fails (R27). -/
def arrive (s : State) (c : Nat) (x : Ctx) (pc : Pc) (m : LaneSet) (pri : Nat) : Entry :=
  match peekWord s c x pc with
  | .word w => { pc := pc, pri := headerPri w, lanes := m, park := .none, pass := 0, mark := false, fail := none, clause := none }
  | .fail f => { pc := pc, pri := pri, lanes := m, park := .none, pass := 0, mark := false, fail := some f, clause := none }

/-! ### The issuing entry -/

/-- Where an instruction issues: the core and slot at the focus, the group, its active entry and that entry's clause. -/
structure Iss where
  core : Nat
  slot : Nat
  g : Group
  e : Entry
  cc : ClauseCtx
  deriving DecidableEq, Repr

/-- The entry that issues. -/
def issuer (s : State) : Option Iss :=
  match getGroup s s.focusCore s.focusSlot with
  | none => none
  | some g =>
    match g.active with
    | none => none
    | some e =>
      match e.clause with
      | none => none
      | some cc => some ⟨s.focusCore, s.focusSlot, g, e, cc⟩

/-- Address of the last word of the clause (R74). -/
def lastWord (cc : ClauseCtx) : Pc := cc.hdr + BitVec.ofNat 56 (4 * headerLen cc.word)

/-- The flag that the clause names for operations of the first kind, and of the second (R80). -/
def flagA (cc : ClauseCtx) : Option Nat :=
  match decodeHeader cc.word with
  | some h => h.seta.map (·.toNat)
  | none => none

def flagB (cc : ClauseCtx) : Option Nat :=
  match decodeHeader cc.word with
  | some h => match h.setb with
    | some f => some f.toNat
    | none => h.seta.map (·.toNat)
  | none => none

/-- Whether the clause's header enters a region (R84): not in a handler (R271). -/
def entersRegion (i : Iss) : Bool := testBit i.cc.word.toNat 1 && !inHandler i.g && !i.cc.resumed

/-- Whether a lane begins a region at this clause: with the header's `RGN`, or returned there by `RESTART` (R386). -/
def laneRegion (i : Iss) (l : Nat) : Bool :=
  entersRegion i || (!i.cc.resumed && !inHandler i.g && (laneSt i.g l).restart)

/-- The first word of a clause is about to issue: the pick takes effect (R31), a yield mark goes (R33), and the region is
recorded (R84, R271). -/
def beginClause (s : State) (i : Iss) : Iss :=
  if i.cc.begun then i
  else
    let rgn := (lanesOf i.e.lanes).any (laneRegion i)
    let cnt := if rgn then i.g.rgnCnt + 1 else i.g.rgnCnt
    let upd := fun (l : Nat) (x : LaneSt) =>
      let x := if laneRegion i l then { x with rgnPc := i.cc.hdr, rgnCnt := cnt, nonRep := false } else x
      if i.cc.resumed || inHandler i.g then x
      else { x with fresh := false, restart := false, mute := x.mute && !(testBit i.cc.word.toNat 1 && !x.fresh) }
    let g := mapLanes { i.g with rgnCnt := cnt, frontier := passOthers i.g.frontier } i.e.lanes upd
    let cc := { i.cc with begun := true }
    let e := { i.e with pass := 0, mark := false, clause := some cc }
    ⟨i.core, i.slot, { g with active := some e, readyAt := s.clock }, e, cc⟩

/-- Write the issuing group back, with an entry and clause changed. -/
def putIss (s : State) (i : Iss) : State :=
  setGroup s i.core i.slot { i.g with active := some { i.e with clause := some i.cc } }

/-- The completion flags of the issuing group as they stand, once operations of it may have completed. -/
def refresh (s : State) (i : Iss) : Iss :=
  match getGroup s i.core i.slot with
  | some g => { i with g := { i.g with flags := g.flags } }
  | none => i

/-- The group issues nothing at this word: its entry goes back to the pool where the pick has not taken effect (R32). -/
def holdWord (s : State) (i : Iss) : State :=
  if i.cc.begun then s
  else
    let e := if i.cc.resumed then { i.e with clause := some { i.cc with begun := true } }
      else { i.e with pc := i.cc.hdr, clause := none }
    setGroup s i.core i.slot { i.g with active := none, frontier := addEntry i.g.frontier e }

/-- The active lanes leave their clause for the targets given, each with the lanes that go there and their park state
(R27, R29). -/
def departWith (s : State) (i : Iss) (ts : List (Pc × LaneSet × Park)) (mark : Bool) : State :=
  let es := ts.map (fun t => { arrive s i.core i.g.id.ctx t.1 t.2.1 i.e.pri with mark := mark, park := t.2.2 })
  setGroup s i.core i.slot { i.g with active := none, frontier := addEntries i.g.frontier es }

def depart (s : State) (i : Iss) (ts : List (Pc × LaneSet)) (mark : Bool) : State :=
  departWith s i (ts.map (fun t => (t.1, t.2, Park.none))) mark

/-- The issuing entry is held at its word, not parked (R32). -/
def holdIssue (s : State) : State :=
  match issuer s with
  | some i => holdWord s i
  | none => s

/-- Lanes gathered by the target each goes to. -/
def byTarget (m : LaneSet) (t : Nat → Pc) : List (Pc × LaneSet) :=
  ((lanesOf m).map t).eraseDups.map (fun p => (p, laneSetOf (fun l => hasLane m l && t l == p)))

/-- The word after the clause. -/
def afterClause (cc : ClauseCtx) : Pc := lastWord cc + 4

/-- The instruction is done: the entry goes on to the word n words on, or past the clause's end (R27). -/
def advance (s : State) (i : Iss) (n : Nat) : State :=
  let pc := i.e.pc + BitVec.ofNat 56 (4 * n)
  if decide ((lastWord i.cc - i.cc.hdr).toNat < (pc - i.cc.hdr).toNat) then depart s i [(afterClause i.cc, i.e.lanes)] false
  else putIss s { i with e := { i.e with pc := pc } }

/-- Lane-level park at the word: the entry leaves the pool with its PC on the word (R49). -/
def parkAt (s : State) (i : Iss) (m : LaneSet) (p : Park) : State :=
  let cc := { i.cc with begun := true }
  let e := { i.e with lanes := m, park := p, pass := 0, mark := false, clause := some cc }
  let g := { i.g with frontier := addEntry i.g.frontier e }
  let rest := i.e.lanes &&& ~~~m
  setGroup s i.core i.slot { g with active := if rest == 0 then none else some { i.e with lanes := rest } }

/-- Group-level park: everything stays as it stands (R49). -/
def parkGroup (s : State) (i : Iss) (p : GPark) : State :=
  setGroup s i.core i.slot { i.g with gpark := p, token := false }

/-- The group of a slot returns to the pool. -/
def wakeGroup (s : State) (c k : Nat) : State :=
  match getGroup s c k with
  | some g => setGroup s c k { g with gpark := .none, readyAt := s.clock }
  | none => s

/-! ### Markers (R35) -/

def parkedAtMarker (k : Nat) (e : Entry) : Bool := e.park == .marker k

/-- The release check of a marker. -/
def releaseCheck (g : Group) (k : Nat) : Group :=
  let m := getMarker g k
  if m.enr != 0 && m.arr == m.enr then setMarker (unpark g (parkedAtMarker k)) k { m with arr := 0 } else g

/-- The effect of `MLEAVE` on a marker for a set of lanes. -/
def leaveMarker (m : LaneSet) (g : Group) (k : Nat) : Group :=
  let x := getMarker g k
  releaseCheck (setMarker g k ⟨x.enr &&& ~~~m, x.arr &&& ~~~m⟩) k

/-! ### Trap causes (R275) -/

def causeIllegal : Nat := 1
def causeMisalign : Nat := 2
def causeXlate : Nat := 3
def causePerm : Nat := 4
def causeVitrine : Nat := 5
def causeFpx : Nat := 6
def causeOverflowq : Nat := 7
def causeCloak : Nat := 8
def causeSvc : Nat := 9
def causeBreak : Nat := 10
def causeWatch : Nat := 11
def causeMemerr : Nat := 12
def causeOverrun : Nat := 13
def causeKill : Nat := 14

/-! ### Fault records (R305) -/

def FaultRec.blank (kind cause ten : Nat) : FaultRec :=
  { id := 0, seq := none, kind := kind, cause := cause, ten := ten, replay := false, exited := false, stage2 := false,
    acc := 0, fsize := false, clu := 0x7F, rgnCnt := 0, addr := 0, launch := 0xFFFFFFFF, gangWord := 0, coreIx := 0,
    rgnPc := 0, answered := false }

/-- The wing has a queue: `FQLOG` in range, and a path to the host (R259, R303). -/
def hasFaultQueue (w : Wing) : Bool := decide (5 ≤ w.fqlog.toNat) && decide (w.fqlog.toNat ≤ 16) && w.whq != 0

/-- Ask for a record. Without a queue it is lost and counted (R305). The number of the record, where there is one. -/
def addRecord (s : State) (w : Nat) (r : FaultRec) : Option Nat × State :=
  let k := getWing s w
  if hasFaultQueue k then
    (some k.faultCtr, setWing s w { k with faults := k.faults ++ [{ r with id := k.faultCtr }], faultCtr := k.faultCtr + 1 })
  else
    (none, setWing s w { k with fqlost := if k.fqlost == BitVec.allOnes 32 then k.fqlost else k.fqlost + 1 })

/-- The word at offset 0x14 of a record, of a group (R305). -/
def gangWord (g : Group) : Word :=
  match g.kind with
  | .window st num => bw (st * 2 ^ 18 + num % 64 * 2 ^ 8)
  | _ => bw (g.id.gang * 2 ^ 8 + g.id.block * 2 ^ 6 + g.id.group * 4)

/-- A record that names a group on a core, with the region record of a lane. -/
def groupRecord (kind cause c : Nat) (g : Group) (lane addr acc : Nat) : FaultRec :=
  let x := laneSt g lane
  { FaultRec.blank kind cause g.id.ctx.ten with
    acc := acc, clu := clusterOf c, rgnCnt := x.rgnCnt, addr := addr,
    launch := if isWindow g then 0xFFFFFFFF else g.id.launchId, gangWord := gangWord g, coreIx := c % 4, rgnPc := x.rgnPc }

/-- The record of a replayable or failed translation (R304). -/
def xlRecord (r : FaultRec) (f : XlFault) : FaultRec := { r with replay := f.replay, stage2 := f.stage2, cause := if f.perm then 4 else r.cause }

/-! ### Words of a structure in memory -/

/-- Poisoned data in a range of a context (R312): the granule. -/
def devPoison (s : State) (x : Ctx) (va n : Nat) : Option Nat :=
  (granulesOf va n).findSome? (fun a => match walk s x a with
    | .ok e => poisonIn s (placeOf e a) 1
    | .error _ => none)

/-- The device writes a word; where the translation fails nothing is written. -/
def putWord (s : State) (x : Ctx) (va : Nat) (v : Word) : State :=
  match devWrite s x va (leBytes 4 v.toNat) with
  | .ok s => s
  | .error _ => s

/-- The device changes a word of a structure: bits to clear, bits to set. Where it cannot read the word, or finds it poisoned, nothing
changes. -/
def editWord (s : State) (x : Ctx) (va : Nat) (clr set : Word) : State :=
  match devRead s x va 4 with
  | .error _ => s
  | .ok bs =>
    if (devPoison s x va 4).isSome then s
    else putWord (devTouch s x va 4) x va ((BitVec.ofNat 32 (leNat bs) &&& ~~~clr) ||| set)

/-- Flat address of a stream's table entry (R182), and of a launch queue's (R244). -/
def streamAddr (s : State) (x : Ctx) (st : Nat) : Nat :=
  match (getTenant s x).block with
  | some b => b.strtab + 128 * st
  | none => 0

def queueAddr (s : State) (x : Ctx) (q : Nat) : Nat :=
  match (getTenant s x).block with
  | some b => b.lqtab + 32 * q
  | none => 0

def getStream (s : State) (x : Ctx) (st : Nat) : Option Stream := fget (getTenant s x).streams st

def setStream (s : State) (x : Ctx) (st : Nat) (k : Stream) : State :=
  let t := getTenant s x
  setTenant s x { t with streams := fset t.streams st k }

/-! ### Accumulator tiles (R216) -/

/-- The cores of a cluster. -/
def coresOf (n : Nat) : List Nat := (List.range 4).map (fun j => 4 * n + j)

/-- Whether some tile name or operation of a cluster holds a physical tile. -/
def tileHeld (s : State) (n p : Nat) : Bool :=
  let k := getCluster s n
  k.resv.any (fun o => o.tile == p) || k.tileGrants.any (fun g => g.2 == p)
    || (coresOf n).any (fun c => (getCore s c).groups.any (fun g => (fvals g.2.tiles).contains p))

/-- Release the tiles that nothing holds any more. -/
def sweepTiles (s : State) (n : Nat) : State :=
  let k := getCluster s n
  setCluster s n { k with tiles := k.tiles.filter (fun t => tileHeld s n t.1) }

/-! ### Receives (R388) -/

/-- Posted receives of a slot whose lanes have all exited leave the list (R388). The completion flag that such a receive raised stays
busy: it has not completed. (Log entry 74, DESIGN CHOICE, unsafe.) -/
def prunePosted (s : State) (c slot age : Nat) (live : LaneSet) : State :=
  let q := getCore s c
  setCore s c { q with boxes := q.boxes.map (fun b => { b with posted := b.posted.filter (fun p =>
    !(p.slot == slot && p.age == age && (p.lanes &&& live) == 0)) }) }

/-! ### Guestbooks of a group that ends (R355) -/

def forgetSigner (b : Block) (grp : Nat) : Block :=
  { b with books := b.books.filterMap (fun k =>
      if k.2.blk && k.2.groups.contains grp then
        let gone := (k.2.gone ++ [grp]).eraseDups
        if k.2.groups.all gone.contains then none else some (k.1, { k.2 with gone := gone })
      else some k) }

/-! ### Ends: of lanes, of groups, of launches -/

def getLaunch (s : State) (x : Ctx) (n : Nat) : Option Launch := fget (getTenant s x).launches n

def setLaunch (s : State) (x : Ctx) (n : Nat) (l : Launch) : State :=
  let t := getTenant s x
  setTenant s x { t with launches := fset t.launches n l }

/-- The core forgets a group: its trap pool, its place in the trap order (R71) and its side (R40). -/
def forgetGroup (s : State) (c k : Nat) : State :=
  let q := getCore s c
  setCore s c { q with groups := ferase q.groups k,
                       trapOwner := if q.trapOwner == some k then none else q.trapOwner,
                       trapQueue := q.trapQueue.filter (· != k),
                       side0 := if q.side0 == some k then none else q.side0,
                       side1 := if q.side1 == some k then none else q.side1 }

/-- The access processor of a core stops: its queues are discarded, and a queue region that outlived its block goes (R136, R140). -/
def stopAp (s : State) (c : Nat) : State :=
  let s := forgetGroup s c Config.apSlot
  let q := getCore s c
  setCore s c { q with apq := none, loads := q.loads.filter (fun l => l.slot != Config.apSlot),
                       blocks := q.blocks.filter (fun b => !b.2.ended) }

/-- Blocks of a launch on a core. -/
def blocksOfLaunch (q : Core) (x : Ctx) (n : Nat) : List (Nat × Block) :=
  q.blocks.filter (fun b => b.2.ctx == x && b.2.launch == n && !b.2.ended && !b.2.win)

/-- A block ends (R24): its scratchpad is freed, but for the queue region while the access processor still runs (R140). -/
def endBlock (s : State) (c key : Nat) : State :=
  match getBlock s c key with
  | none => s
  | some b =>
    let s := match getLaunch s b.ctx b.launch with
      | some l => setLaunch s b.ctx b.launch { l with resident := l.resident - 1 }
      | none => s
    let q := getCore s c
    let last := (blocksOfLaunch q b.ctx b.launch).length == 1
    match q.apq with
    | some a =>
      if a.ctx == b.ctx && a.launch == b.launch then
        if last then stopAp (setCore s c { q with blocks := ferase q.blocks key }) c
        else if a.holder == key then setBlock s c key { b with ended := true }
        else setCore s c { q with blocks := ferase q.blocks key }
      else setCore s c { q with blocks := ferase q.blocks key }
    | none => setCore s c { q with blocks := ferase q.blocks key }

/-- Every group of a block of a core that still runs. -/
def groupsOfBlock (q : Core) (key : Nat) : List (Nat × Group) :=
  q.groups.filter (fun p => !isAp p.2 && p.2.id.blockKey == key)

/-- The live lanes of a group that wait at the block barrier. -/
def lanesAtBar (g : Group) : LaneSet := (allEntries g).foldl (fun m e => if e.park == .bar then m ||| e.lanes else m) 0

/-- Open the barrier of a block once every group of it has arrived (R332). -/
def barrierCheck (s : State) (c key : Nat) : State :=
  let q := getCore s c
  let gs := groupsOfBlock q key
  if gs.all (fun p => lanesAtBar p.2 == p.2.live) then
    gs.foldl (fun s p => match getGroup s c p.1 with
      | some g => setGroup s c p.1 (unpark g (fun e => e.park == .bar))
      | none => s) s
  else s

/-- A group ends: its slot, its posted receives, its tiles, its cloakroom area (R254), and with the last group its block
(R24). -/
def endGroup (s : State) (c k : Nat) : State :=
  match getGroup s c k with
  | none => s
  | some g =>
    match g.kind with
    | .ap => stopAp s c
    | .window .. =>
      let s := prunePosted (forgetGroup s c k) c k g.id.age 0
      let q := getCore s c
      sweepTiles (setCore s c { q with blocks := ferase q.blocks g.id.blockKey }) (clusterOf c)
    | .compute =>
      let s := sweepTiles (prunePosted (forgetGroup s c k) c k g.id.age 0) (clusterOf c)
      let s := match getLaunch s g.id.ctx g.id.launch with
        | some l => setLaunch s g.id.ctx g.id.launch
            { l with cloakUsed := l.cloakUsed.erase ((g.id.cloak - l.cloak) / Config.cloakBytes) }
        | none => s
      if (groupsOfBlock (getCore s c) g.id.blockKey).isEmpty then endBlock s c g.id.blockKey
      else
        let s := match getBlock s c g.id.blockKey with
          | some b => setBlock s c g.id.blockKey (forgetSigner b g.id.group)
          | none => s
        barrierCheck s c g.id.blockKey

/-- Every group of a launch on a core ends at once, without further effect (R280). -/
def killLaunchOn (x : Ctx) (n : Nat) (s : State) (c : Nat) : State :=
  let ks := ((getCore s c).groups.filter (fun p => p.2.kind == .compute && p.2.id.ctx == x && p.2.id.launch == n)).map (·.1)
  let s := ks.foldl (fun s k => endGroup s c k) s
  match (getCore s c).apq with
  | some a => if a.ctx == x && a.launch == n then stopAp s c else s
  | none => s

/-- Forwarded registers of a launch that has ended are discarded (R349). -/
def dropForwards (s : State) (x : Ctx) (n : Nat) : State :=
  (fkeys s.cores).foldl (fun s c =>
    let q := getCore s c
    if q.boxes.isEmpty then s
    else setCore s c { q with boxes := q.boxes.map (fun b =>
      if b.ctx == x then { b with inbox := b.inbox.filter (fun f => f.win || f.launch != n) } else b) }) s

/-- Abort a launch (R280): every group of it ends, the access processor stops, and the launch never completes. -/
def abortLaunch (s : State) (x : Ctx) (n : Nat) : State :=
  let s := dropForwards ((fkeys s.cores).foldl (killLaunchOn x n) s) x n
  let w := getWing s x.wing
  let s := setWing s x.wing { w with waiting := w.waiting.filter (fun g => g.2.ctx != x || g.2.launch != n) }
  match getLaunch s x n with
  | some l => setLaunch s x n { l with aborted := true }
  | none => s

/-- Retire every window group of a stream and disarm it (R280, R304): `ARMED` becomes 0 in its entry; what its directory's header then
says is still to be written back (R190). -/
def disarmStream (s : State) (x : Ctx) (st : Nat) : State :=
  let mine := fun (g : Group) => match g.kind with
    | .window n _ => n == st && g.id.ctx == x
    | _ => false
  let s := (fkeys s.cores).foldl (fun s c =>
    (((getCore s c).groups.filter (fun p => mine p.2)).map (·.1)).foldl (fun s k => endGroup s c k) s) s
  match getStream s x st with
  | none => s
  | some k =>
    let v := k.status &&& 0x7FFFFFFF
    let s := setStream s x st { k with armed := false, items := [], dir := [], held := none, owed := false, next := k.head, status := v, due := none }
    if k.armed then putWord s x (streamAddr s x st + 0x7C) v else s

/-- Abort the work that a record concerns: a launch, or the stream of a window group (R280, R304). -/
def abortOf (s : State) (x : Ctx) (win : Bool) (n : Nat) : State := if win then disarmStream s x n else abortLaunch s x n

/-- The record of an abort that an access raised, from the record of the access (R280, R304), with the PC of the word where work
stands at one. -/
def abortRecord (r : FaultRec) (pc : Nat) : FaultRec :=
  { FaultRec.blank 0x20 (if r.cause == 4 then 4 else 3) r.ten with
    addr := pc, rgnCnt := r.rgnCnt, launch := r.launch, gangWord := r.gangWord, rgnPc := r.rgnPc }

/-- A `FAIL` aborts the work of an access as R280 lays down, with one record; work that has been aborted before stays so.
(Log entry 54, DEDUCED, unsafe.) -/
def failAbort (s : State) (x : Ctx) (win : Bool) (n pc : Nat) (r : FaultRec) : State :=
  let gone := if win then (match getStream s x n with | some k => !k.armed | none => true)
    else (match getLaunch s x n with | some l => l.aborted | none => false)
  if gone then s else abortOf (addRecord s x.wing (abortRecord r pc)).2 x win n

/-- The record that holds an entry of the store buffer. -/
def SbEntry.heldBy (e : SbEntry) : Option Nat :=
  match e.xl with
  | .held id => some id
  | _ => none

/-- An entry whose translation is not known. -/
def SbEntry.untranslated (e : SbEntry) : Bool :=
  match e.xl with
  | .done _ => false
  | _ => true

/-- A release at `CLUSTER` scope or wider: it drains only after the earlier entries of its context (R162). -/
def relWide (e : SbEntry) : Bool :=
  match e.rel with
  | some .cluster | some .device | some .system => true
  | _ => false

/-- A release waits for an earlier entry of its context: at `CLUSTER` scope or wider for every one, below for reductions, which perform
at their homes alone (R162, R177). -/
def relAwaits (rel earlier : SbEntry) : Bool :=
  earlier.ctx == rel.ctx && (relWide rel || (rel.rel.isSome && earlier.op != .store))

/-- A release of the same work that must cover one of the entries given; where they never perform, nor does it (R162). -/
def coversAny (gone : List SbEntry) (e : SbEntry) : Bool :=
  gone.any (fun d => decide (d.seq < e.seq) && relAwaits e d && d.win == e.win && d.launch == e.launch)

/-- The entries of a store buffer that never perform when those given do not. -/
def lostWith (gone sb : List SbEntry) : List SbEntry :=
  sb.filter (fun e => gone.any (fun d => d.seq == e.seq) || coversAny gone e)

/-- Whether a fault record holds a piece of an engine operation. -/
def restHeld (r : Option (List (Nat × Option Nat))) : Bool :=
  match r with
  | some ps => ps.any (fun p => p.2.isSome)
  | none => false

/-- The engine operations of a context that faults hold are cancelled (R265, R268). -/
def cancelHeldOps (s : State) (n : Nat) (x : Ctx) : State :=
  let k := getCluster s n
  let gone := (k.queue.filter (fun o => o.ctx == x && restHeld o.rest)).map (·.id)
    ++ (k.resv.filter (fun o => o.ctx == x && restHeld o.rest)).map (·.id)
  setCluster s n { k with queue := k.queue.filter (fun o => !gone.contains o.id), resv := k.resv.filter (fun o => !gone.contains o.id),
                          vit := k.vit.filter (fun v => !gone.contains v.op) }

/-- A context loses every group, access processor and launch without a save; its queues are disabled and its streams
disarmed (R268). `count` is whether `OVERRUNS` counts it (R325). (Log entry 53, DEDUCED, unsafe.) -/
def killContext (s : State) (x : Ctx) (count : Bool) : State :=
  let t := getTenant s x
  let s := (fkeys t.streams).foldl (fun s st => disarmStream s x st) s
  let s := (List.range 64).foldl (fun s q =>
    if t.block.isNone then s
    else
      editWord s x (queueAddr s x q + 0x10) 0x80000000 0) s
  let s := (fkeys s.cores).foldl (fun s c =>
    let s := (((getCore s c).groups.filter (fun p => p.2.id.ctx == x)).map (·.1)).foldl (fun s k => forgetGroup s c k) s
    let q := getCore s c
    let s := match q.apq with
      | some a => if a.ctx == x then stopAp s c else s
      | none => s
    let q := getCore s c
    setCore s c { q with blocks := q.blocks.filter (fun b => b.2.ctx != x), boxes := q.boxes.filter (fun b => b.ctx != x),
                         sends := q.sends.filter (fun o => o.ctx != x),
                         sb := let lost := lostWith (q.sb.filter (fun e => e.ctx == x && e.heldBy.isSome)) q.sb
                           q.sb.filter (fun e => !lost.contains e) }) s
  let s := (fkeys s.clusters).foldl (fun s n => sweepTiles (cancelHeldOps s n x) n) s
  let w := getWing s x.wing
  let s := setWing s x.wing { w with
    waiting := w.waiting.filter (fun g => g.2.ctx != x),
    edge := w.edge.map (fun e => if e.out == some x.ten then { e with killed := true } else e) }
  let t := getTenant s x
  let one := fun (v : Word) => if v == BitVec.allOnes 32 then v else v + 1
  setTenant { s with pins := s.pins.filter (fun p => p.ctx != x) } x
    { t with launches := [], queues := t.queues.map (fun q => (q.1, { q.2 with head := none, held := none, en := false })), saved := none,
             held := none,
             overruns := if count then one t.overruns else t.overruns }

/-- A device agent read poisoned data of a context (R312, R314): the context is killed, with its record. -/
def poisonKill (s : State) (x : Ctx) (granule : Nat) : State :=
  let s := killContext s x true
  (addRecord s x.wing { FaultRec.blank 0x21 causeMemerr x.ten with addr := granule }).2

/-! ### A stream's memory (R182, R304) -/

/-- A device access of a stream failed: serving pauses under its record, or the stream is disarmed (R304). -/
def streamFault (s : State) (x : Ctx) (st : Nat) (f : XlFault) (va acc : Nat) : State :=
  let clu := match getStream s x st with
    | some k => k.cfg.clu
    | none => 0x7F
  let r := xlRecord { FaultRec.blank 0x14 0 x.ten with addr := va, acc := acc, clu := clu } f
  let a := addRecord s x.wing r
  match f.replay, a.1 with
  | true, some id => setStream a.2 x st { (getStream a.2 x st).getD Stream.blank with held := some id }
  | _, _ => disarmStream a.2 x st

/-- A read by the window engine for a stream; on failure the state that follows from it (R304, R312). -/
def streamRead (s : State) (x : Ctx) (st va n : Nat) : Except State (List Byte) :=
  match devRead s x va n with
  | .error f => .error (streamFault s x st f va 0)
  | .ok bs =>
    match devPoison s x va n with
    | some g => .error (poisonKill s x g)
    | none => .ok bs

def streamWrite (s : State) (x : Ctx) (st va : Nat) (bs : List Byte) : Except State State :=
  match devWrite s x va bs with
  | .error f => .error (streamFault s x st f va 1)
  | .ok s => .ok s

/-- A field of a stream's entry is read. -/
def entryRead (s : State) (x : Ctx) (st off n : Nat) : Except State (List Byte) := streamRead s x st (streamAddr s x st + off) n

/-- A word of a stream's entry is changed: bits to clear, bits to set. -/
def entryEdit (s : State) (x : Ctx) (st off : Nat) (clr set : Word) : Except State State :=
  match entryRead s x st off 4 with
  | .error s => .error s
  | .ok bs => streamWrite (devTouch s x (streamAddr s x st + off) 4) x st (streamAddr s x st + off) (leBytes 4 ((BitVec.ofNat 32 (leNat bs) &&& ~~~clr) ||| set).toNat)

/-- A write that is to reach a stream's entry once it can: what failed is owed until serving resumes. -/
def entryOwed (s : State) (x : Ctx) (st off : Nat) (v : Word) : State :=
  match streamWrite s x st (streamAddr s x st + off) (leBytes 4 v.toNat) with
  | .ok s => s
  | .error s =>
    match getStream s x st with
    | some k => if k.held.isSome then setStream s x st { k with owed := true } else s
    | none => s

/-- Serving has resumed: what is owed to the entry is written. -/
def payOwed (s : State) (x : Ctx) (st : Nat) : State :=
  match getStream s x st with
  | none => s
  | some k =>
    if !k.owed || k.held.isSome then s
    else entryOwed (entryOwed (setStream s x st { k with owed := false }) x st 0x78 k.head) x st 0x7C k.status

/-- A state, whatever became of an access. -/
def stateOf (r : Except State State) : State :=
  match r with
  | .ok s => s
  | .error s => s

/-- Change the `STATUS` word of a stream: bits to clear, bits to set. While the stream is armed the engine's own copy counts (R3). -/
def statusBits (s : State) (x : Ctx) (st : Nat) (clr set : Word) : State :=
  match (getStream s x st).filter (·.armed) with
  | some k =>
    let v := (k.status &&& ~~~clr) ||| set
    entryOwed (setStream s x st { k with status := v }) x st 0x7C v
  | none => stateOf (entryEdit s x st 0x7C clr set)

/-- A fault record holds a stream's serving. -/
def streamHeld (s : State) (x : Ctx) (st : Nat) : Bool :=
  match getStream s x st with
  | some k => k.held.isSome
  | none => false

/-! ### Taking a trap (R276 to R281) -/

/-- What an instruction asks when it traps. -/
structure TrapReq where
  cause : Nat
  /-- The lanes that raised the cause. -/
  lanes : LaneSet
  addr : Nat
  idx : Nat
  hdr : Bool
  dec : Bool
  step : Bool
  pc : Pc
  word : Word
  shapes : Word
  deriving DecidableEq, Repr

/-- `TCAUSE` (R277). -/
def tcause (g : Group) (e : Entry) (r : TrapReq) : Word :=
  let recs := (lanesOf e.lanes).map (fun l => ((laneSt g l).rgnPc, (laneSt g l).rgnCnt))
  let mix := match recs with
    | [] => false
    | a :: as => as.any (· != a)
  let nrep := (lanesOf e.lanes).any (fun l => (laneSt g l).nonRep)
  let b := fun (x : Bool) (n : Nat) => if x then 2 ^ n else 0
  bw (b r.step 15 + b mix 14 + b r.dec 13 + b nrep 12 + b r.hdr 11 + r.idx % 4 * 2 ^ 8 + r.cause % 256)

/-- The trap registers that a trap of an entry records (R278). -/
def trapRegs (g : Group) (e : Entry) (r : TrapReq) : TrapRegs :=
  let x := laneSt g (lowLane e.lanes)
  { cause := tcause g e r, pc := r.pc, rgnPc := x.rgnPc, rgnCnt := x.rgnCnt, addr := BitVec.ofNat 64 r.addr,
    mask := r.lanes, shapes := r.shapes, word := r.word }

/-- Enter the handler (R281): the trap registers, the trap enables off, the handler view, and the PC at `HENTRY`. -/
def enterHandler (s : State) (c k : Nat) (g : Group) (e : Entry) (t : TrapRegs) (d : TrapDesc) : State :=
  let g := mapLanes g e.lanes (fun _ x =>
    { x with savedTe := x.fmode.extractLsb' 5 5, fmode := x.fmode &&& ~~~(0x3E0 : Word), hvb := x.wb })
  let h : Handler := { lanes := e.lanes, returned := 0, hdrTrap := testBit t.cause.toNat 11, halted := g.frontier, names := [] }
  let he := arrive s c g.id.ctx d.hentry e.lanes 0
  let g := { g with active := none, frontier := [he], handler := some h, traps := t, gpark := .none, pendTrap := none,
                    tags := g.tags.filter (fun p => decide (p.1 < 1024)), readyAt := s.clock }
  let q := getCore s c
  setGroup (setCore s c { q with trapOwner := some k }) c k g

/-- Abort the work of a group (R280): the launch, or the window groups of its stream, which is disarmed; one record. -/
def abortWork (s : State) (g : Group) (r : FaultRec) : State :=
  let s := (addRecord s g.id.ctx.wing r).2
  match g.kind with
  | .window st _ => disarmStream s g.id.ctx st
  | _ => abortLaunch s g.id.ctx g.id.launch

/-- Raise a trap of an entry of a group (R276). It is aborted in the cases of R280, taken at once where the core's trap pool is
free and no earlier trap waits for it, and else waits in trap order (R71, R281). The entry stands outside the group's frontier. -/
def raiseTrap (s : State) (c k : Nat) (g : Group) (e : Entry) (r : TrapReq) : State :=
  let t := trapRegs g e r
  let desc := (getTenant s g.id.ctx).trap
  let abort := match desc with
    | none => true
    | some d => !d.tenable.getLsbD r.cause || inHandler g || isAp g
  if abort then
    let cause := if inHandler g then causeKill else r.cause
    let rec' := groupRecord 0x20 cause c g (lowLane e.lanes) r.pc.toNat 0
    abortWork (setGroup s c k { g with active := none }) g { rec' with clu := 0x7F, coreIx := 0 }
  else
    match desc with
    | none => s
    | some d =>
      let e := { e with clause := none, park := .none }
      let q := getCore s c
      if q.trapOwner == none && q.trapQueue.isEmpty then enterHandler s c k { g with active := none } e t d
      else
        let g := { g with active := none, gpark := .trapPool, pendTrap := some ⟨e, t⟩, token := false }
        setGroup (setCore s c { q with trapQueue := q.trapQueue ++ [k] }) c k g

/-- The next group in trap order enters its handler, once the pool is free (R71). -/
def enterNext (s : State) (c : Nat) : State :=
  let q := getCore s c
  match q.trapOwner, q.trapQueue with
  | none, k :: ks =>
    let s := setCore s c { q with trapQueue := ks }
    match getGroup s c k with
    | none => s
    | some g =>
      match g.pendTrap, (getTenant s g.id.ctx).trap with
      | some p, some d => enterHandler s c k g p.entry p.regs d
      | some p, none =>
        abortWork s g { groupRecord 0x20 (p.regs.cause.toNat % 256) c g (lowLane p.entry.lanes) p.regs.pc.toNat 0 with clu := 0x7F, coreIx := 0 }
      | none, _ => s
  | _, _ => s

/-- A precise trap of the issuing entry at its word. -/
def trapAt (s : State) (i : Iss) (cause : Nat) (m : LaneSet) (addr : Nat) (word shapes : Word) : State :=
  raiseTrap s i.core i.slot i.g i.e
    { cause := cause, lanes := m, addr := addr, idx := 0, hdr := false, dec := false, step := false, pc := i.e.pc,
      word := word, shapes := shapes }

/-- The word that an entry stands at, as the home holds it. -/
def wordAt (s : State) (i : Iss) : Word :=
  match peekWord s i.core i.g.id.ctx i.e.pc with
  | .word w => w
  | _ => 0

/-! ### Returning from a trap (R283, R285) -/

/-- The handler ends once every handler lane has returned: the pool is freed, the trap enables come back, and the group's other
entries resume (R283). -/
def handlerEnd (s : State) (c k : Nat) : State :=
  match getGroup s c k with
  | none => s
  | some g =>
    match g.handler with
    | none => s
    | some h =>
      if h.returned == h.lanes && g.frontier.isEmpty then
        let g := mapLanes g h.lanes (fun _ x =>
          { x with fmode := (x.fmode &&& ~~~(0x3E0 : Word)) ||| ((x.savedTe.setWidth 32) <<< 5), savedTe := 0 })
        let q := getCore s c
        let s := setCore s c { q with trapOwner := if q.trapOwner == some k then none else q.trapOwner }
        setGroup s c k { g with handler := none, frontier := h.halted, active := none, readyAt := s.clock }
      else s

/-- Handler lanes return to the places given, with their step and mute marks (R285). -/
def returnLanes (s : State) (i : Iss) (ts : List (Pc × LaneSet)) (mute stp restart : Bool) : State :=
  match i.g.handler with
  | none => s
  | some h =>
    let g := mapLanes i.g i.e.lanes (fun _ x => { x with fresh := true, step := stp, mute := mute, restart := restart })
    let es := ts.map (fun t => arrive s i.core i.g.id.ctx t.1 t.2 i.e.pri)
    let h := { h with returned := h.returned ||| i.e.lanes, halted := addEntries h.halted es }
    handlerEnd (setGroup s i.core i.slot { g with active := none, handler := some h }) i.core i.slot

end Sys2Proof.Machine
end

