-- ==== Sys2Proof/Machine/Operands.lean ====
section
/-!
DEFINITION. Vector names: how a register field names one (R52, R70), shapes (R55 to R57), reading and writing with helper
copies (R26), last reads (R60), interlocks (R83), and the cloakroom's spills and fills (R65 to R68).
-/
namespace Sys2Proof.Machine

/-! ### Naming (R52, R70) -/

/-- The absolute name that a field names in a lane: handler names stand from 1024 up. Nothing for a name above 1023, or for
an access queue's field in access-processor code (R137). (Log entry 19, DEDUCED, unsafe.) -/
def nameIx (g : Group) (l f : Nat) : Option Nat :=
  let x := laneSt g l
  if inHandler g then
    if f < 16 then some (1024 + f)
    else if x.hvb.toNat + f - 16 < 1024 then some (x.hvb.toNat + f - 16) else none
  else if isAp g then (if f < 120 then some f else none)
  else if x.wb.toNat + f < 1024 then some (x.wb.toNat + f) else none

def getName (g : Group) (n : Nat) : Name :=
  if n < 1024 then sget Name.free g.names n
  else match g.handler with
    | some h => sget Name.free h.names (n - 1024)
    | none => Name.free

def setName (g : Group) (n : Nat) (x : Name) : Group :=
  if n < 1024 then { g with names := sset Name.free g.names n x }
  else { g with handler := g.handler.map (fun h => { h with names := sset Name.free h.names (n - 1024) x }) }

/-- A lane's element of a shaped value (R55). -/
def shapedAt (v : Shaped) (l : Nat) : Word :=
  match v with
  | .unalloc => 0
  | .uniform u => u
  | .affine b s => b + BitVec.ofNat 32 l * s
  | .general ws => ws.getD l 0

/-- The code that `shape()` returns (R55). -/
def shapeCode : Shaped → Nat
  | .unalloc => 0
  | .uniform _ => 1
  | .affine .. => 2
  | .general _ => 3

/-- Whether a value counts as uniform for R56: an unallocated name reads 0 in every lane. -/
def isUniform : Shaped → Bool
  | .unalloc | .uniform _ => true
  | _ => false

/-! ### Reading -/

/-- Lanes outside the active set in quads that hold an active lane (R26). -/
def quadHelpers (m : LaneSet) : LaneSet :=
  laneSetOf (fun l => !hasLane m l && (List.range 4).any (fun j => hasLane m (l / 4 * 4 + j)))

/-- The helper lanes of the clause, beside the lanes that are active now; their copies last to its end (R26). -/
def quadLanes (i : Iss) : LaneSet := if i.cc.swz then quadHelpers i.e.lanes else 0

/-- Helper lanes that execute beside the active ones: up to the clause's last `QSWZ` (R26). -/
def helperLanes (i : Iss) : LaneSet :=
  if decide ((i.e.pc - i.cc.hdr).toNat ≤ (i.cc.lastQ - i.cc.hdr).toNat) then quadLanes i else 0

/-- The value that a lane reads from a field: a helper lane from its copy where the clause has written one, and an exited
helper lane zero (R26). -/
def readLane (i : Iss) (l f : Nat) : Word :=
  match nameIx i.g l f with
  | none => 0
  | some n =>
    if hasLane i.e.lanes l then shapedAt (getName i.g n).val l
    else
      match fget (sget [] i.cc.hvals n) l with
      | some w => w
      | none => if hasLane i.g.live l then shapedAt (getName i.g n).val l else 0

/-- The pair of names at a field and the next, as a 64-bit value (R115). -/
def readPair (i : Iss) (l f : Nat) : DWord := readLane i l (f + 1) ++ readLane i l f

/-- A value as a shape tag shows it: its elements in the storage of that shape. -/
def retag (t : Nat) (v : Shaped) : Shaped :=
  match t with
  | 0 => .unalloc
  | 1 => .uniform (shapedAt v 0)
  | 2 => .affine (shapedAt v 0) (shapedAt v 1 - shapedAt v 0)
  | _ => .general ((List.range 64).map (shapedAt v))

/-- The value of a name with the shape tag that the rename table shows: a name that awaits a result keeps the tag it had at issue
until the value arrives (R59). -/
def shownVal (g : Group) (n : Nat) : Shaped :=
  match fget g.tags n with
  | some t => retag t (getName g n).val
  | none => (getName g n).val

/-- Names that now await a result keep the shape tags that they show (R59). -/
def keepTags (old g : Group) (ns : List Nat) : Group :=
  { g with tags := ns.foldl (fun t n => fset t n (shapeCode (shownVal old n))) g.tags }

/-- The results of names have arrived: they show their own shapes (R59). -/
def dropTags (g : Group) (ns : List Nat) : Group := { g with tags := ns.foldl ferase g.tags }

/-- The view of names that a lane uses: `WB`, or HVB in a handler. -/
def laneView (g : Group) (l : Nat) : BitVec 10 := if inHandler g then (laneSt g l).hvb else (laneSt g l).wb

/-- Whether all lanes of the entry use one view of the names (R54). (Log entry 63, DEDUCED, safe.) -/
def oneView (i : Iss) : Bool :=
  let b := laneView i.g (lowLane i.e.lanes)
  (lanesOf i.e.lanes).all (fun l => laneView i.g l == b)

/-- A full-mask write: one view, and every live lane of the group (R54, R56). (Log entry 21, DEDUCED, unsafe.) -/
def fullMask (i : Iss) : Bool := oneView i && (i.g.live &&& ~~~i.e.lanes) == 0

/-- The value of a field as the whole entry sees it, for the shape table of R56. -/
def fieldVal (i : Iss) (f : Nat) : Shaped :=
  match nameIx i.g (lowLane i.e.lanes) f with
  | some n => (getName i.g n).val
  | none => .unalloc

/-- The names that a field names over the active lanes. -/
def namesOf (i : Iss) (f : Nat) : List Nat :=
  ((lanesOf i.e.lanes).filterMap (fun l => nameIx i.g l f)).eraseDups

/-! ### Result shapes (R56) -/

/-- The shape of a result under a full mask. -/
inductive ResShape where
  | unalloc
  | uniform
  | affine (base stride : Word)
  | general
  deriving DecidableEq, Repr

/-- The rule of a row of R56 for an operation that keeps no stride. -/
def stdShape (vs : List Shaped) : ResShape := if vs.all isUniform then .uniform else .general

/-- Base and stride of a value that is uniform or affine. -/
def affineOf : Shaped → Option (Word × Word)
  | .unalloc => some (0, 0)
  | .uniform u => some (u, 0)
  | .affine b s => some (b, s)
  | .general _ => none

/-- An affine result; with a zero stride it is stored as uniform. -/
def mkAffine (b s : Word) : ResShape := if s == 0 then .uniform else .affine b s

/-- Sum or difference of values that are uniform or affine. -/
def addShape (sub : Bool) (a b : Shaped) : ResShape :=
  match affineOf a, affineOf b with
  | some (x, p), some (y, q) => if sub then mkAffine (x - y) (p - q) else mkAffine (x + y) (p + q)
  | _, _ => .general

/-- Base and stride of the product of an affine value and a uniform one. -/
def mulAffine (a b : Shaped) : Option (Word × Word) :=
  match affineOf a, affineOf b with
  | some (x, p), some (y, q) =>
    if isUniform b then some (x * y, p * y) else if isUniform a then some (x * y, x * q) else none
  | _, _ => none

def mulShape (a b : Shaped) : ResShape :=
  match mulAffine a b with
  | some (x, p) => mkAffine x p
  | none => .general

/-- A product of two uniform values with an addend that is not uniform has no row of its own, so it is general.
(Log entry 22, DEDUCED, unsafe.) -/
def madShape (a b c : Shaped) : ResShape :=
  if isUniform a && isUniform b && !isUniform c then .general
  else
  match mulAffine a b, affineOf c with
  | some (x, p), some (y, q) => mkAffine (x + y) (p + q)
  | _, _ => .general

/-- A left shift of an affine value by a uniform count. -/
def shlShape (a : Shaped) (cnt : Option Word) : ResShape :=
  match affineOf a, cnt with
  | some (x, p), some c => if c.toNat < 32 then mkAffine (x <<< c.toNat) (p <<< c.toNat) else .uniform
  | _, _ => .general

/-- The count of a shift, where it is one value. -/
def uniformVal : Shaped → Option Word
  | .unalloc => some 0
  | .uniform u => some u
  | _ => none

/-! ### Writing (R56, R57, R26, R413) -/

/-- The destination of a full-mask write: lanes outside the mask keep the value the name held. -/
def fullValue (i : Iss) (old : Shaped) (vals : Nat → Word) : ResShape → Shaped
  | .unalloc => .unalloc
  | .uniform => .uniform (vals (lowLane i.e.lanes))
  | .affine b s => .affine b s
  | .general => .general ((List.range 64).map (fun l => if hasLane i.e.lanes l then vals l else shapedAt old l))

/-- A partial-mask write of the lanes of a set: every destination name becomes general (R57). -/
def writePartial (g : Group) (m : LaneSet) (f : Nat) (vals : Nat → Word) (use : Nat) : Group :=
  let ns := ((lanesOf m).filterMap (fun l => nameIx g l f)).eraseDups
  ns.foldl (fun acc n =>
    let old := getName g n
    let ws := (List.range 64).map (fun l =>
      if hasLane m l && nameIx g l f == some n then vals l else shapedAt old.val l)
    setName acc n ⟨.general ws, false, use⟩) g

/-- Write the helper copies of a field (R26). -/
def writeHelpers (i : Iss) (m : LaneSet) (f : Nat) (vals : Nat → Word) : ClauseCtx :=
  (lanesOf m).foldl (fun cc l => match nameIx i.g l f with
    | some n => { cc with hvals := fset cc.hvals n (fset (sget [] cc.hvals n) l (vals l)) }
    | none => cc) i.cc

/-- Write a destination field: the active lanes' names, and the helper lanes' copies. -/
def writeField (s : State) (i : Iss) (f : Nat) (vals : Nat → Word) (sh : ResShape) : Iss :=
  let use := (getCore s i.core).seq
  let cc := writeHelpers i (helperLanes i) f vals
  if fullMask i then
    match nameIx i.g (lowLane i.e.lanes) f with
    | some n =>
      let v := fullValue i (getName i.g n).val vals sh
      { i with g := setName i.g n (if v == .unalloc then Name.free else ⟨v, false, use⟩), cc := cc }
    | none => { i with cc := cc }
  else { i with g := writePartial i.g i.e.lanes f vals use, cc := cc }

/-- Release the names marked as last read (R60); under a partial mask the marks are ignored. -/
def releaseFields (i : Iss) (fs : List Nat) : Iss :=
  if fullMask i then
    { i with g := fs.foldl (fun g f => match nameIx i.g (lowLane i.e.lanes) f with
        | some n => setName g n Name.free
        | none => g) i.g }
  else i

/-- Note the use of names (R66). -/
def touchFields (s : State) (i : Iss) (fs : List Nat) : Iss :=
  let use := (getCore s i.core).seq
  { i with g := fs.foldl (fun g f => (namesOf i f).foldl (fun g n =>
      let x := getName g n
      if x.val == .unalloc then g else setName g n { x with use := use }) g) i.g }

/-! ### The cloakroom (R65 to R68) -/

/-- Slots that a name holds: scalar, vector (R55). -/
def slotsOf (x : Name) : Nat × Nat :=
  if x.spilled then (0, 0)
  else match x.val with
    | .unalloc => (0, 0)
    | .uniform _ => (1, 0)
    | .affine .. => (2, 0)
    | .general _ => (0, 1)

def groupSlots (g : Group) : Nat × Nat :=
  (fvals g.names).foldl (fun a x => (a.1 + (slotsOf x).1, a.2 + (slotsOf x).2)) (0, 0)

/-- The payload of a name by its shape (R65). -/
def payload : Shaped → List Byte
  | .unalloc => []
  | .uniform u => leBytes 4 u.toNat
  | .affine b s => leBytes 4 b.toNat ++ leBytes 4 s.toNat
  | .general ws => ws.flatMap (fun w => leBytes 4 w.toNat)

def wordsFrom : Nat → List Byte → List Word
  | 0, _ => []
  | n + 1, bs => BitVec.ofNat 32 (leNat (bs.take 4)) :: wordsFrom n (bs.drop 4)

/-- The value of a shape that a payload holds. -/
def unpayload (v : Shaped) (bs : List Byte) : Shaped :=
  match v with
  | .unalloc => .unalloc
  | .uniform _ => .uniform (BitVec.ofNat 32 (leNat (bs.take 4)))
  | .affine .. => .affine (BitVec.ofNat 32 (leNat (bs.take 4))) (BitVec.ofNat 32 (leNat ((bs.drop 4).take 4)))
  | .general _ => .general (wordsFrom 64 bs)

/-- A byte of the tag map (four names) and of the spilled map (eight names) of a group. -/
def tagByte (g : Group) (j : Nat) : Byte :=
  BitVec.ofNat 8 ((List.range 4).foldl (fun a k => a + shapeCode (shownVal g (4 * j + k)) * 4 ^ k) 0)

def spillByte (g : Group) (j : Nat) : Byte :=
  BitVec.ofNat 8 ((List.range 8).foldl (fun a k => a + (if (getName g (8 * j + k)).spilled then 2 ^ k else 0)) 0)

/-- An access of the cloakroom engine that cannot complete (R68): its address, whether it belongs to a fill, and whether stage 2
failed. -/
structure CloakErr where
  addr : Nat
  fill : Bool
  stage2 : Bool
  deriving DecidableEq, Repr

/-- A write of the cloakroom engine. -/
def cloakWrite (s : State) (x : Ctx) (a : Nat) (bs : List Byte) (fill : Bool) : Except CloakErr State :=
  match devWrite s x a bs with
  | .ok s => .ok s
  | .error f => .error ⟨a, fill, f.stage2⟩

/-- Write the bytes of both maps that hold a name, as the group has it (R65). -/
def putMaps (s : State) (g : Group) (n : Nat) (fill : Bool) : Except CloakErr State :=
  match cloakWrite s g.id.ctx (g.id.cloak + n / 4) [tagByte g (n / 4)] fill with
  | .error e => .error e
  | .ok s => cloakWrite s g.id.ctx (g.id.cloak + 0x100 + n / 8) [spillByte g (n / 8)] fill

/-- The maps once a group's names have become those of `new`: the bits of names that no longer lie in the cloakroom are cleared (R65,
R67). A write that fails leaves its byte (log entry 31, DEDUCED, unsafe). -/
def clearMaps (s : State) (old new : Group) : State :=
  (old.names.filter (fun p => p.2.spilled && !(getName new p.1).spilled)).foldl (fun s p =>
    match putMaps s new p.1 false with
    | .ok s => s
    | .error _ => s) s

/-- Spill one name of a group to its cloakroom area; the access that fails otherwise (R65, R68). -/
def spillName (s : State) (c k n : Nat) : Except CloakErr State :=
  match getGroup s c k with
  | none => .ok s
  | some g =>
    let x := getName g n
    let g := setName g n { x with spilled := true }
    match cloakWrite s g.id.ctx (g.id.cloak + 0x1000 + 256 * n) (payload (shownVal g n)) false with
    | .error e => .error e
    | .ok s =>
      match putMaps s g n false with
      | .error e => .error e
      | .ok s => .ok (setGroup s c k g)

/-- Bytes of a payload. -/
def payloadLen (v : Shaped) : Nat := (payload v).length

/-- Fill one name of a group from its cloakroom area; its bit in the map is cleared (R65). -/
def fillName (s : State) (c k n : Nat) : Except CloakErr State :=
  match getGroup s c k with
  | none => .ok s
  | some g =>
    let x := getName g n
    let at' := g.id.cloak + 0x1000 + 256 * n
    match devRead s g.id.ctx at' (payloadLen x.val) with
    | .error f => .error ⟨at', true, f.stage2⟩
    | .ok bs =>
      let g := setName g n { x with val := unpayload x.val bs, spilled := false }
      match putMaps (devTouch s g.id.ctx at' (payloadLen x.val)) g n true with
      | .error e => .error e
      | .ok s => .ok (setGroup s c k g)

/-- The poisoned granule that a fill would read (R312). (Log entry 31, DEDUCED, unsafe.) -/
def fillPoison (s : State) (c k n : Nat) : Option Nat :=
  match getGroup s c k with
  | none => none
  | some g =>
    let at' := g.id.cloak + 0x1000 + 256 * n
    match walk s g.id.ctx at' with
    | .error _ => none
    | .ok e => poisonIn s (placeOf e at') (payloadLen (getName g n).val)

/-- Pool room of a core for the names of a context: half of it where the wing runs more than one tenant (R63, R264). -/
def poolRoom (split : Bool) : Nat × Nat :=
  if split then (Config.scalarPool / 2, Config.vectorPool / 2) else (Config.scalarPool, Config.vectorPool)

/-- Slots that the groups of a context hold on a core, the access processor's private file apart (R63, R137). -/
def usedSlots (q : Core) (x : Ctx) : Nat × Nat :=
  q.groups.foldl (fun a p => if p.2.id.ctx == x && !isAp p.2 then
    (a.1 + (groupSlots p.2).1, a.2 + (groupSlots p.2).2) else a) (0, 0)

/-- Names of a group that may be spilled for a slot of a kind: not those named, not those awaiting a result (R66). -/
def victimsOf (g : Group) (vec : Bool) (keep : List Nat) : List (Nat × Name) :=
  g.names.filter (fun p => !keep.contains p.1 && decide (0 < if vec then (slotsOf p.2).2 else (slotsOf p.2).1))

/-- The least recently used of a list of names. (Log entry 6, DESIGN CHOICE, unsafe.) -/
def oldestName : List (Nat × Name) → Option Nat
  | [] => none
  | p :: ps =>
    match oldestName ps with
    | none => some p.1
    | some m => match ps.find? (fun r => r.1 == m) with
      | some r => if p.2.use ≤ r.2.use then some p.1 else some m
      | none => some p.1

/-- Whether a name lies in the window of some lane of an entry: the 128 names from its `WB`, in a handler those from HVB. (Log entry
84, DESIGN CHOICE, unsafe.) -/
def inWindow (g : Group) (m : LaneSet) (n : Nat) : Bool :=
  (lanesOf m).any (fun l => decide ((laneView g l).toNat ≤ n) && decide (n < (laneView g l).toNat + 128))

/-- Names of a group that an outstanding operation will write. -/
def awaited (q : Core) (k age : Nat) : List Nat :=
  (q.loads.filter (fun o => o.slot == k && o.age == age)).flatMap (fun o => o.parts.flatMap (·.dests))
    ++ (q.sends.filter (fun o => o.slot == k && o.age == age)).flatMap (fun o => o.dests.map (·.2))

/-- Names of a group that a posted receive will write, with the receive's number (R236). -/
def posting (q : Core) (k age : Nat) : List (Nat × Nat) :=
  (q.boxes.flatMap (·.posted)).filter (fun o => o.slot == k && o.age == age) |>.flatMap (fun o =>
    o.dests.flatMap (fun d => d.2.map (fun n => (n, o.id))))

/-- The victim for a slot of a kind that a group's allocation takes (R66): slot of its owner, and the name. -/
def chooseVictim (q : Core) (k : Nat) (g : Group) (m : LaneSet) (vec : Bool) (keep : List Nat) : Option (Nat × Nat) :=
  let own := victimsOf g vec (keep ++ awaited q k g.id.age ++ (posting q k g.id.age).map (·.1))
  match oldestName (own.filter (fun p => !inWindow g m p.1)) with
  | some n => some (k, n)
  | none =>
    match oldestName own with
    | some n => some (k, n)
    | none =>
      let held := fun (g : Group) => if vec then (groupSlots g).2 else (groupSlots g).1
      let owed := fun (g : Group) => if vec then g.id.minRegs else 4 * g.id.minRegs
      if held g ≤ owed g then
        let others := q.groups.filter (fun p => p.1 != k && p.2.id.ctx == g.id.ctx && !isAp p.2 && decide (owed p.2 < held p.2)
          && (match p.2.gpark with | .fill _ => false | _ => true))
        let best := others.foldl (fun (b : Option (Nat × Group)) p => match b with
          | none => some p
          | some r =>
            if held r.2 - owed r.2 < held p.2 - owed p.2
              || (held r.2 - owed r.2 == held p.2 - owed p.2 && decide (r.2.id.age < p.2.id.age)) then some p else b) none
        match best with
        | some p => (oldestName (victimsOf p.2 vec (awaited q p.1 p.2.id.age ++ (posting q p.1 p.2.id.age).map (·.1)))).map (fun n => (p.1, n))
        | none => none
      else none

/-- How an allocation ends: room found (by spilling), no victim, or an access of the engine that fails, for the group of a slot. -/
inductive SpillRes where
  | ok (s : State)
  | noVictim
  | cloak (slot : Nat) (e : CloakErr)
  deriving DecidableEq, Repr

/-- Spill until a context's names fit the pools of a core again (R66); the first argument bounds the spills. Where both pools are
short the vector pool has its room first. (Log entry 84, DESIGN CHOICE, unsafe.) -/
def makeRoom (split : Bool) (c k : Nat) (m : LaneSet) (keep : List Nat) : Nat → State → SpillRes
  | 0, s => .ok s
  | fuel + 1, s =>
    match getGroup s c k with
    | none => .ok s
    | some g =>
      let u := usedSlots (getCore s c) g.id.ctx
      let room := poolRoom split
      if u.1 ≤ room.1 && u.2 ≤ room.2 then .ok s
      else
        match chooseVictim (getCore s c) k g m (decide (room.2 < u.2)) keep with
        | none => .noVictim
        | some v =>
          match spillName s c v.1 v.2 with
          | .ok s => makeRoom split c k m keep fuel s
          | .error a => .cloak v.1 a

/-! ### The checks before an instruction executes -/

/-- Lanes in which some field names nothing (R52). -/
def badLanes (i : Iss) (fs : List Nat) : LaneSet :=
  laneSetOf (fun l => hasLane i.e.lanes l && fs.any (fun f => nameIx i.g l f == none))

/-- Whether some field names a name that awaits the result of an outstanding operation (R83). -/
def interlocked (s : State) (i : Iss) (fs : List Nat) : Bool :=
  let aw := awaited (getCore s i.core) i.slot i.g.id.age
  fs.any (fun f => (namesOf i f).any aw.contains)

/-- The posted receive that an instruction waits for, with the lanes that name one of its destinations (R83). -/
def receiveWait (s : State) (i : Iss) (fs : List Nat) : Option (Nat × LaneSet) :=
  let ps := posting (getCore s i.core) i.slot i.g.id.age
  match (lanesOf i.e.lanes).findSome? (fun l => (fs.filterMap (nameIx i.g l)).findSome? (fun n => (ps.find? (fun p => p.1 == n)).map (·.2))) with
  | none => none
  | some r => some (r, laneSetOf (fun l => hasLane i.e.lanes l &&
      (fs.filterMap (nameIx i.g l)).any (fun n => ps.any (fun p => p.1 == n && p.2 == r))))

/-- Names that must be filled first: spilled sources, and a spilled destination of a partial-mask write (R67). -/
def toFill (i : Iss) (srcs dsts : List Nat) : List Nat :=
  ((srcs ++ (if fullMask i then [] else dsts)).flatMap (fun f =>
    (namesOf i f).filter (fun n => (getName i.g n).spilled))).eraseDups

/-- The shapes that `TSHAPES` reports, of the word's `SB`, `SA` and `D` names (R71). Where the lanes hold several `WB` values the
names are the lowest lane's. (Log entry 83, DESIGN CHOICE, unsafe.) -/
def shapesOf (i : Iss) (sb sa d : Option Nat) : Word :=
  let c := fun (f : Option Nat) => match f.bind (nameIx i.g (lowLane i.e.lanes)) with
    | some n => shapeCode (shownVal i.g n)
    | none => 0
  bw (c sb * 16 + c sa * 4 + c d)

end Sys2Proof.Machine
end

