-- ==== Sys2Proof/Machine/Flags.lean ====
section
/-!
DEFINITION. How an instruction on names executes: the checks before it, the exceptions and `FSTAT` (R107, R108), and its end
(last reads, the write with its shape, the room for it, the next word). Every instruction that writes names runs through these.
-/
namespace Sys2Proof.Machine

/-! ### Exceptions (R107, R108) -/

/-- Active lanes in which an enabled trap's exception occurs. -/
def fpxLanes (i : Iss) (fl : Nat → FFlags) : LaneSet :=
  laneSetOf (fun l => hasLane i.e.lanes l && (fl l &&& trapEnables (laneSt i.g l).fmode) != 0)

/-- The exceptions of a set of lanes, ORed. -/
def orFlags (m : LaneSet) (fl : Nat → FFlags) : FFlags := (lanesOf m).foldl (fun a l => a ||| fl l) 0

/-- Each active lane sets the flags of its own result (R107). -/
def setFstat (i : Iss) (fl : Nat → FFlags) : Iss :=
  { i with g := mapLanes i.g i.e.lanes (fun l x => { x with fstat := x.fstat ||| (fl l).setWidth 32 }) }

/-- `FMODE` of a lane as arithmetic reads it; the access processor has none (R137). -/
def laneMode (i : Iss) (l : Nat) : FMode := fmodeOf (laneSt i.g l).fmode

/-- All active lanes hold the same `FMODE`[4:0] (R109). -/
def sameMode (i : Iss) : Bool :=
  let m := (laneSt i.g (lowLane i.e.lanes)).fmode.extractLsb' 0 5
  (lanesOf i.e.lanes).all (fun l => (laneSt i.g l).fmode.extractLsb' 0 5 == m)

/-! ### Traps at the word -/

/-- The fields of a word that name vector names, in the order `SB`, `SA`, `D` (R71). The condition of format B and the address of
format M, which R71 does not name, stand in the place of `SA` (log entry 76, DESIGN CHOICE, unsafe). -/
def nameFields : Instr → Option Nat × Option Nat × Option Nat
  | .iadd _ r | .isub _ r | .imul _ r | .imad r | .imin _ r | .imax _ r | .iand r | .ior r | .ixor r | .ishl r | .ishr _ r
  | .bfe _ r | .bfi r | .icmp _ r | .icmpu _ r | .sel r | .fadd r | .fsub r | .fmul r | .ffma r | .fmin _ r | .fmax _ r
  | .fcmp _ r | .fsgn _ r | .hadd2 _ r | .hmul2 _ r | .hfma2 _ r | .shfl _ r | .rdlane r =>
    (some r.sb.toNat, some r.sa.toNat, some r.d.toNat)
  | .scan st _ r => (if st then none else some r.sb.toNat, some r.sa.toNat, some r.d.toNat)
  | .popc r | .clz r | .iaddi _ r | .iandi _ r | .ishli _ r | .ishri _ r | .isari _ r | .frcp r | .frsq r | .fexp2 r
  | .flog2 r | .ftanh r | .fsig r | .fcvt _ _ r | .i2f _ r | .f2i _ _ r | .mov r | .qswz _ r | .rdlaneImm _ r | .scanl _ r
  | .redl _ r | .shape r | .vote _ r => (none, some r.sa.toNat, some r.d.toNat)
  | .brc _ c _ | .brz _ c _ => (none, some c.toNat, none)
  | .jmpr sa | .swrite _ sa | .copy sa | .copyQueue _ sa | .scale _ sa | .gbsign _ sa | .gbsignBlk _ sa | .wemit sa
  | .strctlArm sa | .strctlPause sa | .strctlResume sa | .strctlClrreset sa | .launch _ sa | .evsigSet sa | .evsigClr sa
  | .rftGoto _ _ sa | .fwd sa => (none, some sa.toNat, none)
  | .mreadEnr _ d | .mreadArr _ d | .movi _ d | .movl _ d | .expand d | .sread _ d | .qpop _ d | .wpane _ d | .winfo _ d
  | .frecv d => (none, none, some d.toNat)
  | .ld _ _ _ m | .st _ _ _ m | .lda _ _ m | .stl _ _ m | .pres m => (none, some m.a.toNat, some m.d.toNat)
  | .atom _ sb sa d | .atom64 _ sb sa d => (some sb.toNat, some sa.toNat, some d.toNat)
  | .red _ _ _ _ _ sb sa => (some sb.toNat, some sa.toNat, none)
  | .fenceUnpin _ sb sa | .tld _ sb sa | .tst _ _ _ sb sa | .strctlSetcarry sb sa => (some sb.toNat, some sa.toNat, none)
  | .gate _ _ sa => (none, some sa.toNat, none)
  | .send sb sa d => (some sb.toNat, some sa.toNat, some d.toNat)
  | .rpost sa d | .svc _ sa d => (none, some sa.toNat, some d.toNat)
  | _ => (none, none, none)

/-- The shapes that a trap at the entry's word reports (R71). -/
def shapesAt (i : Iss) (w : Word) : Word :=
  match decodeWord w (some 0) with
  | .ok ins => let f := nameFields ins; shapesOf i f.1 f.2.1 f.2.2
  | .error _ => 0

/-- The 32 B granule of physical memory that a flat address maps to (R306). -/
def physGranule (s : State) (x : Ctx) (va : Nat) : Nat :=
  match walk s x va with
  | .ok e => (placeOf e va).a / 32 * 32
  | .error _ => 0

/-- A precise trap of the issuing entry at its word (R276): an address, and an index for `TIDX`. Poisoned data read by an access
processor kills the context instead (R312). -/
def trapWord (s : State) (i : Iss) (cause : Nat) (m : LaneSet) (addr idx : Nat) : State :=
  if isAp i.g && cause == causeMemerr then poisonKill s i.g.id.ctx (physGranule s i.g.id.ctx addr)
  else
  let w := wordAt s i
  raiseTrap s i.core i.slot i.g i.e
    { cause := cause, lanes := m, addr := addr, idx := idx, hdr := false, dec := false, step := false, pc := i.e.pc,
      word := w, shapes := shapesAt i w }

/-- `ILLEGAL` at the word: `TADDR` is the word's own address (R275). -/
def illegal (s : State) (i : Iss) (m : LaneSet) : State := trapWord s i causeIllegal m i.e.pc.toNat 0

/-! ### Execution of an instruction on names -/

/-- Run an instruction: without an issuing entry there is nothing to step. The pick takes effect (R31); a name above 1023 traps
(R52); a name that awaits a result holds the entry (R83); a spilled name that is read, or written in part, parks the group for
its fill (R67). -/
def runNames (s : State) (names reads writes : List Nat) (body : Iss → Out) : Out :=
  match issuer s with
  | none => .fault .noIssuer
  | some i0 =>
    let i := beginClause s i0
    let bad := badLanes i names
    if bad != 0 then .next (illegal s i bad)
    else if interlocked s i names then .next (holdWord s i0)
    else
      match receiveWait s i names with
      | some r => .next (parkAt s i r.2 (.receive r.1))
      | none =>
        match toFill i reads writes with
        | [] => body i
        | ns => .next (parkGroup s i (.fill ns))

def runOp (s : State) (srcs dsts : List Nat) (body : Iss → Out) : Out := runNames s (srcs ++ dsts) srcs dsts body

/-- Run an instruction that is illegal in a handler (R283). -/
def runOutside (s : State) (srcs dsts : List Nat) (body : Iss → Out) : Out :=
  match issuer s with
  | none => .fault .noIssuer
  | some i0 =>
    let i := beginClause s i0
    if inHandler i.g then .next (illegal s i i.e.lanes) else runOp s srcs dsts body

/-- The executing lanes have executed a non-repeatable instruction (R273). -/
def markNonRep (i : Iss) : Iss := { i with g := mapLanes i.g i.e.lanes (fun _ x => { x with nonRep := true }) }

/-- One destination field of an instruction: the value of each lane and the shape of a full-mask result. -/
structure Dest where
  f : Nat
  vals : List Word
  sh : ResShape
  deriving DecidableEq, Repr

/-- A result that is general traps in access-processor code (R137). -/
def apGeneral (i : Iss) (ds : List Dest) : Bool := isAp i.g && ds.any (fun d => d.sh == .general || !fullMask i)

/-- The names an instruction touches in the active lanes. -/
def keepNames (i : Iss) (fs : List Nat) : List Nat := fs.flatMap (namesOf i)

/-- The record of a spill or fill that cannot complete (R305, R306): a spill writes, a fill reads. -/
def cloakRecord (s : State) (c : Nat) (g : Group) (lane : Nat) (f : CloakErr) : State :=
  (addRecord s g.id.ctx.wing { groupRecord 0x16 causeCloak c g lane f.addr (if f.fill then 0 else 1) with stage2 := f.stage2 }).2

/-- The entry of a group that stands first: the active one, else the one it would select, else any. -/
def firstEntry (g : Group) : Option Entry :=
  match g.active with
  | some e => some e
  | none =>
    match selectEntry g.frontier with
    | some e => some e
    | none => g.frontier.find? (fun e => e.park != .resting)

/-- `CLOAK` for the group that owns a name whose spill or fill cannot complete (R68, R278): its first entry traps at the word where it
stands; a group that has none, all its lanes resting, is aborted (R280). (Log entry 31, DEDUCED, unsafe.) In a group whose trap waits
for the trap pool the first trap stands, and the record alone is written. (Log entry 77, DESIGN CHOICE, unsafe.) -/
def cloakTrap (s : State) (c k : Nat) (f : CloakErr) : State :=
  match getGroup s c k with
  | none => s
  | some g =>
    if let some p := g.pendTrap then cloakRecord s c g (lowLane p.entry.lanes) f
    else
    match firstEntry g with
    | none =>
      let s := cloakRecord s c g (lowLane g.live) f
      abortWork s g { groupRecord 0x20 causeCloak c g (lowLane g.live) 0 0 with clu := 0x7F, coreIx := 0 }
    | some e =>
      let s := cloakRecord s c g (lowLane e.lanes) f
      let h := { g with active := none, gpark := .none, frontier := if g.active.isSome then g.frontier else dropEntry g.frontier e }
      match e.clause with
      | some cc => trapWord s ⟨c, k, h, e, cc⟩ causeCloak e.lanes f.addr 0
      | none =>
        raiseTrap s c k h e
          { cause := causeCloak, lanes := e.lanes, addr := f.addr, idx := 0, hdr := false, dec := false, step := false, pc := e.pc,
            word := (match peekWord s c g.id.ctx e.pc with | .word w => w | .fail _ => 0), shapes := 0 }

/-- Make room in the pools for what the device itself has written into a group's names (R58, R66); where nothing can be spilled the
write stands, and the group parks until its names fit (log entry 10, DESIGN CHOICE, safe). A spill that fails traps `CLOAK` (R68). -/
def engineRoom (s : State) (c k : Nat) : State :=
  match getGroup s c k with
  | none => s
  | some g =>
    match makeRoom (splitWing s g.id.ctx.wing) c k 0 [] 2048 s with
    | .ok s => s
    | .noVictim => if g.gpark == .none then setGroup s c k { g with gpark := .pool, token := false } else s
    | .cloak slot e => cloakTrap s c slot e

/-- Fill those of the names given that lie in the cloakroom, before the device writes a part of them (R67); where a fill fails, the
state that follows from it (R68, R312). -/
def fillFirst (c k : Nat) : List Nat → State → Except State State
  | [], s => .ok s
  | n :: ns, s =>
    match getGroup s c k with
    | none => .ok s
    | some g =>
      if !(getName g n).spilled then fillFirst c k ns s
      else if (fillPoison s c k n).isSome then
        .error (poisonKill s g.id.ctx (physGranule s g.id.ctx (g.id.cloak + 0x1000 + 256 * n)))
      else
        match fillName s c k n with
        | .error e => .error (cloakTrap s c k e)
        | .ok s => fillFirst c k ns s

/-- The names that writes of the device, by lane, do not reach in every live lane of a group: these are written in part (R67). -/
def partNames (g : Group) (ds : List (Nat × List Nat)) : List Nat :=
  ((ds.flatMap (·.2)).eraseDups).filter (fun n => !(lanesOf g.live).all (fun l => ds.any (fun d => d.1 == l && d.2.contains n)))

/-- The device has changed a group's names: the group is put back, and the cloakroom's maps follow (R65, R67). -/
def putNames (s : State) (c k : Nat) (old new : Group) : State := setGroup (clearMaps s old new) c k new

/-- The issuing entry as it stood before its word had any effect. -/
def asIssued (s : State) (i : Iss) : Iss :=
  match issuer s with
  | some j => beginClause s j
  | none => i

/-- Make room in the pools for what an instruction has written (R66), then leave the state as `k` says; without a victim, or with one
whose owner already waits with a trap, the group parks, and a spill that fails traps `CLOAK` (R68), both without any effect of the
word (R276). `s0` is the state before the
write, and `keep` the names the instruction touches. -/
def withRoom (s0 : State) (i : Iss) (keep : List Nat) (s : State) (k : State → State) : State :=
  match makeRoom (splitWing s i.g.id.ctx.wing) i.core i.slot i.e.lanes keep 2048 s with
  | .ok s => k s
  | .noVictim => parkGroup s0 (asIssued s0 i) .pool
  | .cloak slot f =>
    if slot == i.slot then
      let i0 := asIssued s0 i
      trapWord (cloakRecord s0 i0.core i0.g (lowLane i0.e.lanes) f) i0 causeCloak i0.e.lanes f.addr 0
    else if ((getGroup s0 i.core slot).bind (·.pendTrap)).isSome then parkGroup (cloakTrap s0 i.core slot f) (asIssued s0 i) .pool
    else cloakTrap s0 i.core slot f

/-- The core counts an instruction. -/
def countIssue (s : State) (c : Nat) : State :=
  let q := getCore s c
  setCore s c { q with seq := q.seq + 1 }

/-- Release the last reads, write the destinations, and leave the issuing entry as it then stands (R60). -/
def writeBack (s : State) (i : Iss) (srcs rels : List Nat) (ds : List Dest) : Iss :=
  let i := releaseFields (touchFields s i srcs) rels
  ds.foldl (fun i d => writeField s i d.f (fun l => d.vals.getD l 0) d.sh) i

/-- The instruction has executed: it is counted, its group is as `j` has it, and the cloakroom's maps follow its names (R65). -/
def commit (s : State) (i j : Iss) : State := putIss (countIssue (clearMaps s i.g j.g) i.core) j

/-- The end of an instruction on names, `n` words long; `k` changes the state once there is room for what it writes. -/
def finishWith (s : State) (i : Iss) (srcs rels : List Nat) (ds : List Dest) (n : Nat) (k : State → State) : Out :=
  if apGeneral i ds then .next (illegal s i i.e.lanes)
  else
    let j := writeBack s i srcs rels ds
    .next (withRoom s i (keepNames i (srcs ++ ds.map (·.f))) (commit s i j)
      (fun s => let s := k s; match getGroup s i.core i.slot with
        | some g => advance s { j with g := g } n
        | none => s))

def finish (s : State) (i : Iss) (srcs rels : List Nat) (ds : List Dest) (n : Nat) : Out :=
  finishWith s i srcs rels ds n id

/-- The lanes that compute: the active ones and the clause's helper lanes. -/
def workLanes (i : Iss) : LaneSet := i.e.lanes ||| helperLanes i

/-- Values of the working lanes. -/
def laneVals (i : Iss) (f : Nat → Word) : List Word :=
  let m := workLanes i
  (List.range 64).map (fun l => if hasLane m l then f l else 0)

/-- Values of an instruction in which helper lanes take no part: their copies keep what they held (R26, R413). -/
def ownVals (i : Iss) (d : Nat) (f : Nat → Word) : List Word :=
  laneVals i (fun l => if hasLane i.e.lanes l then f l else readLane i l d)

/-- An instruction whose result in each lane depends on that lane's own sources only, with the exceptions of each lane. -/
def runLanes (s : State) (srcs rels : List Nat) (d : Nat) (sh : Iss → ResShape) (f : Iss → Nat → Word × FFlags) : Out :=
  runOp s srcs [d] fun i =>
    let m := workLanes i
    let rs := (List.range 64).map (fun l => if hasLane m l then f i l else (0, 0))
    let fl := fun l => (rs.getD l (0, 0)).2
    let tl := fpxLanes i fl
    if tl != 0 then .next (trapWord s i causeFpx tl (orFlags tl fl).toNat 0)
    else finish s (setFstat i fl) srcs rels [⟨d, rs.map (·.1), sh i⟩] 1

/-- The same without exceptions. -/
def runPlain (s : State) (srcs rels : List Nat) (d : Nat) (sh : Iss → ResShape) (f : Iss → Nat → Word) : Out :=
  runLanes s srcs rels d sh (fun i l => (f i l, flagNone))

/-- The fields of format R as natural numbers: sources, and those marked as last read. -/
def srcs3 (r : R3) : List Nat := [r.sa.toNat, r.sb.toNat]

def rels3 (r : R3) : List Nat := (if r.lra then [r.sa.toNat] else []) ++ (if r.lrb then [r.sb.toNat] else [])

def rels2 (r : R2) : List Nat := if r.lra then [r.sa.toNat] else []

/-- An operation of two sources. -/
def run2 (s : State) (r : R3) (sh : Shaped → Shaped → ResShape) (f : Word → Word → Word) : Out :=
  runPlain s (srcs3 r) (rels3 r) r.d.toNat (fun i => sh (fieldVal i r.sa.toNat) (fieldVal i r.sb.toNat))
    (fun i l => f (readLane i l r.sa.toNat) (readLane i l r.sb.toNat))

/-- An operation of one source. -/
def run1 (s : State) (r : R2) (sh : Shaped → ResShape) (f : Word → Word) : Out :=
  runPlain s [r.sa.toNat] (rels2 r) r.d.toNat (fun i => sh (fieldVal i r.sa.toNat)) (fun i l => f (readLane i l r.sa.toNat))

def stdShape1 (v : Shaped) : ResShape := stdShape [v]

def stdShape2 (a b : Shaped) : ResShape := stdShape [a, b]

/-- The shape of a floating-point result (R56, R109). -/
def floatShape (i : Iss) (fs : List Nat) : ResShape := if sameMode i then stdShape (fs.map (fieldVal i)) else .general

/-- A floating-point operation of two sources. -/
def runF2 (s : State) (r : R3) (f : FMode → Word → Word → Word × FFlags) : Out :=
  runLanes s (srcs3 r) (rels3 r) r.d.toNat (fun i => floatShape i (srcs3 r))
    (fun i l => f (laneMode i l) (readLane i l r.sa.toNat) (readLane i l r.sb.toNat))

/-- A floating-point operation of three sources, the third being `D`. -/
def runF3 (s : State) (r : R3) (f : FMode → Word → Word → Word → Word × FFlags) : Out :=
  runLanes s (srcs3 r ++ [r.d.toNat]) (rels3 r) r.d.toNat (fun i => floatShape i (srcs3 r ++ [r.d.toNat]))
    (fun i l => f (laneMode i l) (readLane i l r.sa.toNat) (readLane i l r.sb.toNat) (readLane i l r.d.toNat))

/-- A floating-point operation of one source. -/
def runF1 (s : State) (r : R2) (f : FMode → Word → Word × FFlags) : Out :=
  runLanes s [r.sa.toNat] (rels2 r) r.d.toNat (fun i => floatShape i [r.sa.toNat])
    (fun i l => f (laneMode i l) (readLane i l r.sa.toNat))

/-- A result in FP32 as a word. -/
def asWord (r : Nat × FFlags) : Word × FFlags := (BitVec.ofNat 32 r.1, r.2)

end Sys2Proof.Machine
end

