-- ==== Sys2Proof/Machine/Integer.lean ====
section
/-!
DEFINITION. The integer instructions (R333, R336, R357 to R361, R394): one meaning per instruction over the runners of Flags.
-/
namespace Sys2Proof.Machine

/-- An exact integer clamped to a range. -/
def clampInt (lo hi x : Int) : Word := BitVec.ofInt 32 (if x < lo then lo else if hi < x then hi else x)

/-- A sum or difference in the treatment that `MOD` selects (R357). -/
def saturate (m : SatMode) (wrapped : Word) (signed unsigned : Int) : Word :=
  match m with
  | .wrap => wrapped
  | .sat => clampInt (-2147483648) 2147483647 signed
  | .satu => clampInt 0 4294967295 unsigned

def iaddVal (m : SatMode) (a b : Word) : Word := saturate m (a + b) (a.toInt + b.toInt) ((a.toNat : Int) + b.toNat)

def isubVal (m : SatMode) (a b : Word) : Word := saturate m (a - b) (a.toInt - b.toInt) ((a.toNat : Int) - b.toNat)

def imulVal (m : MulMode) (a b : Word) : Word :=
  match m with
  | .lo => a * b
  | .hi => BitVec.ofInt 32 (a.toInt * b.toInt / 4294967296)
  | .hiu => BitVec.ofNat 32 (a.toNat * b.toNat / 4294967296)

def execIadd (m : SatMode) (r : R3) (s : State) : Out :=
  run2 s r (if m == .wrap then addShape false else stdShape2) (iaddVal m)

def execIsub (m : SatMode) (r : R3) (s : State) : Out :=
  run2 s r (if m == .wrap then addShape true else stdShape2) (isubVal m)

def execImul (m : MulMode) (r : R3) (s : State) : Out :=
  run2 s r (if m == .lo then mulShape else stdShape2) (imulVal m)

/-- `IMAD`: a · b + d, the old value of `D` being the third source. -/
def execImad (r : R3) (s : State) : Out :=
  runPlain s (srcs3 r ++ [r.d.toNat]) (rels3 r) r.d.toNat
    (fun i => madShape (fieldVal i r.sa.toNat) (fieldVal i r.sb.toNat) (fieldVal i r.d.toNat))
    (fun i l => readLane i l r.sa.toNat * readLane i l r.sb.toNat + readLane i l r.d.toNat)

/-- Whether a word is below another, as uint32 or as int32. -/
def wordLt (u : Bool) (a b : Word) : Bool := if u then decide (a.toNat < b.toNat) else decide (a.toInt < b.toInt)

def execImin (u : Bool) (r : R3) (s : State) : Out := run2 s r stdShape2 (fun a b => if wordLt u b a then b else a)

def execImax (u : Bool) (r : R3) (s : State) : Out := run2 s r stdShape2 (fun a b => if wordLt u a b then b else a)

def execIand (r : R3) (s : State) : Out := run2 s r stdShape2 (fun a b => a &&& b)

def execIor (r : R3) (s : State) : Out := run2 s r stdShape2 (fun a b => a ||| b)

def execIxor (r : R3) (s : State) : Out := run2 s r stdShape2 (fun a b => a ^^^ b)

/-- Shifts by a full 32-bit count, never taken modulo 32 (R361). -/
def shlVal (a c : Word) : Word := if 32 ≤ c.toNat then 0 else a <<< c.toNat

def shrVal (a c : Word) : Word := if 32 ≤ c.toNat then 0 else a >>> c.toNat

def sarVal (a c : Word) : Word :=
  if 32 ≤ c.toNat then (if a.getLsbD 31 then 0xFFFFFFFF else 0) else a.sshiftRight c.toNat

def execIshl (r : R3) (s : State) : Out := run2 s r (fun a b => shlShape a (uniformVal b)) shlVal

def execIshr (sgn : Bool) (r : R3) (s : State) : Out := run2 s r stdShape2 (if sgn then sarVal else shrVal)

def execPopc (r : R2) (s : State) : Out := run1 s r stdShape1 (fun a => bw (popCount a.toNat 32))

/-- Zero bits above the highest set bit of a word. -/
def clzVal (a : Word) : Word := if a == 0 then 32 else bw (31 - Nat.log2 a.toNat)

def execClz (r : R2) (s : State) : Out := run1 s r stdShape1 clzVal

/-- Position and clamped length that a control word gives (R333). -/
def fieldPos (c : Word) : Nat := c.toNat % 32

def fieldLen (c : Word) : Nat := min (bitsOf c.toNat 13 8) (32 - fieldPos c)

def bfeVal (sgn : Bool) (a c : Word) : Word :=
  let n := fieldLen c
  let x := a.toNat / 2 ^ fieldPos c % 2 ^ n
  if n == 0 then 0
  else if sgn && testBit x (n - 1) then BitVec.ofInt 32 ((x : Int) - 2 ^ n) else bw x

def bfiVal (a c d : Word) : Word :=
  let m : Word := BitVec.ofNat 32 ((2 ^ fieldLen c - 1) * 2 ^ fieldPos c)
  (d &&& ~~~m) ||| ((a <<< fieldPos c) &&& m)

def execBfe (sgn : Bool) (r : R3) (s : State) : Out := run2 s r stdShape2 (bfeVal sgn)

def execBfi (r : R3) (s : State) : Out :=
  runPlain s (srcs3 r ++ [r.d.toNat]) (rels3 r) r.d.toNat
    (fun i => stdShape [fieldVal i r.sa.toNat, fieldVal i r.sb.toNat, fieldVal i r.d.toNat])
    (fun i l => bfiVal (readLane i l r.sa.toNat) (readLane i l r.sb.toNat) (readLane i l r.d.toNat))

/-- Whether an integer condition holds (R359). -/
def cmpHolds (u : Bool) (c : IntCmp) (a b : Word) : Bool :=
  match c with
  | .eq => a == b
  | .ne => a != b
  | .lt => wordLt u a b
  | .le => !wordLt u b a

def boolWord (b : Bool) : Word := if b then 1 else 0

def execIcmp (c : IntCmp) (r : R3) (s : State) : Out := run2 s r stdShape2 (fun a b => boolWord (cmpHolds false c a b))

def execIcmpu (c : IntCmp) (r : R3) (s : State) : Out := run2 s r stdShape2 (fun a b => boolWord (cmpHolds true c a b))

/-- `SEL` (R394): `SA` and the next name are chosen by the condition in `SB`; `LRA` marks both. -/
def execSel (r : R3) (s : State) : Out :=
  let a := r.sa.toNat
  runPlain s [a, a + 1, r.sb.toNat] ((if r.lra then [a, a + 1] else []) ++ (if r.lrb then [r.sb.toNat] else [])) r.d.toNat
    (fun i => stdShape [fieldVal i a, fieldVal i (a + 1), fieldVal i r.sb.toNat])
    (fun i l => if readLane i l r.sb.toNat != 0 then readLane i l a else readLane i l (a + 1))

def execIaddi (imm : BitVec 10) (r : R2) (s : State) : Out :=
  run1 s r (fun a => addShape false a (.uniform (imm.signExtend 32))) (fun a => a + imm.signExtend 32)

def execIandi (imm : BitVec 10) (r : R2) (s : State) : Out := run1 s r stdShape1 (fun a => a &&& imm.setWidth 32)

def execIshli (n : BitVec 5) (r : R2) (s : State) : Out :=
  run1 s r (fun a => shlShape a (some (n.setWidth 32))) (fun a => shlVal a (n.setWidth 32))

def execIshri (n : BitVec 5) (r : R2) (s : State) : Out := run1 s r stdShape1 (fun a => shrVal a (n.setWidth 32))

def execIsari (n : BitVec 5) (r : R2) (s : State) : Out := run1 s r stdShape1 (fun a => sarVal a (n.setWidth 32))

end Sys2Proof.Machine
end

