-- ==== Sys2Proof/Machine/Moves.lean ====
section
/-!
DEFINITION. Moves, exchanges between lanes, reductions, votes and special registers (R341, R375, R376, R379, R380, R384,
R393, R396 to R399, R408, R409).
-/
namespace Sys2Proof.Machine

/-! ### Moves -/

/-- A full-mask move keeps the source's shape (R375). -/
def movShape : Shaped → ResShape
  | .unalloc => .unalloc
  | .uniform _ => .uniform
  | .affine b s => mkAffine b s
  | .general _ => .general

/-- A source that is the destination too is not released first: `MOV v5, v5^` leaves it unchanged (R375). -/
def execMov (r : R2) (s : State) : Out :=
  run1 s (if r.d == r.sa then { r with lra := false } else r) movShape id

def execMovi (imm : BitVec 10) (d : Reg) (s : State) : Out :=
  runPlain s [] [] d.toNat (fun _ => .uniform) (fun _ _ => imm.signExtend 32)

/-- `MOVL` is two words long (R88). -/
def execMovl (lit : Word) (d : Reg) (s : State) : Out :=
  runOp s [] [d.toNat] fun i => finish s i [] [] [⟨d.toNat, laneVals i (fun _ => lit), .uniform⟩] 2

/-! ### Values of other lanes -/

/-- The word of a field that a lane of the exchange gives (R379, R397): an active or helper lane its own, an exited lane 0,
and a live lane outside the entry its element of the reading lane's name (log entry 16, DEDUCED, unsafe). -/
def partnerWord (i : Iss) (l p f : Nat) : Word :=
  if hasLane (i.e.lanes ||| quadLanes i) p then (if hasLane i.g.live p then readLane i p f else 0)
  else if hasLane i.g.live p then
    match nameIx i.g l f with
    | some n => shapedAt (getName i.g n).val p
    | none => 0
  else 0

/-- The partner of a lane in a quad exchange (R379). -/
def quadPartner (q : QuadPat) (l : Nat) : Nat :=
  match q with
  | .x1 => l ^^^ 1
  | .x2 => l ^^^ 2
  | .x3 => l ^^^ 3
  | .bc k => l / 4 * 4 + k.toNat

def execQswz (q : QuadPat) (r : R2) (s : State) : Out :=
  runOp s [r.sa.toNat] [r.d.toNat] fun i =>
    let exited := (lanesOf i.e.lanes).any (fun l => !hasLane i.g.live (quadPartner q l))
    finish s i [r.sa.toNat] (rels2 r)
      [⟨r.d.toNat, laneVals i (fun l => partnerWord i l (quadPartner q l) r.sa.toNat),
        if exited then .general else stdShape1 (fieldVal i r.sa.toNat)⟩] 1

/-- The lane that a lane reads in `SHFL`; its own where that falls outside the group. -/
def shflPartner (o : ShflOp) (l d : Nat) : Nat :=
  match o with
  | .idx => d
  | .up => if d ≤ l then l - d else l
  | .down => if l + d < 64 then l + d else l
  | .xor => l ^^^ d

def execShfl (o : ShflOp) (r : R3) (s : State) : Out :=
  runOp s (srcs3 r) [r.d.toNat] fun i =>
    let p := fun l => shflPartner o l ((readLane i l r.sb.toNat).toNat % 64)
    let exited := (lanesOf i.e.lanes).any (fun l => !hasLane i.g.live (p l))
    finish s i (srcs3 r) (rels3 r)
      [⟨r.d.toNat, laneVals i (fun l => partnerWord i l (p l) r.sa.toNat),
        if exited then .general else stdShape2 (fieldVal i r.sa.toNat) (fieldVal i r.sb.toNat)⟩] 1

/-- The value of a field in any lane of the group, as it stands (R380): an active lane's own, else the element of the reading
lane's name. -/
def storedWord (i : Iss) (l p f : Nat) : Word :=
  if hasLane i.e.lanes p then readLane i p f
  else match nameIx i.g l f with
    | some n => shapedAt (getName i.g n).val p
    | none => 0

/-- `RDLANE`: one lane's word to every active lane; uniform under a full mask whatever the source's shape. -/
def readLaneOp (s : State) (srcs rels : List Nat) (f d : Nat) (k : Iss → Nat) : Out :=
  runOp s srcs [d] fun i =>
    finish s i srcs rels [⟨d, laneVals i (fun l => storedWord i (if hasLane i.e.lanes l then l else lowLane i.e.lanes) (k i) f), .uniform⟩] 1

def execRdlane (r : R3) (s : State) : Out :=
  readLaneOp s (srcs3 r) (rels3 r) r.sa.toNat r.d.toNat (fun i => (readLane i (lowLane i.e.lanes) r.sb.toNat).toNat % 64)

def execRdlaneImm (k : BitVec 6) (r : R2) (s : State) : Out :=
  readLaneOp s [r.sa.toNat] (rels2 r) r.sa.toNat r.d.toNat (fun _ => k.toNat)

/-! ### Reductions and scans over lanes (R114) -/

/-- One combination: the words in lane order, lower lane on the left. `FMAX` is exact (R384, R393); as every operation it takes its inputs
by `FTZI`, and its NaN by `CNAN` (R107). -/
def laneCombine (o : LaneOp) (md : FMode) (x y : Word) : Word × FFlags :=
  match o with
  | .iadd => (x + y, flagNone)
  | .fadd => asWord (opAdd .f32 md x.toNat y.toNat)
  | .imax => (if wordLt false x y then y else x, flagNone)
  | .fmax => asWord (opMinMax .f32 md true false x.toNat y.toNat)

/-- A node of the tree: the combination of two, or the one that is present (R114). -/
def combineNodes (o : LaneOp) (md : FMode) : Option (Word × FFlags) → Option (Word × FFlags) → Option (Word × FFlags)
  | some a, some b => let c := laneCombine o md a.1 b.1; some (c.1, a.2 ||| b.2 ||| c.2)
  | some a, none => some a
  | none, b => b

/-- One level of the tree. -/
def treeLevel (o : LaneOp) (md : FMode) : List (Option (Word × FFlags)) → List (Option (Word × FFlags))
  | a :: b :: xs => combineNodes o md a b :: treeLevel o md xs
  | xs => xs

/-- The result of the tree with the union of the flags of its nodes. -/
def treeReduce (o : LaneOp) (md : FMode) (xs : List (Option (Word × FFlags))) : Word × FFlags :=
  ((((List.range 6).foldl (fun xs _ => treeLevel o md xs) xs).headD none).getD (0, flagNone))

def execRedl (o : LaneOp) (r : R2) (s : State) : Out :=
  runOp s [r.sa.toNat] [r.d.toNat] fun i =>
    let xs := (List.range 64).map (fun l =>
      if hasLane i.e.lanes l then some (readLane i l r.sa.toNat, flagNone) else none)
    let v := treeReduce o (laneMode i (lowLane i.e.lanes)) xs
    let tl := fpxLanes i (fun _ => v.2)
    if tl != 0 then .next (trapWord s i causeFpx tl v.2.toNat 0)
    else finish s (setFstat i (fun _ => v.2)) [r.sa.toNat] (rels2 r) [⟨r.d.toNat, laneVals i (fun _ => v.1), .uniform⟩] 1

/-- One step of the scan: lane i combines with lane i − d, under its own mode; its flags gather in its own place. A lane outside
`ACTIVE` that has taken up a value combines under its own `FMODE` too, and its flags are dropped (log entry 78, DESIGN CHOICE, unsafe). -/
def scanStep (o : LaneOp) (md : Nat → FMode) (xs : List (Option (Word × FFlags))) (d : Nat) : List (Option (Word × FFlags)) :=
  (List.range 64).map (fun l =>
    let own := xs.getD l none
    if l < d then own
    else
      match xs.getD (l - d) none, own with
      | some a, some b => let c := laneCombine o (md l) a.1 b.1; some (c.1, b.2 ||| c.2)
      | some a, none => some (a.1, flagNone)
      | none, b => b)

def execScanl (o : LaneOp) (r : R2) (s : State) : Out :=
  runOp s [r.sa.toNat] [r.d.toNat] fun i =>
    let xs := (List.range 64).map (fun l =>
      if hasLane i.e.lanes l then some (readLane i l r.sa.toNat, flagNone) else none)
    let ys := [1, 2, 4, 8, 16, 32].foldl (scanStep o (laneMode i)) xs
    let fl := fun l => ((ys.getD l none).getD (0, flagNone)).2
    let tl := fpxLanes i fl
    if tl != 0 then .next (trapWord s i causeFpx tl (orFlags tl fl).toNat 0)
    else
      -- a helper lane's copy keeps the value the name held (R413)
      finish s (setFstat i fl) [r.sa.toNat] (rels2 r)
        [⟨r.d.toNat, ownVals i r.d.toNat (fun l => ((ys.getD l none).getD (0, flagNone)).1), .general⟩] 1

/-! ### Votes (R408) -/

def execVote (o : VoteOp) (r : R2) (s : State) : Out :=
  let ds := if o == .ballot then [r.d.toNat, r.d.toNat + 1] else [r.d.toNat]
  runOp s [r.sa.toNat] ds fun i =>
    let ls := lanesOf i.e.lanes
    let c := fun l => readLane i l r.sa.toNat != 0
    let mask := laneSetOf (fun l => hasLane i.e.lanes l && c l)
    let eq := ls.all (fun l => readLane i l r.sa.toNat == readLane i (lowLane i.e.lanes) r.sa.toNat)
    let out := match o with
      | .any => [boolWord (ls.any c)]
      | .all => [boolWord (ls.all c)]
      | .ballot => [mask.extractLsb' 0 32, mask.extractLsb' 32 32]
      | .eq => [boolWord eq]
    finish s i [r.sa.toNat] (rels2 r) ((ds.zip out).map (fun p => ⟨p.1, laneVals i (fun _ => p.2), .uniform⟩)) 1

/-! ### Shapes (R62, R341, R396) -/

/-- `SHAPE` reads the tag without the payload: a spilled name is not filled. -/
def execShape (r : R2) (s : State) : Out :=
  runNames s [r.sa.toNat, r.d.toNat] [] [r.d.toNat] fun i =>
    finish s i [r.sa.toNat] (rels2 r)
      [⟨r.d.toNat, laneVals i (fun l => match nameIx i.g l r.sa.toNat with
          | some n => bw (shapeCode (getName i.g n).val)
          | none => 0), .uniform⟩] 1

/-- `EXPAND` makes the name general in all 64 lanes, with every value kept. -/
def execExpand (d : Reg) (s : State) : Out :=
  runOp s [d.toNat] [] fun i =>
    let use := (getCore s i.core).seq
    let g := (namesOf i d.toNat).foldl (fun g n =>
      setName g n ⟨.general ((List.range 64).map (shapedAt (getName i.g n).val)), false, use⟩) i.g
    let j := { i with g := g, cc := writeHelpers i (helperLanes i) d.toNat (fun l => readLane i l d.toNat) }
    .next (withRoom s i (keepNames i [d.toNat]) (commit s i j)
      (fun s => match getGroup s i.core i.slot with
        | some g => advance s { j with g := g } 1
        | none => s))

/-! ### Special registers (R96, R97, R398, R399) -/

/-- A register that only a handler reads. -/
def isPriv : SReg → Bool
  | .tcause | .tpc | .trgnpc | .trgncnt | .taddr | .tmasklo | .tmaskhi | .tshapes | .tpchi | .trgnpchi | .taddrhi | .tword => true
  | _ => false

/-- The window a lane holds, by its identity. -/
def lanesWindow (g : Group) (l : Nat) : Option Nat := (laneSt g l).win.map (·.win)

/-- The value of a special register in a lane. -/
def sregVal (s : State) (i : Iss) (x : SReg) (l : Nat) : Word :=
  let g := i.g
  let t := g.traps
  match x with
  | .laneid => bw l
  | .groupid => if isAp g then 0 else bw g.id.group
  | .blockid => if isAp g then 0 else bw g.id.block
  | .gangid => bw g.id.gang
  | .launchid => g.id.launchId
  | .coreid => bw i.core
  | .clusterid => bw (clusterOf i.core)
  | .wingid => bw g.id.ctx.wing
  | .tenantid => bw g.id.ctx.ten
  | .actlo => i.e.lanes.extractLsb' 0 32
  | .acthi => i.e.lanes.extractLsb' 32 32
  | .winid => match lanesWindow g l with
    | some w => bw w
    | none => 0xFFFFFFFF
  | .streamid => streamOf g
  | .fmode => if isAp g then 0 else (laneSt g l).fmode
  | .fstat => if isAp g then 0 else (laneSt g l).fstat
  | .wb => (laneSt g l).wb.setWidth 32
  | .rgncnt => g.rgnCnt
  | .corecyc => (getCore s i.core).corecyc
  | .capatom => 0x3356
  | .capunits => wingUnits (getWing s g.id.ctx.wing)
  | .tcause => t.cause
  | .tpc => t.pc.extractLsb' 0 32
  | .trgnpc => t.rgnPc.extractLsb' 0 32
  | .trgncnt => t.rgnCnt
  | .taddr => t.addr.extractLsb' 0 32
  | .tmasklo => t.mask.extractLsb' 0 32
  | .tmaskhi => t.mask.extractLsb' 32 32
  | .tshapes => t.shapes
  | .tpchi => (t.pc.extractLsb' 32 24).setWidth 32
  | .trgnpchi => (t.rgnPc.extractLsb' 32 24).setWidth 32
  | .taddrhi => (t.addr.extractLsb' 32 24).setWidth 32
  | .tword => t.word

/-- The shape of a full-mask read (R56, R398): `LANEID` affine; a per-lane register uniform where the active lanes agree. -/
def sregShape (i : Iss) (x : SReg) (v : Nat → Word) : ResShape :=
  match x with
  | .laneid => .affine 0 1
  | .fmode | .fstat | .wb | .winid =>
    if (lanesOf i.e.lanes).all (fun l => v l == v (lowLane i.e.lanes)) then .uniform else .general
  | _ => .uniform

def execSread (x : SReg) (d : Reg) (s : State) : Out :=
  runOp s [] [d.toNat] fun i =>
    if isPriv x && !inHandler i.g then .next (trapWord s i causePerm i.e.lanes 0 0)
    else finish s i [] [] [⟨d.toNat, laneVals i (sregVal s i x), sregShape i x (sregVal s i x)⟩] 1

/-- The writable bits of a register that `SWRITE` names (R105, R106). -/
def swriteMask : WReg → Word
  | .fmode => 0x3FF
  | .fstat => 0x1F

def execSwrite (x : WReg) (sa : Reg) (s : State) : Out :=
  runOp s [sa.toNat] [] fun i =>
    let v := fun l => readLane i l sa.toNat &&& swriteMask x
    let i := { i with g := mapLanes i.g i.e.lanes (fun l y => match x with
      | .fmode => { y with fmode := v l }
      | .fstat => { y with fstat := v l }) }
    finish s i [sa.toNat] [] [] 1

/-- `WBASE` sets `WB`, or HVB in a handler (R70, R409), of the active lanes; a helper lane's own view stays (log entry 79, DESIGN
CHOICE, unsafe). -/
def execWbase (n : BitVec 10) (s : State) : Out :=
  runOp s [] [] fun i =>
    let i := { i with g := mapLanes i.g i.e.lanes (fun _ y =>
      if inHandler i.g then { y with hvb := n } else { y with wb := n }) }
    finish s i [] [] [] 1

end Sys2Proof.Machine
end

