-- ==== Sys2Proof/Machine/Control.lean ====
section
/-!
DEFINITION. Control flow within a group: branches, calls, returns, yields and rejoin markers (R33, R35, R334, R335, R362,
R371, R372, R385, R412).
-/
namespace Sys2Proof.Machine

/-- The target of a branch: the clause header's address plus a word offset, modulo 2^56 (R91, R92). -/
def branchTarget (i : Iss) (words : Int) : Pc := i.cc.hdr + BitVec.ofInt 56 (4 * words)

/-- A branch: the lanes that take it go to the target, the others past the clause. -/
def branchTo (s : State) (i : Iss) (words : Int) (take : Nat → Bool) : State :=
  depart s i (byTarget i.e.lanes (fun l => if take l then branchTarget i words else afterClause i.cc)) false

def execBra (off : BitVec 17) (s : State) : Out :=
  runOp s [] [] fun i => .next (branchTo (countIssue s i.core) i off.toInt (fun _ => true))

/-- A conditional branch: the test is on the 32-bit word; in access-processor code the condition is uniform (R138). -/
def condBranch (lrc : Bool) (c : Reg) (off : BitVec 17) (nz : Bool) (s : State) : Out :=
  runOp s [c.toNat] [] fun i =>
    if isAp i.g && !isUniform (fieldVal i c.toNat) then .next (illegal s i i.e.lanes)
    else
      let take := fun l => (readLane i l c.toNat != 0) == nz
      let j := releaseFields (touchFields s i [c.toNat]) (if lrc then [c.toNat] else [])
      .next (branchTo (countIssue s i.core) j off.toInt take)

def execBrc (lrc : Bool) (c : Reg) (off : BitVec 17) (s : State) : Out := condBranch lrc c off true s

def execBrz (lrc : Bool) (c : Reg) (off : BitVec 17) (s : State) : Out := condBranch lrc c off false s

/-- `CALL` (R335): the return link goes into `v0` to `v2` of the new window. -/
def execCall (frame : BitVec 5) (off : BitVec 20) (s : State) : Out :=
  runOutside s [] [] fun i =>
    let wb := fun l => (laneSt i.g l).wb.toNat
    let bad := laneSetOf (fun l => hasLane i.e.lanes l && decide (1016 < wb l + 8 * frame.toNat))
    if bad != 0 then .next (illegal s i bad)
    else
      let ra := (afterClause i.cc).toNat
      let j := { i with g := mapLanes i.g i.e.lanes (fun l x => { x with wb := BitVec.ofNat 10 (wb l + 8 * frame.toNat) }) }
      if interlocked s j [0, 1, 2] then .next (holdIssue s)
      else
        match receiveWait s j [0, 1, 2] with
        | some r => .next (parkAt s i r.2 (.receive r.1))
        | none =>
          match toFill j [] [0, 1, 2] with
          | [] =>
            let j2 := writeField s (writeField s (writeField s j 0 (fun _ => bw ra) .uniform)
              1 (fun _ => bw (ra / 2 ^ 32)) .uniform) 2 (fun l => bw (wb l)) .uniform
            .next (withRoom s i (keepNames j [0, 1, 2]) (commit s i j2)
              (fun s => match getGroup s i.core i.slot with
                | some g => depart s { j2 with g := g } [(branchTarget i off.toInt, i.e.lanes)] false
                | none => s))
          | ns => .next (parkGroup s i (.fill ns))

/-- `RET` (R385). -/
def execRet (s : State) : Out :=
  runOutside s [0, 1, 2] [] fun i =>
    let lo := fun l => (readLane i l 0).toNat
    let hi := fun l => (readLane i l 1).toNat
    let nb := fun l => (readLane i l 2).toNat
    let bad := laneSetOf (fun l => hasLane i.e.lanes l &&
      (decide (2 ^ 24 ≤ hi l) || lo l % 4 != 0 || nb l % 8 != 0 || decide (1016 < nb l)))
    if bad != 0 then .next (illegal s i bad)
    else
      let i := touchFields s i [0, 1, 2]
      let j := { i with g := mapLanes i.g i.e.lanes (fun l x => { x with wb := BitVec.ofNat 10 (nb l) }) }
      .next (depart (countIssue s i.core) j (byTarget i.e.lanes (fun l => BitVec.ofNat 56 (hi l * 2 ^ 32 + lo l))) false)

/-- `JMPR` (R362): each lane takes its own target. -/
def execJmpr (sa : Reg) (s : State) : Out :=
  runOp s [sa.toNat, sa.toNat + 1] [] fun i =>
    let t := fun l => (readPair i l sa.toNat).toNat
    let bad := laneSetOf (fun l => hasLane i.e.lanes l && (decide (2 ^ 56 ≤ t l) || t l % 4 != 0))
    if bad != 0 then .next (illegal s i bad)
    else .next (depart (countIssue s i.core) (touchFields s i [sa.toNat, sa.toNat + 1])
      (byTarget i.e.lanes (fun l => BitVec.ofNat 56 (t l))) false)

/-- `YIELD` (R33): the entry goes past its clause with a yield mark. -/
def execYield (s : State) : Out :=
  runOutside s [] [] fun i => .next (depart (countIssue s i.core) i [(afterClause i.cc, i.e.lanes)] true)

/-! ### Markers (R35) -/

/-- Change the group and go on to the next word. -/
def stepGroup (s : State) (i : Iss) (f : Group → Group) : State := advance (countIssue s i.core) { i with g := f i.g } 1

def execMjoin (k : BitVec 4) (s : State) : Out :=
  runOutside s [] [] fun i =>
    .next (stepGroup s i (fun g => let m := getMarker g k.toNat; setMarker g k.toNat { m with enr := m.enr ||| i.e.lanes }))

def execMleave (k : BitVec 4) (s : State) : Out :=
  runOutside s [] [] fun i => .next (stepGroup s i (fun g => leaveMarker i.e.lanes g k.toNat))

/-- `MWAIT`: the enrolled lanes arrive and park past the clause; the others go on. -/
def execMwait (k : BitVec 4) (s : State) : Out :=
  runOutside s [] [] fun i =>
    let m := getMarker i.g k.toNat
    let a := i.e.lanes &&& m.enr
    let j := markNonRep { i with g := setMarker i.g k.toNat { m with arr := m.arr ||| a } }
    let pc := afterClause i.cc
    let s := departWith (countIssue s i.core) j
      [(pc, i.e.lanes &&& ~~~a, .none), (pc, a, .marker k.toNat)] false
    match getGroup s i.core i.slot with
    | some g => .next (setGroup s i.core i.slot (releaseCheck g k.toNat))
    | none => .next s

/-- Read a set of a marker into two names; helper lanes take no part (R372). -/
def readMarker (s : State) (d : Reg) (set : Group → LaneSet) : Out :=
  runOutside s [] [d.toNat, d.toNat + 1] fun i =>
    finish s i [] [] [⟨d.toNat, ownVals i d.toNat (fun _ => (set i.g).extractLsb' 0 32), .uniform⟩,
      ⟨d.toNat + 1, ownVals i (d.toNat + 1) (fun _ => (set i.g).extractLsb' 32 32), .uniform⟩] 1

def execMreadEnr (k : BitVec 4) (d : Reg) (s : State) : Out := readMarker s d (fun g => (getMarker g k.toNat).enr)

def execMreadArr (k : BitVec 4) (d : Reg) (s : State) : Out := readMarker s d (fun g => (getMarker g k.toNat).arr)

end Sys2Proof.Machine
end

