-- ==== Sys2Proof/Machine/FloatOps.lean ====
section
/-!
DEFINITION. The floating-point instructions (R342 to R345, R348, R350, R356): one meaning per instruction over Float and Flags.
-/
namespace Sys2Proof.Machine

def execFadd (r : R3) (s : State) : Out := runF2 s r (fun md a b => asWord (opAdd .f32 md a.toNat b.toNat))

def execFsub (r : R3) (s : State) : Out := runF2 s r (fun md a b => asWord (opSub .f32 md a.toNat b.toNat))

def execFmul (r : R3) (s : State) : Out := runF2 s r (fun md a b => asWord (opMul .f32 md a.toNat b.toNat))

/-- `FFMA`: one rounding of a · b + d. -/
def execFfma (r : R3) (s : State) : Out := runF3 s r (fun md a b d => asWord (opFma .f32 md a.toNat b.toNat d.toNat))

def execFmin (nan : Bool) (r : R3) (s : State) : Out :=
  runF2 s r (fun md a b => asWord (opMinMax .f32 md false nan a.toNat b.toNat))

def execFmax (nan : Bool) (r : R3) (s : State) : Out :=
  runF2 s r (fun md a b => asWord (opMinMax .f32 md true nan a.toNat b.toNat))

def execFcmp (c : FloatCmp) (r : R3) (s : State) : Out :=
  runF2 s r (fun md a b => let x := opFcmp md c a.toNat b.toNat; (if x.1 then 1 else 0, x.2))

/-- `FSGN` works on bits alone (R350). -/
def execFsgn (o : SignOp) (r : R3) (s : State) : Out :=
  runPlain s (srcs3 r) (rels3 r) r.d.toNat (fun i => stdShape2 (fieldVal i r.sa.toNat) (fieldVal i r.sb.toNat))
    (fun i l => opSign o (readLane i l r.sa.toNat) (readLane i l r.sb.toNat))

def execFrcp (r : R2) (s : State) : Out := runF1 s r (fun md a => asWord (opTrans .rcp md a))

def execFrsq (r : R2) (s : State) : Out := runF1 s r (fun md a => asWord (opTrans .rsq md a))

def execFexp2 (r : R2) (s : State) : Out := runF1 s r (fun md a => asWord (opTrans .exp2 md a))

def execFlog2 (r : R2) (s : State) : Out := runF1 s r (fun md a => asWord (opTrans .log2 md a))

def execFtanh (r : R2) (s : State) : Out := runF1 s r (fun md a => asWord (opTrans .tanh md a))

def execFsig (r : R2) (s : State) : Out := runF1 s r (fun md a => asWord (opTrans .sig md a))

/-- `FCVT`: the bits of the source format, converted and zero-extended (R343). -/
def execFcvt (src dst : FloatFmt) (r : R2) (s : State) : Out :=
  runF1 s r (fun md a => asWord (opConvert md src dst (a.toNat % 2 ^ fmtWidth src)))

def execI2f (u : Bool) (r : R2) (s : State) : Out := runF1 s r (fun md a => asWord (opI2f md u a))

def execF2i (z u : Bool) (r : R2) (s : State) : Out := runF1 s r (fun md a => opF2i md z u a.toNat)

def execHadd2 (f : HalfFmt) (r : R3) (s : State) : Out :=
  runF2 s r (fun md a b => opPacked (fun x y _ => opAdd (halfFmt f) md x y) a b 0)

def execHmul2 (f : HalfFmt) (r : R3) (s : State) : Out :=
  runF2 s r (fun md a b => opPacked (fun x y _ => opMul (halfFmt f) md x y) a b 0)

def execHfma2 (f : HalfFmt) (r : R3) (s : State) : Out :=
  runF3 s r (fun md a b d => opPacked (fun x y z => opFma (halfFmt f) md x y z) a b d)

end Sys2Proof.Machine
end

