-- ==== Sys2Proof/Machine/Matrix.lean ====
section
/-!
DEFINITION. The arithmetic of the matrix engine and the gate pipeline: elements of a fragment (R213), one output element of a
pass (R112), and the stages of the gate programs (R227).
-/
namespace Sys2Proof.Machine

/-! ### MMA -/

/-- Bits of an element (R212). -/
def mtypeBits : MType → Nat
  | .e4m3 | .e5m2 | .i8 => 8
  | .bf16 => 16
  | .e2m1 => 4

/-- K blocks of 32 in a pass (R212). -/
def mtypeBlocks : MType → Nat
  | .e4m3 | .e5m2 | .i8 => 2
  | .bf16 => 1
  | .e2m1 => 4

/-- The value of an element's bits; INT8 enters as an exact integer. -/
def mtypeVal (t : MType) (b : Nat) : FVal :=
  match t with
  | .e4m3 => unpack .e4m3 b
  | .e5m2 => unpack .e5m2 b
  | .bf16 => unpack .bf16 b
  | .e2m1 => unpack .e2m1 b
  | .i8 => if b < 128 then .num false b 0 else .num true (256 - b) 0

/-- Element k of a row given as its 16 words (R213). -/
def fragElem (t : MType) (row : List Word) (k : Nat) : FVal :=
  let n := mtypeBits t
  mtypeVal t ((row.getD (k * n / 32) 0).toNat / 2 ^ (k * n % 32) % 2 ^ n)

/-- The sum of a block's products: exact, or special. -/
structure BlockSum where
  nan : Bool
  pinf : Bool
  ninf : Bool
  sum : Exact
  deriving DecidableEq, Repr

def BlockSum.zero : BlockSum := ⟨false, false, false, ⟨0, 0⟩⟩

/-- Add one product to a block's sum. -/
def addProduct (acc : BlockSum) (x y : FVal) : BlockSum :=
  match x, y with
  | .num an am ae, .num bn bm be => { acc with sum := exactAdd acc.sum (exactOf (an != bn) (am * bm) (ae + be)) }
  | x, y =>
    if fvalIsNan x || fvalIsNan y || zeroTimesInf x y then { acc with nan := true }
    else if fvalNeg x != fvalNeg y then { acc with ninf := true } else { acc with pinf := true }

/-- The rounded sum t of a block under its shift (R112). -/
def blockTerm (ftzo : Bool) (b : BlockSum) (shift : Int) : Nat × FFlags :=
  if b.nan || (b.pinf && b.ninf) then invalidResult .f32
  else if b.pinf then (fmtInfBits .f32, flagNone)
  else if b.ninf then (signBit .f32 true + fmtInfBits .f32, flagNone)
  else roundExact .f32 .rne ftzo true false (exactShift b.sum shift)

/-- acc + t, rounded once; a finite overflow is the largest finite value (R112). -/
def accAdd (ftzo cnan : Bool) (acc t : Nat) : Nat × FFlags :=
  let md : FMode := ⟨.rne, false, ftzo, cnan⟩
  let x := unpack .f32 acc
  let y := unpack .f32 t
  (nanRule .f32 md false [x, y]).getD (addVals .f32 md true x y)

/-- The shift count of block kb in a captured scale register (R215, R222). -/
def shiftOf (w : Word) (kb : Nat) : Int := (w.extractLsb' (8 * kb) 8).toInt

/-- One output element: the accumulator element with the pass's blocks added in ascending order (R112). -/
def mmaElem (ta tb : MType) (ftzo cnan : Bool) (sa sb : Word) (row col : List Word) (acc : Word) : Word × FFlags :=
  let r := (List.range (mtypeBlocks ta)).foldl (fun (a : Nat × FFlags) kb =>
    if shiftOf sa kb == -128 || shiftOf sb kb == -128 then a
    else
      let b := (List.range 32).foldl (fun b k =>
        addProduct b (fragElem ta row (32 * kb + k)) (fragElem tb col (32 * kb + k))) BlockSum.zero
      let t := blockTerm ftzo b (shiftOf sa kb + shiftOf sb kb)
      let y := accAdd ftzo cnan a.1 t.1
      (y.1, a.2 ||| t.2 ||| y.2)) (acc.toNat, flagNone)
  (BitVec.ofNat 32 r.1, r.2)

/-- An element of a tile: +0 where nothing is listed. -/
def tileAt (t : FMap Word) (i j : Nat) : Word := sget 0 t (64 * i + j)

/-- Word l of each name of a captured fragment: row or column l (R213). -/
def fragRow (f : List (List Word)) (l : Nat) : List Word := f.map (fun ws => ws.getD l 0)

/-- A whole pass over a tile, with the union of its flags. -/
def mmaPass (ta tb : MType) (fa fb : List (List Word)) (sa sb : Word) (fmode : Word) (t : FMap Word) : FMap Word × FFlags :=
  let md := fmodeOf fmode
  let rows := (List.range 64).map (fragRow fa)
  let cols := (List.range 64).map (fragRow fb)
  let es := (List.range 4096).map (fun n =>
    (n, mmaElem ta tb md.ftzo md.cnan sa sb (rows.getD (n / 64) []) (cols.getD (n % 64) []) (sget 0 t n)))
  (es.filterMap (fun e => if e.2.1 == 0 then none else some (e.1, e.2.1)), es.foldl (fun f e => f ||| e.2.2) flagNone)

/-! ### GATE (R227) -/

/-- Width of the state of a gate program. -/
def gateWidth : GateProg → Nat
  | .lstm _ | .gru => 16
  | .ssm | .swiglu => 32
  | _ => 64

/-- A stage: a value with the flags so far. -/
structure Stg where
  v : Nat
  fl : FFlags
  deriving DecidableEq, Repr

def stgOf (w : Word) : Stg := ⟨w.toNat, flagNone⟩

def stg1 (f : Nat → Nat × FFlags) (a : Stg) : Stg := let r := f a.v; ⟨r.1, a.fl ||| r.2⟩

def stg2 (f : Nat → Nat → Nat × FFlags) (a b : Stg) : Stg := let r := f a.v b.v; ⟨r.1, a.fl ||| b.fl ||| r.2⟩

def stg3 (f : Nat → Nat → Nat → Nat × FFlags) (a b c : Stg) : Stg :=
  let r := f a.v b.v c.v; ⟨r.1, a.fl ||| b.fl ||| c.fl ||| r.2⟩

def stgTrans (md : FMode) (fn : TransFn) (a : Stg) : Stg := stg1 (fun x => opTrans fn md (BitVec.ofNat 32 x)) a

/-- The stages of a program for one element: what goes to the state, and to a separate output. -/
def gateStages (p : GateProg) (md : FMode) (z : Nat → Word) (j : Nat) (h : Word) : Stg × Option Stg :=
  let z := fun c => stgOf (z c)
  let h := stgOf h
  let mul := stg2 (opMul .f32 md)
  let fma := stg3 (opFma .f32 md)
  let tr := stgTrans md
  match p with
  | .lstm _ =>
    let i := tr .sig (z j)
    let f := tr .sig (z (16 + j))
    let g := tr .tanh (z (32 + j))
    let o := tr .sig (z (48 + j))
    let c := fma f h (mul i g)
    (c, some (mul o (tr .tanh c)))
  | .gru =>
    let r := tr .sig (z j)
    let q := tr .sig (z (16 + j))
    let n := tr .tanh (fma r (z (48 + j)) (z (32 + j)))
    (fma q (stg2 (opSub .f32 md) h n) n, none)
  | .ssm => (fma (tr .exp2 (mul (z j) (stgOf 0x3FB8AA3B))) h (z (32 + j)), none)
  | .swiglu => (mul (mul (z j) (tr .sig (z j))) (z (32 + j)), none)
  | .relu =>
    (stg1 (fun x =>
      match unpack .f32 x with
      | .nan n q fr => nanResult .f32 md.cnan (if q then flagNone else flagInv) [.nan n q fr]
      | .inf n => (if n then 0 else x, flagNone)
      | .num n m _ => (if n || m == 0 then 0 else x, flagNone)) (z j), none)
  | .tanh => (tr .tanh (z j), none)
  | .sig => (tr .sig (z j), none)
  | .add => (stg2 (opAdd .f32 md) h (z j), none)

/-- The mode a gate program rounds under: only `FTZO` and `CNAN` of what was captured (R113). -/
def gateMode (fmode : Word) : FMode := ⟨.rne, false, (fmodeOf fmode).ftzo, (fmodeOf fmode).cnan⟩

end Sys2Proof.Machine
end

