-- ==== Sys2Proof/Machine/Caches.lean ====
section
/-!
DEFINITION. The ordering machine below issue (R127 to R133, R144, R145, R152 to R163, R169): store buffers, L1, L2, combining
buffers and homes, and the drains, flushes, releases and acquires that move bytes between them.
-/
namespace Sys2Proof.Machine

/-! ### Which L2 a cluster uses (R155, R257) -/

/-- Ways of the core-side slices that a tenant's rows give it (R260); all of them for a context that no row in effect names.
(Log entry 12, DESIGN CHOICE, safe.) -/
def l2Ways (s : State) (x : Ctx) : Nat :=
  match tenantRow (getWing s x.wing) x.ten with
  | some r => popCount (r.extractLsb' 48 16).toNat 16
  | none => 16

/-- The core-side L2 slice that serves a line for a cluster of a wing: its own, or an owned one by hashing, or none. -/
def l2Slice (s : State) (x : Ctx) (cluster line : Nat) : Option Nat :=
  let own := (getWing s x.wing).wl2s
  if l2Ways s x == 0 then none
  else if own.getLsbD cluster then some cluster
  else
    match (List.range 96).filter (fun n => own.getLsbD n) with
    | [] => none
    | ns => some (ns.getD (Config.sliceHash line % ns.length) 0)

/-- The slices that a cluster of a wing uses: the set that a release or acquire of the cluster acts on (R155). -/
def l2Slices (s : State) (x : Ctx) (cluster : Nat) : List Nat :=
  let own := (getWing s x.wing).wl2s
  if own.getLsbD cluster then [cluster] else (List.range 96).filter (fun n => own.getLsbD n)

/-- Whether a place may be held in L1 and L2 (R127): device memory, and host memory without snooping. -/
def cacheable (t : Tgt) (snoop : Bool) : Bool :=
  match t with
  | .dev => true
  | .host => !snoop
  | _ => false

/-- The sector that holds a place, and the byte within it. -/
def sectorOf (l : PLoc) : Nat := locKey l / 32

def sectorLoc (k : Nat) : PLoc := if k < 2 ^ 55 then ⟨.dev, k * 32⟩ else ⟨.host, (k - 2 ^ 55) * 32⟩

/-- The key of a context's sector in a core-side slice: the ways of a context hold no other tenant's lines (R260, R266). -/
def l2Key (x : Ctx) (sec : Nat) : Nat := sec * 256 + x.wing * 8 + x.ten

def Sector.fresh (x : Ctx) : Sector := ⟨x, zeroBytes 32, 0, 0, 0, [], 0, false⟩

/-! ### L2 -/

/-- Write the bytes of a mask at the home. -/
def homeWriteMask (s : State) (l : PLoc) (bs : List Byte) (m : BitVec 32) : State :=
  if m == BitVec.allOnes 32 then homeWrite s l bs
  else (List.range 32).foldl (fun s j => if m.getLsbD j then homeWrite s (locAdd l j) [bs.getD j 0] else s) s

/-- Record at the home that a unit's last write was a release (R169). -/
def markRelease (s : State) (l : PLoc) (r : Option RelMark) : State :=
  match r with
  | some r => { s with lastRel := fset s.lastRel (locKey ⟨l.tgt, l.a / unitSize l.tgt * unitSize l.tgt⟩) r }
  | none => s

/-- Write a dirty sector of a slice through to its home; it stays, clean (R129). -/
def writeThrough (s : State) (slice key : Nat) : State :=
  let k := getCluster s slice
  match fget k.l2 key with
  | none => s
  | some x =>
    if x.dirty == 0 then s
    else
      let s := setCluster s slice { k with l2 := fset k.l2 key { x with dirty := 0, rel := [] } }
      let l := sectorLoc (key / 256)
      let s := homeTouch s x.ctx l (some x.ep) x.last
      x.rel.foldl (fun s r => markRelease s (locAdd l (r.1 * unitSize l.tgt)) (some r.2)) (homeWriteMask s l x.bytes x.dirty)

/-- Write through every dirty sector of a context in a slice (R129). -/
def writeThroughAll (s : State) (x : Ctx) (slice : Nat) : State :=
  ((getCluster s slice).l2.filter (fun p => p.2.ctx == x && p.2.dirty != 0)).foldl (fun s p => writeThrough s slice p.1) s

/-- Drop a sector of a slice, writing it back where it is dirty. -/
def evictSector (s : State) (slice key : Nat) : State :=
  let s := writeThrough s slice key
  let k := getCluster s slice
  setCluster s slice { k with l2 := ferase k.l2 key }

/-- The sectors of a line that a context has in a slice, by key. -/
def l2Line (s : State) (slice : Nat) (x : Ctx) (line : Nat) : List Nat :=
  ((getCluster s slice).l2.filter (fun p => p.2.ctx == x && p.1 / 1024 == line)).map (·.1)

/-- The lines that a context has in a slice, each with its `EP`, its last use and its mark (R131). -/
def l2Lines (k : Cluster) (x : Ctx) : List HomeLine :=
  let mine := k.l2.filter (fun p => p.2.ctx == x)
  ((mine.map (fun p => p.1 / 1024)).eraseDups).map (fun n =>
    (mine.filter (fun p => p.1 / 1024 == n)).foldl (fun h p =>
      { h with ep := if h.use ≤ p.2.use then min 2 p.2.ep else h.ep, use := max h.use p.2.use, last := h.last || p.2.last })
      ⟨n, x, 0, 0, false⟩)

/-- Room for a line of a context in a slice: where the context's ways of the set are full, its first line out is evicted. -/
def l2Room (s : State) (slice : Nat) (x : Ctx) (line : Nat) : State :=
  let hs := l2Lines (getCluster s slice) x
  if hs.any (fun h => h.line == line) || decide (hs.length < l2Ways s x) then s
  else
    let here := hs.filter (fun h => Config.l2Set h.line % Config.l2Sets == Config.l2Set line % Config.l2Sets)
    if here.length < l2Ways s x then s
    else match firstOut here with
      | some h => (l2Line s slice x h.line).foldl (fun s key => evictSector s slice key) s
      | none => s

/-- Merge bytes into a sector at an offset. -/
def putBytes (x : Sector) (off : Nat) (bs : List Byte) (dirty : Bool) : Sector :=
  let m := BitVec.ofNat 32 ((2 ^ bs.length - 1) * 2 ^ off)
  { x with bytes := x.bytes.take off ++ bs ++ x.bytes.drop (off + bs.length), valid := x.valid ||| m,
           dirty := if dirty then x.dirty ||| m else x.dirty }

/-- The releases of a sector after a write at a place in it: those of other units stay (R169). -/
def relAfter (m : FMap RelMark) (l : PLoc) (n : Nat) (r : Option RelMark) : FMap RelMark :=
  let u := unitSize l.tgt
  let m := m.filter (fun e => decide (l.a % 32 + n ≤ e.1 * u) || decide (e.1 * u + u ≤ l.a % 32))
  match r with
  | some r => fset m (l.a % 32 / u) r
  | none => m

/-- Write bytes, within one sector, into the cluster's L2, or at the home where there is none (R154, R155). -/
def clusterWrite (s : State) (x : Ctx) (cluster : Nat) (l : PLoc) (bs : List Byte) (ep : Nat) (lu : Bool) (r : Option RelMark) : State :=
  match if cacheable l.tgt false then l2Slice s x cluster (locKey l / 128) else none with
  | some n =>
    let u := stamp (l2Room s n x (locKey l / 128))
    let key := l2Key x (sectorOf l)
    let k := getCluster u.2 n
    let old := (fget k.l2 key).getD (Sector.fresh x)
    -- the hints are ignored for host memory (R131)
    let dev := l.tgt == .dev
    let new := { putBytes old (l.a % 32) bs true with
      ctx := x, ep := if dev then ep else 0, use := u.1, last := dev && lu, rel := relAfter old.rel l bs.length r }
    setCluster u.2 n { k with l2 := fset k.l2 key new }
  | none => markRelease (homeWrite (homeTouch s x l (some ep) lu) l bs) l r

/-! ### L1 (R128) -/

/-- A store updates a present sector of the L1 and allocates none. -/
def l1Update (s : State) (c : Nat) (l : PLoc) (bs : List Byte) : State :=
  let q := getCore s c
  match fget q.l1 (sectorOf l) with
  | some x => setCore s c { q with l1 := fset q.l1 (sectorOf l) (putBytes x (l.a % 32) bs false) }
  | none => s

def l1Invalidate (s : State) (c : Nat) : State :=
  let q := getCore s c
  setCore s c { q with l1 := [] }

/-- Scratchpad declared on a core; of an ended block the queue region remains (R140). -/
def scratchUsed (q : Core) : Nat := q.blocks.foldl (fun a b => a + (if b.2.ended then 65536 else b.2.scratch)) 0

/-- Lines that the L1 of a core may hold: what its scratchpads leave of the core SRAM (R11, R12). -/
def l1Capacity (q : Core) : Nat := (Config.coreSram - scratchUsed q) / 128

/-- The lines that an L1 holds, each with its last use. -/
def l1Lines (m : FMap Sector) : List HomeLine :=
  m.foldl (fun hs p => match hs with
    | h :: r => if h.line == p.1 / 4 then { h with use := max h.use p.2.use } :: r else ⟨p.1 / 4, p.2.ctx, 0, p.2.use, false⟩ :: hs
    | [] => [⟨p.1 / 4, p.2.ctx, 0, p.2.use, false⟩]) []

/-- A core's L1 drops a line, whose tag the victim array takes (R45). (Log entry 65, DEDUCED, safe.) -/
def l1Drop (q : Core) (line : Nat) : Core :=
  if q.l1.any (fun p => p.1 / 4 == line) then
    { q with l1 := q.l1.filter (fun p => p.1 / 4 != line),
             victims := (line :: q.victims.filter (· != line)).take Config.victimTags }
  else q

/-- Drop the least recently used lines of an L1 down to a number of lines; the first argument bounds them. -/
def l1Trim (cap : Nat) : Nat → Core → Core
  | 0, q => q
  | fuel + 1, q =>
    let hs := l1Lines q.l1
    if hs.length ≤ cap then q
    else match firstOut hs with
      | some h => l1Trim cap fuel (l1Drop q h.line)
      | none => q

/-- The L1 of a core has no more lines than its SRAM leaves it (R12). -/
def l1Fit (q : Core) : Core := if q.l1.length ≤ l1Capacity q then q else l1Trim (l1Capacity q) q.l1.length q

/-- A core's L1 gives up the line of a place. -/
def l1Forget (s : State) (c : Nat) (l : PLoc) : State :=
  let q := getCore s c
  setCore s c { q with l1 := q.l1.filter (fun p => p.1 / 4 != locKey l / 128) }

/-- Drop the line of a place from a core's L1 and its cluster's L2, dirty bytes written through first (R127). -/
def dropLine (s : State) (c : Nat) (x : Ctx) (l : PLoc) : State :=
  let line := locKey l / 128
  let s := l1Forget s c l
  if cacheable l.tgt false then
    match l2Slice s x (clusterOf c) line with
    | some n => (l2Line s n x line).foldl (fun s key => evictSector s n key) s
    | none => s
  else s

/-! ### Reads (R158) -/

/-- Split a range at the boundaries of units (R157): offset and length of each piece. -/
def piecesFrom (u a n : Nat) : Nat → Nat → List (Nat × Nat)
  | 0, _ => []
  | fuel + 1, off =>
    if n ≤ off then []
    else
      let k := min (n - off) (u - (a + off) % u)
      (off, k) :: piecesFrom u a n fuel (off + k)

def pieces (u a n : Nat) : List (Nat × Nat) := piecesFrom u a n n 0

/-- Peer memory is acquired and released at `SYSTEM` scope (R180). -/
def scopeAt (sc : Scope) (l : PLoc) : Scope :=
  match l.tgt with
  | .peer _ => .system
  | _ => sc

/-- Whether a store-buffer entry holds a byte: at its place, or at its flat address while its walk is pending. -/
def sbHolds (e : SbEntry) (x : Ctx) (l : PLoc) (va : Nat) : Option Byte :=
  if e.ctx != x || e.op != .store then none
  else
    match e.xl with
    | .done p =>
      if p.tgt == l.tgt && decide (p.a ≤ l.a) && decide (l.a < p.a + e.bytes.length) then e.bytes[l.a - p.a]? else none
    | _ => if decide (e.va ≤ va) && decide (va < e.va + e.bytes.length) then e.bytes[va - e.va]? else none

/-- The newest store-buffer entry's byte. -/
def sbByte : List SbEntry → Ctx → PLoc → Nat → Option Byte
  | [], _, _, _ => none
  | e :: es, x, l, va =>
    match sbByte es x l va with
    | some b => some b
    | none => sbHolds e x l va

/-- A byte of a sector, where it is valid. -/
def sectorByte (m : FMap Sector) (l : PLoc) : Option Byte :=
  match fget m (sectorOf l) with
  | some x => if x.valid.getLsbD (l.a % 32) then x.bytes[l.a % 32]? else none
  | none => none

/-- A byte of peer memory with the writes on their way to it (R180). -/
def peerByte (s : State) (p a : Nat) : Byte :=
  (sget [] s.peerOut p).foldl (fun b w => if decide (w.a ≤ a) && decide (a < w.a + w.bytes.length) then w.bytes.getD (a - w.a) b else b)
    (memByte (sget [] s.peerMem p) a)

/-- A byte at its home. -/
def homeByte (s : State) (l : PLoc) : Byte :=
  match l.tgt with
  | .peer p => peerByte s p l.a
  | _ => (homeRead s l 1).getD 0 0

/-- A byte of a context's sector in a slice, where it is valid. -/
def l2Byte (k : Cluster) (x : Ctx) (l : PLoc) : Option Byte :=
  match fget k.l2 (l2Key x (sectorOf l)) with
  | some y => if y.valid.getLsbD (l.a % 32) then y.bytes[l.a % 32]? else none
  | none => none

/-- A byte in a cluster's L2, or at the home. -/
def clusterByte (s : State) (x : Ctx) (cluster : Nat) (l : PLoc) (snoop : Bool) : Byte :=
  if cacheable l.tgt snoop then
    match l2Slice s x cluster (locKey l / 128) with
    | some n => (l2Byte (getCluster s n) x l).getD (homeByte s l)
    | none => homeByte s l
  else homeByte s l

/-- Translate the entry of a lane that went on without its translation (R310). A release to peer memory is widened to `SYSTEM`
(R180). -/
def resolveEntry (s : State) (e : SbEntry) : Except XlFault SbEntry :=
  match e.xl with
  | .done l => if peerDown s l then .error ⟨false, false, false⟩ else .ok e
  | .held _ => .error ⟨true, false, false⟩
  | .walking =>
    match walk s e.ctx e.va with
    | .error f => .error f
    | .ok t =>
      let l := placeOf t e.va
      let hostBad := l.tgt == .host && (match e.op with | .red op _ _ _ => op != .add | _ => false)
      if !rightsOk t rightsStore || (e.snoop && l.tgt != .host) || hostBad then
        .error ⟨false, false, true⟩
      else if peerDown s l then .error ⟨false, false, false⟩
      else .ok { e with xl := .done l, rel := e.rel.map (fun sc => scopeAt sc l) }

/-- Cut an entry whose place is known at the boundaries of its home's units (R157): one entry for each unit. Pieces of one entry keep
its number. -/
def splitEntry (e : SbEntry) : List SbEntry :=
  match e.xl with
  | .done l =>
    (pieces (unitSize l.tgt) l.a e.bytes.length).map (fun k =>
      { e with va := e.va + k.1, xl := .done (locAdd l k.1), bytes := (e.bytes.drop k.1).take k.2 })
  | _ => [e]

/-- An entry as it stands once its walk ends, where the walk would succeed now. -/
def settled (s : State) (e : SbEntry) : List SbEntry :=
  match e.xl with
  | .walking => (match resolveEntry s e with
    | .ok d => splitEntry d
    | .error _ => [e])
  | _ => [e]

/-- The store buffer of a core with every place that is known, or that a walk would find now. (Log entry 26, DEDUCED, unsafe.) -/
def sbView (s : State) (c : Nat) : List SbEntry := (getCore s c).sb.flatMap (settled s)

/-- The byte that a plain load of a core reads (R158): store buffer, L1, L2, home. -/
def loadByte (s : State) (c : Nat) (x : Ctx) (sb : List SbEntry) (l : PLoc) (va : Nat) (snoop : Bool) : Byte :=
  match sbByte sb x l va with
  | some b => b
  | none =>
    match if cacheable l.tgt snoop then sectorByte (getCore s c).l1 l else none with
    | some b => b
    | none => clusterByte s x (clusterOf c) l snoop

def loadBytes (s : State) (c : Nat) (x : Ctx) (l : PLoc) (va n : Nat) (snoop : Bool) : List Byte :=
  let sb := sbView s c
  (List.range n).map (fun j => loadByte s c x sb (locAdd l j) (va + j) snoop)

/-- A read through a cluster's L2 fills the sector there (R129). A poisoned granule is not brought in (R312). A sector that the L2 holds
is served there, so that a load with `EP` 3 pins its line only where its request reaches the home slice. (Log entry 86, DESIGN CHOICE,
unsafe.) -/
def clusterFill (s : State) (cluster : Nat) (x : Ctx) (sec ep : Nat) : State :=
  let l := sectorLoc sec
  let all := BitVec.allOnes 32
  let ep := if l.tgt == .dev then ep else 0
  match l2Slice s x cluster (sec / 4) with
  | some n =>
    let key := l2Key x sec
    let old := (fget (getCluster s n).l2 key).getD (Sector.fresh x)
    let s := if old.valid == all then s else homeTouch s x l (some ep) false
    if (poisonIn s l 32).isSome then s
    else
      let u := stamp (l2Room s n x (sec / 4))
      let k := getCluster u.2 n
      let bs := (List.range 32).map (fun j => (l2Byte k x (locAdd l j)).getD (homeByte u.2 (locAdd l j)))
      setCluster u.2 n { k with l2 := fset k.l2 key { old with bytes := bs, valid := all, ep := ep, use := u.1, last := false } }
  | none => homeTouch s x l (some ep) false

/-- Bring one sector of a line into a core's L1, through the cluster's L2; poisoned data stays out. -/
def l1FillSector (c : Nat) (x : Ctx) (ep : Nat) (s : State) (sec : Nat) : State :=
  let l := sectorLoc sec
  let s := clusterFill s (clusterOf c) x sec ep
  if (poisonIn s l 32).isSome then s
  else
    let u := stamp s
    let q := getCore u.2 c
    let bs := (List.range 32).map (fun j => (sectorByte q.l1 (locAdd l j)).getD (clusterByte u.2 x (clusterOf c) (locAdd l j) false))
    setCore u.2 c { q with l1 := fset q.l1 sec { Sector.fresh x with bytes := bs, valid := BitVec.allOnes 32, ep := ep, use := u.1 } }

/-- A load looks up the L1 for sectors of one line; a miss fills the whole line (R128, R129), and counts where the line's tag is a
victim's (R45). One lookup is counted for each line that a lane's part touches; a line that misses counts as a victim hit
whichever of its sectors were missing. (Log entry 65, DEDUCED, safe.) -/
def fillLine (s : State) (c : Nat) (x : Ctx) (line : Nat) (secs : List Nat) (ep : Nat) : State :=
  let q := getCore s c
  let hit := secs.all (fun k => (fget q.l1 k).isSome)
  let vh := !hit && q.victims.contains line
  let s := setCore s c { q with l1Lookups := q.l1Lookups + 1, victimHits := if vh then q.victimHits + 1 else q.victimHits }
  if hit then
    let u := stamp s
    let q := getCore u.2 c
    setCore u.2 c { q with l1 := q.l1.map (fun p => if p.1 / 4 == line then (p.1, { p.2 with use := u.1 }) else p) }
  else
    let s := ((List.range 4).map (fun j => 4 * line + j)).foldl (l1FillSector c x ep) s
    setCore s c (l1Fit (getCore s c))

/-- The sectors that a range touches. -/
def sectorsIn (l : PLoc) (n : Nat) : List Nat :=
  if n == 0 then [] else (List.range ((locKey l + n - 1) / 32 - locKey l / 32 + 1)).map (fun j => locKey l / 32 + j)

/-- The lines that a range touches. -/
def linesOf (l : PLoc) (n : Nat) : List Nat := ((sectorsIn l n).map (· / 4)).eraseDups

/-- Read for a plain load, with its fills and hints (R131). A read that snoops the host leaves no copy of its lines at the core, whose
dirty bytes reach the home first: a thread reads its own writes (R159). -/
def plainRead (s : State) (c : Nat) (x : Ctx) (l : PLoc) (va n ep : Nat) (lu snoop : Bool) : List Byte × State :=
  let s := if snoop then (linesOf l n).foldl (fun s ln => dropLine s c x (sectorLoc (4 * ln))) s else s
  let bs := loadBytes s c x l va n snoop
  if cacheable l.tgt snoop then
    let s := (linesOf l n).foldl (fun s ln => fillLine s c x ln ((sectorsIn l n).filter (fun k => k / 4 == ln)) ep) s
    if lu && l.tgt == .dev then
      (bs, (linesOf l n).foldl (fun s ln =>
        let s := match l2Slice s x (clusterOf c) ln with
          | some m => let k := getCluster s m
                      setCluster s m { k with l2 := k.l2.filter (fun p => !(p.2.ctx == x && p.1 / 1024 == ln)) }
          | none => s
        dropHomeLine s ln) s)
    else (bs, s)
  else (bs, s)

/-! ### Reductions and atomics (R330, R382) -/

/-- The step of an integer AOP on words of n bits. -/
def atomInt (op : AtomOp) (n : Nat) (old x cmp : BitVec n) : BitVec n :=
  match op with
  | .add => old + x
  | .min => if x.toInt < old.toInt then x else old
  | .max => if old.toInt < x.toInt then x else old
  | .minu => if x.toNat < old.toNat then x else old
  | .maxu => if old.toNat < x.toNat then x else old
  | .and => old &&& x
  | .or => old ||| x
  | .xor => old ^^^ x
  | .exch => x
  | .cas => if old == cmp then x else old
  | .fadd | .fmin | .fmax => old

/-- minimumNumber and maximumNumber on FP32 words, as for `FOLD` (R189). -/
def numMinMax (isMax : Bool) (a b : Word) : Word :=
  BitVec.ofNat 32 (opMinMax .f32 ⟨.rne, false, false, false⟩ isMax false a.toNat b.toNat).1

/-- The step of an AOP of `ATOM` on a word: `FADD` rounds to nearest even, every NaN result canonical (R330). -/
def atomWord (op : AtomOp) (old x cmp : Word) : Word :=
  match op with
  | .fadd =>
    let r : Word := BitVec.ofNat 32 (opAdd .f32 ⟨.rne, false, false, true⟩ old.toNat x.toNat).1
    if fvalIsNan (unpack .f32 r.toNat) then 0x7FC00000 else r
  | .fmin => numMinMax false old x
  | .fmax => numMinMax true old x
  | _ => atomInt op 32 old x cmp

/-- The step of a reduction with its control bits (R382). -/
def redStep (op : AtomOp) (ftz cnan sat : Bool) (w x : Word) : Word :=
  match op with
  | .fadd =>
    let a := unpackIn .f32 ftz w.toNat
    let b := unpackIn .f32 ftz x.toNat
    let md : FMode := ⟨.rne, ftz, ftz, cnan⟩
    let r : Word := BitVec.ofNat 32 (if fvalIsNan a || fvalIsNan b then (nanResult .f32 cnan flagNone [a, b]).1
      else (addVals .f32 md sat a b).1)
    r
  | .fmin | .fmax =>
    let fl := fun (v : Word) => if ftz && decide (v.toNat % 2 ^ 31 < 2 ^ 23) then v &&& 0x80000000 else v
    let a := unpack .f32 w.toNat
    let b := unpack .f32 x.toNat
    if fvalIsNan a && fvalIsNan b then BitVec.ofNat 32 (nanResult .f32 cnan flagNone [a, b]).1
    else numMinMax (op == .fmax) (fl w) (fl x)
  | _ => atomInt op 32 w x 0

/-! ### The store buffer (R157) -/

/-- Peer writes of a context that a release at `SYSTEM` still awaits (R180). -/
def peerPending (s : State) (x : Ctx) : Bool := s.peerOut.any (fun p => p.2.any (fun w => w.ctx == x))

/-- Whether two entries lie in one single-copy unit, where both places are known, or at one flat 32 B. -/
def sameUnit (a b : SbEntry) : Bool :=
  match a.xl, b.xl with
  | .done p, .done q => p.tgt == q.tgt && p.a / unitSize p.tgt == q.a / unitSize q.tgt
  | _, _ => a.ctx == b.ctx && a.va / 32 == b.va / 32

/-- A later lane of a reduction that targets the granule of one of its entries. (Log entry 62, DEDUCED, unsafe.) -/
def redMate (e : SbEntry) (d : SbEntry) : Bool :=
  d.opNo == e.opNo && d.ctx == e.ctx && d.op == e.op && decide (e.seq < d.seq)
    && (match e.xl, d.xl with
      | .done p, .done q => p.tgt == q.tgt && p.a / 32 == q.a / 32
      | _, _ => false)

/-- The word of its granule and the value that an entry of a reduction gives. -/
def redWord (e : SbEntry) : Option (Nat × Word) :=
  match e.xl with
  | .done p => some (p.a % 32 / 4, BitVec.ofNat 32 (leNat e.bytes))
  | _ => none

/-- The lanes of one `RED` that target one word of device memory are combined first (R382). -/
def combineLanes (f : Word → Word → Word) (xs : List (Nat × Word)) : FMap Word :=
  xs.foldl (fun m p => fset m p.1 (match fget m p.1 with
    | some v => f v p.2
    | none => p.2)) []

/-- A release mark of an entry. -/
def relOf (c : Nat) (e : SbEntry) : Option RelMark := e.rel.map (fun sc => ⟨sc, c, e.ctx, e.seq⟩)

/-! ### The combining buffer (R144, R145) -/

/-- Send one entry to the home: one reduction per valid word, in ascending order. -/
def flushEntry (s : State) (c : Nat) (e : CombEntry) : State :=
  let q := getCore s c
  let s := setCore s c { q with comb := q.comb.filter (fun d => d.granule != e.granule) }
  let l : PLoc := ⟨.dev, e.granule⟩
  let s := dropLine s c e.ctx l
  e.words.foldl (fun s w =>
    let p := locAdd l (4 * w.1)
    let old : Word := BitVec.ofNat 32 (leNat (homeRead s p 4))
    homeWrite (homeTouch s e.ctx p none false) p (leBytes 4 (redStep e.op e.ftz e.cnan e.sat old w.2).toNat)) s

/-- Flush, in order of age, the entries that a test names. -/
def flushWhere (s : State) (c : Nat) (p : CombEntry → Bool) : State :=
  ((getCore s c).comb.filter p).foldl (fun s e => flushEntry s c e) s

def flushAll (s : State) (c : Nat) : State := flushWhere s c (fun _ => true)

/-- Flush the entries whose granule an access touches (R145). -/
def flushTouched (s : State) (c : Nat) (l : PLoc) (n : Nat) : State :=
  if l.tgt == .dev then flushWhere s c (fun e => decide (e.granule < l.a + n) && decide (l.a < e.granule + 32)) else s

/-- Put the words of one granule into the combining buffer (R144). The core's earlier stores to the granule have drained. -/
def combine (s : State) (c : Nat) (e : CombEntry) : State :=
  let q := getCore s c
  match q.comb.find? (fun d => d.granule == e.granule) with
  | some d =>
    if d.op != .fadd && d.op == e.op && d.ftz == e.ftz && d.cnan == e.cnan && d.sat == e.sat && d.ctx == e.ctx then
      let ws := e.words.foldl (fun m w => fset m w.1 (match fget m w.1 with
        | some v => redStep e.op e.ftz e.cnan e.sat v w.2
        | none => w.2)) d.words
      setCore s c { q with comb := q.comb.map (fun y => if y.granule == e.granule then { d with words := ws } else y) }
    else
      let s := flushEntry s c d
      let q := getCore s c
      setCore s c { q with comb := q.comb ++ [e] }
  | none =>
    let s := if Config.combineEntries ≤ q.comb.length then (match q.comb with | d :: _ => flushEntry s c d | [] => s) else s
    let q := getCore s c
    setCore s c { q with comb := q.comb ++ [e] }

/-! ### Draining the store buffer (R157) -/

/-- A reduction that waited for its translation is applied: in the combining buffer for device memory, all words of its granule at once
and the lanes that target one word combined first (R144), else at the home (R143). -/
def drainRed (s : State) (c : Nat) (e : SbEntry) (l : PLoc) (op : AtomOp) (ftz cnan sat : Bool) : State :=
  let mates := if l.tgt == .dev then (sbView s c).filter (redMate e) else []
  let k := getCore s c
  let s := setCore s c { k with sb := k.sb.filter (fun d => !mates.any (fun m => m.seq == d.seq)) }
  let s := if l.tgt == .dev then
      combine s c { ctx := e.ctx, slot := e.slot, granule := l.a / 32 * 32, op := op, ftz := ftz, cnan := cnan, sat := sat,
                    words := combineLanes (redStep op ftz cnan sat) ((e :: mates).filterMap redWord), born := s.clock }
    else
      let s := deliverPeer (dropLine s c e.ctx l) l
      homeWrite s l (leBytes 4 (redStep op ftz cnan sat (BitVec.ofNat 32 (leNat (homeRead s l 4))) (BitVec.ofNat 32 (leNat e.bytes))).toNat)
  (e :: mates).foldl (fun s d => flagDone s c d.slot d.age d.flag) s

/-- Move one translated entry out of the store buffer to its point of R154, completing its flag there (R80). `toHome` carries a
release of `DEVICE` scope or wider on to its home. -/
def drainEntry (s : State) (c : Nat) (e : SbEntry) (toHome : Bool) : State :=
  let q := getCore s c
  let s := setCore s c { q with sb := q.sb.filter (fun d => !(d.seq == e.seq && d.va == e.va)) }
  match e.xl with
  | .done l =>
    match e.op with
    | .red op ftz cnan sat => drainRed s c e l op ftz cnan sat
    | .store =>
      match l.tgt with
      | .scr .. => flagDone (markRelease (homeWrite s l e.bytes) l (relOf c e)) c e.slot e.age e.flag
      | .peer p =>
        { s with peerOut := sset [] s.peerOut p (sget [] s.peerOut p ++ [⟨e.ctx, c, e.slot, e.age, e.flag, l.a, e.bytes⟩]) }
      | _ =>
        -- a store whose place was not known at issue meets the combining buffer here (R145)
        let s := l1Update (flushTouched s c l e.bytes.length) c l e.bytes
        let s := if e.snoop then markRelease (homeWrite (dropLine s c e.ctx l) l e.bytes) l (relOf c e)
          else clusterWrite s e.ctx (clusterOf c) l e.bytes e.ep e.lu (relOf c e)
        let s := if toHome then
            match l2Slice s e.ctx (clusterOf c) (locKey l / 128) with
            | some n => writeThrough s n (l2Key e.ctx (sectorOf l))
            | none => s
          else s
        flagDone s c e.slot e.age e.flag
  | _ => s

def relFar (e : SbEntry) : Bool :=
  match e.rel with
  | some .device | some .system => true
  | _ => false

/-- The entries that must drain for those that a test names to drain: earlier ones of the same unit (R157), and the earlier ones
that a release awaits (R162). The list is in issue order. (Log entry 25, DEDUCED, unsafe.) -/
def drainSet (p : SbEntry → Bool) : List SbEntry → List SbEntry
  | [] => []
  | e :: es =>
    let r := drainSet p es
    if p e || r.any (fun d => sameUnit e d || relAwaits d e) then e :: r else r

/-- The walk of an entry of the store buffer ends, where it succeeds: the entry becomes its pieces, each counted by its flag. -/
def settleEntry (s : State) (c : Nat) (e : SbEntry) : State :=
  match e.xl with
  | .walking =>
    match resolveEntry s e with
    | .error _ => s
    | .ok d =>
      let s := walkTouch s e.ctx e.va
      let ps := splitEntry d
      let q := getCore s c
      let s := setCore s c { q with sb := q.sb.flatMap (fun y => if y.seq == e.seq && y.va == e.va then ps else [y]) }
      match groupOfAge s c e.slot e.age with
      | some g => setGroup s c e.slot ((ps.drop 1).foldl (fun g d => flagUp g d.flag) g)
      | none => s
  | _ => s

/-- Drain one entry in its turn. A release has the combining buffer flushed before it, and at `DEVICE` scope or wider the cluster's
dirty sectors written through (R162). -/
def drainNext (s : State) (c : Nat) (e : SbEntry) : State :=
  let s := ((getCore s c).sb.filter (fun d => d.seq == e.seq)).foldl (fun s d => settleEntry s c d) s
  let s := if e.rel.isSome then flushAll s c else s
  let s := if relFar e then (l2Slices s e.ctx (clusterOf c)).foldl (fun s n => writeThroughAll s e.ctx n) s else s
  drainEntry s c e (relFar e)

/-- Drain the entries given, in issue order; those that a held entry, or a peer write not acknowledged, bars are left and
listed. A lane that has been combined with an earlier one is in the buffer no more. -/
def drainSeq (c : Nat) : List SbEntry → State → List SbEntry → State × List SbEntry
  | [], s, bar => (s, bar)
  | e :: es, s, bar =>
    if !(getCore s c).sb.any (fun d => d.seq == e.seq) then drainSeq c es s bar
    else if bar.any (fun d => sameUnit d e || relAwaits e d) || (relWide e && peerPending s e.ctx) then
      drainSeq c es s (bar ++ [e])
    else
      match e.xl, resolveEntry s e with
      | .done _, .ok _ => drainSeq c es (drainNext s c e) bar
      | _, _ => drainSeq c es s (bar ++ [e])

/-- Drain the entries of a core that a test names, with those that must go before them. The result says whether all of them
drained. -/
def drainWhere (s : State) (c : Nat) (p : SbEntry → Bool) : State × Bool :=
  let r := drainSeq c (drainSet p (sbView s c)) s []
  (r.1, r.2.isEmpty)

/-- An entry of a context touches n bytes at a place, or at their flat address while its place is not known. -/
def touches (x : Ctx) (l : PLoc) (va n : Nat) (e : SbEntry) : Bool :=
  match e.xl with
  | .done p => p.tgt == l.tgt && decide (p.a < l.a + n) && decide (l.a < p.a + e.bytes.length)
  | _ => e.ctx == x && decide (e.va < va + n) && decide (va < e.va + e.bytes.length)

/-- Entries of a core's store buffer that lie in the unit of a place. -/
def inUnit (x : Ctx) (l : PLoc) (va : Nat) (e : SbEntry) : Bool :=
  match e.xl with
  | .done p => p.tgt == l.tgt && p.a / unitSize p.tgt == l.a / unitSize l.tgt
  | _ => e.ctx == x && e.va / 32 == va / 32

/-! ### Loads on the load-return path (R134, R152, R153) -/

/-- The 32 B sector requests that the parts of a load make, by what serves a sector before it leaves the core: those of scratchpad make
none (R134, R135). -/
def requestsOf (served : LoadPart → Nat → Bool) (ps : List LoadPart) : Nat :=
  ((ps.filter (fun p => match p.loc.tgt with | .scr .. => false | _ => true)).flatMap (fun p =>
    (sectorsIn p.loc p.width).filter (fun k => !served p k))).eraseDups.length

/-- What a plain load reads of a sector lies in the store buffer, or the L1 holds the sector (R158). -/
def servedNear (s : State) (c : Nat) (x : Ctx) (snoop : Bool) (p : LoadPart) (sec : Nat) : Bool :=
  (cacheable p.loc.tgt snoop && (fget (getCore s c).l1 sec).isSome)
    || (let sb := sbView s c
        !sb.isEmpty && (List.range p.width).all (fun j =>
          locKey (locAdd p.loc j) / 32 != sec || (sbByte sb x (locAdd p.loc j) (p.va + j)).isSome))

/-- A load at a scope is served as a plain one below `CLUSTER` (R161). -/
def servedAt (sc : Scope) (s : State) (c : Nat) (x : Ctx) (snoop : Bool) (p : LoadPart) (sec : Nat) : Bool :=
  (match sc with | .group | .core => true | _ => false) && servedNear s c x snoop p sec

/-- Requests of a core, its access processor included, that are outstanding (R134). -/
def outstanding (s : State) (c : Nat) : Nat :=
  (getCore s c).loads.foldl (fun n o => n + o.reqs) 0
    + s.peerOut.foldl (fun n p => n + (p.2.filter (fun w => w.core == c)).length) 0

/-- Whether a core has entries for further requests (R134). One instruction's requests issue together, once there are entries for all
of them. (Log entry 89, DESIGN CHOICE, unsafe.) -/
def requestRoom (s : State) (c n : Nat) : Bool :=
  if ((getCore s c).loads.isEmpty && s.peerOut.isEmpty) then true
  else decide (outstanding s c + n ≤ Config.maxOutstanding)

/-- Bind a part that is not bound. -/
def bindPart (s : State) (c : Nat) (o : LoadOp) (p : LoadPart) : LoadPart × State :=
  match p.val with
  | some _ => (p, s)
  | none =>
    let r := plainRead s c o.ctx p.loc p.va p.width o.ep o.lu o.snoop
    ({ p with val := some r.1 }, r.2)

def bindParts (s : State) (c : Nat) (o : LoadOp) : List LoadPart → List LoadPart × State
  | [] => ([], s)
  | p :: ps =>
    let a := bindPart s c o p
    let b := bindParts a.2 c o ps
    (a.1 :: b.1, b.2)

/-- Bind every part of the outstanding loads that a test names. -/
def bindWhere (s : State) (c : Nat) (p : LoadOp → Bool) : State :=
  (getCore s c).loads.foldl (fun s o =>
    if p o && o.parts.any (fun x => x.val.isNone) then
      let r := bindParts s c o o.parts
      let q := getCore r.2 c
      setCore r.2 c { q with loads := q.loads.map (fun d => if d.id == o.id then { d with parts := r.1 } else d) }
    else s) s

/-- A write of a core is about to issue: unbound loads of the core that read those bytes bind first, so that no load reads a
later write of its own lane. -/
def bindBefore (s : State) (c : Nat) (l : PLoc) (n : Nat) : State :=
  bindWhere s c (fun o => o.parts.any (fun p => p.loc.tgt == l.tgt && decide (p.loc.a < l.a + n) && decide (l.a < p.loc.a + p.width)))

/-- Data is about to be lost: every load that reads it has bound, so that none returns poisoned data (R312, R365). -/
def bindEverywhere (s : State) (l : PLoc) (n : Nat) : State := (fkeys s.cores).foldl (fun s c => bindBefore s c l n) s

/-! ### Releases, acquires and fences (R161 to R163) -/

def scopeNum : Scope → Nat
  | .group => 0 | .core => 1 | .cluster => 2 | .device => 3 | .system => 4

/-- Carry out what a release at a scope waits for (R162), for a group of a core: loads bound; reductions issued before applied
at their homes, where alone they perform (R177), through the combining buffer; from `CLUSTER` on, stores issued before drained
and acknowledged; from `DEVICE` on, the L2's dirty sectors written through. False where a held entry, or a peer write not yet
acknowledged, bars it. -/
def releaseAt (s : State) (c : Nat) (x : Ctx) (sc : Scope) (before : Nat) : State × Bool :=
  let k := scopeNum sc
  let s := bindWhere s c (fun o => decide (o.id < before))
  let r := drainWhere s c (fun e => e.ctx == x && e.op != .store && decide (e.seq < before))
  let a := if 2 ≤ k then drainWhere r.1 c (fun e => e.ctx == x && decide (e.seq < before)) else (r.1, true)
  let s := flushAll a.1 c
  let s := if 3 ≤ k then (l2Slices s x (clusterOf c)).foldl (fun s n => writeThroughAll s x n) s else s
  (s, r.2 && a.2 && !(decide (2 ≤ k) && peerPending s x))

/-- The invalidations of step 3 of R161. Of a dirty sector an acquire at `DEVICE` keeps the dirty bytes, which are the cluster's own
newer writes, and not the clean ones beside them. (Log entry 71, DESIGN CHOICE, safe.) -/
def invalidateAt (s : State) (c : Nat) (x : Ctx) (sc : Scope) : State :=
  let k := scopeNum sc
  let s := if 2 ≤ k then l1Invalidate s c else s
  if 3 ≤ k then
    (l2Slices s x (clusterOf c)).foldl (fun s n =>
      let q := getCluster s n
      setCluster s n { q with l2 := q.l2.filterMap (fun p =>
        if p.2.ctx == x then
          (if p.2.dirty == 0 then none else some (p.1, { p.2 with valid := p.2.dirty })) else some p) }) s
  else s

/-- Promote the release that was a unit's last write, where its scope leaves out the acquirer (R169). False where an entry of the
releasing core's store buffer cannot drain yet. -/
def promote (s : State) (c : Nat) (x : Ctx) (l : PLoc) : State × Bool :=
  match fget s.lastRel (locKey ⟨l.tgt, l.a / unitSize l.tgt * unitSize l.tgt⟩) with
  | none => (s, true)
  | some r =>
    let included := match r.scope with
      | .group | .core => r.core == c && r.ctx == x
      | .cluster => clusterOf r.core == clusterOf c && r.ctx == x
      | _ => true
    if included then (s, true)
    else
      let a := drainWhere s r.core (fun e => decide (e.seq < r.seq))
      let s := flushAll a.1 r.core
      ((l2Slices s r.ctx (clusterOf r.core)).foldl (fun s n => writeThroughAll s r.ctx n) s, a.2)

/-- The read of an acquire at a scope (R161): at its point of R154, with the drains of step 1 and the promotion of R169, and
step 3. Stores and reductions of the lane's own core to the bytes go first, since a thread reads its own writes (R159). Nothing
where they, or those that a promotion covers, cannot go yet. -/
def acquireRead (s : State) (c : Nat) (x : Ctx) (sc : Scope) (l : PLoc) (va n : Nat) (snoop : Bool) : Option (List Byte) × State :=
  let k := scopeNum sc
  if k < 2 then
    -- a release that has not performed yet is not read before the reductions that it awaits (R162)
    let sb := (getCore s c).sb
    let d := drainWhere s c (fun e => e.ctx == x && touches x l va n e && e.rel.isSome
      && sb.any (fun b => decide (b.seq < e.seq) && b.ctx == x && b.op != .store))
    if !d.2 then (none, d.1)
    else
      let r := plainRead d.1 c x l va n 0 false snoop
      (some r.1, r.2)
  else
    let d := drainWhere s c (fun e => e.ctx == x && touches x l va n e)
    if !d.2 then (none, d.1)
    else
      let s := flushTouched d.1 c l n
      if k == 2 then
        let s := if snoop then dropLine s c x l
          else if cacheable l.tgt snoop then (sectorsIn l n).foldl (fun s sec => clusterFill s (clusterOf c) x sec 0) s
          else s
        let bs := (List.range n).map (fun j => clusterByte s x (clusterOf c) (locAdd l j) snoop)
        (some bs, invalidateAt s c x sc)
      else
        let s := if cacheable l.tgt false then
            match l2Slice s x (clusterOf c) (locKey l / 128) with
            | some m => (sectorsIn l n).foldl (fun s sec => writeThrough s m (l2Key x sec)) s
            | none => s
          else s
        let p := promote s c x l
        if !p.2 then (none, p.1)
        else
          let s := homeTouch p.1 x l none false
          let bs := (List.range n).map (fun j => homeByte s (locAdd l j))
          (some bs, invalidateAt s c x sc)

end Sys2Proof.Machine
end

