-- ==== Sys2Proof/Machine/Access.lean ====
section
/-!
DEFINITION. From a lane's address to a place (R115 to R119), and every check of a lane's access before any effect: MISALIGN
(R122), translation (R299), PERM, VITRINE (R125, R172), WATCH (R288), MEMERR (R312), absent lines (R125).
-/
namespace Sys2Proof.Machine

def widthBytes : Width → Nat
  | .b1 => 1 | .b2 => 2 | .b4 => 4 | .b8 => 8 | .b16 => 16

/-- The fields of a format M address: one name, or the pair of a flat address (R115). -/
def addrFields (spc : Space) (a : Nat) : List Nat :=
  match spc with
  | .flat | .host => [a, a + 1]
  | _ => [a]

/-- The address operand of a lane. (Log entry 28, DEDUCED, unsafe.) -/
def addrVal (i : Iss) (spc : Space) (l a : Nat) : Nat :=
  match spc with
  | .flat | .host => (readPair i l a).toNat
  | _ => (readLane i l a).toNat

/-- Bytes of a block's scratchpad that programs reach (R12, R118). -/
def openScratch (b : Block) : Nat := if b.apUsed then b.scratch - 65536 else b.scratch

/-- The blocks of a gang: how many it has, and where each stands. -/
def gangBlocks (s : State) (g : Group) : Nat :=
  match g.kind with
  | .compute => match getLaunch s g.id.ctx g.id.launch with
    | some l => l.blocks
    | none => 1
  | _ => 1

/-- The key of a block of the issuing gang on its core, once it has started (R252, R253). -/
def blockOfGang (s : State) (c : Nat) (g : Group) (b : Nat) : Option (Nat × Nat) :=
  let core := if isWindow g then c else clusterOf c * 4 + b
  match (getCore s core).blocks.find? (fun p => p.2.ctx == g.id.ctx && p.2.launch == g.id.launch && p.2.gang == g.id.gang
      && p.2.block == b && !p.2.ended && p.2.win == isWindow g) with
  | some p => some (core, p.1)
  | none => none

/-- A block of the issuing gang has not started: its gang still waits for a place for it (R253). -/
def blockWaits (s : State) (c : Nat) (g : Group) (b : Nat) : Bool :=
  g.kind == .compute && (getWing s g.id.ctx.wing).waiting.any (fun q => q.1 == 128 * g.id.ctx.ten + clusterOf c && q.2.ctx == g.id.ctx
    && q.2.launch == g.id.launch && q.2.gang == g.id.gang && !q.2.placed.contains b)

/-- Bytes of scratchpad that programs of a launch reach in a block. -/
def launchScratch (s : State) (g : Group) : Nat :=
  match getLaunch s g.id.ctx g.id.launch with
  | some l => if l.ap.isSome then l.scratch - 65536 else l.scratch
  | none => 0

/-- A key that no block has: what is read there is free, one value for each byte in one instruction (R61; log entry 18,
DESIGN CHOICE, unsafe). -/
def goneKey (s : State) : Nat := 2 ^ 32 + s.freeCtr

/-- What an address leads to before translation. -/
inductive Target where
  /-- A scratchpad place, with the form it was reached by: cluster, or local. -/
  | scr (l : PLoc) (cluster : Bool)
  | flat (va : Nat)
  | perm
  /-- A block of the gang that has not started (R253). -/
  | stall
  /-- A block of the gang that has ended, on a core: the spec states no contents (log entry 18, DESIGN CHOICE, unsafe). -/
  | gone (core off : Nat)
  deriving DecidableEq, Repr

/-- A scratchpad offset of a block (R118). -/
def scrTarget (s : State) (core key off n : Nat) (cluster : Bool) : Target :=
  match getBlock s core key with
  | none => .perm
  | some b => if off + n ≤ openScratch b then .scr ⟨.scr core key, off⟩ cluster else .perm

/-- The group whose block and gang an access names. The access processor belongs to no block: it names those of the block that
holds its queue region, and none once that block has ended: `PERM`. (Log entry 72, DESIGN CHOICE, unsafe.) -/
def inBlock (s : State) (c : Nat) (g : Group) : Option Group :=
  if !isAp g then some g
  else
    match (getCore s c).apq with
    | none => none
    | some a =>
      match getBlock s c a.holder with
      | none => none
      | some b =>
        if b.ended then none
        else some { g with kind := .compute, id := { g.id with launch := b.launch, gang := b.gang, block := b.block, blockKey := a.holder } }

def localTarget (s : State) (c : Nat) (g : Group) (off n : Nat) : Target :=
  match inBlock s c g with
  | some g => scrTarget s c g.id.blockKey off n false
  | none => .perm

def clusterTarget (s : State) (c : Nat) (g : Group) (b off n : Nat) : Target :=
  match inBlock s c g with
  | none => .perm
  | some g =>
    if gangBlocks s g ≤ b then .perm
    else
      match blockOfGang s c g b with
      | some p => scrTarget s p.1 p.2 off n true
      | none =>
        if launchScratch s g < off + n then .perm
        else if blockWaits s c g b then .stall
        else .gone (clusterOf c * 4 + b) off

/-- Where an address of n bytes leads (R115, R117). -/
def targetOf (s : State) (c : Nat) (g : Group) (spc : Space) (a n : Nat) : Target :=
  match spc with
  | .loc => if a < 2 ^ 19 then localTarget s c g a n else .perm
  | .cluster => if a < 2 ^ 21 then clusterTarget s c g (bitsOf a 20 19) (a % 2 ^ 19) n else .perm
  | .host => if a < 2 ^ 56 then (if apertureAddr a then .perm else .flat a) else .perm
  | .flat =>
    if 2 ^ 56 ≤ a then .perm
    else if apertureAddr a then
      let o := a % 2 ^ 24
      if testBit o 23 then (if bitsOf o 22 21 == 0 then clusterTarget s c g (bitsOf o 20 19) (o % 2 ^ 19) n else .perm)
      else if bitsOf o 22 19 == 0 then localTarget s c g (o % 2 ^ 19) n else .perm
    else .flat a

/-- The flat address by which a watchpoint matches an access (R288). -/
def watchAddr (spc : Space) (a : Nat) : Nat :=
  match spc with
  | .loc => Config.apertureBase + a % 2 ^ 19
  | .cluster => Config.apertureBase + 2 ^ 23 + a % 2 ^ 21
  | _ => a

/-- What an access does: its rights, and how the vitrine and the watchpoints see it. -/
structure AccKind where
  rights : Rights
  /-- Natural alignment is required (LDA, STL, atomics, reductions). -/
  aligned : Bool
  load : Bool
  write : Bool
  /-- A plain store or `STL`: no cluster form, and an absent line traps (R118, R125). -/
  store : Bool
  /-- A translation that is not cached is left to a walk (R310). -/
  lazy : Bool
  host : Bool
  /-- Only `ADD` reaches host memory (R143). -/
  hostOk : Bool
  deriving DecidableEq, Repr

/-- The outcome of a lane's checks. -/
inductive LaneChk where
  | ok (loc : PLoc)
  /-- A store or reduction whose translation is not cached. -/
  | walk
  | absent (line : PLoc)
  | stall
  | trap (cause addr idx : Nat)
  /-- A translation that failed, at an address. -/
  | fault (f : XlFault) (va : Nat)
  deriving DecidableEq, Repr

/-- The scratchpad lines of a range that are absent (R125). -/
def absentLines (s : State) (l : PLoc) (n : Nat) : List PLoc :=
  match l.tgt with
  | .scr c b =>
    match getBlock s c b with
    | some k => ((List.range ((l.a + n - 1) / 128 - l.a / 128 + 1)).map (fun j => l.a / 128 + j)).filterMap (fun ln =>
        if sget 0 k.absent ln == 0 then none else some ⟨l.tgt, ln⟩)
    | none => []
  | _ => []

/-- Whether an access overlaps an entry of the vitrine that bars it (R172): scratchpad by place, memory by flat address.
(Log entry 27, DEDUCED, unsafe.) -/
def vitrineBars (s : State) (c : Nat) (x : Ctx) (k : AccKind) (l : Option PLoc) (va n : Nat) : Bool :=
  (getCluster s (clusterOf c)).vit.any (fun e => e.ctx == x &&
    (match e.space.tgt, l with
      | .scr .., some p =>
        k.write && p.tgt == e.space.tgt && decide (e.space.a < p.a + n) && decide (p.a < e.space.a + e.len)
      | .scr .., none => false
      | _, some p =>
        (match p.tgt with
          | .scr .. => false
          | _ => (k.write || e.dst) && decide (e.flat < va + n) && decide (va < e.flat + e.len))
      | _, none => (k.write || e.dst) && decide (e.flat < va + n) && decide (va < e.flat + e.len)))

/-- The lowest watchpoint that an access matches, and the lowest byte that any of them matches (R275, R288). -/
def watchHit (s : State) (g : Group) (l : Nat) (k : AccKind) (wa n : Nat) : Option (Nat × Nat) :=
  if isAp g || (laneSt g l).mute then none
  else
    match (getTenant s g.id.ctx).trap with
    | none => none
    | some d =>
      let hits := (List.range 4).filterMap (fun j =>
        match d.wp[j]? with
        | none => none
        | some w =>
          let lo := max w.1 wa
          if d.wpen.getLsbD j && ((k.load && w.2.2.1) || (k.write && w.2.2.2)) && decide (lo < w.1 + w.2.1) && decide (lo < wa + n)
          then some (j, lo) else none)
      match hits with
      | [] => none
      | h :: hs => some (h.1, hs.foldl (fun a b => min a b.2) h.2)

/-- The checks on a lane's place, in the order of their causes: VITRINE, WATCH, MEMERR; then absence. -/
def placeChecks (s : State) (c : Nat) (g : Group) (lane : Nat) (k : AccKind) (l : Option PLoc) (va wa n : Nat) : LaneChk :=
  let ab := match l with
    | some p => absentLines s p n
    | none => []
  if vitrineBars s c g.id.ctx k l va n || (k.store && !ab.isEmpty) then .trap causeVitrine va 0
  else
    match watchHit s g lane k wa n with
    | some h => .trap causeWatch h.2 h.1
    | none =>
      match l with
      | none => .walk
      | some p =>
        match if k.load then poisonIn s p n else none with
        -- the flat address of the first poisoned granule that the access touches
        | some gr => .trap causeMemerr (wa + max gr (p.a / 32 * 32) - p.a) 0
        | none =>
          match ab with
          | ln :: _ => .absent ln
          | [] => .ok p

/-- The checks on a lane's translation (R122, R299): one that fails at what the walk was about to map; or the page, its rights and
what it leads to. The rights and the faults of a translation that is left to a walk are not the lane's (R310, R383, R400). -/
def checkPage (s : State) (c : Nat) (g : Group) (lane : Nat) (k : AccKind) (va n : Nat) (known : Bool) (r : Except XlFault TlbEntry) : LaneChk :=
  match r with
  | .error f =>
    if crosses (failSpan s g.id.ctx va) va n then .trap causeMisalign va 0
    else if known then .fault f va
    else placeChecks s c g lane k none va va n
  | .ok e =>
    if crosses e.log va n then .trap causeMisalign va 0
    else
      let l := placeOf e va
      if !known then placeChecks s c g lane k none va va n
      else if !rightsOk e k.rights || (k.host && l.tgt != .host) || (l.tgt == .host && !k.hostOk) then .trap causePerm va 0
      else if peerDown s l && !k.lazy then .fault ⟨false, false, false⟩ va
      else placeChecks s c g lane k (some l) va va n

/-- Every check of one lane's access of n bytes at an address (R365, R400). -/
def checkLane (s : State) (c : Nat) (g : Group) (lane : Nat) (k : AccKind) (spc : Space) (a n : Nat) : LaneChk × State :=
  if k.aligned && a % n != 0 then (.trap causeMisalign a 0, s)
  else
    match targetOf s c g spc a n with
    | .perm => (.trap causePerm a 0, s)
    | .stall => (if k.store then .trap causePerm a 0 else .stall, s)
    | .gone core off =>
      (if k.store then .trap causePerm a 0
       else match watchHit s g lane k (watchAddr spc a) n with
         | some h => .trap causeWatch h.2 h.1
         | none => .ok ⟨.scr core (goneKey s), off⟩, s)
    | .scr l cl => (if k.store && cl then .trap causePerm a 0 else placeChecks s c g lane k (some l) a (watchAddr spc a) n, s)
    | .flat va =>
      if k.lazy then
        match tlbLookup s c g.id.ctx va with
        | some e => (checkPage s c g lane k va n true (.ok e), s)
        | none => (checkPage s c g lane k va n false (walk s g.id.ctx va), s)
      else
        let r := translate s c g.id.ctx va
        (checkPage r.2 c g lane k va n true r.1, r.2)

/-- The checks of all lanes, in ascending order. -/
def checkLanes (c : Nat) (g : Group) (k : AccKind) (spc : Space) (addr : Nat → Nat) (n : Nat) :
    List Nat → State → List (Nat × LaneChk) × State
  | [], s => ([], s)
  | l :: ls, s =>
    let r := checkLane s c g l k spc (addr l) n
    let q := checkLanes c g k spc addr n ls r.2
    ((l, r.1) :: q.1, q.2)

/-- A lane whose place lies in the scratchpad of a block that has ended. -/
def usesGone : LaneChk → Bool
  | .ok l => (match l.tgt with | .scr _ b => decide (2 ^ 32 ≤ b) | _ => false)
  | _ => false

/-- The cause with which a lane's outcome ranks; a replayable fault ranks as XLATE (R276). -/
def chkCause : LaneChk → Option Nat
  | .trap c .. => some c
  | .fault .. => some causeXlate
  | _ => none

/-- What all lanes' outcomes together ask for. -/
inductive AccAsk where
  | trap (cause : Nat) (m : LaneSet) (addr idx : Nat)
  /-- A translation fault: the lanes that met it, the lowest of them, its address, and the lowest faulting address. -/
  | fault (f : XlFault) (m : LaneSet) (lane va low : Nat)
  | stall
  | go
  deriving DecidableEq, Repr

/-- The lanes whose translation failed in a way that a test names, in ascending order: lane, fault, address. -/
def faultsOf (rs : List (Nat × LaneChk)) (p : XlFault → Nat → Bool) : List (Nat × XlFault × Nat) :=
  rs.filterMap (fun r => match r.2 with
    | .fault f va => if p f va then some (r.1, f, va) else none
    | _ => none)

/-- The fault that lanes ask for together: the lowest lane's, with every lane given and the lowest address among them. -/
def askFault (ls : List (Nat × XlFault × Nat)) : AccAsk :=
  match ls with
  | [] => .go
  | (l, f, va) :: _ => .fault f (laneSetOfList (ls.map (·.1))) l va (ls.foldl (fun m r => min m r.2.2) va)

/-- The lowest cause among the lanes (R276). Among translation faults the replayable ones come first: those of the lowest such
lane's 4 KiB, for one record concerns one page (R301, R307). (Log entry 30, DEDUCED, unsafe.) -/
def askOf (rs : List (Nat × LaneChk)) : AccAsk :=
  match (rs.filterMap (fun r => chkCause r.2)).min? with
  | none => if rs.any (fun r => r.2 == .stall) then .stall else .go
  | some c =>
    if c == causeXlate then
      match faultsOf rs (fun f _ => f.replay) with
      | [] => askFault (faultsOf rs (fun _ _ => true))
      | (_, _, va) :: _ => askFault (faultsOf rs (fun f a => f.replay && a / 4096 == va / 4096))
    else
      match rs.find? (fun r => match r.2 with | .trap d .. => d == c | _ => false) with
      | some (_, .trap _ a ix) =>
        .trap c (laneSetOfList ((rs.filter (fun r => match r.2 with | .trap d .. => d == c | _ => false)).map (·.1))) a ix
      | _ => .go

/-- Lanes met a translation fault: a record is asked for (R304, R305). A replayable one parks the group at the word; one that no
replay mends, or without a queue, counts as a `FAIL`. For the access processor the record has its own kind. -/
def faultPark (s : State) (i : Iss) (f : XlFault) (m : LaneSet) (lane va low acc : Nat) : State :=
  let r := xlRecord (groupRecord (if isAp i.g then 0x13 else 0x10) 0 i.core i.g lane low acc) f
  let a := addRecord s i.g.id.ctx.wing r
  match if f.replay then a.1 else none with
  | some id => parkGroup a.2 i (.fault id m)
  | none =>
    if isAp i.g then failAbort a.2 i.g.id.ctx false i.g.id.launch i.e.pc.toNat r
    else trapWord a.2 i causeXlate m va 0

/-- Check an access of the active lanes, and go on with the lanes whose checks passed; lanes at an absent line park at the
word (R48), those of an access processor together (R137), the whole entry waits for a block that has not started (R253), or for
entries for its requests (R134). -/
def withAccess (s : State) (i : Iss) (k : AccKind) (spc : Space) (a n acc : Nat)
    (go : State → Iss → List (Nat × LaneChk) → Out) : Out :=
  let q := checkLanes i.core i.g k spc (fun l => addrVal i spc l a) n (lanesOf i.e.lanes) s
  -- a read of an ended block's scratchpad has used the free values of its key
  let q := if q.1.any (fun r => usesGone r.2) then (q.1, { q.2 with freeCtr := q.2.freeCtr + 1 }) else q
  match askOf q.1 with
  | .trap c m ad ix =>
    -- the access processor's `PERM` has a record (R299, R304)
    let s := if c == causePerm && isAp i.g then
        (addRecord q.2 i.g.id.ctx.wing (groupRecord 0x13 4 i.core i.g (lowLane m) ad acc)).2
      else q.2
    .next (trapWord s i c m ad ix)
  | .fault f m l va low => .next (faultPark q.2 i f m l va low acc)
  | .stall => .next (holdIssue s)
  | .go =>
    let ab := q.1.filterMap (fun r => match r.2 with | .absent ln => some (r.1, ln) | _ => none)
    if ab.isEmpty then go q.2 i q.1
    else
      let m := if isAp i.g then i.e.lanes else laneSetOfList (ab.map (·.1))
      let s := parkAt q.2 i m (.absent (ab.map (·.2)).eraseDups)
      let rest := i.e.lanes &&& ~~~m
      if rest == 0 then .next s
      else
        match getGroup s i.core i.slot with
        | none => .next s
        | some g => go s { i with g := g, e := { i.e with lanes := rest } } (q.1.filter (fun r => hasLane rest r.1))

def kindLoad (spc : Space) : AccKind := ⟨rightsLoad, false, true, false, false, false, spc == .host, true⟩
def kindAcq (spc : Space) : AccKind := { kindLoad spc with aligned := true }
def kindStore (spc : Space) : AccKind := ⟨rightsStore, false, false, true, true, true, spc == .host, true⟩
def kindRel (spc : Space) : AccKind := { kindStore spc with aligned := true }
def kindAtom (op : AtomOp) : AccKind := ⟨rightsAtomic, true, true, true, false, false, false, op == .add || op == .exch || op == .cas⟩
def kindRed (op : AtomOp) : AccKind := ⟨rightsStore, true, false, true, false, true, false, op == .add⟩

end Sys2Proof.Machine
end

