-- ==== Sys2Proof/Machine/Memory.lean ====
section
/-!
DEFINITION. The memory instructions (R330, R346, R347, R365 to R369, R377, R378, R382, R400 to R402) and the events of the
memory path below them (R83, R124, R145, R157, R310).
-/
namespace Sys2Proof.Machine

/-! ### Loads and atomics on the load-return path -/

/-- Words that an access of n bytes moves to names. -/
def wordsFor (n : Nat) : Nat := if n ≤ 4 then 1 else n / 4

def fieldsFrom (f n : Nat) : List Nat := (List.range n).map (f + ·)

/-- Destination names of a lane. -/
def destNames (i : Iss) (l f n : Nat) : List Nat := (fieldsFrom f n).filterMap (nameIx i.g l)

/-- The destinations of a load as they are allocated at issue; the names are interlocked until the values arrive (R83), and show their
older shapes till then (R59). (Log entry 23, DEDUCED, unsafe.) -/
def placeDests (fs : List Nat) (uni : Bool) : List Dest :=
  fs.map (fun f => ⟨f, [], if uni then .uniform else .general⟩)

/-- An operation enters the load-return path; its flag is busy (R80). -/
def addLoad (s : State) (c : Nat) (o : LoadOp) : State :=
  let s := match groupOfAge s c o.slot o.age with
    | some g => setGroup s c o.slot (flagUp g o.flag)
    | none => s
  let q := getCore s c
  setCore s c { q with loads := q.loads ++ [o] }

/-- A load or atomic of the issuing entry, by what serves a sector before it leaves the core (R134). -/
def mkLoad (s : State) (i : Iss) (dest : LoadDest) (served : LoadPart → Nat → Bool) (parts : List LoadPart) : LoadOp :=
  { id := (getCore s i.core).seq, ctx := i.g.id.ctx, slot := i.slot, age := i.g.id.age, flag := flagA i.cc, dest := dest,
    parts := parts, reqs := requestsOf served parts, lu := false, ep := 0, snoop := false }

/-- Names of the issuing entry that now await results show the shapes they had at issue, after its last reads (R59). -/
def awaitNames (i : Iss) (rels fs : List Nat) (s : State) : State :=
  match getGroup s i.core i.slot with
  | some g => setGroup s i.core i.slot (keepTags (releaseFields i rels).g g (keepNames i fs))
  | none => s

/-- Word k of a value. -/
def wordOf (bs : List Byte) (k : Nat) : Word := BitVec.ofNat 32 (leNat ((bs.drop (4 * k)).take 4))

/-- Write one lane's element of a name. -/
def setElem (g : Group) (n l : Nat) (v : Word) (use : Nat) : Group :=
  let old := (getName g n).val
  setName g n ⟨.general ((List.range 64).map (fun j => if j == l then v else shapedAt old j)), false, use⟩

/-- The bound values of an operation reach its names: uniform for a uniform address under a full mask (R56). -/
def writeLoad (g : Group) (o : LoadOp) (uni : Bool) (use : Nat) : Group :=
  o.parts.foldl (fun g p => (p.dests.zipIdx).foldl (fun g d =>
    let v := wordOf (p.val.getD []) d.2
    if uni then setName g d.1 ⟨.uniform v, false, use⟩ else setElem g d.1 p.lane v use) g) g

/-- Scratchpad offset of an entry of an access queue (R139). -/
def queueOffset (b : Block) (q e : Nat) : Nat := b.scratch - 65536 + 8192 * q + 256 * (e % 32)

/-- An outstanding write begins on a line (R124); a listed line is absent, and its number is one more than its outstanding
writes. -/
def lineClear (s : State) (c b line : Nat) : State :=
  match getBlock s c b with
  | some k => setBlock s c b { k with absent := fset k.absent line (max 1 (sget 0 k.absent line) + 1) }
  | none => s

/-- An outstanding write of a line has landed. -/
def lineLanded (s : State) (c b line : Nat) : State :=
  match getBlock s c b with
  | some k => setBlock s c b { k with absent := fset k.absent line (max 1 (sget 0 k.absent line - 1)) }
  | none => s

/-- The lines of a scratchpad range. -/
def linesIn (a n : Nat) : List Nat :=
  if n == 0 then [] else (List.range ((a + n - 1) / 128 - a / 128 + 1)).map (fun j => a / 128 + j)

/-- The words of a queue entry: word k of each lane. -/
def queueWords (o : LoadOp) (k : Nat) : List Byte :=
  (List.range 64).flatMap (fun l => match o.parts.find? (fun p => p.lane == l) with
    | some p => leBytes 4 (wordOf (p.val.getD []) k).toNat
    | none => zeroBytes 4)

/-- An access-processor load lands in its queue entries (R141). -/
def writeQueue (s : State) (c : Nat) (o : LoadOp) (q first n : Nat) : State :=
  match (getCore s c).apq with
  | none => s
  | some a =>
    match getBlock s c a.holder with
    | none => s
    | some b => (List.range n).foldl (fun s k =>
        let off := queueOffset b q (first + k)
        let s := homeWrite s ⟨.scr c a.holder, off⟩ (queueWords o k)
        (linesIn off 256).foldl (fun s ln => lineLanded s c a.holder ln) s) s

/-- A value on the load-return path arrives (R83): the loads that have not bound bind first. -/
def returnLoad (s : State) (c : Nat) (o : LoadOp) : State :=
  let r := bindParts s c o o.parts
  let o := { o with parts := r.1 }
  let q := getCore r.2 c
  let s := setCore r.2 c { q with loads := q.loads.filter (fun d => d.id != o.id) }
  let s := match o.dest with
    | .names full uni =>
      match groupOfAge s c o.slot o.age with
      | some g => putNames s c o.slot g (dropTags (writeLoad g o (full && uni) q.seq) (o.parts.flatMap (·.dests)))
      | none => s
    | .queue k first n => writeQueue s c o k first n
  flagDone s c o.slot o.age o.flag

def execLoadReturn (core i : Nat) (s : State) : Out :=
  match (getCore s core).loads[i]? with
  | some o => .next (returnLoad s core o)
  | none => .next s

/-! ### LD and LDA -/

/-- The parts of a load over the lanes whose checks passed. -/
def loadParts (i : Iss) (addr : Nat → Nat) (f n : Nat) (rs : List (Nat × LaneChk)) : List LoadPart :=
  rs.filterMap (fun r => match r.2 with
    | .ok l => some ⟨r.1, if isAp i.g && decide (120 ≤ f) then [] else destNames i r.1 f (wordsFor n), addr r.1, l, n, none⟩
    | _ => none)

/-- What every load does before it issues: reductions of its context to its bytes that still wait for their translation are applied
(R159), the combining buffer's entries it touches are flushed (R145), and earlier unbound loads of the same bytes bind. False
where such a reduction cannot be applied yet. -/
def beforeLoad (s : State) (c : Nat) (x : Ctx) (ps : List LoadPart) : State × Bool :=
  let r := if (getCore s c).sb.any (fun e => e.op != .store) then
      drainWhere s c (fun e => e.ctx == x && e.op != .store && ps.any (fun p => touches x p.loc p.va p.width e))
    else (s, true)
  (ps.foldl (fun s p => bindBefore (flushTouched s c p.loc p.width) c p.loc p.width) r.1, r.2)

/-- A plain load issues, once what must go before it has; it binds now or, as the next resolved choice has it, at its return (R153). -/
def issueLoad (s : State) (c : Nat) (o : LoadOp) : State :=
  let ch := choose s 2
  if ch.1 == 0 then
    let r := bindParts ch.2 c o o.parts
    addLoad r.2 c { o with parts := r.1 }
  else addLoad ch.2 c o

/-- The address fields are uniform over the group (R56). -/
def uniformAddr (i : Iss) (fs : List Nat) : Bool := fs.all (fun f => isUniform (fieldVal i f))

/-- Go on with a load, once its requests have entries (R134) and what must go before it has gone; else the entry is
held at its word. The access processor's place in this is its own (R138). -/
def whenLoad (s : State) (i : Iss) (o : LoadOp) (go : State → Iss → Out) : Out :=
  if !requestRoom s i.core o.reqs then .next (holdIssue s)
  else
    let r := beforeLoad s i.core i.g.id.ctx o.parts
    if r.2 then go r.1 (refresh r.1 i) else .next (holdIssue r.1)

/-- An access-processor load into a queue (R141): the entries are claimed at the tail, or the processor parks. -/
def loadQueue (w : Width) (ep : BitVec 2) (lu : Bool) (m : MArgs) (s : State) : Out :=
  let n := widthBytes w
  let fs := addrFields m.spc m.a.toNat
  let q := m.d.toNat - 120
  runNames s fs fs [] fun i =>
    match (getCore s i.core).apq with
    | none => .next (illegal s i i.e.lanes)
    | some a =>
      let k := wordsFor n
      if m.spc == Space.loc || m.spc == Space.cluster then .next (illegal s i i.e.lanes)
      else if 32 < sget 0 a.count q + k then .next (parkGroup s i .fullQueue)
      else
        withAccess s i (kindLoad m.spc) m.spc m.a.toNat n 0 fun s i rs =>
          let first := sget 0 a.head q + sget 0 a.count q
          let addr := fun l => addrVal i m.spc l m.a.toNat
          let snoop := m.spc == Space.host
          let o := { mkLoad s i (.queue q first k) (servedNear s i.core i.g.id.ctx snoop) (loadParts i addr m.d.toNat n rs)
            with lu := lu, ep := ep.toNat, snoop := snoop }
          whenLoad s i o fun s i =>
          finishWith s i fs (if m.lra then fs else []) [] 1 (fun s =>
            let c := getCore s i.core
            let s := setCore s i.core { c with apq := some { a with count := sset 0 a.count q (sget 0 a.count q + k) } }
            let s := match getBlock s i.core a.holder with
              | none => s
              | some b => (List.range k).foldl (fun s j =>
                  (linesIn (queueOffset b q (first + j)) 256).foldl (fun s ln => lineClear s i.core a.holder ln) s) s
            issueLoad s i.core o)

def execLd (w : Width) (ep : BitVec 2) (lu : Bool) (m : MArgs) (s : State) : Out :=
  match issuer s with
  | none => .fault .noIssuer
  | some i0 =>
    if isAp i0.g && decide (120 ≤ m.d.toNat) then loadQueue w ep lu m s
    else
      let n := widthBytes w
      let fs := addrFields m.spc m.a.toNat
      let ds := fieldsFrom m.d.toNat (wordsFor n)
      runOp s fs ds fun i =>
        if isAp i.g && !uniformAddr i fs then .next (illegal s i i.e.lanes)
        else
          withAccess s i (kindLoad m.spc) m.spc m.a.toNat n 0 fun s i rs =>
            let uni := uniformAddr i fs
            let snoop := m.spc == Space.host
            let rels := if m.lra then fs else []
            let o := { mkLoad s i (.names (fullMask i) uni) (servedNear s i.core i.g.id.ctx snoop)
                (loadParts i (fun l => addrVal i m.spc l m.a.toNat) m.d.toNat n rs)
              with lu := lu, ep := ep.toNat, snoop := snoop }
            whenLoad s i o fun s i =>
            finishWith s i fs rels (placeDests ds uni) 1 (fun s => issueLoad (awaitNames i rels ds s) i.core o)

/-- The acquiring reads of the lanes, in ascending order; lanes that read one address share one read (R61). Nothing where one of
them cannot bind yet. -/
def acquireParts (c : Nat) (x : Ctx) (sc : Scope) (snoop : Bool) (done : List LoadPart) : List LoadPart → State → Option (List LoadPart) × State
  | [], s => (some done, s)
  | p :: ps, s =>
    match done.find? (fun d => d.va == p.va) with
    | some d => acquireParts c x sc snoop (done ++ [{ p with val := d.val }]) ps s
    | none =>
      let r := acquireRead s c x (scopeAt sc p.loc) p.loc p.va p.width snoop
      match r.1 with
      | none => (none, r.2)
      | some bs => acquireParts c x sc snoop (done ++ [{ p with val := some bs }]) ps r.2

def execLda (wide : Bool) (scp : Scope) (m : MArgs) (s : State) : Out :=
  let n := if wide then 8 else 4
  let fs := addrFields m.spc m.a.toNat
  let ds := fieldsFrom m.d.toNat (wordsFor n)
  runOp s fs ds fun i =>
    withAccess s i (kindAcq m.spc) m.spc m.a.toNat n 0 fun s i rs =>
      let uni := uniformAddr i fs
      let snoop := m.spc == Space.host
      let rels := if m.lra then fs else []
      let o := { mkLoad s i (.names (fullMask i) uni) (servedAt scp s i.core i.g.id.ctx snoop)
          (loadParts i (fun l => addrVal i m.spc l m.a.toNat) m.d.toNat n rs)
        with snoop := snoop }
      whenLoad s i o fun s i =>
        let r := acquireParts i.core o.ctx scp o.snoop [] o.parts s
        match r.1 with
        | none => .next (holdIssue r.2)
        | some ps =>
          let i := refresh r.2 i
          finishWith r.2 i fs rels (placeDests ds uni) 1 (fun s => addLoad (awaitNames i rels ds s) i.core { o with parts := ps })

/-! ### Stores -/

/-- The record of a store's fault as it stands at issue (R310). -/
def storeRecord (i : Iss) (l va acc : Nat) : FaultRec := groupRecord 0x11 0 i.core i.g l va acc

/-- Put an entry into the store buffer; its flag counts it. -/
def addStore (s : State) (c : Nat) (e : SbEntry) : State :=
  let s := match groupOfAge s c e.slot e.age with
    | some g => setGroup s c e.slot (flagUp g e.flag)
    | none => s
  let q := getCore s c
  setCore s c { q with sb := q.sb ++ [{ e with seq := q.seq }], seq := q.seq + 1 }

/-- The place of an address, as a walk would find it now. (Log entry 26, DEDUCED, unsafe.) -/
def peekPlace (s : State) (x : Ctx) (va : Nat) : Option PLoc :=
  match walk s x va with
  | .ok e => some (placeOf e va)
  | .error _ => none

/-- A store entry of the issuing group. -/
def mkStore (i : Iss) (l va : Nat) (xl : SbXlate) (bs : List Byte) (acc : Nat) : SbEntry :=
  { seq := 0, opNo := 0, ctx := i.g.id.ctx, slot := i.slot, age := i.g.id.age, lane := l, va := va, xl := xl, bytes := bs, op := .store,
    rel := none, flag := flagB i.cc, snoop := false, ep := 0, lu := false, frec := storeRecord i l va acc, win := isWindow i.g,
    launch := i.g.id.launch }

/-- One lane's store issues: one entry per unit it touches (R157). A lane that misses its translation goes on (R310). -/
def storeLane (s : State) (i : Iss) (l va : Nat) (chk : LaneChk) (bs : List Byte) (f : SbEntry → SbEntry) : State :=
  let put := fun (s : State) (place : Option PLoc) (known : Bool) =>
    let s := match place with
      | some p => bindBefore (flushTouched s i.core p bs.length) i.core p bs.length
      | none => s
    let u := match place with
      | some p => unitSize p.tgt
      | none => 32
    let a := match place with
      | some p => p.a
      | none => va
    (pieces u a bs.length).foldl (fun s k =>
      let xl := match place with
        | some p => if known then SbXlate.done (locAdd p k.1) else .walking
        | none => .walking
      addStore s i.core (f (mkStore i l (va + k.1) xl ((bs.drop k.1).take k.2) 1))) s
  match chk with
  | .ok p => put s (some p) true
  | .walk => put s (peekPlace s i.g.id.ctx va) false
  | _ => s

/-- The bytes that a lane stores. -/
def storeBytes (i : Iss) (l f n : Nat) : List Byte :=
  ((fieldsFrom f (wordsFor n)).flatMap (fun k => leBytes 4 (readLane i l k).toNat)).take n

/-- All lanes of a store, in ascending order (R160). -/
def storeLanes (s : State) (i : Iss) (m : MArgs) (n : Nat) (rs : List (Nat × LaneChk)) (f : SbEntry → SbEntry) : State :=
  let no := (getCore s i.core).seq
  rs.foldl (fun s r => storeLane s i r.1 (addrVal i m.spc r.1 m.a.toNat) r.2 (storeBytes i r.1 m.d.toNat n)
    (fun e => f { e with opNo := no })) s

def execSt (w : Width) (ep : BitVec 2) (lu : Bool) (m : MArgs) (s : State) : Out :=
  let n := widthBytes w
  let fs := addrFields m.spc m.a.toNat
  let ds := fieldsFrom m.d.toNat (wordsFor n)
  runOp s (fs ++ ds) [] fun i =>
    withAccess s i (kindStore m.spc) m.spc m.a.toNat n 1 fun s i rs =>
      finishWith s i (fs ++ ds) (if m.lra then fs else []) [] 1 (fun s =>
        storeLanes s i m n rs (fun e => { e with ep := ep.toNat, lu := lu, snoop := m.spc == Space.host }))

/-- The scope that a release entry carries: `SYSTEM` for peer memory (R180). -/
def relEntry (scp : Scope) (snoop : Bool) (e : SbEntry) : SbEntry :=
  { e with rel := some (match e.xl with | .done p => scopeAt scp p | _ => scp), snoop := snoop }

/-- `STL`: the release enters the store buffer at once; what it needs at `CORE` scope is done here as far as it can be, the rest while it
waits there (R162, R402). -/
def execStl (wide : Bool) (scp : Scope) (m : MArgs) (s : State) : Out :=
  let n := if wide then 8 else 4
  let fs := addrFields m.spc m.a.toNat
  let ds := fieldsFrom m.d.toNat (wordsFor n)
  runOp s (fs ++ ds) [] fun i =>
    withAccess s i (kindRel m.spc) m.spc m.a.toNat n 1 fun s i rs =>
      let near := if scp == .group then Scope.group else Scope.core
      let s := (releaseAt s i.core i.g.id.ctx near (getCore s i.core).seq).1
      finishWith s (refresh s i) (fs ++ ds) (if m.lra then fs else []) [] 1 (fun s =>
        storeLanes s i m n rs (relEntry scp (m.spc == Space.host)))

/-! ### Atomics and reductions -/

/-- One atomic step at the home of a word of n bytes: what stood there, and the state after (R330). -/
def atomAt (s : State) (c : Nat) (x : Ctx) (l : PLoc) (n : Nat) (f : Nat → Option Nat) : List Byte × State :=
  let s := deliverPeer (dropLine s c x l) l
  let s := homeTouch s x l none false
  let old := homeRead s l n
  match f (leNat old) with
  | some v => (old, homeWrite s l (leBytes n v))
  | none => (old, s)

/-- The new value of a word under an AOP; nothing for a compare that fails. -/
def atomNew (op : AtomOp) (wide : Bool) (x cmp old : Nat) : Option Nat :=
  if op == .cas && old != cmp then none
  else if wide then some (atomInt op 64 (BitVec.ofNat 64 old) (BitVec.ofNat 64 x) (BitVec.ofNat 64 cmp)).toNat
  else some (atomWord op (BitVec.ofNat 32 old) (BitVec.ofNat 32 x) (BitVec.ofNat 32 cmp)).toNat

/-- The operand of a lane, of one or two names. -/
def atomOperand (i : Iss) (wide : Bool) (l f : Nat) : Nat :=
  if wide then (readPair i l f).toNat else (readLane i l f).toNat

/-- The atomics of the lanes, in ascending order (R160). -/
def atomParts (c : Nat) (x : Ctx) (f : Nat → Nat → Option Nat) : List LoadPart → State → List LoadPart × State
  | [], s => ([], s)
  | p :: ps, s =>
    let s := bindBefore (flushTouched s c p.loc p.width) c p.loc p.width
    let r := atomAt s c x p.loc p.width (f p.lane)
    let q := atomParts c x f ps r.2
    ({ p with val := some r.1 } :: q.1, q.2)

/-- The executing lanes of an entry have executed a non-repeatable instruction (R273). -/
def markLanes (s : State) (c k age : Nat) (m : LaneSet) : State :=
  match groupOfAge s c k age with
  | some g => setGroup s c k (mapLanes g m (fun _ x => { x with nonRep := true }))
  | none => s

/-- `ATOM` and `ATOM64`. (Log entry 24, DEDUCED, unsafe.) -/
def atomOp (op : AtomOp) (wide : Bool) (sb sa d : Reg) (s : State) : Out :=
  let n := if wide then 8 else 4
  let k := wordsFor n
  let ds := fieldsFrom d.toNat k
  let srcs := [sa.toNat, sa.toNat + 1] ++ fieldsFrom sb.toNat k ++ (if op == .cas then ds else [])
  runOp s srcs ds fun i =>
    withAccess s i (kindAtom op) .flat sa.toNat n 2 fun s i rs =>
      let ps := loadParts i (fun l => addrVal i .flat l sa.toNat) d.toNat n rs
      let r := drainWhere s i.core (fun e => ps.any (fun p => inUnit i.g.id.ctx p.loc p.va e))
      let served := fun (_ : LoadPart) (_ : Nat) => false
      if !r.2 || !requestRoom r.1 i.core (requestsOf served ps) then .next (holdIssue r.1)
      else
        let f := fun (l old : Nat) => atomNew op wide (atomOperand i wide l sb.toNat) (atomOperand i wide l d.toNat) old
        let i := refresh r.1 i
        finishWith r.1 i srcs [] (placeDests ds false) 1 (fun s =>
          let q := atomParts i.core i.g.id.ctx f ps (awaitNames i [] ds s)
          let s := markLanes q.2 i.core i.slot i.g.id.age i.e.lanes
          addLoad s i.core { mkLoad s i (.names (fullMask i) false) served q.1 with id := (getCore s i.core).seq - 1 })

def execAtom (op : AtomOp) (sb sa d : Reg) (s : State) : Out := atomOp op false sb sa d s

def execAtom64 (op : AtomOp) (sb sa d : Reg) (s : State) : Out := atomOp op true sb sa d s

/-- A reduction of one lane that R143 serves without combining: at the home, after the core's own earlier stores to the unit. -/
def redAt (s : State) (c : Nat) (x : Ctx) (l : PLoc) (f : Word → Word) : State :=
  let s := bindBefore s c l 4
  (atomAt s c x l 4 (fun v => some (f (BitVec.ofNat 32 v)).toNat)).2

/-- Whether a lane's place is device memory. -/
def devPlace : LaneChk → Option Nat
  | .ok p => match p.tgt with
    | .dev => some p.a
    | _ => none
  | _ => none

/-- The unit of a lane's word has entries of the store buffer that cannot drain yet: the lane's reduction goes behind them
(R146). -/
def redBehind (s : State) (x : Ctx) (c : Nat) (l : PLoc) (va : Nat) : Bool := (sbView s c).any (inUnit x l va)

/-- What each lane of a `RED` asks for: its reduction enters the store buffer, is applied at its home, or is combined. -/
inductive RedGo where
  | buffer (xl : SbXlate)
  | home (l : PLoc)
  | comb (a : Nat)
  deriving DecidableEq, Repr

def redGo (s : State) (x : Ctx) (c va : Nat) : LaneChk → Option RedGo
  | .ok p =>
    if peerDown s p || redBehind s x c p va then some (.buffer (.done p))
    else match p.tgt with
      | .dev => some (.comb p.a)
      | _ => some (.home p)
  | .walk => some (.buffer .walking)
  | _ => none

/-- `RED` (R143, R144, R382). It sets no flag of `FSTAT`: R382 says so of it by name, and of what R108 lets it set nothing is
left. (Log entry 73, DEDUCED, unsafe.) -/
def execRed (op : AtomOp) (_scp : Scope) (sat cnan ftz : Bool) (sb sa : Reg) (s : State) : Out :=
  let srcs := [sa.toNat, sa.toNat + 1, sb.toNat]
  runOp s srcs [] fun i =>
    withAccess s i (kindRed op) .flat sa.toNat 4 2 fun s i rs =>
      finishWith s i srcs [] [] 1 (fun s =>
        let step := redStep op ftz cnan sat
        let x := fun l => readLane i l sb.toNat
        let va := fun l => addrVal i .flat l sa.toNat
        let no := (getCore s i.core).seq
        -- the core's earlier stores to these units go first, where they can
        let s := (drainWhere s i.core (fun e => rs.any (fun r => match r.2 with
          | .ok p => inUnit i.g.id.ctx p (va r.1) e
          | _ => false))).1
        let gs := rs.filterMap (fun r => (redGo s i.g.id.ctx i.core (va r.1) r.2).map (fun g => (r.1, g)))
        let s := gs.foldl (fun s r => match r.2 with
          | .buffer xl => addStore s i.core
              { mkStore i r.1 (va r.1) xl (leBytes 4 (x r.1).toNat) 2 with op := .red op ftz cnan sat, opNo := no }
          | .home p => redAt s i.core i.g.id.ctx p (fun w => step w (x r.1))
          | .comb _ => s) s
        let words := combineLanes step (gs.filterMap (fun r => match r.2 with | .comb a => some (a, x r.1) | _ => none))
        let s := words.foldl (fun s w => bindBefore s i.core ⟨.dev, w.1⟩ 4) s
        let grs := (words.map (fun w => w.1 / 32 * 32)).eraseDups
        let s := grs.foldl (fun s gr => combine s i.core
          { ctx := i.g.id.ctx, slot := i.slot, granule := gr, op := op, ftz := ftz, cnan := cnan, sat := sat,
            words := (words.filter (fun w => w.1 / 32 * 32 == gr)).map (fun w => (w.1 % 32 / 4, w.2)), born := s.clock }) s
        markLanes s i.core i.slot i.g.id.age i.e.lanes)

/-! ### Fences -/

/-- What a fence does (R163): the conditions of a release, the combining buffer's flush, the invalidations of an acquire.
False where a held store or an unacknowledged peer write bars it. -/
def fenceAt (s : State) (i : Iss) (scp : Scope) : State × Bool :=
  let s := flushAll s i.core
  let r := releaseAt s i.core i.g.id.ctx scp (getCore s i.core).seq
  if r.2 then (invalidateAt r.1 i.core i.g.id.ctx scp, true) else r

def execFence (scp : Scope) (s : State) : Out :=
  runOp s [] [] fun i =>
    let r := fenceAt s i scp
    if r.2 then .next (advance (countIssue r.1 i.core) (refresh r.1 i) 1) else .next (holdIssue r.1)

/-- The device addresses that a flat range maps to; pages without a translation to device memory are skipped (R347). -/
def devRanges (s : State) (x : Ctx) : Nat → Nat → Nat → List (Nat × Nat)
  | 0, _, _ => []
  | fuel + 1, va, n =>
    if n == 0 || noFlat va then []
    else
      match walk s x va with
      | .ok e =>
        let k := min n (2 ^ e.log - (va - e.va))
        let rest := devRanges s x fuel (va + k) (n - k)
        match e.loc.tgt with
        | .dev => ((placeOf e va).a, k) :: rest
        | _ => rest
      | .error _ =>
        let k := min n (4096 - va % 4096)
        devRanges s x fuel (va + k) (n - k)

/-- Remove the pins of a context's lines that a range overlaps (R132). -/
def unpinRange (s : State) (x : Ctx) (va n : Nat) : State :=
  if s.pins.any (fun p => p.ctx == x) then
    let rs := devRanges s x (n / 4096 + 2) va n
    { s with pins := s.pins.filter (fun p => !(p.ctx == x && rs.any (fun r =>
        decide (r.1 < p.line * 128 + 128) && decide (p.line * 128 < r.1 + r.2)))) }
  else s

def execFenceUnpin (scp : Scope) (sb sa : Reg) (s : State) : Out :=
  runOp s [sa.toNat, sa.toNat + 1, sb.toNat] [] fun i =>
    let len := fun l => (readLane i l sb.toNat).toNat
    let bad := laneSetOf (fun l => hasLane i.e.lanes l && decide (2 ^ 24 < len l))
    if bad != 0 then .next (illegal s i bad)
    else
      let r := fenceAt s i scp
      if r.2 then
        let s := (lanesOf i.e.lanes).foldl (fun s l => unpinRange s i.g.id.ctx (readPair i l sa.toNat).toNat (len l)) r.1
        .next (advance (countIssue s i.core) (refresh s i) 1)
      else .next (holdIssue r.1)

/-! ### QPOP and PRES -/

/-- The queue of a core, as a group of the launch it serves sees it. -/
def queueFor (s : State) (c : Nat) (g : Group) : Option ApQueues :=
  match (getCore s c).apq with
  | some a => if g.kind == .compute && a.ctx == g.id.ctx && a.launch == g.id.launch then some a else none
  | none => none

/-- The launch of a group names an access processor. -/
def launchHasAp (s : State) (g : Group) : Bool :=
  g.kind == .compute && (match getLaunch s g.id.ctx g.id.launch with | some l => l.ap.isSome | none => false)

/-- Place of the head entry of a queue, if it is claimed and present. (Log entry 34, DEDUCED, unsafe.) -/
def headEntry (s : State) (c : Nat) (a : ApQueues) (q : Nat) : Option PLoc :=
  match getBlock s c a.holder with
  | none => none
  | some b =>
    let off := queueOffset b q (sget 0 a.head q)
    if sget 0 a.count q == 0 || (linesIn off 256).any (fun ln => sget 0 b.absent ln != 0) then none else some ⟨.scr c a.holder, off⟩

/-- The access processor of a core returns from a full queue. -/
def wakeAp (s : State) (c : Nat) : State :=
  match getGroup s c Config.apSlot with
  | some g => if g.gpark == .fullQueue then wakeGroup s c Config.apSlot else s
  | none => s

def execQpop (q : BitVec 3) (d : Reg) (s : State) : Out :=
  runOp s [] [d.toNat] fun i =>
    if !launchHasAp s i.g then .next (illegal s i i.e.lanes)
    else
      match queueFor s i.core i.g with
      | none => .next (parkAt s i i.e.lanes (.emptyQueue q.toNat))
      | some a =>
        match headEntry s i.core a q.toNat with
        | none => .next (parkAt s i i.e.lanes (.emptyQueue q.toNat))
        | some l =>
          if let some gr := poisonIn s l 256 then
            .next (trapWord s i causeMemerr i.e.lanes (Config.apertureBase + max gr (l.a / 32 * 32)) 0)
          else
            let bs := homeRead s l 256
            finishWith s i [] [] [⟨d.toNat, ownVals i d.toNat (fun k => wordOf bs k), .general⟩] 1 (fun s =>
              let c := getCore s i.core
              let a := { a with head := sset 0 a.head q.toNat ((sget 0 a.head q.toNat + 1) % 32),
                                count := sset 0 a.count q.toNat (sget 0 a.count q.toNat - 1) }
              wakeAp (markLanes (setCore s i.core { c with apq := some a }) i.core i.slot i.g.id.age i.e.lanes) i.core)

/-- `PRES` (R126, R377): 1 for a line that is present, and for an address outside scratchpad. -/
def execPres (m : MArgs) (s : State) : Out :=
  let fs := addrFields m.spc m.a.toNat
  runOp s fs [m.d.toNat] fun i =>
    -- the rule of R119 for `SPC` 3 is none of its traps: an address that is no scratchpad gives 1
    let t := fun l =>
      let a := addrVal i m.spc l m.a.toNat
      if m.spc == Space.host && decide (a < 2 ^ 56) then .flat a else targetOf s i.core i.g m.spc a 1
    let bad := (lanesOf i.e.lanes).filter (fun l => t l == .perm)
    match bad with
    | l :: _ => .next (trapWord s i causePerm (laneSetOfList bad) (addrVal i m.spc l m.a.toNat) 0)
    | [] =>
      if (lanesOf i.e.lanes).any (fun l => t l == .stall) then .next (holdIssue s)
      else
        -- the presence of a line of a block that has ended is free (log entry 18, DESIGN CHOICE, unsafe)
        finish { s with freeCtr := s.freeCtr + 1 } i fs (if m.lra then fs else []) [⟨m.d.toNat, laneVals i (fun l =>
          if !hasLane i.e.lanes l then 0
          else match t l with
            | .scr p _ => if (absentLines s p 1).isEmpty then 1 else 0
            | .gone _ off => bw ((Config.goneByte (goneKey s) off).toNat % 2)
            | _ => 1), .general⟩] 1

/-! ### Events of the memory path -/

/-- Put an entry back with its translation. -/
def setEntry (s : State) (c : Nat) (e : SbEntry) : State :=
  let q := getCore s c
  setCore s c { q with sb := q.sb.map (fun d => if d.seq == e.seq && d.va == e.va then e else d) }

/-- `STORE_BUFFER_DRAIN`: one entry drains, once those before it in its unit have, and a release once all it must cover has
(R157, R162). -/
def execStoreBufferDrain (core i : Nat) (s : State) : Out :=
  let q := getCore s core
  match q.sb[i]? with
  | none => .next s
  | some e =>
    match e.xl with
    | .done _ =>
      if drainSet (fun d => d.seq == e.seq && d.va == e.va) (sbView s core) == [e] then
        let s := if relWide e then bindWhere s core (fun o => decide (o.id < e.seq)) else s
        .next (drainSeq core [e] s []).1
      else .next s
    | _ => .next s

/-- `L2_WRITE_BACK`: a dirty sector goes to its home. -/
def execL2WriteBack (cluster sector : Nat) (s : State) : Out :=
  .next (((getCluster s cluster).l2.filter (fun p => p.1 / 256 == sector)).foldl (fun s p => writeThrough s cluster p.1) s)

/-- `COMBINE_AGE_FLUSH`: entries 1,024 cycles old are flushed (R145). -/
def execCombineAgeFlush (core : Nat) (s : State) : Out :=
  .next (flushWhere s core (fun e => decide (e.born + 1024 ≤ s.clock)))

/-- `LINE_PRESENT`: once every outstanding write of a line has landed, its bit is set, and the lanes that wait return (R124). -/
def linePresent (s : State) (core block line : Nat) : State :=
  match getBlock s core block with
  | none => s
  | some b =>
    if sget 0 b.absent line != 1 then s
    else
      let s := setBlock s core block { b with absent := ferase b.absent line }
      let here : PLoc := ⟨.scr core block, line⟩
      let cores := (List.range 4).map (fun j => clusterOf core * 4 + j)
      let s := cores.foldl (fun s c => (getCore s c).groups.foldl (fun s p =>
        setGroup s c p.1 (unpark p.2 (fun e => match e.park with
          | .absent ls => ls.contains here
          | _ => false))) s) s
      match (getCore s core).apq with
      | none => s
      | some a =>
        if a.holder != block then s
        else
          (List.range 8).foldl (fun s q =>
            if (headEntry s core a q).isNone then s
            else (getCore s core).groups.foldl (fun s p =>
              if p.2.kind == .compute && p.2.id.ctx == a.ctx && p.2.id.launch == a.launch then
                setGroup s core p.1 (unpark p.2 (fun e => e.park == .emptyQueue q))
              else s) s) s

def execLinePresent (core block line : Nat) (s : State) : Out := .next (linePresent s core block line)

end Sys2Proof.Machine
end

