-- ==== Sys2Proof/Machine/Engines.lean ====
section
/-!
DEFINITION. The engine instructions at issue (R211 to R228, R337 to R340, R352 to R355, R373, R374, R390, R405 to R407): the
checks, the tiles and reservation-table places they wait for, guestbooks and their posts, the vitrine and the presence bits.
-/
namespace Sys2Proof.Machine

/-! ### Operands -/

/-- An instruction that acts once: its operands are the names of the lowest lane (R211). `out` says it is illegal in a handler.
(Log entry 36, DEDUCED, unsafe.) -/
def runLow (s : State) (fs : List Nat) (out : Bool) (body : Iss → Nat → Out) : Out :=
  match issuer s with
  | none => .fault .noIssuer
  | some i0 =>
    let i := beginClause s i0
    let l := lowLane i.e.lanes
    let one : Iss := { i with e := { i.e with lanes := laneBit l } }
    if out && inHandler i.g then .next (illegal s i i.e.lanes)
    else if badLanes one fs != 0 then .next (illegal s i i.e.lanes)
    else if interlocked s one fs then .next (holdWord s i0)
    else
      match receiveWait s one fs with
      | some r => .next (parkAt s i i.e.lanes (.receive r.1))
      | none =>
        match toFill one fs [] with
        | [] => body i l
        | ns => .next (parkGroup s i (.fill ns))

/-- Where an operand of an engine lies. -/
inductive Operand where
  | mem
  | scr (p : PLoc)
  | bad
  | wait
  deriving DecidableEq, Repr

/-- An operand of n bytes at a flat address (R117, R118): a destination lies in memory or in the block's own scratchpad. -/
def engOperand (s : State) (c : Nat) (g : Group) (a n : Nat) (dest : Bool) : Operand :=
  match targetOf s c g .flat a n with
  | .scr p cl => if dest && cl then .bad else .scr p
  | .flat _ => .mem
  | .perm => .bad
  | .stall => if dest then .bad else .wait
  | .gone core off => if dest then .bad else .scr ⟨.scr core (goneKey s), off⟩

/-- An operand at a local scratchpad offset. -/
def engLocal (s : State) (c : Nat) (g : Group) (o n : Nat) : Operand :=
  match localTarget s c g o n with
  | .scr p _ => .scr p
  | _ => .bad

def operandPlace : Operand → Option PLoc
  | .scr p => some p
  | _ => none

/-- Two ranges of bytes overlap. -/
def rangesMeet (a n b m : Nat) : Bool := decide (a < b + m) && decide (b < a + n)

/-- Two operands overlap: by place in scratchpad, or by flat address. -/
def operandsMeet (p q : Operand) (a n b m : Nat) : Bool :=
  rangesMeet a n b m ||
    (match p, q with
      | .scr x, .scr y => x.tgt == y.tgt && rangesMeet x.a n y.a m
      | _, _ => false)

/-- A check of an engine instruction that has failed: its cause and address. -/
abbrev Failed := List (Nat × Nat)

def failIf (b : Bool) (cause addr : Nat) : Failed := if b then [(cause, addr)] else []

/-- The failed check with the lowest cause (R276). -/
def lowestFail (fs : Failed) : Option (Nat × Nat) :=
  fs.foldl (fun b f => match b with
    | none => some f
    | some x => if f.1 < x.1 then some f else some x) none

/-- The wing owns the copy engine of the core's cluster (R258). -/
def ownsCopy (s : State) (c w : Nat) : Bool := (getWing s w).wcopy.getLsbD (clusterOf c)

/-! ### The vitrine (R171) -/

/-- A range of an operand as a vitrine entry holds it, rounded out to 32 B. -/
def vitEntry (x : Ctx) (id : Nat) (dst : Bool) (o : Operand) (a n : Nat) : VitEntry :=
  match o with
  | .scr p => ⟨x, id, dst, ⟨p.tgt, p.a / 32 * 32⟩, a / 32 * 32, (p.a + n + 31) / 32 * 32 - p.a / 32 * 32⟩
  | _ => ⟨x, id, dst, ⟨.dev, 0⟩, a / 32 * 32, (a + n + 31) / 32 * 32 - a / 32 * 32⟩

def vitRoom (s : State) (cl n : Nat) : Bool := decide ((getCluster s cl).vit.length + n ≤ Config.vitrineEntries)

/-- The lines of scratchpad ranges, each once. -/
def rangeLines (rs : List (PLoc × Nat)) : List PLoc := (rs.flatMap (fun r => (linesIn r.1.a r.2).map (fun ln => PLoc.mk r.1.tgt ln))).eraseDups

/-- Clear the presence bits of lines (R124), or count their writes as landed. -/
def clearLines (s : State) (ls : List PLoc) : State :=
  ls.foldl (fun s l => match l.tgt with
    | .scr c b => lineClear s c b l.a
    | _ => s) s

def landLines (s : State) (ls : List PLoc) : State :=
  ls.foldl (fun s l => match l.tgt with
    | .scr c b => lineLanded s c b l.a
    | _ => s) s

/-! ### Tiles (R216, R217) -/

/-- The entries of a group that are parked at an `MMA` of a guestbook. -/
def bookEntries (g : Group) (k : Nat) : List Entry :=
  (allEntries g).filter (fun e => match e.park with | .guestbook j _ => j == k | _ => false)

/-- The `MMA` of a group's entries at a guestbook. -/
def bookArgs (g : Group) (k : Nat) : Option MmaArgs :=
  (bookEntries g k).findSome? (fun e => match e.park with | .guestbook _ m => some m | _ => none)

/-- Whether a request stands for an instruction that still waits: an entry of its group stands at the word, or the group's `MMA`s are
parked at the guestbook and their tile name is not bound. -/
def liveReq (s : State) (r : EngReq) : Bool :=
  match groupOfAge s r.core r.slot r.age with
  | none => false
  | some g =>
    match r.book with
    | none => (allEntries g).any (fun e => e.pc == r.pc)
    | some k => (match bookArgs g k with
      | some m => (fget g.tiles m.tile.toNat).isNone
      | none => false)

def reqCtx (s : State) (r : EngReq) : Ctx :=
  match groupOfAge s r.core r.slot r.age with
  | some g => g.id.ctx
  | none => ⟨0, 0⟩

/-- The physical tiles that a context may use (R216, R264). -/
def tileRange (s : State) (x : Ctx) : List Nat :=
  if splitWing s x.wing then (List.range 64).map (fun k => 64 * ((getTenant s x).half % 2) + k) else List.range Config.numTiles

def freeTile (s : State) (n : Nat) (x : Ctx) : Option Nat :=
  let k := getCluster s n
  (tileRange s x).find? (fun p => (fget k.tiles p).isNone && !k.tileGrants.any (fun g => g.2 == p && liveReq s g.1))

/-- Requests of a context that stand before one in a queue. -/
def ahead (s : State) (x : Ctx) (r : EngReq) (rs : List EngReq) : List EngReq :=
  (rs.takeWhile (· != r)).filter (fun q => liveReq s q && reqCtx s q == x)

def enqueue (rs : List EngReq) (r : EngReq) : List EngReq := if rs.contains r then rs else rs ++ [r]

/-- A tile that a request may take now; else it waits in order. -/
def wantTile (s : State) (n : Nat) (x : Ctx) (r : EngReq) : Option Nat × State :=
  let k := getCluster s n
  match k.tileGrants.find? (fun g => g.1 == r) with
  | some g => (some g.2, s)
  | none =>
    match if (ahead s x r k.tileReqs).isEmpty then freeTile s n x else none with
    | some p => (some p, s)
    | none => (none, setCluster s n { k with tileReqs := enqueue k.tileReqs r })

/-- The request takes the tile, every element +0. -/
def takeTile (s : State) (n : Nat) (x : Ctx) (r : EngReq) (p : Nat) : State :=
  let k := getCluster s n
  setCluster s n { k with tileReqs := k.tileReqs.erase r, tileGrants := k.tileGrants.filter (fun g => g.1 != r && g.2 != p),
                          tiles := fset k.tiles p ⟨x, []⟩ }

def bindTile (s : State) (c slot t p : Nat) : State :=
  match getGroup s c slot with
  | some g => setGroup s c slot { g with tiles := fset g.tiles t p }
  | none => s

/-! ### The reservation table (R223) -/

/-- Places of the table that operations hold, or instructions that still wait have been given. -/
def seatsTaken (s : State) (k : Cluster) : Nat := k.resv.length + (k.rtGrants.filter (liveReq s)).length

/-- Whether a request may enter the table now; else it waits in order. -/
def wantSeat (s : State) (n : Nat) (r : EngReq) : Bool × State :=
  let k := getCluster s n
  if k.rtGrants.contains r then (true, s)
  else if ((k.rtReqs.takeWhile (· != r)).filter (liveReq s)).isEmpty && decide (seatsTaken s k < Config.reservationEntries) then
    (true, s)
  else (false, setCluster s n { k with rtReqs := enqueue k.rtReqs r })

def takeSeat (s : State) (n : Nat) (r : EngReq) : State :=
  let k := getCluster s n
  setCluster s n { k with rtReqs := k.rtReqs.erase r, rtGrants := k.rtGrants.erase r }

/-- A request whose name another entry has bound meanwhile waits for no tile any more (R216). -/
def dropTileReq (s : State) (n : Nat) (r : EngReq) : State :=
  let k := getCluster s n
  if k.tileReqs.contains r || k.tileGrants.any (fun g => g.1 == r) then
    setCluster s n { k with tileReqs := k.tileReqs.erase r, tileGrants := k.tileGrants.filter (fun g => g.1 != r) }
  else s

/-- The tile of a name of the issuing group, and a place in the table, for an instruction that needs both. The state after a
failure holds the requests. -/
def wantBoth (s : State) (i : Iss) (t : Nat) (r : EngReq) : Option Nat × State :=
  let n := clusterOf i.core
  let x := i.g.id.ctx
  let a := match fget i.g.tiles t with
    | some p => (some p, dropTileReq s n r)
    | none => wantTile s n x r
  match a.1 with
  | none => (none, a.2)
  | some p =>
    let b := wantSeat a.2 n r
    if b.1 then (some p, b.2) else (none, b.2)

/-- Take both: the name is bound where it was not. -/
def takeBoth (s : State) (c slot : Nat) (g : Group) (t p : Nat) (r : EngReq) : State :=
  let n := clusterOf c
  let s := takeSeat s n r
  match fget g.tiles t with
  | some _ => s
  | none => bindTile (takeTile s n g.id.ctx r p) c slot t p

/-- The request of the issuing instruction. -/
def issReq (i : Iss) : EngReq := ⟨i.core, i.slot, i.g.id.age, i.e.pc, none⟩

/-- Put an operation into the table. -/
def enterTable (s : State) (n : Nat) (o : RtOp) : State :=
  let k := getCluster s n
  setCluster s n { k with resv := k.resv ++ [{ o with id := k.nextOp }], nextOp := k.nextOp + 1 }

/-- An operation of the issuing group for the table. -/
def mkRtOp (s : State) (i : Iss) (tile : Nat) (kind : RtKind) : RtOp :=
  let l := lowLane i.e.lanes
  { id := 0, ctx := i.g.id.ctx, core := i.core, slot := i.slot, age := i.g.id.age, block := i.g.id.blockKey,
    flags := (flagA i.cc).toList, tile := tile, kind := kind, dst := none, fmode := (laneSt i.g l).fmode, fslot := i.slot,
    fage := i.g.id.age, lane := l, pri := headerPri i.cc.word, passes := 0, started := false, post := none, rest := none,
    frec := groupRecord 0x12 0 i.core i.g l 0 0, win := isWindow i.g, launch := i.g.id.launch,
    before := (getCore s i.core).seq }

/-! ### SCALE, TNEW -/

/-- `SCALE` (R222, R390). -/
def execScale (k : BitVec 2) (sa : Reg) (s : State) : Out :=
  runLow s [sa.toNat] false fun i l =>
    let i := { i with g := { i.g with scales := sset 0 i.g.scales k.toNat (readLane i l sa.toNat) } }
    finish s i [sa.toNat] [] [] 1

/-- `TNEW` (R217, R406): a new tile for the name; the old one goes once no operation names it. -/
def execTnew (t : BitVec 3) (s : State) : Out :=
  runLow s [] true fun i _ =>
    let n := clusterOf i.core
    let a := wantTile s n i.g.id.ctx (issReq i)
    match a.1 with
    | none => .next (holdIssue a.2)
    | some p =>
      finishWith a.2 (markNonRep i) [] [] [] 1 (fun s =>
        sweepTiles (bindTile (takeTile s n i.g.id.ctx (issReq i) p) i.core i.slot t.toNat p) n)

/-! ### Guestbooks (R219 to R221, R355) -/

def getBook (s : State) (c key k : Nat) : Option Guestbook :=
  match getBlock s c key with
  | some b => fget b.books k
  | none => none

/-- Fill or change a guestbook, or empty it. -/
def setBook (s : State) (c key k : Nat) (b : Option Guestbook) : State :=
  match getBlock s c key with
  | none => s
  | some q => setBlock s c key { q with books := match b with
      | some x => fset q.books k x
      | none => ferase q.books k }

/-- The lanes of a group that are parked at an `MMA` of a guestbook. -/
def lanesAtBook (g : Group) (k : Nat) : LaneSet := (bookEntries g k).foldl (fun m e => m ||| e.lanes) 0

/-- The groups of a block. -/
def blockGroups (s : State) (c key : Nat) : List (Nat × Group) := groupsOfBlock (getCore s c) key

/-- The slots whose `MMA`s a complete guestbook posts, in order (R221); nothing while it is incomplete. -/
def bookPosts (s : State) (c key k : Nat) (b : Guestbook) : Option (List (Nat × Group)) :=
  if b.blk then
    let gs := blockGroups s c key
    let mine := (b.groups.filter (fun n => !b.gone.contains n)).filterMap (fun n => gs.find? (fun p => p.2.id.group == n))
    if b.groups.length == b.decl.toNat && mine.all (fun p => (p.2.live &&& ~~~(lanesAtBook p.2 k)) == 0) then
      some ((List.range 16).filterMap (fun n => mine.find? (fun p => p.2.id.group == n)))
    else none
  else
    match getGroup s c b.owner with
    | none => none
    | some g =>
      if b.decl != 0 && (b.decl &&& ~~~b.signed) == 0 && (b.decl &&& ~~~(lanesAtBook g k)) == 0 then some [(b.owner, g)] else none

/-- The lane whose `FMODE` a guestbook post captures: slot and lane (R221). -/
def bookMode (s : State) (c key k : Nat) (b : Guestbook) (ps : List (Nat × Group)) : Nat × Nat :=
  let sig := match getGroup s c b.lastSlot with
    | some g => if g.id.blockKey == key then b.lastLanes &&& g.live else 0
    | none => 0
  if sig != 0 then (b.lastSlot, lowLane sig)
  else
    match ps with
    | [] => (b.lastSlot, 0)
    | p :: _ => (p.1, lowLane (lanesAtBook p.2 k &&& p.2.live))

/-- The words of a fragment of a group, seen from a lane: 16 names of 64 words (R215). (Log entry 39, DEDUCED, safe.) -/
def captureFrag (g : Group) (l frag : Nat) : List (List Word) :=
  (List.range 16).map (fun j => match nameIx g l (16 * frag + j) with
    | some n => (List.range 64).map (shapedAt (getName g n).val)
    | none => List.replicate 64 0)

/-- The operation that a group posts for the entries given (R215). -/
def mmaOp (c : Nat) (slot : Nat) (g : Group) (es : List Entry) (m : MmaArgs) (tile before : Nat) : RtOp :=
  let l := lowLane (es.foldl (fun a e => a ||| e.lanes) 0)
  let k := if m.pair then 2 else 0
  { id := 0, ctx := g.id.ctx, core := c, slot := slot, age := g.id.age, block := g.id.blockKey,
    flags := es.filterMap (fun e => e.clause.bind flagA), tile := tile,
    kind := .mma m.ta m.tb (captureFrag g l m.afrag.toNat) (captureFrag g l m.bfrag.toNat)
      (if m.scaled then sget 0 g.scales k else 0) (if m.scaled then sget 0 g.scales (k + 1) else 0),
    dst := none, fmode := (laneSt g l).fmode, fslot := slot, fage := g.id.age, lane := l,
    pri := es.foldl (fun a e => max a (match e.clause with | some cc => headerPri cc.word | none => 0)) 0, passes := 0,
    started := false, post := none, rest := none, frec := groupRecord 0x12 0 c g l 0 0, win := isWindow g,
    launch := g.id.launch, before := before }

/-- An entry that has posted goes on at the next word, or past the end of its clause. -/
def goOn (s : State) (c : Nat) (x : Ctx) (e : Entry) : Entry :=
  match e.clause with
  | none => { e with park := .none }
  | some cc =>
    let pc := e.pc + 4
    if decide ((lastWord cc - cc.hdr).toNat < (pc - cc.hdr).toNat) then arrive s c x (afterClause cc) e.lanes e.pri
    else { e with pc := pc, park := .none }

/-- The parked entries of a guestbook in one group go on. -/
def releaseBook (s : State) (c slot k : Nat) : State :=
  match getGroup s c slot with
  | none => s
  | some g => setGroup s c slot (mapEntries g (fun fr => fr.foldl (fun acc e => addEntry acc (match e.park with
      | .guestbook j _ => if j == k then goOn s c g.id.ctx e else e
      | _ => e)) []))

/-- The request of a group of a post. -/
def bookReq (c k : Nat) (p : Nat × Group) : EngReq := ⟨c, p.1, p.2.id.age, 0, some k⟩

/-- The tiles of all posts: each group's own, or one it may take; nothing while one must wait. -/
def bookTiles (s : State) (c k : Nat) : List (Nat × Group) → Option (List (Nat × Nat × Bool)) × State
  | [] => (some [], s)
  | p :: ps =>
    match bookArgs p.2 k with
    | none => (none, s)
    | some m =>
      match fget p.2.tiles m.tile.toNat with
      | some t =>
        let r := bookTiles (dropTileReq s (clusterOf c) (bookReq c k p)) c k ps
        (r.1.map (fun ts => (p.1, t, false) :: ts), r.2)
      | none =>
        let n := clusterOf c
        let a := wantTile s n p.2.id.ctx (bookReq c k p)
        match a.1 with
        | none => (none, a.2)
        | some t =>
          -- hold the tile for the posts that follow
          let q := getCluster a.2 n
          let gr := if q.tileGrants.contains (bookReq c k p, t) then q.tileGrants else q.tileGrants ++ [(bookReq c k p, t)]
          let s := setCluster a.2 n { q with tileReqs := q.tileReqs.erase (bookReq c k p), tileGrants := gr }
          let r := bookTiles s c k ps
          (r.1.map (fun ts => (p.1, t, true) :: ts), r.2)

/-- Post the groups of a complete guestbook (R221). -/
def postAll (s : State) (c k post : Nat) (blk : Bool) (md : Nat × Nat) (fm : Word) (age : Nat) :
    List (Nat × Group) → List (Nat × Nat × Bool) → State
  | p :: ps, t :: ts =>
    match bookArgs p.2 k with
    | none => s
    | some m =>
      let s := if t.2.2 then bindTile (takeTile s (clusterOf c) p.2.id.ctx (bookReq c k p) t.2.1) c p.1 m.tile.toNat t.2.1 else s
      let o := mmaOp c p.1 p.2 (bookEntries p.2 k) m t.2.1 (getCore s c).seq
      let o := { o with fmode := fm, fslot := md.1, fage := age, lane := md.2, post := if blk then some post else none }
      postAll (releaseBook (enterTable s (clusterOf c) o) c p.1 k) c k post blk md fm age ps ts
  | _, _ => s

/-- Post a guestbook if it is complete, its operations have room and their tiles are there; a book that can hold nobody any more
returns to empty (R355). -/
def tryPost (s : State) (c key k : Nat) : State :=
  match getBook s c key k with
  | none => s
  | some b =>
    if !b.blk && b.decl == 0 then setBook s c key k none
    else
      match bookPosts s c key k b with
      | none => s
      | some [] => setBook s c key k none
      | some ps =>
        let q := getCluster s (clusterOf c)
        if Config.reservationEntries < seatsTaken s q + ps.length then s
        else
          let t := bookTiles s c k ps
          match t.1 with
          | none => t.2
          | some ts =>
            let md := bookMode s c key k b ps
            let g := getGroup s c md.1
            let fm := match g with | some g => (laneSt g md.2).fmode | none => 0
            let age := match g with | some g => g.id.age | none => 0
            setBook (postAll t.2 c k q.nextOp b.blk md fm age ps ts) c key k none

def tryPosts (s : State) (c key : Nat) : State := (List.range 4).foldl (fun s k => tryPost s c key k) s

/-- Lanes that exit are struck from the lane-mode books of their group (R340). -/
def strikeLanes (s : State) (c slot key : Nat) (m : LaneSet) : State :=
  let s := (List.range 4).foldl (fun s k => match getBook s c key k with
    | some b => if !b.blk && b.owner == slot then setBook s c key k (some { b with decl := b.decl &&& ~~~m }) else s
    | none => s) s
  tryPosts s c key

/-- A guestbook at its first signature: declared lanes that are not live are struck (R355). -/
def fillBook (blk : Bool) (d : DWord) (live : LaneSet) (slot : Nat) (m : LaneSet) : Guestbook :=
  { blk := blk, orig := d, decl := if blk then d else d &&& live, owner := slot, signed := 0, groups := [], gone := [],
    lastSlot := slot, lastLanes := m }

/-- A signature (R220, R355). (Log entry 38, DEDUCED, unsafe.) -/
def signBook (blk : Bool) (k : Nat) (sa : Reg) (s : State) : Out :=
  runLow s (if blk then [sa.toNat] else [sa.toNat, sa.toNat + 1]) true fun i l =>
    let key := i.g.id.blockKey
    let d : DWord := if blk then (readLane i l sa.toNat).setWidth 64 else readPair i l sa.toNat
    let n := match i.g.kind with
      | .compute => match getLaunch s i.g.id.ctx i.g.id.launch with
        | some x => x.groups
        | none => 1
      | _ => 1
    let range := if blk then decide (1 ≤ d.toNat) && decide (d.toNat ≤ min 16 n) else d != 0
    let b := getBook s i.core key k
    let ok := match b with
      | none => blk || (i.e.lanes &&& ~~~d) == 0
      | some b => b.blk == blk && b.orig == d &&
          (if blk then b.groups.contains i.g.id.group || decide (b.groups.length < b.decl.toNat)
           else b.owner == i.slot && (i.e.lanes &&& ~~~b.decl) == 0)
    if !range || !ok then .next (illegal s i i.e.lanes)
    else
      let b := b.getD (fillBook blk d i.g.live i.slot i.e.lanes)
      let b := if blk then { b with groups := if b.groups.contains i.g.id.group then b.groups else b.groups ++ [i.g.id.group] }
        else { b with signed := b.signed ||| i.e.lanes }
      let b := { b with lastSlot := i.slot, lastLanes := i.e.lanes }
      match finishWith s (markNonRep i) [sa.toNat] [] [] 1 (fun s => setBook s i.core key k (some b)) with
      | .next s => .next (tryPost s i.core key k)
      | o => o

def execGbsign (k : BitVec 2) (sa : Reg) (s : State) : Out := signBook false k.toNat sa s

def execGbsignBlk (k : BitVec 2) (sa : Reg) (s : State) : Out := signBook true k.toNat sa s

/-! ### MMA -/

/-- The fields of both fragments. -/
def mmaFields (m : MmaArgs) : List Nat :=
  (List.range 16).map (fun j => 16 * m.afrag.toNat + j) ++ (List.range 16).map (fun j => 16 * m.bfrag.toNat + j)

/-- Lanes arrive at a word other than that at which lanes of their group are parked (R221): those are unparked, to trap when next
selected, and the guestbook empties or loses the group's signature. -/
def bookMismatch (s : State) (i : Iss) (k : Nat) : State × Group :=
  let key := i.g.id.blockKey
  let g := (bookEntries i.g k).foldl (fun g e => flagDown g (e.clause.bind flagA)) i.g
  let g := mapEntries g (fun fr => fr.foldl (fun acc e => addEntry acc (match e.park with
    | .guestbook j _ => if j == k then { e with park := .none, clause := e.clause.map (fun cc => { cc with bad := true }) } else e
    | _ => e)) [])
  let s := match getBook s i.core key k with
    | none => s
    | some b =>
      if b.blk then setBook s i.core key k (some { b with groups := b.groups.erase i.g.id.group, gone := b.gone.erase i.g.id.group })
      else if b.owner == i.slot then setBook s i.core key k none
      else s
  (s, g)

def execMma (m : MmaArgs) (s : State) : Out :=
  runLow s (mmaFields m) true fun i _ =>
    match m.guest with
    | none =>
      let a := wantBoth s i m.tile.toNat (issReq i)
      match a.1 with
      | none => .next (holdIssue a.2)
      | some p =>
        finishWith a.2 (markNonRep i) [] [] [] 1 (fun s =>
          let s := takeBoth s i.core i.slot i.g m.tile.toNat p (issReq i)
          let s := match getGroup s i.core i.slot with
            | some g => setGroup s i.core i.slot (flagUp g (flagA i.cc))
            | none => s
          let e := { i.e with clause := some i.cc }
          enterTable s (clusterOf i.core) (mmaOp i.core i.slot i.g [e] m p (getCore s i.core).seq))
    | some k =>
      if (bookEntries i.g k.toNat).any (fun e => e.park != .guestbook k.toNat m) then
        let r := bookMismatch s i k.toNat
        .next (illegal r.1 { i with g := r.2 } i.e.lanes)
      else
        let s := parkAt (countIssue s i.core) (markNonRep i) i.e.lanes (.guestbook k.toNat m)
        -- lanes that join an entry parked there share its hold on the flag (R29, R81)
        let s := match getGroup s i.core i.slot with
          | some g => if (bookEntries i.g k.toNat).length < (bookEntries g k.toNat).length then
              setGroup s i.core i.slot (flagUp g (flagA i.cc)) else s
          | none => s
        .next (tryPost s i.core i.g.id.blockKey k.toNat)

/-! ### TST (R224, R407) -/

def tstFmt : TstFmt → FloatFmt
  | .f32 => .f32 | .bf16 => .bf16 | .f16 => .f16 | .e4m3 => .e4m3 | .e5m2 => .e5m2

/-- Bytes of a stored row. -/
def tstRow : TstFmt → Nat
  | .f32 => 256
  | .bf16 | .f16 => 128
  | .e4m3 | .e5m2 => 64

/-- The scratchpad ranges of the rows at a place. -/
def rowRanges (p : Option PLoc) (rows pitch n : Nat) : List (PLoc × Nat) :=
  match p with
  | some p => (List.range rows).map (fun r => (locAdd p (r * pitch), n))
  | none => []

/-- The flag of an engine operation becomes busy, and its ranges are registered, as operation `id` of the cluster. -/
def startOp (s : State) (i : Iss) (vs : Nat → List VitEntry) (ls : List PLoc) : State :=
  let s := match getGroup s i.core i.slot with
    | some g => setGroup s i.core i.slot (flagUp g (flagA i.cc))
    | none => s
  let n := clusterOf i.core
  let k := getCluster s n
  clearLines (setCluster s n { k with vit := k.vit ++ vs k.nextOp }) ls

def execTst (f : TstFmt) (free : Bool) (t : BitVec 3) (sb sa : Reg) (s : State) : Out :=
  runLow s [sa.toNat, sa.toNat + 1, sb.toNat] true fun i l =>
    let a := (readPair i l sa.toNat).toNat
    let pitch := (readLane i l sb.toNat).toNat
    let n := 63 * pitch + tstRow f
    let o := engOperand s i.core i.g a n true
    match lowestFail (failIf (decide (pitch < tstRow f)) causeIllegal i.e.pc.toNat
        ++ failIf (a % 32 != 0 || pitch % 32 != 0) causeMisalign a ++ failIf (o == .bad) causePerm a) with
    | some (c, ad) => .next (trapWord s i c i.e.lanes ad 0)
    | none =>
      let w := wantBoth s i t.toNat (issReq i)
      match w.1 with
      | none => .next (holdIssue w.2)
      | some p =>
        if !vitRoom s (clusterOf i.core) 1 then .next (holdIssue w.2)
        else
          finishWith w.2 (markNonRep i) [sa.toNat, sa.toNat + 1, sb.toNat] [] [] 1 (fun s =>
            let s := takeBoth s i.core i.slot i.g t.toNat p (issReq i)
            let s := startOp s i (fun id => [vitEntry i.g.id.ctx id true o a n])
              (rangeLines (rowRanges (operandPlace o) 64 pitch (tstRow f)))
            enterTable s (clusterOf i.core)
              { mkRtOp s i p (.tst f a pitch (if free then some t.toNat else none)) with dst := operandPlace o })

/-! ### GATE (R226 to R228, R352 to R354) -/

/-- `CARRY` of a stream, and whether its `CRESET` is set, read of its entry (R183, R304). (Log entry 41, DEDUCED, unsafe.) -/
def streamCarry (s : State) (x : Ctx) (st : Nat) : Except State (Nat × Bool) :=
  if streamHeld s x st then .error s
  else
    match entryRead s x st 0x60 12 with
    | .error s => .error s
    | .ok bs => .ok (fieldAt bs 0 8, testBit (fieldAt bs 8 4) 31)

/-- The window engine clears `CRESET` (R228). -/
def clearReset (s : State) (x : Ctx) (st : Nat) : State := stateOf (entryEdit s x st 0x68 0x80000000 0)

def execGate (p : GateProg) (t : BitVec 3) (sa : Reg) (s : State) : Out :=
  let outF := match p with
    | .lstm r => some r.toNat
    | _ => none
  runLow s (sa.toNat :: outF.toList) true fun i l =>
    let x := i.g.id.ctx
    let off := (readLane i l sa.toNat).toNat
    let len := 256 * gateWidth p
    let far := off == 0xFFFFFFFF
    let st := match i.g.kind with
      | .window st _ => some st
      | _ => none
    match (match far, st with
      | true, some k => streamCarry s x k
      | _, _ => .ok (0, false)) with
    | .error s => .next (holdIssue s)
    | .ok (carry, zero) =>
    let oOff := outF.map (fun r => (readLane i l r).toNat)
    let so := if far then Operand.mem else engLocal s i.core i.g off len
    let oo := oOff.map (fun o => if o == 0xFFFFFFFF then Operand.bad else engLocal s i.core i.g o len)
    let meets := match oOff with
      | some o => !far && rangesMeet off len o len
      | none => false
    let outMis := match oOff with
      | some o => o != 0xFFFFFFFF && o % 256 != 0
      | none => false
    match lowestFail (failIf meets causeIllegal i.e.pc.toNat
        ++ failIf (!far && off % 256 != 0) causeMisalign off ++ failIf outMis causeMisalign (oOff.getD 0)
        ++ failIf (far && st.isSome && carry % 256 != 0) causeMisalign carry
        ++ failIf (so == .bad) causePerm off ++ failIf (oo == some .bad) causePerm (oOff.getD 0)
        ++ failIf (far && st.isNone) causePerm off) with
    | some (c, ad) => .next (trapWord s i c i.e.lanes ad 0)
    | none =>
      let w := wantBoth s i t.toNat (issReq i)
      match w.1 with
      | none => .next (holdIssue w.2)
      | some tile =>
        let flat := fun (o : Nat) => Config.apertureBase + o
        let sa' := if far then carry else flat off
        if !vitRoom s (clusterOf i.core) (2 + oo.toList.length) then .next (holdIssue w.2)
        else
          finishWith w.2 (markNonRep i) (sa.toNat :: outF.toList) [] [] 1 (fun s =>
            let s := takeBoth s i.core i.slot i.g t.toNat tile (issReq i)
            let s := match st with | some k => if far then devTouch s x (streamAddr s x k + 0x60) 12 else s | none => s
            let outs := (oo.toList.filterMap operandPlace)
            let s := startOp s i
              (fun id => [vitEntry x id false so sa' len, vitEntry x id true so sa' len]
                ++ oo.toList.map (fun o => vitEntry x id true o (flat (oOff.getD 0)) len))
              (rangeLines (((operandPlace so).toList ++ outs).map (fun q => (q, len))))
            let s := match st with
              | some k => if zero then clearReset s x k else s
              | none => s
            let place := match operandPlace so with
              | some q => GatePlace.scratch i.g.id.blockKey q.a
              | none => .carry carry
            enterTable s (clusterOf i.core) (mkRtOp s i tile (.gate p place oOff zero)))

/-! ### The engine queue: COPY and TLD -/

/-- Bytes of a K block for an element width (R225, R240). -/
def elemBlock : ElemW → Nat
  | .w4 => 16 | .w8 => 32 | .w16 => 64

def mkEqOp (s : State) (i : Iss) (block : Nat) (kind : EqKind) (src dst scl : Operand) : EqOp :=
  let l := lowLane i.e.lanes
  { id := 0, ctx := i.g.id.ctx, core := i.core, slot := i.slot, age := i.g.id.age, block := block, flag := flagA i.cc,
    fmode := (laneSt i.g l).fmode, lane := l, kind := kind, src := operandPlace src, dst := operandPlace dst,
    scl := operandPlace scl, started := false, done := 0, told := 0, rest := none, landed := [], keptSrc := [], keptScl := [], frec := groupRecord 0x12 0 i.core i.g l 0 0,
    win := isWindow i.g, launch := i.g.id.launch, before := (getCore s i.core).seq }

def enterQueue (s : State) (n : Nat) (o : EqOp) : State :=
  let k := getCluster s n
  setCluster s n { k with queue := k.queue ++ [{ o with id := k.nextOp }], nextOp := k.nextOp + 1 }

/-- `TLD` (R225, R405). -/
def execTld (scaled : Option (BitVec 2 × ElemW)) (sb sa : Reg) (s : State) : Out :=
  let fs := [sa.toNat, sa.toNat + 1, sb.toNat, sb.toNat + 1]
  runLow s fs true fun i l =>
    let a := (readPair i l sa.toNat).toNat
    let off := (readLane i l sb.toNat).toNat
    let pitch := (readLane i l (sb.toNat + 1)).toNat
    let n := 63 * pitch + 64
    let so := engOperand s i.core i.g a n false
    let d := engLocal s i.core i.g off 4096
    let flat := Config.apertureBase + off
    match lowestFail (failIf (operandsMeet so d a n flat 4096) causeIllegal i.e.pc.toNat
        ++ failIf (off % 256 != 0) causeMisalign off ++ failIf (a % 32 != 0 || pitch % 32 != 0) causeMisalign a
        ++ failIf (!ownsCopy s i.core i.g.id.ctx.wing || so == .bad) causePerm a ++ failIf (d == .bad) causePerm off) with
    | some (c, ad) => .next (trapWord s i c i.e.lanes ad 0)
    | none =>
      if so == .wait || !vitRoom s (clusterOf i.core) 2 then .next (holdIssue s)
      else
        finishWith s (markNonRep i) fs [] [] 1 (fun s =>
          let s := startOp s i (fun id => [vitEntry i.g.id.ctx id false so a n, vitEntry i.g.id.ctx id true d flat 4096])
            (rangeLines ((operandPlace d).toList.map (fun p => (p, 4096))))
          let sc := scaled.map (fun k => (sget 0 i.g.scales k.1.toNat, k.2))
          enterQueue s (clusterOf i.core) (mkEqOp s i i.g.id.blockKey (.tld a pitch off sc) so d .mem))

/-- The descriptor's fields from its 48 bytes (R239). -/
def copyDesc (bs : List Byte) : CopyDesc :=
  let ctl := fieldAt bs 0x24 4
  { saddr := fieldAt bs 0 8, daddr := fieldAt bs 8 8, rbytes := fieldAt bs 0x10 4, rows := fieldAt bs 0x14 4,
    spitch := fieldAt bs 0x18 4, dpitch := fieldAt bs 0x1C 4,
    bar := if fieldAt bs 0x20 4 == 0xFFFFFFFF then none else some (fieldAt bs 0x20 4),
    cvt := bitsOf ctl 5 3, esz := bitsOf ctl 2 1, scaled := testBit ctl 0, scales := fieldAt bs 0x28 8 }

/-- Bytes of an element of the new width (R239). -/
def cvtSize (cvt : Nat) : Nat := if cvt == 1 || cvt == 2 then 2 else 1

/-- Bytes of a destination row. -/
def dstRow (d : CopyDesc) : Nat := if d.cvt == 0 then d.rbytes else d.rbytes / 4 * cvtSize d.cvt

def dstTotal (d : CopyDesc) : Nat := dstRow d * d.rows

/-- Bytes of a scaled block. -/
def copyBlock (d : CopyDesc) : Nat := 16 * 2 ^ d.esz

/-- The conditions of R240 on the fields. -/
def copyFields (d : CopyDesc) (ctl : Nat) : Bool :=
  decide (1 ≤ d.rbytes) && decide (d.rbytes ≤ 16777216) && decide (1 ≤ d.rows) && decide (d.rows ≤ 65536)
    && decide (ctl < 64) && decide (d.cvt ≤ 4) && d.esz != 3
    && (d.rows == 1 || (decide (d.rbytes ≤ d.spitch) && decide (dstRow d ≤ d.dpitch)))
    && decide (dstTotal d ≤ 2 ^ 32 - 256) && !(d.scaled && d.cvt != 0)
    && (!d.scaled || d.rbytes % copyBlock d == 0) && (d.cvt == 0 || d.rbytes % 4 == 0)

/-- Bytes that a copy's source spans, its destination, its shift counts. -/
def srcSpan (d : CopyDesc) : Nat := (d.rows - 1) * d.spitch + d.rbytes
def dstSpan (d : CopyDesc) : Nat := (d.rows - 1) * d.dpitch + dstRow d
def sclSpan (d : CopyDesc) : Nat := d.rows * (d.rbytes / copyBlock d)

/-- Bytes of an element of the source and of the destination, as the alignment of a conversion or a scaled copy counts them. -/
def copyElems (d : CopyDesc) : Nat × Nat :=
  let se := if d.cvt != 0 then 4 else if d.scaled && d.esz == 2 then 2 else 1
  (se, if d.cvt != 0 then cvtSize d.cvt else se)

/-- The source's address and pitch are multiples of the element size (R240, R338). -/
def srcAligned (d : CopyDesc) : Bool := d.saddr % (copyElems d).1 == 0 && d.spitch % (copyElems d).1 == 0

/-- The destination's address and pitch are; `ap` leaves out the address (R239). -/
def dstAligned (d : CopyDesc) (ap : Bool) : Bool := (ap || d.daddr % (copyElems d).2 == 0) && d.dpitch % (copyElems d).2 == 0

/-- The alignment of a copy (R240, R338). -/
def copyAligned (d : CopyDesc) (ap : Bool) : Bool := srcAligned d && dstAligned d ap

/-- The failed alignment of a copy that converts or scales, by the address at fault. -/
def copyMisaligned (d : CopyDesc) (ap : Bool) : Failed :=
  let on := d.cvt != 0 || d.scaled
  failIf (on && !srcAligned d) causeMisalign d.saddr ++ failIf (on && !dstAligned d ap) causeMisalign d.daddr

/-- Read the descriptor as a load (R338): a trap, a park at absent lines, or its bytes. -/
def readDesc (s : State) (i : Iss) (l key o : Nat) (go : List Byte → Out) : Out :=
  if o % 16 != 0 then .next (trapWord s i causeMisalign i.e.lanes o 0)
  else
    match scrTarget s i.core key o 48 false with
    | .scr p _ =>
      match placeChecks s i.core i.g l (kindLoad .loc) (some p) o (watchAddr .loc o) 48 with
      | .trap c ad ix => .next (trapWord s i c i.e.lanes ad ix)
      | .absent _ => .next (parkAt s i i.e.lanes (.absent (absentLines s p 48)))
      | _ => go (loadBytes s i.core i.g.id.ctx p o 48 false)
    | _ => .next (trapWord s i causePerm i.e.lanes o 0)

/-- `COPY` in a group (R239, R240, R338). -/
def execCopy (sa : Reg) (s : State) : Out :=
  runLow s [sa.toNat] false fun i l =>
    let o := (readLane i l sa.toNat).toNat
    let key := i.g.id.blockKey
    readDesc s i l key o fun bs =>
      let d := copyDesc bs
      let so := engOperand s i.core i.g d.saddr (srcSpan d) false
      let dd := engOperand s i.core i.g d.daddr (dstSpan d) true
      let sc := if d.scaled then engOperand s i.core i.g d.scales (sclSpan d) false else .mem
      let barAt := Config.apertureBase + d.bar.getD 0
      let barBad := match d.bar with
        | some b =>
          let o := engLocal s i.core i.g b 4
          b % 4 != 0 || operandsMeet so o d.saddr (srcSpan d) barAt 4 || operandsMeet dd o d.daddr (dstSpan d) barAt 4
        | none => false
      let barFar := match d.bar with
        | some b => engLocal s i.core i.g b 4 == .bad
        | none => false
      match lowestFail (failIf (!copyFields d (fieldAt bs 0x24 4) || operandsMeet so dd d.saddr (srcSpan d) d.daddr (dstSpan d)
            || barBad) causeIllegal i.e.pc.toNat
          ++ copyMisaligned d false
          ++ failIf barFar causePerm (d.bar.getD 0) ++ failIf (so == .bad) causePerm d.saddr ++ failIf (dd == .bad) causePerm d.daddr
          ++ failIf (sc == .bad) causePerm d.scales ++ failIf (!ownsCopy s i.core i.g.id.ctx.wing) causePerm i.e.pc.toNat) with
      | some (c, ad) => .next (trapWord s i c i.e.lanes ad 0)
      | none =>
        let x := i.g.id.ctx
        if so == .wait || sc == .wait || !vitRoom s (clusterOf i.core) (if d.scaled then 3 else 2) then .next (holdIssue s)
        else
          finishWith s (markNonRep i) [sa.toNat] [] [] 1 (fun s =>
            let s := startOp s i
              (fun id => [vitEntry x id false so d.saddr (srcSpan d), vitEntry x id true dd d.daddr (dstSpan d)]
                ++ (if d.scaled then [vitEntry x id false sc d.scales (sclSpan d)] else []))
              (rangeLines (rowRanges (operandPlace dd) d.rows d.dpitch (dstRow d)))
            enterQueue s (clusterOf i.core) (mkEqOp s i key (.copy d) so dd sc))

/-- The lines of entries of an access queue. -/
def queueLines (s : State) (c holder q first n : Nat) : List PLoc :=
  match getBlock s c holder with
  | none => []
  | some b => rangeLines ((List.range n).map (fun e => (⟨.scr c holder, queueOffset b q (first + e)⟩, 256)))

/-- `COPY` in access-processor code (R141): into entries of a queue; its descriptor lies in the scratchpad that holds the queue
region. -/
def execCopyQueue (q : BitVec 3) (sa : Reg) (s : State) : Out :=
  runLow s [sa.toNat] false fun i l =>
    match (getCore s i.core).apq with
    | none => .next (illegal s i i.e.lanes)
    | some a =>
      if !isAp i.g then .next (illegal s i i.e.lanes)
      else
        let o := (readLane i l sa.toNat).toNat
        readDesc s i l a.holder o fun bs =>
          let d := copyDesc bs
          let so := engOperand s i.core i.g d.saddr (srcSpan d) false
          let sc := if d.scaled then engOperand s i.core i.g d.scales (sclSpan d) false else .mem
          match lowestFail (failIf (!copyFields d (fieldAt bs 0x24 4) || decide (8192 < dstTotal d)) causeIllegal i.e.pc.toNat
              ++ copyMisaligned d true
              ++ failIf (so == .bad) causePerm d.saddr ++ failIf (sc == .bad) causePerm d.scales
              ++ failIf (!ownsCopy s i.core i.g.id.ctx.wing) causePerm i.e.pc.toNat) with
          | some (c, ad) => .next (trapWord s i c i.e.lanes ad 0)
          | none =>
            let x := i.g.id.ctx
            let k := (dstTotal d + 255) / 256
            let cnt := sget 0 a.count q.toNat
            if Config.queueEntries < cnt + k then .next (parkGroup s i .fullQueue)
            else if so == .wait || sc == .wait || !vitRoom s (clusterOf i.core) (if d.scaled then 3 else 2) then .next (holdIssue s)
            else
              let first := sget 0 a.head q.toNat + cnt
              -- the range runs from the lowest to the highest byte: the whole queue where the entries wrap (R171)
              let wraps := decide (Config.queueEntries < first % 32 + k)
              let span := if wraps then 8192 else 256 * k
              let place := match getBlock s i.core a.holder with
                | some b => Operand.scr ⟨.scr i.core a.holder, queueOffset b q.toNat (if wraps then 0 else first)⟩
                | none => .bad
              finishWith s (markNonRep i) [sa.toNat] [] [] 1 (fun s =>
                let c := getCore s i.core
                let s := setCore s i.core { c with apq := some { a with count := sset 0 a.count q.toNat (cnt + k) } }
                let s := startOp s i
                  (fun id => [vitEntry x id false so d.saddr (srcSpan d), vitEntry x id true place 0 span]
                    ++ (if d.scaled then [vitEntry x id false sc d.scales (sclSpan d)] else []))
                  (queueLines s i.core a.holder q.toNat first k)
                enterQueue s (clusterOf i.core) (mkEqOp s i a.holder (.queue d q.toNat first k) so .mem sc))

end Sys2Proof.Machine
end

