-- ==== Sys2Proof/Machine/EngineRun.lean ====
section
/-!
DEFINITION. What the engines do after issue (R104, R124, R170, R173, R174, R176, R216 to R218, R223 to R225, R241, R304, R308): the
queue's order, the arbiter, the pieces of 32 B in which an operation moves its data, its faults and its end.
-/
namespace Sys2Proof.Machine

/-- An engine operation is paused: its context is saved (R309). -/
def paused (s : State) (x : Ctx) : Bool := (getTenant s x).saved.isSome

/-! ### Memory as an engine reaches it -/

/-- The place of a flat address for an engine of a cluster (R299): the translation, its rights, or a fault. -/
def engXlate (s : State) (n : Nat) (x : Ctx) (va : Nat) (wr : Bool) : Except XlFault PLoc :=
  if apertureAddr va then .error ⟨false, false, true⟩
  else
    match (match tlbFind (getCluster s n).tlb x va with
      | some e => Except.ok e
      | none => walk s x va) with
    | .error f => .error f
    | .ok e =>
      if !rightsOk e (if wr then rightsStore else rightsLoad) then .error ⟨false, false, true⟩
      else if peerDown s (placeOf e va) then .error ⟨false, false, false⟩
      else .ok (placeOf e va)

/-- A byte range of an operand: its scratchpad place, or its translation. -/
def engPlace (s : State) (n : Nat) (x : Ctx) (scr : Option PLoc) (base va : Nat) (wr : Bool) : Except XlFault PLoc :=
  match scr with
  | some p => .ok (locAdd p (va - base))
  | none => engXlate s n x va wr

/-- How a piece of an operation goes. -/
inductive Piece (α : Type) where
  | ok (x : α)
  | fault (f : XlFault) (va : Nat) (wr : Bool)
  | poison (granule : Nat)
  deriving DecidableEq, Repr

/-- Places of a range, cut at 32 B. -/
def engPlaces (s : State) (n : Nat) (x : Ctx) (scr : Option PLoc) (base va : Nat) (wr : Bool) :
    List (Nat × Nat) → Piece (List (PLoc × Nat))
  | [] => .ok []
  | k :: ks =>
    match engPlace s n x scr base (va + k.1) wr with
    | .error f => .fault f (va + k.1) wr
    | .ok p =>
      match engPlaces s n x scr base va wr ks with
      | .ok ps => .ok ((p, k.2) :: ps)
      | r => r

def engRange (s : State) (n : Nat) (x : Ctx) (scr : Option PLoc) (base va len : Nat) (wr : Bool) : Piece (List (PLoc × Nat)) :=
  engPlaces s n x scr base va wr (pieces 32 va len)

/-- Read places through the cluster's L2 and the scratchpad bank units (R170). -/
def engReadPlaces (s : State) (n : Nat) (x : Ctx) : List (PLoc × Nat) → Piece (List Byte × State)
  | [] => .ok ([], s)
  | p :: ps =>
    match poisonIn s p.1 p.2 with
    | some g => .poison g
    | none =>
      let bs := (List.range p.2).map (fun j => clusterByte s x n (locAdd p.1 j) false)
      let s := if cacheable p.1.tgt false then clusterFill s n x (sectorOf p.1) 0 else s
      match engReadPlaces s n x ps with
      | .ok r => .ok (bs ++ r.1, r.2)
      | r => r

/-- The walks of a range that the cluster's translations do not hold (R301). -/
def engWalked (s : State) (n : Nat) (x : Ctx) (scr : Option PLoc) (va len : Nat) : State :=
  if scr.isSome then s
  else (if (va + len - 1) / 4096 == va / 4096 then [va] else [va, va + len - 1]).foldl (fun s a =>
    if (tlbFind (getCluster s n).tlb x a).isSome then s else walkTouch s x a) s

def engRead (s : State) (n : Nat) (x : Ctx) (scr : Option PLoc) (base va len : Nat) : Piece (List Byte × State) :=
  match engRange s n x scr base va len false with
  | .ok ps => engReadPlaces (engWalked s n x scr va len) n x ps
  | .fault f a w => .fault f a w
  | .poison g => .poison g

/-- A whole granule of memory written clears its poison: the sector goes on to its home (R312). -/
def clearPoison (s : State) (n : Nat) (x : Ctx) (l : PLoc) (len : Nat) : State :=
  if len == 32 && (poisonIn s l 32).isSome then
    match l2Slice s x n (locKey l / 128) with
    | some m => writeThrough s m (l2Key x (sectorOf l))
    | none => s
  else s

/-- Write bytes at places, performed at `CLUSTER` scope (R173), for an operation of a core, whose L1 keeps no older copy: its threads
read them once they have waited (R159, R173). -/
def engWritePlaces (c n : Nat) (x : Ctx) : List (PLoc × Nat) → List Byte → State → State
  | [], _, s => s
  | p :: ps, bs, s =>
    let b := bs.take p.2
    let s := match p.1.tgt with
      | .scr .. => homeWrite s p.1 b
      | .peer _ => homeWrite (deliverPeer s p.1) p.1 b
      | _ => clearPoison (clusterWrite (l1Forget s c p.1) x n p.1 b 0 false none) n x p.1 p.2
    engWritePlaces c n x ps (bs.drop p.2) s

/-- The flags of an operation go to the `FSTAT` of the lane whose `FMODE` it captured (R108). -/
def engFlags (s : State) (c slot age lane : Nat) (fl : FFlags) : State :=
  match groupOfAge s c slot age with
  | some g => setGroup s c slot (mapLanes g (laneBit lane) (fun _ x => { x with fstat := x.fstat ||| fl.setWidth 32 }))
  | none => s

/-! ### Runs of pieces (R304, R307, R308) -/

/-- How one piece of an operation ends: moved; stopped by a fault, with the state in which what it had bound is kept; poisoned. -/
inductive PieceRes where
  | ok (s : State)
  | fault (s : State) (f : XlFault) (va : Nat) (wr : Bool)
  | poison (granule : Nat)
  deriving DecidableEq, Repr

/-- How a run ends: pieces left with the records that hold them, a failure that ends the operation, or poisoned data. -/
inductive RunRes where
  | left (s : State) (rest : List (Nat × Option Nat))
  | failed (s : State) (r : FaultRec)
  | poison (s : State) (granule : Nat)
  deriving DecidableEq, Repr

/-- The record of a fault of an engine operation. -/
def engRecord (r : FaultRec) (f : XlFault) (va : Nat) (wr : Bool) : FaultRec :=
  xlRecord { r with addr := va, acc := if wr then 1 else 0 } f

/-- The issuing group had ended when the operation met a fault (R305). -/
def exitedRec (s : State) (c slot age : Nat) (r : FaultRec) : FaultRec := { r with exited := (groupOfAge s c slot age).isNone }

/-- Move the pieces given. A replayable fault holds its piece under one record for each page (R301, R307); the others go on. -/
def runPieces (f : State → Nat → PieceRes) (r : FaultRec) (w : Nat) :
    List Nat → List (Nat × Nat) → State → List (Nat × Option Nat) → RunRes
  | [], _, s, rest => .left s rest
  | k :: ks, pages, s, rest =>
    match f s k with
    | .ok s => runPieces f r w ks pages s rest
    | .poison g => .poison s g
    | .fault s x va wr =>
      match if x.replay then pages.find? (fun p => p.1 == va / 4096) else none with
      | some p => runPieces f r w ks pages s (rest ++ [(k, some p.2)])
      | none =>
        let a := addRecord s w (engRecord r x va wr)
        match x.replay, a.1 with
        | true, some id => runPieces f r w ks ((va / 4096, id) :: pages) a.2 (rest ++ [(k, some id)])
        | _, _ => .failed a.2 (engRecord r x va wr)

/-- The pages on which records hold pieces. -/
def heldPages (s : State) (w : Nat) (rest : List (Nat × Option Nat)) : List (Nat × Nat) :=
  (getWing s w).faults.filterMap (fun r => if rest.any (fun p => p.2 == some r.id) then some (r.addr / 4096, r.id) else none)

/-- Run an operation of `total` pieces: all of them from `from` on, or after a replay those that are to be issued again. -/
def runOpPieces (s : State) (f : State → Nat → PieceRes) (r : FaultRec) (w start total : Nat)
    (rest : Option (List (Nat × Option Nat))) : RunRes :=
  match rest with
  | none => runPieces f r w ((List.range (total - start)).map (start + ·)) [] s []
  | some ps =>
    let held := ps.filter (fun p => p.2.isSome)
    runPieces f r w ((ps.filter (fun p => p.2.isNone)).map (·.1)) (heldPages s w held) s held

/-! ### COPY and TLD -/

/-- The largest power of two up to 32 that divides every number given. -/
def commonAlign (ns : List Nat) : Nat := ([32, 16, 8, 4, 2].find? (fun c => ns.all (fun n => n % c == 0))).getD 1

/-- Source bytes of a piece: no piece leaves a 32 B sector of its source or of its destination (R308), nor a scaled block. -/
def copyChunk (d : CopyDesc) : Nat :=
  let c := commonAlign [d.saddr, if d.rows == 1 then 0 else d.spitch]
  let e := if d.cvt == 0 then 1 else cvtSize d.cvt
  -- destination bytes of a piece of c source bytes are c / 4 elements of the new width
  let b := commonAlign [d.daddr, if d.rows == 1 then 0 else d.dpitch]
  let c := if d.cvt == 0 then min c b else min c (4 * (b / e))
  if d.scaled then min (copyBlock d) c else c

/-- Pieces of a source row. -/
def rowPieces (d : CopyDesc) : Nat := (d.rbytes + copyChunk d - 1) / copyChunk d

def cvtFmt (cvt : Nat) : FloatFmt :=
  if cvt == 1 then .bf16 else if cvt == 2 then .f16 else if cvt == 3 then .e4m3 else .e5m2

/-- Convert the FP32 words of a piece (R240). -/
def convertWords (md : FMode) (cvt : Nat) : Nat → List Byte → List Byte × FFlags
  | 0, _ => ([], flagNone)
  | n + 1, bs =>
    let r := opConvert md .f32 (cvtFmt cvt) (leNat (bs.take 4))
    let q := convertWords md cvt n (bs.drop 4)
    (leBytes (cvtSize cvt) r.1 ++ q.1, r.2 ||| q.2)

/-- Offset of a piece in its destination row, and where it stands in the copy order (R241). -/
def pieceDst (d : CopyDesc) (k : Nat) : Nat :=
  let off := k % rowPieces d * copyChunk d
  if d.cvt == 0 then off else off / 4 * cvtSize d.cvt

def piecePos (d : CopyDesc) (k : Nat) : Nat := k / rowPieces d * dstRow d + pieceDst d k

/-- An operation of the queue as it stands. -/
def curEq (s : State) (n : Nat) (o : EqOp) : EqOp := ((getCluster s n).queue.find? (fun q => q.id == o.id)).getD o

def putEq (s : State) (n : Nat) (o : EqOp) : State :=
  let k := getCluster s n
  setCluster s n { k with queue := k.queue.map (fun q => if q.id == o.id then o else q) }

/-- What has been read of a piece: the destination's bytes with their exceptions; or a fault, in the state that keeps its shift
count; or poison. -/
inductive CopyRead where
  | ok (bs : List Byte) (fl : FFlags) (s : State)
  | fault (s : State) (f : XlFault) (va : Nat)
  | poison (granule : Nat)
  deriving DecidableEq, Repr

/-- The source bytes of a piece as the destination takes them; a zero block is not fetched (R104, R124). What a piece had bound
before a fault held it is not fetched again (R308). -/
def copyRead (s : State) (n : Nat) (o : EqOp) (d : CopyDesc) (k : Nat) : CopyRead :=
  let row := k / rowPieces d
  let off := k % rowPieces d * copyChunk d
  let len := min (copyChunk d) (d.rbytes - off)
  let o := curEq s n o
  match fget o.keptSrc k with
  | some bs => .ok bs flagNone s
  | none =>
    let data := fun (s : State) =>
      match engRead s n o.ctx o.src d.saddr (d.saddr + row * d.spitch + off) len with
      | .fault f a _ => CopyRead.fault s f a
      | .poison g => .poison g
      | .ok r =>
        if d.cvt == 0 then .ok r.1 flagNone r.2
        else let c := convertWords (fmodeOf o.fmode) d.cvt (len / 4) r.1; .ok c.1 c.2 r.2
    if d.scaled then
      match (match fget o.keptScl k with
        | some b => Piece.ok ([b], s)
        | none => engRead s n o.ctx o.scl d.scales (d.scales + row * (d.rbytes / copyBlock d) + off / copyBlock d) 1) with
      | .fault f a _ => .fault s f a
      | .poison g => .poison g
      | .ok r =>
        if r.1 == [0x80] then .ok (zeroBytes len) flagNone r.2
        else
          match data r.2 with
          | .fault s f a => .fault (putEq s n { curEq s n o with keptScl := fset (curEq s n o).keptScl k (r.1.getD 0 0) }) f a
          | x => x
    else data s

/-- Write bytes in the entries of an access queue, in order (R141). -/
def queueWrite (s : State) (c holder q first pos : Nat) (bs : List Byte) : State :=
  match getBlock s c holder with
  | none => s
  | some b => (bs.zipIdx).foldl (fun s p =>
      homeWrite s ⟨.scr c holder, queueOffset b q (first + (pos + p.2) / 256) + (pos + p.2) % 256⟩ [p.1]) s

/-- A run of `engRead` or `engRange` that does not go through, as the end of a piece. -/
def pieceStop (s : State) {α : Type} (r : Piece α) (go : α → PieceRes) : PieceRes :=
  match r with
  | .ok x => go x
  | .fault f a w => .fault s f a w
  | .poison g => .poison g

/-- One piece of an operation of the engine queue. -/
def eqPiece (n : Nat) (o : EqOp) (s : State) (k : Nat) : PieceRes :=
  match o.kind with
  | .copy d =>
    match copyRead s n o d k with
    | .fault s f a => .fault s f a false
    | .poison g => .poison g
    | .ok bs fl s =>
      let s := engFlags s o.core o.slot o.age o.lane fl
      -- a piece that the destination holds keeps what it has bound
      pieceStop (putEq s n { curEq s n o with keptSrc := fset (curEq s n o).keptSrc k bs })
        (engRange s n o.ctx o.dst d.daddr (d.daddr + k / rowPieces d * d.dpitch + pieceDst d k) bs.length true)
        (fun ps => .ok (engWritePlaces o.core n o.ctx ps bs
          (engWalked s n o.ctx o.dst (d.daddr + k / rowPieces d * d.dpitch + pieceDst d k) bs.length)))
  | .queue d q first _ =>
    match copyRead s n o d k with
    | .fault s f a => .fault s f a false
    | .poison g => .poison g
    | .ok bs fl s => .ok (queueWrite (engFlags s o.core o.slot o.age o.lane fl) o.core o.block q first (piecePos d k) bs)
  | .tld src pitch _ sc =>
    let w := match sc with
      | some x => elemBlock x.2
      | none => 64
    let c := min w 32
    let row := k / (64 / c)
    let off := k % (64 / c) * c
    let zero := match sc with
      | some x => shiftOf x.1 (off / w) == -128
      | none => false
    pieceStop s (if zero then Piece.ok (zeroBytes c, s) else engRead s n o.ctx o.src src (src + row * pitch + off) c) fun r =>
      match o.dst with
      | none => .ok r.2
      | some p => .ok ((r.1.zipIdx).foldl (fun s b =>
          homeWrite s (locAdd p (256 * ((off + b.2) / 4) + 4 * row + (off + b.2) % 4)) [b.1]) r.2)

/-- Pieces of an operation. -/
def eqTotal (o : EqOp) : Nat :=
  match o.kind with
  | .copy d | .queue d _ _ _ => d.rows * rowPieces d
  | .tld _ _ _ sc => 64 * (64 / min (match sc with | some x => elemBlock x.2 | none => 64) 32)

/-- The scratchpad lines that an operation writes (R124). -/
def eqLines (s : State) (o : EqOp) : List PLoc :=
  match o.kind with
  | .copy d => rangeLines (rowRanges o.dst d.rows d.dpitch (dstRow d))
  | .queue _ q first k => queueLines s o.core o.block q first k
  | .tld .. => rangeLines (o.dst.toList.map (fun p => (p, 4096)))

/-- Add to the barrier word of a copy (R176, R241). -/
def barAdd (s : State) (o : EqOp) (v : Nat) : State :=
  match o.kind with
  | .copy d =>
    match d.bar with
    | some b =>
      let l : PLoc := ⟨.scr o.core o.block, b⟩
      let old : Word := BitVec.ofNat 32 (leNat (homeRead s l 4))
      if v == 0 then s else homeWrite s l (leBytes 4 (old + bw v).toNat)
    | none => s
  | _ => s

/-- Bytes of the unbroken prefix of the copy order that have performed. -/
def copyPrefix (o : EqOp) (d : CopyDesc) : Nat :=
  let first := match o.rest with
    | none => some o.done
    | some ps => (ps.map (·.1)).min?
  match first with
  | some k => if k < eqTotal o then piecePos d k else dstTotal d
  | none => dstTotal d

/-- Count more of the prefix in the barrier word: multiples of 256 B, and the rest at the end. -/
def copyCount (s : State) (n : Nat) (o : EqOp) (limit : Nat) : State :=
  match o.kind with
  | .copy d =>
    let have' := copyPrefix o d
    let v := min (have' - o.told) limit
    let v := if o.told + v < dstTotal d then v / 256 * 256 else v
    let k := getCluster s n
    let o' := { o with told := o.told + v }
    barAdd (setCluster s n { k with queue := k.queue.map (fun q => if q.id == o.id then o' else q) }) o v
  | _ => s

/-- The destination lines that a piece writes; of a queue copy, those of the last entry wait for its padding. -/
def pieceLines (s : State) (o : EqOp) (k : Nat) : List PLoc :=
  match o.kind with
  | .copy d =>
    let len := min (copyChunk d) (d.rbytes - k % rowPieces d * copyChunk d)
    let n := if d.cvt == 0 then len else len / 4 * cvtSize d.cvt
    rangeLines (o.dst.toList.map (fun p => (locAdd p (k / rowPieces d * d.dpitch + pieceDst d k), n)))
  | .queue d q first n =>
    if piecePos d k / 256 + 1 == n then [] else queueLines s o.core o.block q (first + piecePos d k / 256) 1
  | .tld _ _ _ sc =>
    let w := match sc with
      | some x => elemBlock x.2
      | none => 64
    let c := min w 32
    let off := k % (64 / c) * c
    rangeLines ((List.range ((c + 3) / 4)).flatMap (fun j => o.dst.toList.map (fun p => (locAdd p (256 * (off / 4 + j) + 4 * (k / (64 / c))), 4))))

/-- Destination lines whose writes have all completed are counted as landed before the operation's end (R124). `ps` are the pieces
not yet moved. -/
def landDone (s : State) (n : Nat) (o : EqOp) (ps : List Nat) : State :=
  let last := match o.kind with
    | .queue _ q first k => queueLines s o.core o.block q (first + k - 1) 1
    | _ => []
  let owed := ps.flatMap (pieceLines s o) ++ last
  let now := (eqLines s o).filter (fun l => !owed.contains l && !o.landed.contains l)
  putEq (landLines s now) n { o with landed := o.landed ++ now }

/-- An operation of the queue ends (R173): its lines have landed, its vitrine entries go, its flag clears. -/
def endEq (s : State) (n : Nat) (o : EqOp) : State :=
  let done := (curEq s n o).landed
  let s := landLines s ((eqLines s o).filter (fun l => !done.contains l))
  let k := getCluster s n
  let s := setCluster s n { k with queue := k.queue.filter (fun q => q.id != o.id), vit := k.vit.filter (fun v => v.op != o.id) }
  flagDone s o.core o.slot o.age o.flag

/-- The rest of a queue copy's last entry is zero (R141). -/
def queuePad (s : State) (o : EqOp) : State :=
  match o.kind with
  | .queue d q first k => queueWrite s o.core o.block q first (dstTotal d) (zeroBytes (256 * k - dstTotal d))
  | _ => s

/-- Run an operation of the queue to its end, as far as faults let it. -/
def runEq (s : State) (n : Nat) (o : EqOp) : State :=
  match runOpPieces s (eqPiece n o) (exitedRec s o.core o.slot o.age o.frec) o.ctx.wing o.done (eqTotal o) o.rest with
  | .poison s g => poisonKill (endEq s n o) o.ctx g
  | .failed s r => failAbort (endEq s n o) o.ctx o.win o.launch 0 r
  | .left s rest =>
    let o := { curEq s n o with rest := some rest }
    if rest.isEmpty then
      let left := match o.kind with
        | .copy d => dstTotal d - o.told
        | _ => 0
      endEq (queuePad (barAdd s o left) o) n o
    else landDone s n o (rest.map (·.1))

/-- Move pieces of the copy order one by one while they lie within a count of destination bytes. -/
def copyOn (n : Nat) (d : CopyDesc) (limit : Nat) : Nat → State → EqOp → State × EqOp
  | 0, s, o => (s, o)
  | fuel + 1, s, o =>
    if eqTotal o ≤ o.done || limit ≤ piecePos d o.done then (s, o)
    else
      match eqPiece n o s o.done with
      | .ok s => copyOn n d limit fuel s { o with done := o.done + 1 }
      | _ => (s, o)

/-- `COPY_PROGRESS` (R176, R241): a part of the copy order, in units of 256 B, has performed, and the barrier word counts it. -/
def copyProgress (s : State) (n i units : Nat) : State :=
  match (getCluster s n).queue[i]? with
  | none => s
  | some o =>
    match o.kind with
    | .copy d =>
      if !o.started || paused s o.ctx then s
      else
        let r := match o.rest with
          | none => copyOn n d (o.told + 256 * units) (8 * units + 256 * units + 1) s o
          | some _ => (s, o)
        let left := match r.2.rest with
          | none => (List.range (eqTotal r.2 - r.2.done)).map (r.2.done + ·)
          | some ps => ps.map (·.1)
        let s := landDone r.1 n r.2 left
        copyCount s n (curEq s n r.2) (256 * units)
    | _ => s

def execCopyProgress (cluster i rows : Nat) (s : State) : Out := .next (copyProgress s cluster i rows)

/-! ### The start of an operation -/

/-- Two vitrine entries overlap, one of them a destination (R174). -/
def vitMeet (a b : VitEntry) : Bool :=
  a.ctx == b.ctx && (a.dst || b.dst) &&
    (match a.space.tgt, b.space.tgt with
      | .scr .., .scr .. => a.space.tgt == b.space.tgt && rangesMeet a.space.a a.len b.space.a b.len
      | .scr .., _ => false
      | _, .scr .. => false
      | _, _ => rangesMeet a.flat a.len b.flat b.len)

/-- Whether a scratchpad source has an absent line (R125). -/
def sourceAbsent (s : State) (p : Option PLoc) (n : Nat) : Bool :=
  match p with
  | some p => !(absentLines s p n).isEmpty
  | none => false

/-- An earlier operation of the cluster's engines whose ranges overlap is still there, in the queue or in the reservation table: the
one engine queue of R152 holds both (R174). -/
def opBlocked (k : Cluster) (id : Nat) : Bool :=
  let mine := k.vit.filter (fun v => v.op == id)
  k.vit.any (fun v => decide (v.op < id) && mine.any (vitMeet v))

/-- The sources of an operation of the queue are present. -/
def eqAbsent (s : State) (o : EqOp) : Bool :=
  match o.kind with
  | .copy d | .queue d _ _ _ =>
    (List.range d.rows).any (fun r => sourceAbsent s (o.src.map (fun p => locAdd p (r * d.spitch))) d.rbytes)
      || sourceAbsent s o.scl (sclSpan d)
  | .tld _ pitch _ _ => (List.range 64).any (fun r => sourceAbsent s (o.src.map (fun p => locAdd p (r * pitch))) 64)

/-- `ENGINE_QUEUE_START` (R170, R174): the operation may read its sources once the earlier operations of its lanes have bound or
performed at `CLUSTER` scope. -/
def queueStart (s : State) (n i : Nat) : State :=
  let k := getCluster s n
  match k.queue[i]? with
  | none => s
  | some o =>
    if o.started || paused s o.ctx || opBlocked k o.id || eqAbsent s o then s
    else
      let r := releaseAt s o.core o.ctx .cluster o.before
      if r.2 then putEq r.1 n { o with started := true } else r.1

def execEngineQueueStart (cluster i : Nat) (s : State) : Out := .next (queueStart s cluster i)

/-! ### The arbiter (R223) -/

/-- The unit that serves an operation. -/
def rtUnit : RtKind → Nat
  | .mma .. => 0
  | .gate .. => 1
  | .tst .. => 2

/-- Lines of scratchpad that a `GATE` wrote to be absent at its issue, and those it reads. -/
def gateLines (s : State) (o : RtOp) : List PLoc × List PLoc :=
  match o.kind with
  | .gate p st out _ =>
    let n := 256 * gateWidth p
    let rd := match st with
      | .scratch b off => rangeLines [(⟨.scr o.core b, off⟩, n)]
      | .carry _ => []
    let wr := match out with
      | some off => rangeLines [(⟨.scr o.core o.block, off⟩, n)]
      | none => []
    (rd, (rd ++ wr).eraseDups)
  | .tst f _ pitch _ => let _ := s; ([], rangeLines (rowRanges o.dst 64 pitch (tstRow f)))
  | .mma .. => ([], [])

/-- A source line of a `GATE` is present but for the write that the `GATE` itself still owes (R223). -/
def gatePresent (s : State) (o : RtOp) : Bool :=
  (gateLines s o).1.all (fun l => match l.tgt with
    | .scr c b => match getBlock s c b with
      | some k => decide (sget 0 k.absent l.a ≤ 2)
      | none => true
    | _ => true)

def rtEligible (s : State) (k : Cluster) (i : Nat) (o : RtOp) : Bool :=
  !o.started && !paused s o.ctx && !opBlocked k o.id && !(k.resv.take i).any (fun q => q.tile == o.tile) && gatePresent s o

/-- Whether an operation goes before another that entered later. -/
def rtBefore (a b : RtOp) : Bool :=
  let pa := a.post.isSome
  let pb := b.post.isSome
  let ua := decide (64 ≤ a.passes)
  let ub := decide (64 ≤ b.passes)
  if pa != pb then pa else if pa then true else if ua != ub then ua else if ua then true else decide (b.pri ≤ a.pri)

/-- The arbiter's choice among the eligible operations of a unit, oldest first. -/
def rtChoose : List RtOp → Option RtOp
  | [] => none
  | o :: os =>
    match rtChoose os with
    | none => some o
    | some b => if rtBefore o b then some o else some b

/-- `ENGINE_GRANT`: the arbiter starts an operation on its unit, if it is the one it selects; the matrix array runs one pass at a
time. (Log entry 40, DESIGN CHOICE, unsafe.) -/
def engineGrant (s : State) (n i : Nat) : State :=
  let k := getCluster s n
  match k.resv[i]? with
  | none => s
  | some o =>
    let u := rtUnit o.kind
    let el := (k.resv.zipIdx.filter (fun p => rtUnit p.1.kind == u && rtEligible s k p.2 p.1)).map (·.1)
    if (u == 0 && k.resv.any (fun q => rtUnit q.kind == 0 && q.started)) || (rtChoose el).map (·.id) != some o.id then s
    else
      -- a `TST` writes after the earlier accesses of its lanes, as a `GATE` does (R166, R170)
      let r := if u != 0 then releaseAt s o.core o.ctx .cluster o.before else (s, true)
      if !r.2 then r.1
      else
        let k := getCluster r.1 n
        setCluster r.1 n { k with resv := k.resv.map (fun q =>
          if q.id == o.id then { q with started := true }
          else if el.any (fun e => e.id == q.id) then { q with passes := q.passes + 1 } else q) }

def execEngineGrant (cluster i : Nat) (s : State) : Out := .next (engineGrant s cluster i)

/-! ### The operations of the reservation table -/

/-- The tile of an operation. -/
def opTile (s : State) (n : Nat) (o : RtOp) : FMap Word :=
  match fget (getCluster s n).tiles o.tile with
  | some t => t.vals
  | none => []

def setTileVals (s : State) (n : Nat) (o : RtOp) (v : FMap Word) : State :=
  let k := getCluster s n
  setCluster s n { k with tiles := fset k.tiles o.tile ⟨o.ctx, v⟩ }

/-- Elements j0 to j0 + n − 1 of a row as stored (R224). (Log entry 37, DEDUCED, unsafe.) -/
def storeElems (f : TstFmt) (md : FMode) (t : FMap Word) (row j0 : Nat) : Nat → List Byte × FFlags
  | 0 => ([], flagNone)
  | n + 1 =>
    let w := (tileAt t row j0).toNat
    let r := if f == .f32 then (w, flagNone) else opConvert md .f32 (tstFmt f) w
    let q := storeElems f md t row (j0 + 1) n
    (leBytes (tstRow f / 64) r.1 ++ q.1, r.2 ||| q.2)

/-- Elements first to first + n − 1 of the state tile: new state and output, from the old state's bytes (R227). -/
def gateElems (p : GateProg) (md : FMode) (t : FMap Word) (first : Nat) : Nat → List Byte → List Byte × List Byte × FFlags
  | 0, _ => ([], [], flagNone)
  | n + 1, bs =>
    let w := gateWidth p
    let r := gateStages p md (tileAt t (first / w)) (first % w) (BitVec.ofNat 32 (leNat (bs.take 4)))
    let q := gateElems p md t (first + 1) n (bs.drop 4)
    let out := match r.2 with
      | some y => leBytes 4 y.v ++ q.2.1
      | none => q.2.1
    (leBytes 4 r.1.v ++ q.1, out, r.1.fl ||| (match r.2 with | some y => y.fl | none => 0) ||| q.2.2)

/-- One piece of an operation of the table: a whole pass, 32 B of a stored row, or eight elements of a state tile. A `GATE` that reads
its state as +0 needs the rights of its page as any other (R352). -/
def rtPiece (n : Nat) (o : RtOp) (s : State) (k : Nat) : PieceRes :=
  let fl := fun (s : State) (f : FFlags) => engFlags s o.core o.fslot o.fage o.lane f
  let t := opTile s n o
  match o.kind with
  | .mma ta tb fa fb sa sb =>
    let r := mmaPass ta tb fa fb sa sb o.fmode t
    .ok (fl (setTileVals s n o r.1) r.2)
  | .tst f a pitch _ =>
    let per := tstRow f / 32
    let es := 32 / (tstRow f / 64)
    let r := storeElems f (fmodeOf o.fmode) t (k / per) (k % per * es) es
    pieceStop s (engRange s n o.ctx o.dst a (a + k / per * pitch + k % per * 32) 32 true) fun ps =>
      .ok (fl (engWritePlaces o.core n o.ctx ps r.1 (engWalked s n o.ctx o.dst (a + k / per * pitch + k % per * 32) 32)) r.2)
  | .gate p st out zero =>
    let base := match st with
      | .scratch _ off => off
      | .carry a => a
    let scr := match st with
      | .scratch b off => some (PLoc.mk (.scr o.core b) off)
      | .carry _ => none
    let src : Piece (List Byte × State) :=
      if zero then (match engRange s n o.ctx scr base (base + 32 * k) 32 false with
        | .ok _ => .ok (zeroBytes 32, s)
        | .fault f a w => .fault f a w
        | .poison g => .poison g)
      else engRead s n o.ctx scr base (base + 32 * k) 32
    pieceStop s src fun h =>
      pieceStop s (engRange h.2 n o.ctx scr base (base + 32 * k) 32 true) fun ps =>
        let r := gateElems p (gateMode o.fmode) t (8 * k) 8 h.1
        let s := engWritePlaces o.core n o.ctx ps r.1 h.2
        let s := match out with
          | some off => homeWrite s ⟨.scr o.core o.block, off + 32 * k⟩ r.2.1
          | none => s
        .ok (fl s r.2.2)

def rtTotal (o : RtOp) : Nat :=
  match o.kind with
  | .mma .. => 1
  | .tst f .. => 2 * tstRow f
  | .gate p .. => 8 * gateWidth p

/-- An operation of the table ends (R173, R217, R224): flags, vitrine, presence, the free option, and tiles that nothing names. -/
def endRt (s : State) (n : Nat) (o : RtOp) : State :=
  let s := landLines s (gateLines s o).2
  let k := getCluster s n
  let s := setCluster s n { k with resv := k.resv.filter (fun q => q.id != o.id), vit := k.vit.filter (fun v => v.op != o.id) }
  let s := o.flags.foldl (fun s f => flagDone s o.core o.slot o.age (some f)) s
  let s := match o.kind, groupOfAge s o.core o.slot o.age with
    | .tst _ _ _ (some t), some g =>
      if fget g.tiles t == some o.tile then setGroup s o.core o.slot { g with tiles := ferase g.tiles t } else s
    | _, _ => s
  sweepTiles s n

def runRt (s : State) (n : Nat) (o : RtOp) : State :=
  match runOpPieces s (rtPiece n o) (exitedRec s o.core o.slot o.age o.frec) o.ctx.wing 0 (rtTotal o) o.rest with
  | .poison s g => poisonKill (endRt s n o) o.ctx g
  | .failed s r => failAbort (endRt s n o) o.ctx o.win o.launch 0 r
  | .left s rest =>
    if rest.isEmpty then endRt s n o
    else
      let k := getCluster s n
      setCluster s n { k with resv := k.resv.map (fun q => if q.id == o.id then { q with rest := some rest } else q) }

/-- `ENGINE_OP_COMPLETE` (R173): the operation given, of the queue or, after those, of the table, has made all of its writes, but
for what faults hold. -/
def opComplete (s : State) (n i : Nat) : State :=
  let k := getCluster s n
  match k.queue[i]? with
  | some o => if o.started && !paused s o.ctx then runEq s n o else s
  | none =>
    match k.resv[i - k.queue.length]? with
    | some o => if o.started && !paused s o.ctx then runRt s n o else s
    | none => s

def execEngineOpComplete (cluster i : Nat) (s : State) : Out := .next (opComplete s cluster i)

/-! ### Tiles and places given out -/

/-- `TILE_ALLOCATE` (R216): a free tile goes to the first instruction that waits for one. -/
def tileAllocate (s : State) (n : Nat) : State :=
  let k := getCluster s n
  let s := setCluster s n { k with tileReqs := k.tileReqs.filter (liveReq s), tileGrants := k.tileGrants.filter (fun g => liveReq s g.1) }
  let k := getCluster s n
  match k.tileReqs.findSome? (fun r => if (ahead s (reqCtx s r) r k.tileReqs).isEmpty then (freeTile s n (reqCtx s r)).map (fun p => (r, p)) else none) with
  | none => s
  | some g => setCluster s n { k with tileReqs := k.tileReqs.erase g.1, tileGrants := k.tileGrants ++ [g] }

def execTileAllocate (cluster : Nat) (s : State) : Out :=
  let s := tileAllocate s cluster
  .next ((coresOf cluster).foldl (fun s c => (fkeys (getCore s c).blocks).foldl (fun s b => tryPosts s c b) s) s)

/-- `RESERVATION_ENTER` (R223): complete guestbooks post where there is room, and a place goes to the first instruction that waits
for one. -/
def reservationEnter (s : State) (n : Nat) : State :=
  let s := (coresOf n).foldl (fun s c => (fkeys (getCore s c).blocks).foldl (fun s b => tryPosts s c b) s) s
  let k := getCluster s n
  let k := { k with rtReqs := k.rtReqs.filter (liveReq s), rtGrants := k.rtGrants.filter (liveReq s) }
  match k.rtReqs with
  | r :: rs =>
    if seatsTaken s k < Config.reservationEntries then
      setCluster s n { k with rtReqs := rs, rtGrants := k.rtGrants ++ [r] }
    else setCluster s n k
  | [] => setCluster s n k

def execReservationEnter (cluster : Nat) (s : State) : Out := .next (reservationEnter s cluster)

end Sys2Proof.Machine
end

