-- ==== Sys2Proof/Machine/Issue.lean ====
section
/-!
DEFINITION. Issue: which entry a group picks and the checks at a clause header (R30, R32, R73, R76, R84, R285, R287), memory
tokens (R46), sides (R40), the locality cap (R45), the fetch of a clause's words, and the events that return a group from a
fill or into its handler.
-/
namespace Sys2Proof.Machine

/-! ### Decoding a clause (R76) -/

/-- The clause terminators (R28). -/
def isTerminator : Instr → Bool
  | .bra .. | .brc .. | .brz .. | .call .. | .ret | .jmpr .. | .exit | .yield | .mwait .. | .bar | .svc .. | .wsusp
  | .rftRestart .. | .rftGoto .. | .rftEnd => true
  | _ => false

/-- Instructions that need a `SETA` flag (R80). -/
def needsSeta : Instr → Bool
  | .copy .. | .copyQueue .. | .tld .. | .tst .. | .mma .. | .gate .. | .rpost .. => true
  | _ => false

/-- The instructions of a memory clause (R46). -/
def isMemory : Instr → Bool
  | .ld _ _ _ m | .st _ _ _ m | .lda _ _ m | .stl _ _ m => m.spc == Space.flat || m.spc == Space.host
  | .atom .. | .atom64 .. | .red .. => true
  | _ => false

/-- The instructions that access-processor code accepts (R138). -/
def apAccepts : Instr → Bool
  | .bra .. | .brc .. | .brz .. | .exit | .iadd .. | .isub .. | .imul .. | .imad .. | .imin .. | .imax .. | .iand .. | .ior ..
  | .ixor .. | .ishl .. | .ishr .. | .popc .. | .clz .. | .bfe .. | .bfi .. | .icmp .. | .icmpu .. | .sel .. | .iaddi ..
  | .iandi .. | .ishli .. | .ishri .. | .isari .. | .mov .. | .movi .. | .movl .. | .sread .. | .shape .. | .ld ..
  | .copyQueue .. | .fence .. | .fenceUnpin .. => true
  | _ => false

/-- The fields whose last-read bit a word sets (R60). -/
def lastReads : Instr → List Nat
  | .iadd _ r | .isub _ r | .imul _ r | .imad r | .imin _ r | .imax _ r | .iand r | .ior r | .ixor r | .ishl r | .ishr _ r
  | .bfe _ r | .bfi r | .icmp _ r | .icmpu _ r | .sel r => rels3 r
  | .popc r | .clz r | .iaddi _ r | .iandi _ r | .ishli _ r | .ishri _ r | .isari _ r | .mov r | .shape r => rels2 r
  | .brc l c _ | .brz l c _ => if l then [c.toNat] else []
  | .ld _ _ _ m => if m.lra then [m.a.toNat] else []
  | _ => []

/-- Whether an instruction word is illegal where it stands: `last` says it ends its clause. -/
def illegalHere (ap : Bool) (h : Header) (last : Bool) (ins : Instr) : Bool :=
  (isTerminator ins && !last) || (needsSeta ins && h.seta == none)
    || (if ap then !apAccepts ins || (lastReads ins).any (fun f => decide (120 ≤ f)) else match ins with | .copyQueue .. => true | _ => false)

/-- What the decode of a clause finds: the first offending word, or the instructions with their addresses. From a word whose fetch fails
on, the words are left to their own issue (R73). The first argument bounds the words. -/
def decodeClause (ap : Bool) (h : Header) : Nat → Pc → List (Option Word) → Except (Pc × Word) (List (Pc × Instr))
  | 0, _, _ => .ok []
  | _, _, [] => .ok []
  | _, _, none :: _ => .ok []
  | fuel + 1, pc, some w :: ws =>
    let lit := match ws with
      | [] => none
      | l :: _ => some (l.getD 0)
    match decodeWord w lit with
    | .error _ => .error (pc, w)
    | .ok ins =>
      let rest := ws.drop (ins.words - 1)
      if illegalHere ap h rest.isEmpty ins then .error (pc, w)
      else
        match decodeClause ap h fuel (pc + BitVec.ofNat 56 (4 * ins.words)) rest with
        | .error e => .error e
        | .ok is => .ok ((pc, ins) :: is)

/-- The words of a clause after its header, as a fetch would find them. -/
def clauseWords (s : State) (c : Nat) (x : Ctx) (hdr : Pc) (n : Nat) : List (Option Word) :=
  (List.range n).map (fun k => match peekWord s c x (hdr + BitVec.ofNat 56 (4 * (k + 1))) with
    | .word w => some w
    | .fail _ => none)

/-! ### Traps at a header (R276) -/

/-- The clause at a header whose words are not known. -/
def bareClause (hdr : Pc) : ClauseCtx :=
  { hdr := hdr, word := 0, begun := false, resumed := false, swz := false, lastQ := hdr, hvals := [], unseen := false, bad := false }

/-- A trap of an entry that is about to begin a clause. A decode trap at an instruction's word reports the shapes of its names (R71); one
at the header, where no instruction traps, reports none. (Log entry 83, DESIGN CHOICE, unsafe.) -/
def headerTrap (s : State) (c k : Nat) (g : Group) (e : Entry) (cause addr idx : Nat) (m : LaneSet) (stp dec : Bool) (w : Word) :
    State :=
  raiseTrap s c k { g with frontier := dropEntry g.frontier e } e
    { cause := cause, lanes := m, addr := addr, idx := idx, hdr := !dec, dec := dec, step := stp, pc := e.pc, word := w,
      shapes := if dec && addr != e.pc.toNat then shapesAt ⟨c, k, g, e, bareClause e.pc⟩ w else 0 }

/-- Headers whose fetch has been answered with a replay are fetched again: the entries take their priorities (R27, R73). -/
def fetchAgain (s : State) (c : Nat) (g : Group) : Group :=
  if g.frontier.all (fun e => e.fail != some .again) then g
  else { g with frontier := addEntries [] (g.frontier.map (fun e =>
    if e.fail != some .again then e
    else match peekWord s c g.id.ctx e.pc with
      | .word w => { e with pri := headerPri w, fail := none }
      | .fail f => { e with fail := some f })) }

/-- A failed fetch of a header, raised when its entry is selected: a trap, or a park for a replayable fault (R73, R304). -/
def headerFail (s : State) (c k : Nat) (g : Group) (e : Entry) (f : FetchFail) : State :=
  let a := e.pc.toNat
  let clr := { g with frontier := addEntry (dropEntry g.frontier e) { e with fail := some .again } }
  match f with
  | .again => s
  | .perm =>
    if isAp g then
      let fr := groupRecord 0x13 causePerm c g (lowLane e.lanes) a 3
      failAbort (addRecord s g.id.ctx.wing fr).2 g.id.ctx false g.id.launch a fr
    else headerTrap s c k g e causePerm a 0 e.lanes false false 0
  | .memerr =>
    if isAp g then poisonKill s g.id.ctx (physGranule s g.id.ctx a)
    else headerTrap s c k g e causeMemerr (a / 32 * 32) 0 e.lanes false false 0
  | .xlate f =>
    let fr := xlRecord (groupRecord (if isAp g then 0x13 else 0x10) 0 c g (lowLane e.lanes) a 3) f
    let r := addRecord s g.id.ctx.wing fr
    match f.replay, r.1 with
    | true, some id => setGroup r.2 c k { clr with gpark := .fault id e.lanes, token := false }
    | _, _ => if isAp g then failAbort r.2 g.id.ctx false g.id.launch a fr else headerTrap r.2 c k g e causeXlate a 0 e.lanes false false 0

/-! ### Whether a group may issue -/

/-- The wing runs the group's tenant and the device has not stopped (R262, R327). -/
def slotRuns (s : State) (x : Ctx) : Bool :=
  let w := getWing s x.wing
  !s.stopped && !s.booterr && w.running && w.curt.toNat == x.ten

/-- The running tenant's edge has asked for its halt (R265): soft, or at any clause boundary. -/
def edgeOf (s : State) (x : Ctx) : Option Edge :=
  match (getWing s x.wing).edge with
  | some e => if e.out == some x.ten then some e else none
  | none => none

/-- An entry that stands at a task boundary: it has yielded, or is about to begin a clause with `RGN` = 1 (R265). -/
def atTask (s : State) (c : Nat) (x : Ctx) (e : Entry) : Bool :=
  e.park != .none || (e.clause.isNone && (e.mark || (match peekWord s c x e.pc with
    | .word w => testBit w.toNat 1
    | .fail _ => false)))

/-- The entries that a pick chooses among. -/
def pickable (s : State) (c : Nat) (g : Group) : List Entry :=
  match edgeOf s g.id.ctx with
  | none => g.frontier
  | some e => if e.grace1 then [] else g.frontier.filter (fun x => !atTask s c g.id.ctx x)

/-- A busy flag that a header waits on (R32). -/
def waitBusy (g : Group) (w : Word) : Bool := (List.range 12).any (fun f => testBit w.toNat (20 + f) && flagCount g f != 0)

/-- A store of the group is held by a record that has been written (R310). -/
def heldStore (s : State) (c k : Nat) (g : Group) : Option Nat :=
  ((getCore s c).sb.filter (fun e => e.slot == k && e.age == g.id.age)).findSome? (fun e => match e.xl with
    | .held id => if (getWing s g.id.ctx.wing).faults.any (fun r => r.id == id && r.seq.isSome) then some id else none
    | _ => none)

/-! ### Memory tokens (R46) -/

def tokensHeld (q : Core) : Nat := (q.groups.filter (fun p => p.2.token)).length

/-- An entry is about to begin a memory clause: its header and words decode, and one of them is an instruction of R46. -/
def atMemory (s : State) (c : Nat) (g : Group) (e : Entry) : Bool :=
  !isAp g && e.clause.isNone && (match peekWord s c g.id.ctx e.pc with
    | .fail _ => false
    | .word w => !waitBusy g w && (match decodeHeader w with
      | none => false
      | some h =>
        match decodeClause false h 16 (e.pc + 4) (clauseWords s c g.id.ctx e.pc (headerLen w)) with
        | .ok ins => ins.any (fun p => isMemory p.2)
        | .error _ => false))

/-- A group waits for a token (R46): it could issue but for the token that its selected clause needs. -/
def wantsToken (s : State) (c : Nat) (g : Group) : Bool :=
  !g.token && g.active.isNone && g.gpark == .none && g.halt == .run && slotRuns s g.id.ctx &&
    (match selectEntry (pickable s c g) with
      | some e => atMemory s c g e
      | none => false)

/-- The older groups of a core that wait for a token. -/
def olderWaits (s : State) (c k : Nat) (g : Group) : Nat :=
  ((getCore s c).groups.filter (fun p => p.1 != k && decide (p.2.id.age < g.id.age) && wantsToken s c p.2)).length

/-- A free token is the group's to take: the cap leaves more than the tokens held and those of the older groups that wait (R46). (Log
entry 33, DEDUCED, safe.) -/
def tokenFree (s : State) (c k : Nat) (g : Group) : Bool :=
  decide (tokensHeld (getCore s c) < (getCore s c).cap)
    && decide (tokensHeld (getCore s c) + olderWaits s c k g < (getCore s c).cap)

/-- A group begins a memory clause with its token, or with one it takes; nothing where it can have none. -/
def takeToken (s : State) (c k : Nat) (g : Group) : Option Group :=
  if g.token then some { g with tokenLast := s.clock }
  else if tokenFree s c k g then some { g with token := true, tokenSince := s.clock, tokenLast := s.clock }
  else none

/-! ### The pick -/

/-- Lanes that begin a clause unmuted (R285); in a handler `RGN` is ignored (R271). -/
def unmuted (g : Group) (m : LaneSet) (w : Word) : LaneSet :=
  laneSetOf (fun l => hasLane m l && (let x := laneSt g l; !x.mute || (testBit w.toNat 1 && !x.fresh && !inHandler g)))

/-- The lowest enabled breakpoint at an address (R287). -/
def breakHit (s : State) (x : Ctx) (pc : Pc) : Option Nat :=
  match (getTenant s x).trap with
  | none => none
  | some d => (List.range 4).find? (fun j => d.bpen.getLsbD j && d.bpa[j]? == some pc.toNat)

/-- The slot that a side of a core issues from (R40), and the slots of a side. -/
def sideSlot (q : Core) (side : Bool) : Option Nat := if side then q.side1 else q.side0

def ofSide (side : Bool) (k : Nat) : Bool := decide (k < 64) && (decide (32 ≤ k) == side)

/-- A side of a core takes up a group; the group it leaves begins to wait now (R40). -/
def takeSide (s : State) (c k : Nat) : State :=
  let side := decide (32 ≤ k)
  let s := match sideSlot (getCore s c) side with
    | none => s
    | some j =>
      match getGroup s c j with
      | some g => if j == k then s else setGroup s c j { g with readyAt := s.clock }
      | none => s
  let q := getCore s c
  let s := if decide (k < 64) then setCore s c (if side then { q with side1 := some k } else { q with side0 := some k }) else s
  { s with focusCore := c, focusSlot := k }

/-- Give a group its active entry. -/
def activate (s : State) (c k : Nat) (g : Group) (e : Entry) : State := setGroup s c k { g with active := some e }

/-- The offsets from the header of the words that are a `QSWZ`, or may be one: those from a word on whose fetch fails. `at'` is the
offset reached, and the first argument bounds the words. -/
def swzOffsets : Nat → Nat → List (Option Word) → List Nat
  | 0, _, _ => []
  | _, _, [] => []
  | _, at', none :: ws => (List.range (ws.length + 1)).map (fun k => at' + 4 * k)
  | fuel + 1, at', some w :: ws =>
    match decodeWord w (some 0) with
    | .error _ => []
    | .ok ins =>
      (match ins with | .qswz .. => [at'] | _ => []) ++ swzOffsets fuel (at' + 4 * ins.words) (ws.drop (ins.words - 1))

/-- What the words of a clause say of its helper lanes (R26). -/
def setSwz (cc : ClauseCtx) (ws : List (Option Word)) : ClauseCtx :=
  let qs := swzOffsets 16 4 ws
  { cc with swz := !qs.isEmpty, lastQ := cc.hdr + BitVec.ofNat 56 (qs.foldl max 0), hvals := if qs.isEmpty then [] else cc.hvals }

/-- A clause that is about to begin, of the words found (R26, R76). -/
def newClause (hdr : Pc) (w : Word) (ws : List (Option Word)) : ClauseCtx :=
  setSwz { bareClause hdr with word := w, unseen := ws.any Option.isNone } ws

/-- An entry begins a clause at its header, whose word is `w`. -/
def beginHeader (s : State) (c k : Nat) (g : Group) (e : Entry) (w : Word) : State :=
  if waitBusy g w then s
  else
    let stp := laneSetOf (fun l => hasLane e.lanes l && !inHandler g && (laneSt g l).step && !(laneSt g l).fresh)
    let live := unmuted g e.lanes w
    match g.ovfq with
    | v :: vs =>
      headerTrap s c k { g with ovfq := vs } e causeOverflowq v.toNat 0 e.lanes false false w
    | [] =>
      if stp != 0 then
        headerTrap s c k (mapLanes g stp (fun _ x => { x with step := false })) e causeBreak 0 0 stp true false w
      else
        match if isAp g || live == 0 then none else breakHit s g.id.ctx e.pc with
        | some j => headerTrap s c k g e causeBreak e.pc.toNat j live false false w
        | none =>
          match decodeHeader w with
          | none => headerTrap s c k g e causeIllegal e.pc.toNat 0 e.lanes false true w
          | some h =>
            let ws := clauseWords s c g.id.ctx e.pc (headerLen w)
            match decodeClause (isAp g) h 16 (e.pc + 4) ws with
            | .error bad => headerTrap s c k g e causeIllegal bad.1.toNat 0 e.lanes false true bad.2
            | .ok ins =>
              let cc := newClause e.pc w ws
              let go := fun (g : Group) =>
                activate s c k { g with frontier := dropEntry g.frontier e } { e with pc := e.pc + 4, clause := some cc }
              if ins.any (fun p => isMemory p.2) && !isAp g then
                match takeToken s c k g with
                | some g => go g
                | none => s
              else go g

/-- `PICK` (R30): a group at a clause boundary selects an entry. One that stopped in the middle of a clause resumes there; any
other begins a clause at its header. Nothing happens where the group is parked, halted, in the middle of a clause, or has no
eligible entry. (Log entry 20, DEDUCED, unsafe.) -/
def pick (s : State) (c k : Nat) : State :=
  match getGroup s c k with
  | none => s
  | some g =>
    if g.active.isSome || g.gpark != .none || g.halt != .run || !slotRuns s g.id.ctx then s
    else
      match heldStore s c k g with
      | some id => setGroup s c k { g with gpark := .storeFault id, token := false }
      | none =>
        let g := fetchAgain s c g
        match selectEntry (pickable s c g) with
        | none => s
        | some e =>
          match e.clause with
          | some cc =>
            let h := { g with frontier := dropEntry g.frontier e }
            if cc.bad then illegal s ⟨c, k, h, e, cc⟩ e.lanes
            else activate s c k { g with frontier := dropEntry g.frontier e }
              { e with clause := some { cc with begun := false, resumed := true } }
          | none =>
            match e.fail with
            | some f => headerFail s c k g e f
            | none =>
              let r := fetchWord s c g.id.ctx e.pc
              match r.1 with
              | .fail f => headerFail r.2 c k g e f
              | .word w => beginHeader r.2 c k g e w

def execPick (core slot : Nat) (s : State) : Out := .next (pick s core slot)

/-! ### The fetch of a word within a clause -/

/-- What issue finds at the entry's word. -/
inductive Fetched where
  /-- The instruction that stands there. -/
  | ins (i : Instr) (s : State)
  /-- The fetch or the decode has trapped, parked or held the entry. -/
  | done (s : State)

/-- A failed fetch at a word of the clause (R73). -/
def wordFail (s : State) (i : Iss) (pc : Pc) (f : FetchFail) : State :=
  let i := beginClause s i
  match f with
  | .again => s
  | .perm =>
    let s := if isAp i.g then
        (addRecord s i.g.id.ctx.wing (groupRecord 0x13 causePerm i.core i.g (lowLane i.e.lanes) pc.toNat 3)).2
      else s
    trapWord s i causePerm i.e.lanes pc.toNat 0
  | .memerr => trapWord s i causeMemerr i.e.lanes (pc.toNat / 32 * 32) 0
  | .xlate f =>
    let fr := xlRecord (groupRecord (if isAp i.g then 0x13 else 0x10) 0 i.core i.g (lowLane i.e.lanes) pc.toNat 3) f
    let r := addRecord s i.g.id.ctx.wing fr
    match if f.replay then r.1 else none with
    | some id => parkGroup r.2 i (GPark.fault id i.e.lanes)
    | none =>
      if isAp i.g then failAbort r.2 i.g.id.ctx false i.g.id.launch i.e.pc.toNat fr
      else trapWord r.2 i causeXlate i.e.lanes pc.toNat 0

/-- Whether a word is legal where it stands. The decode of the clause has seen to that (R76), but for the words that it could not
fetch, which are checked here (R28). (Log entry 66, DEDUCED, unsafe.) -/
def legalWord (i : Iss) (ins : Instr) : Bool :=
  !i.cc.unseen || (match decodeHeader i.cc.word with
    | none => true
    | some h =>
      let fin := i.e.pc + BitVec.ofNat 56 (4 * ins.words)
      decide ((fin - i.cc.hdr).toNat ≤ (afterClause i.cc - i.cc.hdr).toNat) && !illegalHere (isAp i.g) h (fin == afterClause i.cc) ins)

/-- In a clause of which some words could not be fetched when it began, the words found now say which lanes help (R26). -/
def seeClause (s : State) (i : Iss) : State × Iss :=
  if !i.cc.unseen then (s, i)
  else
    let cc := setSwz i.cc (clauseWords s i.core i.g.id.ctx i.cc.hdr (headerLen i.cc.word))
    let g := { i.g with active := i.g.active.map (fun e => { e with clause := some cc }) }
    (setGroup s i.core i.slot g, { i with g := g, e := { i.e with clause := some cc }, cc := cc })

/-- Fetch and decode the word at which the issuing entry stands. -/
def fetchInstr (s : State) (i : Iss) : Fetched :=
  let v := seeClause s i
  let s := v.1
  let i := v.2
  let r := fetchWord s i.core i.g.id.ctx i.e.pc
  match r.1 with
  | .fail f => .done (wordFail r.2 i i.e.pc f)
  | .word w =>
    match decodeWord w (some 0) with
    | .error _ => .done (illegal r.2 (beginClause r.2 i) i.e.lanes)
    | .ok ins =>
      if !legalWord i ins then .done (illegal r.2 (beginClause r.2 i) i.e.lanes)
      else if ins.words == 1 then .ins ins r.2
      else
        let q := fetchWord r.2 i.core i.g.id.ctx (i.e.pc + 4)
        match q.1 with
        | .fail f => .done (wordFail q.2 i (i.e.pc + 4) f)
        | .word l =>
          match decodeWord w (some l) with
          | .error _ => .done (illegal q.2 (beginClause q.2 i) i.e.lanes)
          | .ok ins => .ins ins q.2

/-- Whether the selected entry keeps its place (R32): its clause has begun, or no eligible entry ranks above it. -/
def keepsPlace (s : State) (i : Iss) : Bool :=
  i.cc.begun || (match selectEntry (pickable s i.core i.g) with
    | none => true
    | some b => !ranksAbove b (if i.cc.resumed then i.e else { i.e with pc := i.cc.hdr }))

/-- The issuing entry as it merges with others: where its pick has not taken effect, as it stood in the pool (R29, R32). -/
def meeting (i : Iss) : Entry :=
  if i.cc.begun then { i.e with clause := some i.cc }
  else if i.cc.resumed then { i.e with clause := some { i.cc with begun := true } }
  else { i.e with pc := i.cc.hdr, clause := none }

/-- Another entry has come to stand where the issuing one does (R29). -/
def meets (i : Iss) : Bool := i.g.frontier.any (fun e => mergeable e (meeting i))

/-- The issuing entry merges with what stands where it does: in the pool, or where its clause has begun as the entry that goes on. -/
def joinActive (s : State) (i : Iss) : State :=
  if !i.cc.begun then holdWord s i
  else
    let es := i.g.frontier.filter (fun e => mergeable e (meeting i))
    setGroup s i.core i.slot { i.g with frontier := i.g.frontier.filter (fun e => !mergeable e (meeting i)),
                                        active := some (es.foldl mergeEntries (meeting i)) }

/-- What the slot at the focus has to issue: at a clause boundary a pick, within a clause its next word. -/
def nextInstr (s : State) : Fetched :=
  match getGroup s s.focusCore s.focusSlot with
  | none => .done s
  | some g =>
    if s.stopped || g.gpark != .none || g.halt != .run then .done s
    else
      match issuer s with
      | none => .ins (.pick s.focusCore s.focusSlot) s
      | some i =>
        if meets i then .done (joinActive s i) else if keepsPlace s i then fetchInstr s i else .done (holdWord s i)

/-! ### Names of a word, and tokens -/

/-- The names that a word reads or writes, by field, for the interlocks of R83. -/
def opFields : Instr → List Nat
  | .ret => [0, 1, 2]
  | .jmpr sa | .launch _ sa | .gbsign _ sa => [sa.toNat, sa.toNat + 1]
  | .mreadEnr _ d | .mreadArr _ d => [d.toNat, d.toNat + 1]
  | .sel r => [r.sa.toNat, r.sa.toNat + 1, r.sb.toNat, r.d.toNat]
  | .vote .ballot r => [r.sa.toNat, r.d.toNat, r.d.toNat + 1]
  | .ld w _ _ m | .st w _ _ m => addrFields m.spc m.a.toNat ++ fieldsFrom m.d.toNat (wordsFor (widthBytes w))
  | .pres m => addrFields m.spc m.a.toNat ++ [m.d.toNat]
  | .lda wide _ m | .stl wide _ m => addrFields m.spc m.a.toNat ++ fieldsFrom m.d.toNat (if wide then 2 else 1)
  | .atom _ sb sa d => [sa.toNat, sa.toNat + 1, sb.toNat, d.toNat]
  | .atom64 _ sb sa d => [sa.toNat, sa.toNat + 1, sb.toNat, sb.toNat + 1, d.toNat, d.toNat + 1]
  | .red _ _ _ _ _ sb sa | .fenceUnpin _ sb sa | .tst _ _ _ sb sa => [sa.toNat, sa.toNat + 1, sb.toNat]
  | .tld _ sb sa => [sa.toNat, sa.toNat + 1, sb.toNat, sb.toNat + 1]
  | .gate p _ sa => sa.toNat :: (match p with | .lstm o => [o.toNat] | _ => [])
  | .mma m => mmaFields m
  | .scan st k r => fieldsFrom r.sa.toNat 3 ++ (if st then [] else fieldsFrom r.sb.toNat (if k then 2 else 1)) ++ fieldsFrom r.d.toNat (if k then 4 else 2)
  | .send sb sa d => [sa.toNat, sb.toNat, sb.toNat + 1, d.toNat]
  | .rpost sa d => [sa.toNat, sa.toNat + 1, d.toNat, d.toNat + 1, d.toNat + 2]
  | .svc n sa d => fieldsFrom sa.toNat (n.toNat + 1) ++ [d.toNat, d.toNat + 1]
  | .strctlSetcarry sb sa => [sa.toNat, sb.toNat, sb.toNat + 1]
  | .rftGoto _ _ sa => [sa.toNat, sa.toNat + 1]
  | ins => let f := nameFields ins; f.1.toList ++ f.2.1.toList ++ f.2.2.toList

/-- The target cap of a lost-locality score (R45). (Log entry 64, DEDUCED, safe.) -/
def targetCap (score : Nat) : Nat :=
  if score ≤ 7 then 64 else if score ≤ 15 then 48 else if score ≤ 31 then 32 else if score ≤ 63 then 16
  else if score ≤ 127 then 8 else 4

/-- The rows of the table of R45, in order. -/
def capRows : List Nat := [64, 48, 32, 16, 8, 4]

/-- The row of a cap. -/
def capRow (cap : Nat) : Nat := (capRows.findIdx? (· == cap)).getD 0

/-- `LOCALITY_INTERVAL` (R45): the cap moves one row towards its target, and the interval's counts begin afresh. -/
def localityInterval (s : State) (c : Nat) : State :=
  let q := getCore s c
  let score := if q.l1Lookups == 0 then 0 else min 255 (256 * q.victimHits / q.l1Lookups)
  let cur := capRow q.cap
  let tgt := capRow (targetCap score)
  let row := if cur < tgt then cur + 1 else if tgt < cur then cur - 1 else cur
  setCore s c { q with cap := capRows.getD row 64, l1Lookups := 0, victimHits := 0 }

def execLocalityInterval (core : Nat) (s : State) : Out := .next (localityInterval s core)

/-- `TOKEN_IDLE_RELEASE` (R46): 256 cycles without a memory clause. -/
def execTokenIdleRelease (core slot : Nat) (s : State) : Out :=
  match getGroup s core slot with
  | some g =>
    if g.token && decide (g.tokenLast + 256 ≤ s.clock) then .next (setGroup s core slot { g with token := false }) else .next s
  | none => .next s

/-- `TOKEN_HOLD_RELEASE` (R46): 65,536 cycles while another group waits. -/
def execTokenHoldRelease (core slot : Nat) (s : State) : Out :=
  match getGroup s core slot with
  | some g =>
    if g.token && decide (g.tokenSince + 65536 ≤ s.clock) && (getCore s core).groups.any (fun p => p.1 != slot && wantsToken s core p.2) then
      .next (setGroup s core slot { g with token := false })
    else .next s
  | none => .next s

/-! ### Returns from a fill, and into the handler -/

/-- The lanes that issue. -/
def activeLanes (g : Group) : LaneSet :=
  match g.active with
  | some e => e.lanes
  | none => 0

/-- The names that the waiting word of a group names (R66). -/
def waitingNames (s : State) (c k : Nat) (g : Group) : List Nat :=
  match g.active with
  | none => []
  | some e =>
    match peekWord s c g.id.ctx e.pc with
    | .fail _ => []
    | .word w => (match decodeWord w (some 0) with
      | .ok ins => keepNames ⟨c, k, g, e, bareClause e.pc⟩ (opFields ins)
      | .error _ => [])

/-- Fill the names a group waits for, in turn, each with room made for it; `keep` are the names that its word names (R66, R67). -/
def fillAll (split : Bool) (c k : Nat) (m : LaneSet) (keep : List Nat) : List Nat → State → SpillRes
  | [], s => .ok s
  | n :: ns, s =>
    match fillName s c k n with
    | .error a => .cloak k a
    | .ok s =>
      match makeRoom split c k m (keep ++ n :: ns) 2048 s with
      | .ok s => fillAll split c k m keep ns s
      | r => r

/-- `CLOAK_FILL_COMPLETE` (R67): the fill completes and the group resumes. Without a slot for it the group stays parked; an
access that cannot complete traps `CLOAK` (R68), and poisoned data kills the context (R312). A group that waits for a slot goes on
once its names fit. -/
def cloakFill (s : State) (c k : Nat) : State :=
  match getGroup s c k with
  | none => s
  | some g =>
    match g.gpark with
    | .pool =>
      match makeRoom (splitWing s g.id.ctx.wing) c k (activeLanes g) (waitingNames s c k g) 2048 s with
      | .ok s => wakeGroup s c k
      | .noVictim => s
      | .cloak slot f => cloakTrap s c slot f
    | .fill ns =>
      match ns.findSome? (fun n => (fillPoison s c k n).map (fun _ => physGranule s g.id.ctx (g.id.cloak + 0x1000 + 256 * n))) with
      | some gr => poisonKill s g.id.ctx gr
      | none =>
        match fillAll (splitWing s g.id.ctx.wing) c k (activeLanes g) (waitingNames s c k g ++ ns) ns s with
        | .ok s => wakeGroup s c k
        | .noVictim => s
        | .cloak slot f => cloakTrap s c slot f
    | _ => s

def execCloakFillComplete (core slot : Nat) (s : State) : Out := .next (cloakFill s core slot)

/-- `TRAP_ENTRY` (R71, R281): the pool is free, and the first group in trap order enters its handler. -/
def execTrapEntry (core : Nat) (s : State) : Out := .next (enterNext s core)

end Sys2Proof.Machine
end

