-- ==== Sys2Proof/Machine/Messages.lean ====
section
/-!
DEFINITION. Forwarded registers and messages between cores (R233 to R238, R349, R387, R388, R395).
-/
namespace Sys2Proof.Machine

/-! ### The state of a context on a core -/

def MsgBox.empty (x : Ctx) : MsgBox := ⟨x, [], [], []⟩

def getBox (s : State) (c : Nat) (x : Ctx) : MsgBox := ((getCore s c).boxes.find? (fun b => b.ctx == x)).getD (MsgBox.empty x)

def setBox (s : State) (c : Nat) (b : MsgBox) : State :=
  let q := getCore s c
  if q.boxes.any (fun d => d.ctx == b.ctx) then setCore s c { q with boxes := q.boxes.map (fun d => if d.ctx == b.ctx then b else d) }
  else setCore s c { q with boxes := q.boxes ++ [b] }

/-! ### FWD and FRECV (R233, R234) -/

/-- A cluster is live (R18). -/
def liveCluster (s : State) (n : Nat) : Bool := s.liveClu.getLsbD n

/-- The next live core of a die's chain. -/
def nextCore (s : State) (c : Nat) : Nat :=
  let die := c / 96
  let live := ((List.range 96).map (fun j => die * 96 + j)).filter (fun k => liveCluster s (clusterOf k))
  match live.find? (fun k => decide (c < k)) with
  | some k => k
  | none => live.head?.getD c

/-- Whether a forwarded register is for a group's `LAUNCHID`: the window groups of a context all have 0xFFFF_FFFF (R191, R234). -/
def forwardFor (g : Group) (f : Forward) : Bool := f.win == isWindow g && (f.win || f.launch == g.id.launch)

/-- `FWD`: the value with its shape goes to the next core, where it takes a place in the inbox; without one the entry is held. -/
def execFwd (sa : Reg) (s : State) : Out :=
  runOp s [sa.toNat] [] fun i =>
    let nxt := nextCore s i.core
    if Config.inboxEntries ≤ (getBox s nxt i.g.id.ctx).inbox.length then .next (holdIssue s)
    else
      finishWith s (markNonRep i) [sa.toNat] [] [] 1 (fun s =>
        let b := getBox s nxt i.g.id.ctx
        setBox s nxt { b with inbox := b.inbox ++ [⟨i.g.id.launch, isWindow i.g, fieldVal i sa.toNat, false⟩] })

/-- `FRECV`: the oldest entry of the group's context and launch, or a park. A helper lane takes no part: its copy keeps the name's value
(R211; log entry 75, DEDUCED, unsafe). -/
def execFrecv (d : Reg) (s : State) : Out :=
  runOp s [] [d.toNat] fun i =>
    let b := getBox s i.core i.g.id.ctx
    match b.inbox.find? (fun f => f.arrived && forwardFor i.g f) with
    | none => .next (parkAt s i i.e.lanes .inbox)
    | some f =>
      finishWith s (markNonRep i) [] [] [⟨d.toNat, ownVals i d.toNat (shapedAt f.val), .general⟩] 1 (fun s =>
        setBox s i.core { b with inbox := b.inbox.erase f })

/-- The first entry of an inbox that is on its way has arrived. -/
def markArrived : List Forward → List Forward
  | [] => []
  | f :: fs => if f.arrived then f :: markArrived fs else { f with arrived := true } :: fs

/-- The lanes of a context on a core that wait at an empty inbox look again where it holds an entry for their group. -/
def wakeInbox (s : State) (c : Nat) (x : Ctx) : State :=
  (getCore s c).groups.foldl (fun s p =>
    if p.2.id.ctx == x && (allEntries p.2).any (fun e => e.park == .inbox)
        && (getBox s c x).inbox.any (fun f => f.arrived && forwardFor p.2 f) then
      setGroup s c p.1 (unpark p.2 (fun e => e.park == .inbox))
    else s) s

/-- `FWD_ARRIVAL`: the oldest register on its way to the core arrives, and the lanes that wait there look again. -/
def fwdArrival (s : State) (c : Nat) : State :=
  match (getCore s c).boxes.find? (fun b => b.inbox.any (fun f => !f.arrived)) with
  | none => s
  | some b => wakeInbox (setBox s c { b with inbox := markArrived b.inbox }) c b.ctx

def execFwdArrival (core : Nat) (s : State) : Out := .next (fwdArrival s core)

/-! ### SEND (R235, R395) -/

/-- The narrowest scope that includes a destination core (R168). -/
def sendScope (c dst : Nat) (peer : Bool) : Scope :=
  if peer then .system else if c == dst then .core else if clusterOf c == clusterOf dst then .cluster else .device

/-- The source of a message, laid out as in R235. -/
def sourceWord (c : Nat) (port : Option Nat) : Word :=
  match port with
  | some p => bw (p * 2 ^ 13 + 2 ^ 12 + c)
  | none => bw c

/-- Whether a control pair is legal. -/
def sendLegal (a b : Nat) : Bool :=
  bitsOf a 15 9 == 0 && bitsOf b 11 9 == 0 && bitsOf b 31 16 == 0 && decide (1 ≤ bitsOf b 8 0) && decide (bitsOf b 8 0 ≤ 256)
    && decide (bitsOf a 8 0 < Config.numCores)

/-- Names that a message will write, as they are allocated at issue: what they held stands until it comes, and the helper lanes, which
take no part, keep it (R59, R211; log entry 75, DEDUCED, unsafe). -/
def owedDests (i : Iss) (fs : List Nat) (uni : Bool) : List Dest :=
  fs.map (fun f => ⟨f, ownVals i f (fun l => readLane i l f), if uni then .uniform else .general⟩)

/-- `SEND` (R395): the payload and the pair are captured, and the status comes when the message has arrived; helper lanes take no part. -/
def execSend (sb sa d : Reg) (s : State) : Out :=
  let srcs := [sa.toNat, sb.toNat, sb.toNat + 1]
  runOp s srcs [d.toNat] fun i =>
    let l := lowLane i.e.lanes
    let a := (readLane i l sb.toNat).toNat
    let b := (readLane i l (sb.toNat + 1)).toNat
    let dst := bitsOf a 8 0
    let peer := testBit b 12
    let port := bitsOf b 15 13
    if !sendLegal a b then .next (illegal s i i.e.lanes)
    else if !peer && !(liveCluster s (clusterOf dst) && (getWing s i.g.id.ctx.wing).wclu.getLsbD (clusterOf dst)) then
      .next (trapWord s i causePerm i.e.lanes 0 0)
    else
      let r := releaseAt s i.core i.g.id.ctx (sendScope i.core dst peer) (getCore s i.core).seq
      if !r.2 then .next (holdIssue r.1)
      else
        let full := fullMask i
        let msg : Msg := ⟨bitsOf a 31 16, sourceWord i.core none, bitsOf b 8 0, (List.range 64).map (shapedAt (fieldVal i sa.toNat))⟩
        let down := peer && !(sget Port.reset s.ports port).jup
        let i := refresh r.1 i
        finishWith r.1 (markNonRep i) srcs [] (owedDests i [d.toNat] full) 1 (fun s =>
          let s := awaitNames i [] [d.toNat] s
          let s := match getGroup s i.core i.slot with
            | some g => setGroup s i.core i.slot (flagUp g (flagB i.cc))
            | none => s
          let q := getCore s i.core
          setCore s i.core { q with sends := q.sends ++ [
            { id := q.seq, ctx := i.g.id.ctx, slot := i.slot, age := i.g.id.age, lanes := i.e.lanes, full := full,
              dests := (lanesOf i.e.lanes).filterMap (fun l => (nameIx i.g l d.toNat).map (fun n => (l, n))), flag := flagB i.cc,
              port := if peer then some port else none, dst := dst, msg := msg, status := if down then some 1 else none }] })

/-! ### Matching (R236, R237, R388) -/

/-- A message is compatible with a posted receive (R387). -/
def compatible (p : Posted) (m : Msg) : Bool := (p.anyTag || p.tag == m.tag) && (p.anySrc || p.src == m.src)

/-- Payload word l of a message: bytes at or beyond n are 0. -/
def payloadWord (m : Msg) (l : Nat) : Word :=
  let k := min 4 (m.n - 4 * l)
  BitVec.ofNat 32 ((m.words.getD l 0).toNat % 2 ^ (8 * k))

/-- What a receive writes in a lane. -/
def receiveWords (m : Msg) (l : Nat) : List Word := [payloadWord m l, bw (m.tag * 2 ^ 16 + m.n), m.src]

/-- The scope at which a receive acquires (R168). -/
def receiveScope (c : Nat) (m : Msg) : Scope := sendScope (bitsOf m.src.toNat 8 0) c (testBit m.src.toNat 12)

/-- A posted receive has matched: its names are written, its flag clears, its lanes return. -/
def matchPosted (s : State) (c : Nat) (x : Ctx) (p : Posted) (m : Msg) : State :=
  let b := getBox s c x
  let s := setBox s c { b with posted := b.posted.filter (fun q => q.id != p.id) }
  let use := (getCore s c).seq
  let s := match groupOfAge s c p.slot p.age with
    | none => s
    | some g => stateOf (fillFirst c p.slot (partNames g p.dests) s)
  let s := match groupOfAge s c p.slot p.age with
    | none => s
    | some g =>
      let h := p.dests.foldl (fun g d => ((d.2.zip (receiveWords m d.1))).foldl (fun g w => setElem g w.1 d.1 w.2 use) g) g
      let h := dropTags h (p.dests.flatMap (·.2))
      engineRoom (putNames s c p.slot g (unpark (flagDown h p.flag) (fun e => e.park == .receive p.id))) c p.slot
  invalidateAt s c x (receiveScope c m)

/-- The oldest resident group of a context on a core. -/
def oldestGroup (s : State) (c : Nat) (x : Ctx) : Option (Nat × Group) :=
  ((getCore s c).groups.filter (fun p => p.2.id.ctx == x && !isAp p.2)).foldl (fun b p => match b with
    | none => some p
    | some r => if p.2.id.age < r.2.id.age then some p else b) none

/-- A message reaches a core's message port: matched, queued, or dropped with its `OVERFLOWQ` event. The result is its status. -/
def deliverMsg (s : State) (c : Nat) (x : Ctx) (m : Msg) : Word × State :=
  let b := getBox s c x
  match b.posted.find? (fun p => compatible p m) with
  | some p => (0, matchPosted s c x p m)
  | none =>
    if b.overflow.length < Config.overflowEntries then (0, setBox s c { b with overflow := b.overflow ++ [m] })
    else
      let v := bw (m.tag * 2 ^ 16 + m.src.toNat % 2 ^ 16)
      match oldestGroup s c x with
      | some p => (1, setGroup s c p.1 { p.2 with ovfq := p.2.ovfq ++ [v] })
      | none => (1, (addRecord s x.wing { FaultRec.blank 0x24 0 x.ten with addr := v.toNat }).2)

/-- A wing runs a context's tenant. -/
def contextRuns (s : State) (x : Ctx) : Bool :=
  let w := getWing s x.wing
  !s.stopped && !s.booterr && w.running && w.curt.toNat == x.ten

/-- An earlier send of a core to the same destination has not arrived (R395). (Log entry 42, DEDUCED, unsafe.) -/
def sendBlocked (os : List SendOp) (o : SendOp) : Bool :=
  (os.takeWhile (fun q => q.id != o.id)).any (fun q => q.status.isNone &&
    (match q.port, o.port with
      | some a, some b => a == b
      | none, none => q.dst == o.dst
      | _, _ => false))

/-- `MESSAGE_ARRIVAL`: a send of a core reaches its destination. A message for another device leaves through its port, and that
device answers. -/
def messageArrival (s : State) (c i : Nat) : State :=
  let q := getCore s c
  match q.sends[i]? with
  | none => s
  | some o =>
    if o.status.isSome || sendBlocked q.sends o then s
    else
      let r : Option (Word × State) := match o.port with
        | some p =>
          -- the link may have gone down since the message was sent (R321)
          if !(sget Port.reset s.ports p).jup then some (1, s)
          else
          let ch := choose s 2
          some (bw ch.1, { ch.2 with peerMsgs := sset [] ch.2.peerMsgs p (sget [] ch.2.peerMsgs p ++ [o.msg]) })
        | none => if contextRuns s o.ctx then some (deliverMsg s o.dst o.ctx o.msg) else none
      match r with
      | none => s
      | some r =>
        let q := getCore r.2 c
        setCore r.2 c { q with sends := q.sends.map (fun p => if p.id == o.id then { p with status := some r.1 } else p) }

def execMessageArrival (core i : Nat) (s : State) : Out := .next (messageArrival s core i)

/-- `SEND_COMPLETE`: the status is written and the flag clears. -/
def sendComplete (s : State) (c i : Nat) : State :=
  let q := getCore s c
  match q.sends[i]? with
  | none => s
  | some o =>
    match o.status with
    | none => s
    | some v =>
      let s := setCore s c { q with sends := q.sends.filter (fun p => p.id != o.id) }
      let s := match groupOfAge s c o.slot o.age with
        | none => s
        | some g =>
          let s := if o.full then s else stateOf (fillFirst c o.slot (partNames g (o.dests.map (fun d => (d.1, [d.2])))) s)
          match groupOfAge s c o.slot o.age with
          | none => s
          | some g =>
            let h := o.dests.foldl (fun g d =>
              if o.full then setName g d.2 ⟨.uniform v, false, q.seq⟩ else setElem g d.2 d.1 v q.seq) g
            engineRoom (putNames s c o.slot g (dropTags h (o.dests.map (·.2)))) c o.slot
      flagDone s c o.slot o.age o.flag

def execSendComplete (core i : Nat) (s : State) : Out := .next (sendComplete s core i)

/-! ### RPOST (R236, R387) -/

/-- Whether the pair of an `RPOST` is legal. -/
def rpostLegal (a b : Nat) : Bool :=
  bitsOf a 15 9 == 0 && bitsOf b 11 2 == 0 && bitsOf b 31 16 == 0 && decide (bitsOf a 8 0 < Config.numCores)

/-- `RPOST` (R387): a message that has come is taken at once, and else the receive is posted. Helper lanes take no part: their copies keep
the names' values in both cases (R211; log entry 75, DEDUCED, unsafe). -/
def execRpost (sa d : Reg) (s : State) : Out :=
  let srcs := [sa.toNat, sa.toNat + 1]
  let ds := fieldsFrom d.toNat 3
  runOutside s srcs ds fun i =>
    let l := lowLane i.e.lanes
    let a := (readLane i l sa.toNat).toNat
    let b := (readLane i l (sa.toNat + 1)).toNat
    if !rpostLegal a b then .next (illegal s i i.e.lanes)
    else
      let x := i.g.id.ctx
      let p : Posted :=
        { id := 0, slot := i.slot, age := i.g.id.age, lanes := i.e.lanes,
          dests := (lanesOf i.e.lanes).map (fun l => (l, destNames i l d.toNat 3)), tag := bitsOf a 31 16,
          src := bw (bitsOf b 15 13 * 2 ^ 13 + bitsOf b 12 12 * 2 ^ 12 + bitsOf a 8 0), anyTag := testBit b 0, anySrc := testBit b 1,
          flag := flagA i.cc }
      let q := getBox s i.core x
      match q.overflow.find? (compatible p) with
      | some m =>
        let val := fun (k : Nat) => ownVals i (d.toNat + k) (fun l => (receiveWords m l).getD k 0)
        finishWith s (markNonRep i) srcs [] ((List.range 3).map (fun k => ⟨d.toNat + k, val k, .general⟩)) 1 (fun s =>
          invalidateAt (setBox s i.core { q with overflow := q.overflow.erase m }) i.core x (receiveScope i.core m))
      | none =>
        if Config.postedEntries ≤ q.posted.length then .next (holdIssue s)
        else
          finishWith s (markNonRep i) srcs [] (owedDests i ds false) 1 (fun s =>
            let s := awaitNames i [] ds s
            let s := match getGroup s i.core i.slot with
              | some g => setGroup s i.core i.slot (flagUp g p.flag)
              | none => s
            setBox s i.core { q with posted := q.posted ++ [{ p with id := (getCore s i.core).seq }] })

/-- Lanes that wait for a receive that is no longer posted look again (R388). -/
def wakeReceives (s : State) (c : Nat) : State :=
  let ids := ((getCore s c).boxes.flatMap (·.posted)).map (·.id)
  (getCore s c).groups.foldl (fun s p =>
    let gone := fun (e : Entry) => match e.park with
      | .receive id => !ids.contains id
      | _ => false
    if (allEntries p.2).any gone then setGroup s c p.1 (unpark p.2 gone) else s) s

end Sys2Proof.Machine
end

