-- ==== Sys2Proof/Machine/Rooms.lean ====
section
/-!
DEFINITION. Room on a core for a block or a window group (R12, R63, R64, R251, R264), what a waiting gang reserves and the passes
it bears (R252, R253), the cloakroom image of a group (R69, R295), and the end of lanes (R36, R136, R200, R340).
-/
namespace Sys2Proof.Machine

/-! ### Room (R251) -/

/-- Group slots of a half (R264). -/
def halfSlots (h : Nat) : List Nat := (List.range Config.numSlots).filter (fun k => k / 16 % 2 == h % 2)

def slotRange (s : State) (x : Ctx) : List Nat :=
  if splitWing s x.wing then halfSlots (getTenant s x).half else List.range Config.numSlots

def freeSlots (s : State) (c : Nat) (x : Ctx) : List Nat := (slotRange s x).filter (fun k => (getGroup s c k).isNone)

/-- What a block asks of a core. -/
structure Need where
  groups : Nat
  minRegs : Nat
  scratch : Nat
  /-- The launch whose access processor it needs. -/
  ap : Option Nat
  deriving DecidableEq, Repr

/-- Minimums of the groups of a context on a core (R64). -/
def minSum (q : Core) (x : Ctx) : Nat :=
  q.groups.foldl (fun a p => if p.2.id.ctx == x && !isAp p.2 then a + p.2.id.minRegs else a) 0

def coreScratch : Nat := 327680

/-- The access processor of a core is idle or serves the launch. -/
def apFree (q : Core) (x : Ctx) (n : Nat) : Bool :=
  match q.apq with
  | none => true
  | some a => a.ctx == x && a.launch == n

/-- All of the needs given fit on a core together. -/
def roomFits (s : State) (c : Nat) (x : Ctx) (ns : List Need) : Bool :=
  let q := getCore s c
  let room := poolRoom (splitWing s x.wing)
  let mins := minSum q x + ns.foldl (fun a n => a + n.groups * n.minRegs) 0
  let aps := (ns.filterMap (·.ap)).eraseDups
  decide (ns.foldl (fun a n => a + n.groups) 0 ≤ (freeSlots s c x).length) && decide (mins ≤ room.2) && decide (4 * mins ≤ room.1)
    && decide (scratchUsed q + ns.foldl (fun a n => a + n.scratch) 0 ≤ coreScratch)
    && decide (aps.length ≤ 1) && aps.all (apFree q x)

/-- What a block of a launch needs. -/
def launchNeed (n : Nat) (l : Launch) : Need := ⟨l.groups, l.minRegs, l.scratch, if l.ap.isSome then some n else none⟩

/-- Key of a context's waiting gang at a cluster. -/
def waitKey (x : Ctx) (cl : Nat) : Nat := 128 * x.ten + cl

/-- The gang of a context that waits at the cluster of a core and still needs the core (R252). -/
def gangNeeding (s : State) (x : Ctx) (c : Nat) : Option WaitGang :=
  match fget (getWing s x.wing).waiting (waitKey x (clusterOf c)) with
  | none => none
  | some g =>
    match getLaunch s x g.launch with
    | none => none
    | some l => if decide (c % 4 < l.blocks) && !g.placed.contains (c % 4) then some g else none

/-- Cloakroom areas left for a block. -/
def areasLeft (l : Launch) : Bool := decide (l.cloakUsed.length + l.groups ≤ l.cloakN)

/-- A core is closed to everything but the gang that waits at its cluster (R253): the gang still needed it at its fourth pass. -/
def closedTo (s : State) (c : Nat) (x : Ctx) (mine : Option (Nat × Nat)) : Bool :=
  match fget (getWing s x.wing).waiting (waitKey x (clusterOf c)) with
  | none => false
  | some g => g.closed.contains (c % 4) && mine != some (g.launch, g.gang)

/-- Whether something may be placed on a core now, `mine` being the gang it belongs to, by launch and number: not in room that a
waiting gang reserves, and not on a core that the gang's fourth pass has closed (R252, R253). -/
def mayPlace (s : State) (c : Nat) (x : Ctx) (n : Need) (mine : Option (Nat × Nat)) : Bool :=
  !closedTo s c x mine &&
  (match gangNeeding s x c with
  | none => roomFits s c x [n]
  | some g =>
    if mine == some (g.launch, g.gang) then roomFits s c x [n]
    else
      match getLaunch s x g.launch with
      | none => roomFits s c x [n]
      | some l =>
        let r := launchNeed g.launch l
        if areasLeft l && roomFits s c x [r] then roomFits s c x [n, r] else roomFits s c x [n])

/-- The cores of its cluster that a waiting gang still needs. -/
def stillNeeds (s : State) (g : WaitGang) : List Nat :=
  match getLaunch s g.ctx g.launch with
  | some l => (List.range l.blocks).filter (fun b => !g.placed.contains b)
  | none => []

/-- Something has been placed on a core: a pass of the gang that waits for it (R253). (Log entry 49, DEDUCED, unsafe.) -/
def countPass (s : State) (c : Nat) (x : Ctx) (mine : Option (Nat × Nat)) : State :=
  match gangNeeding s x c with
  | none => s
  | some g =>
    if mine == some (g.launch, g.gang) then s
    else
      let w := getWing s x.wing
      let g := { g with passes := g.passes + 1, closed := if 4 ≤ g.passes + 1 then stillNeeds s g else [] }
      setWing s x.wing { w with waiting := fset w.waiting (waitKey x (clusterOf c)) g }

/-- A block's scratchpad is allocated: zero, every line present (R123); the L1 gives up the lines in that room (R251), and the code
words that the core keeps go, since what starts now runs what its homes hold (R78). The block's key on its core. -/
def addBlock (s : State) (c : Nat) (b : Block) : Nat × State :=
  let q := getCore s c
  (q.seq, dropCode (setCore s c (l1Fit { q with seq := q.seq + 1, blocks := fset q.blocks q.seq b })) c)

/-- Put a new group into the lowest free slot that its half allows (R254); its slot. -/
def addGroup (s : State) (c : Nat) (g : Group) : Option (Nat × State) :=
  match freeSlots s c g.id.ctx with
  | [] => none
  | k :: _ =>
    let q := getCore s c
    let g := { g with id := { g.id with age := q.seq }, readyAt := s.clock }
    some (k, setGroup (setCore s c { q with seq := q.seq + 1 }) c k g)

/-- A group with nothing in it yet (R254). (Log entry 7, DESIGN CHOICE, unsafe.) -/
def freshGroup (kind : GKind) (id : GroupId) (live : LaneSet) (pc : Pc) : Group :=
  { kind := kind, id := id, live := live, lanes := (lanesOf live).map (fun l => (l, LaneSt.start pc)), names := [], tags := [], frontier := [],
    active := none, markers := [], flags := [], scales := [], tiles := [], rgnCnt := 0, gpark := .none, handler := none,
    traps := TrapRegs.zero, pendTrap := none, svc := none, halt := .run, readyAt := 0, waits := false, token := false,
    tokenSince := 0, tokenLast := 0, wemit := 0, ovfq := [] }

/-! ### The image of a group in its cloakroom area (R65, R69, R72, R295) -/

/-- The number of a park reason (R295): the rows of R48 from 1. -/
def parkCode : Park → Nat
  | .none => 0 | .marker _ => 1 | .bar => 2 | .absent _ => 3 | .emptyQueue _ => 4 | .inbox => 5 | .receive _ => 6
  | .guestbook .. => 7 | .resting => 14

def entryImage (e : Entry) : List Byte :=
  leBytes 8 e.lanes.toNat ++ leBytes 8 e.pc.toNat ++ leBytes 2 e.pass ++ leBytes 1 e.pri ++ leBytes 1 (parkCode e.park)
    ++ leBytes 1 (1 + (if e.mark then 2 else 0)) ++ zeroBytes 3

/-- The entries of a group that its image holds: those of its frontier, those set aside for its handler, one that waits for the trap pool, and
one that waits for a service call (R295). -/
def imageEntries (g : Group) : List Entry :=
  allEntries g ++ g.pendTrap.toList.map (·.entry) ++ g.svc.toList.map (·.entry)

/-- The group state at offset 0x0180 of its area (R295). -/
def groupImage (g : Group) (halted : Bool) : List Byte :=
  let es := imageEntries g
  let b := fun (p : Bool) (n : Nat) => if p then n else 0
  leBytes 4 es.length ++ leBytes 4 g.rgnCnt.toNat ++ leBytes 4 (b (inHandler g) 1 + b g.svc.isSome 2 + b halted 4)
    ++ leBytes 4 (match g.svc with | some v => (v.seq.getD 0).toNat | none => 0)
    ++ leBytes 8 g.live.toNat ++ leBytes 8 g.wemit.toNat ++ zeroBytes 32
    ++ ((es.take 64).flatMap entryImage ++ zeroBytes (24 * (64 - es.length)))
    ++ (List.range 12).flatMap (fun k => leBytes 8 (getMarker g k).enr.toNat ++ leBytes 8 (getMarker g k).arr.toNat)
    ++ (List.range 64).flatMap (fun l => leBytes 4 (laneSt g l).wb.toNat)
    ++ (List.range 64).flatMap (fun l => leBytes 4 (laneSt g l).fmode.toNat ++ leBytes 4 (laneSt g l).fstat.toNat)
    ++ (List.range 64).flatMap (fun l => leBytes 8 (laneSt g l).rgnPc.toNat ++ leBytes 4 (laneSt g l).rgnCnt.toNat
        ++ leBytes 4 (b (laneSt g l).nonRep 1))
    ++ zeroBytes 128

/-- Spill the names given, one after the other; the access that fails otherwise. -/
def spillNames (c k : Nat) : List Nat → State → Except CloakErr State
  | [], s => .ok s
  | n :: ns, s =>
    match spillName s c k n with
    | .error a => .error a
    | .ok s => spillNames c k ns s

/-- Both maps of a group in whole: the tag map and the spilled map (R65, R72). -/
def mapsImage (g : Group) : List Byte := (List.range 256).map (tagByte g) ++ (List.range 128).map (spillByte g)

/-- Spill every allocated name of a group, and write its maps and its state to its area (R69, R72, R295); the access that fails
otherwise (R68). -/
def spillGroup (s : State) (c k : Nat) (halted : Bool) : Except CloakErr State :=
  match getGroup s c k with
  | none => .ok s
  | some g =>
    match spillNames c k ((g.names.filter (fun p => !p.2.spilled)).map (·.1)) s with
    | .error a => .error a
    | .ok s => cloakWrite s g.id.ctx g.id.cloak (mapsImage ((getGroup s c k).getD g) ++ groupImage g halted) false

/-! ### The end of lanes -/

/-- The window of a lane, in a window group. -/
def laneWindow (g : Group) (l : Nat) : Option LaneWin := (laneSt g l).win

/-- Lanes leave a group's entries, wherever these stand. -/
def dropLanes (g : Group) (m : LaneSet) : Group :=
  let g := mapEntries g (fun fr => removeLanes fr m)
  { g with active := match g.active with
      | some e => if e.lanes &&& ~~~m == 0 then none else some { e with lanes := e.lanes &&& ~~~m }
      | none => none }

/-- The marker step of R36 on all twelve markers. -/
def leaveMarkers (g : Group) (m : LaneSet) : Group := (List.range Config.numMarkers).foldl (leaveMarker m) g

/-- Lanes of a group cease to be live (R24, R25), with the guestbooks, receives and the barrier that this bears on (R340, R332,
R388). -/
def retireLanes (s : State) (c k : Nat) (m : LaneSet) : State :=
  match getGroup s c k with
  | none => s
  | some g =>
    let g := dropLanes (leaveMarkers g m) m
    let live := g.live &&& ~~~m
    let g := { g with live := live, lanes := if isWindow g then g.lanes.filter (fun p => !hasLane m p.1) else g.lanes }
    let s := setGroup s c k g
    if isAp g then (if live == 0 then stopAp s c else s)
    else
      let s := strikeLanes s c k g.id.blockKey m
      let s := wakeReceives (prunePosted s c k g.id.age live) c
      let s := barrierCheck s c g.id.blockKey
      if live == 0 then
        let s := endGroup s c k
        tryPosts s c g.id.blockKey
      else s

end Sys2Proof.Machine
end

