-- ==== Sys2Proof/Machine/Windows.lean ====
section
/-!
DEFINITION. The window engine's parts (R182 to R206): a stream's entry and arming, its memory accesses (R304, R312), its directory,
window groups and lanes, cast-on, stash and re-cast, deliveries, commits and bind-off.
-/
namespace Sys2Proof.Machine

/-! ### Device accesses of a context -/

/-- An acquire at `DEVICE` by a unit outside the cores: releases that were the units' last writes are promoted (R169). False where one
cannot be yet. -/
def devAcquire (s : State) (x : Ctx) (va n : Nat) : State × Bool :=
  (granulesOf va n).foldl (fun (r : State × Bool) a => match walk r.1 x a with
    | .ok e => let q := promote r.1 (4 * Config.numClusters) x (placeOf e a); (q.1, r.2 && q.2)
    | .error _ => r) (s, true)

/-- Saturating increment of a 32-bit counter. (Log entry 46, DEDUCED, unsafe.) -/
def bump (v : Word) : Word := if v == BitVec.allOnes 32 then v else v + 1

/-! ### The stream's own state -/

/-- The tenant runs and no slot edge has frozen its queues (R206). -/
def serving (s : State) (x : Ctx) : Bool := contextRuns s x && (edgeOf s x).isNone

/-! ### The entry and its arming (R182, R183) -/

/-- A stream's entry as its bytes hold it. -/
def streamCfg (bs : List Byte) : StreamCfg :=
  let w := fun (o : Nat) => fieldAt bs o 4
  let d := fun (o : Nat) => fieldAt bs o 8
  { ring := d 0, taila := d 8, ordered := testBit (w 0x10) 31, kind := bitsOf (w 0x10) 30 29, pane := testBit (w 0x10) 28,
    fold := bitsOf (w 0x10) 27 25, rsize := 16 * (bitsOf (w 0x10) 24 21 + 1), ringlog := bitsOf (w 0x10) 20 16,
    keyoff := bitsOf (w 0x14) 31 16, foldoff := bitsOf (w 0x14) 15 0, wlen := d 0x18, wstep := d 0x20, wgap := d 0x28,
    code := d 0x30, entries := [w 0x38, w 0x3C, w 0x40, w 0x44, w 0x48], minregs := bitsOf (w 0x4C) 31 25,
    scr := bitsOf (w 0x4C) 24 23, clu := bitsOf (w 0x4C) 22 16, outv := testBit (w 0x4C) 15, out := bitsOf (w 0x4C) 13 0,
    stash := d 0x50, dir := d 0x58, wgmax := bitsOf (w 0x68) 21 16, statesz := bitsOf (w 0x68) 10 0, stashn := w 0x6C,
    dirn := w 0x70, idle := w 0x74 }

def kindCount : Nat := 0
def kindTime : Nat := 1
def kindGap : Nat := 2
def kindNone : Nat := 3

/-- Reserved fields of an entry are zero. -/
def streamReserved (bs : List Byte) : Bool :=
  bitsOf (fieldAt bs 0x10 4) 15 0 == 0 && !testBit (fieldAt bs 0x4C 4) 14 && bitsOf (fieldAt bs 0x68 4) 30 22 == 0
    && bitsOf (fieldAt bs 0x68 4) 15 11 == 0 && bitsOf (fieldAt bs 0x7C 4) 25 0 == 0

/-- Entry e of the five is present. -/
def entryPresent (c : StreamCfg) (e : Nat) : Bool := (c.entries.getD e 0xFFFFFFFF) != 0xFFFFFFFF

/-- A live cluster whose window engine the wing owns. -/
def ownsWindow (s : State) (w clu : Nat) : Bool := liveCluster s clu && (getWing s w).wweng.getLsbD clu

/-- The check of R183. -/
def armCheck (s : State) (x : Ctx) (bs : List Byte) : Bool :=
  let c := streamCfg bs
  let aligned := fun (a n : Nat) => a % n == 0 && decide (a < 2 ^ 56)
  let strn := match (getTenant s x).block with
    | some b => b.strn
    | none => 0
  decide (4 ≤ c.ringlog) && decide (c.ringlog ≤ 20) && c.fold != 7 && streamReserved bs && c.scr != 0
    && aligned c.ring 256 && aligned c.taila 32 && aligned c.stash 4096 && aligned c.dir 4096
    && (c.keyoff == 0xFFFF || (c.keyoff % 4 == 0 && decide (c.keyoff + 4 ≤ c.rsize)))
    && c.foldoff % 4 == 0 && decide (16 ≤ c.foldoff) && decide (c.foldoff + 4 ≤ c.rsize)
    && (decide (2 ≤ c.kind) || (decide (1 ≤ c.wlen) && decide (1 ≤ c.wstep) && decide ((c.wlen + c.wstep - 1) / c.wstep ≤ 4096)))
    && (c.kind != kindGap || decide (1 ≤ c.wgap))
    && (!c.pane || (decide (c.kind ≤ 1) && decide (c.wlen / Nat.gcd c.wlen c.wstep ≤ 65536)))
    && (c.kind == kindNone || (entryPresent c 0 && entryPresent c 3 && entryPresent c (if c.pane then 2 else 1)
          && (c.kind != kindGap || entryPresent c 4)))
    && ownsWindow s x.wing c.clu && c.statesz % 16 == 0 && decide (c.statesz ≤ 1024) && decide (8 ≤ c.minregs)
    && decide (c.minregs ≤ 64) && (!c.outv || decide (c.out < strn))

/-- A stream as a successful arming leaves it: windows that a finished run still closes stay. -/
def armedStream (c : StreamCfg) (head status : Word) (old : Option Stream) : Stream :=
  { cfg := c, armed := true, tail := head, next := head, head := head, wmark := 0, late := 0, badkind := 0, dropdir := 0,
    droplane := 0, taken := 0,
    dir := match old with
      | some k => k.dir.filter (fun e => match e.2 with | .win _ => true | _ => false)
      | none => [],
    seen := [], items := match old with | some k => k.items | none => [], held := none, status := status, owed := false, given := 0,
    hdr := some (zeroBytes 64), due := none }

/-- Arm a stream (R183). -/
def armStream (s : State) (x : Ctx) (st : Nat) : State :=
  let old := getStream s x st
  if (match old with | some k => k.armed | none => false) then s
  else
    match entryRead s x st 0 128 with
    | .error s => s
    | .ok bs =>
      let s := devTouch s x (streamAddr s x st) 128
      if armCheck s x bs then
        let c := streamCfg bs
        let v := (bw (fieldAt bs 0x7C 4) &&& ~~~(0x3C000000 : Word)) ||| 0x80000000
        -- what runs for it from now on is what the homes hold (R78)
        let s := (coresOf c.clu).foldl dropCode (setStream s x st (armedStream c (bw (fieldAt bs 0x78 4)) v old))
        stateOf (streamWrite (entryOwed s x st 0x7C v) x st c.dir (zeroBytes 64))
      else statusBits s x st 0 0x10000000

/-- The operations of `STRCTL` and `STROP` on a stream (R210, R318): 0 `ARM`, 1 `PAUSE`, 2 `RESUME`, 3 `SETCARRY`, 4 `CLRRESET`. -/
def streamControl (s : State) (x : Ctx) (st op : Nat) (v : DWord) : State :=
  match op with
  | 0 => armStream s x st
  | 1 => statusBits s x st 0 0x40000000
  | 2 => statusBits s x st 0x40000000 0
  | 3 => stateOf (streamWrite s x st (streamAddr s x st + 0x60) (leBytes 8 v.toNat))
  | 4 => clearReset s x st
  | _ => s

/-! ### The directory (R190) -/

def getWin (k : Stream) (i : Nat) : Option Win :=
  match fget k.dir i with
  | some (.win w) => some w
  | _ => none

def setWin (k : Stream) (i : Nat) (w : Win) : Stream := { k with dir := fset k.dir i (.win w) }

/-- The windows of a stream with their `WINID`s. -/
def winsOf (k : Stream) : List (Nat × Win) :=
  k.dir.filterMap (fun e => match e.2 with
    | .win w => some (e.1, w)
    | _ => none)

/-- The lowest number from n on that a map with rising keys does not list. -/
def lowestFree {α : Type} : Nat → FMap α → Nat
  | n, [] => n
  | n, (k, _) :: m => if k == n then lowestFree (n + 1) m else n

/-- The lowest-numbered free entry, where one is free. -/
def freeEntry (k : Stream) : Option Nat :=
  let n := lowestFree 0 k.dir
  if n < k.cfg.dirn then some n else none

/-- A window, or a record, finds no directory entry (R190, R193). -/
def dropDir (s : State) (x : Ctx) (st : Nat) : State :=
  match getStream s x st with
  | none => s
  | some k => statusBits (setStream s x st { k with dropdir := bump k.dropdir }) x st 0 0x04000000

def dropLane (s : State) (x : Ctx) (st : Nat) : State :=
  match getStream s x st with
  | none => s
  | some k => statusBits (setStream s x st { k with droplane := bump k.droplane }) x st 0 0x04000000

/-- Windows ordered by end, then by `WINID` (R199). -/
def byEnd (ws : List (Nat × Win)) : List (Nat × Win) :=
  sortBy (fun a b => decide (a.2.fin < b.2.fin) || (a.2.fin == b.2.fin && decide (a.1 ≤ b.1))) ws

/-- The header of the directory. -/
def dirHeader (k : Stream) : List Byte :=
  let ws := winsOf k
  let stashed := ws.filter (fun w => match w.2.place with | .stash _ => true | _ => false)
  leBytes 8 k.wmark ++ leBytes 4 k.late.toNat ++ leBytes 4 k.badkind.toNat ++ leBytes 4 k.dropdir.toNat
    ++ leBytes 4 k.droplane.toNat ++ leBytes 4 ws.length ++ leBytes 4 stashed.length ++ zeroBytes 32

/-- A write-back of the header is due: the stream is served, or what it has done since the last one is not in memory yet. -/
def headerDue (k : Stream) : Bool :=
  match k.hdr with
  | none => false
  | some h => k.armed || h != dirHeader k

/-- Write the header back, where that is due (R190). -/
def writeHeader (s : State) (x : Ctx) (st : Nat) : State :=
  match getStream s x st with
  | none => s
  | some k =>
    if !headerDue k then s
    else
      match streamWrite s x st k.cfg.dir (dirHeader k) with
      | .ok s => setStream s x st { k with hdr := some (dirHeader k) }
      | .error s => s

/-! ### Window groups and their lanes -/

/-- The window groups of a stream: core, slot and group. -/
def winGroups (s : State) (x : Ctx) (st : Nat) : List (Nat × Nat × Group) :=
  match getStream s x st with
  | none => []
  | some k => (coresOf k.cfg.clu).flatMap (fun c => (getCore s c).groups.filterMap (fun p => match p.2.kind with
      | .window n _ => if n == st && p.2.id.ctx == x then some (c, p.1, p.2) else none
      | _ => none))

def winNum (g : Group) : Nat :=
  match g.kind with
  | .window _ n => n
  | _ => 0

/-- The window group of a number. -/
def winGroup (s : State) (x : Ctx) (st num : Nat) : Option (Nat × Nat × Group) :=
  (winGroups s x st).find? (fun p => winNum p.2.2 == num)

/-- A lane of a group is executing a delivery. -/
def laneBusy (g : Group) (l : Nat) : Bool :=
  hasLane g.live l && (match laneWindow g l with | some w => w.busy | none => false)

def busyLanes (g : Group) : LaneSet := laneSetOf (laneBusy g)

/-- No delivery waits or executes. -/
def idleWindows (s : State) (x : Ctx) (st : Nat) : Bool :=
  (match getStream s x st with | some k => k.items.isEmpty | none => true)
    && (winGroups s x st).all (fun p => busyLanes p.2.2 == 0)

/-- Nothing caused by an earlier record is left (R187, R198). -/
def quiesced (s : State) (x : Ctx) (st : Nat) : Bool :=
  (match getStream s x st with | some k => k.due.isNone | none => true) && idleWindows s x st

/-- Write absolute names of a group under a mask (R58): full when the mask holds every live lane. -/
def maskedWrite (g : Group) (m : LaneSet) (n : Nat) (v : Nat → Word) (use : Nat) : Group :=
  let old := (getName g n).val
  let low := v (lowLane m)
  if (g.live &&& ~~~m) == 0 && (lanesOf m).all (fun l => v l == low) then setName g n ⟨.uniform low, false, use⟩
  else setName g n ⟨.general ((List.range 64).map (fun l => if hasLane m l then v l else shapedAt old l)), false, use⟩

/-- Scratchpad bytes that a stream's groups declare. -/
def scrBytes (c : StreamCfg) : Nat := if c.scr == 1 then 131072 else if c.scr == 2 then 262144 else 327680

/-- The cloakroom area of window group g (R191). -/
def winCloak (c : StreamCfg) (g : Nat) : Nat := (c.dir + 64 * (c.dirn + 1) + 4095) / 4096 * 4096 + Config.cloakBytes * g

/-- Create a window group on the core of the cluster that has the fewest resident groups, where `WGMAX` and R64 allow it
(R191, R193). Its core and slot. The choice is among the cores that R64 allows. (Log entry 88, DESIGN CHOICE, unsafe.) -/
def newWindowGroup (s : State) (x : Ctx) (st : Nat) (k : Stream) : Option (Nat × Nat × State) :=
  let gs := winGroups s x st
  if k.cfg.wgmax < gs.length then none
  else
    let need : Need := ⟨1, k.cfg.minregs, scrBytes k.cfg, none⟩
    let cs := (coresOf k.cfg.clu).filter (fun c => mayPlace s c x need none)
    let resident := fun (c : Nat) => ((getCore s c).groups.filter (fun p => !isAp p.2)).length
    let best := cs.foldl (fun (b : Option Nat) c => match b with
      | none => some c
      | some d => if resident c < resident d then some c else some d) none
    match best with
    | none => none
    | some c =>
      let num := ((List.range 64).find? (fun n => !gs.any (fun p => winNum p.2.2 == n))).getD 0
      let b := addBlock (countPass s c x none) c
        { ctx := x, launch := st, gang := num, block := 0, cluster := k.cfg.clu, groups := 1, scratch := scrBytes k.cfg,
          apUsed := false, mem := [], absent := [], poison := [], ended := false, win := true, books := [] }
      let id : GroupId :=
        { ctx := x, launch := st, launchId := 0xFFFFFFFF, gang := num, block := 0, group := 0, blockKey := b.1,
          minRegs := k.cfg.minregs, cloak := winCloak k.cfg num, age := 0 }
      match addGroup b.2 c { freshGroup (.window st num) id 0 0 with gpark := .noDelivery } with
      | none => none
      | some r => some (c, r.1, r.2)

/-- The lowest free lane of the stream's window group that has the most live lanes; ties go to the lower number (R193). -/
def freeLane (s : State) (x : Ctx) (st : Nat) : Option (Nat × Nat × Nat) :=
  let gs := (winGroups s x st).filter (fun p => p.2.2.live != allLanes)
  let count := fun (g : Group) => (lanesOf g.live).length
  let best := gs.foldl (fun (b : Option (Nat × Nat × Group)) p => match b with
    | none => some p
    | some r => if count r.2.2 < count p.2.2 || (count r.2.2 == count p.2.2 && decide (winNum p.2.2 < winNum r.2.2)) then some p
        else some r) none
  best.map (fun p => (p.1, p.2.1, lowLane (~~~p.2.2.live)))

/-- A lane's place in the code while it rests: an entry of its own (R194). -/
def restingEntry (l : Nat) : Entry :=
  { pc := 0, pri := 0, lanes := laneBit l, park := .resting, pass := 0, mark := false, fail := none, clause := none }

/-- Put entries among those of a group that do not execute its handler. -/
def placeEntries (g : Group) (es : List Entry) : Group :=
  match g.handler with
  | some h => { g with handler := some { h with halted := addEntries h.halted es } }
  | none => { g with frontier := addEntries g.frontier es }

/-- A lane's element of the allocated names given is written as given, each filled first where other lanes keep theirs (R58, R67). -/
def seatNames (c slot : Nat) (m : LaneSet) (name : Nat → Word) : List Nat → State → State
  | [], s => s
  | n :: ns, s =>
    let part := match getGroup s c slot with
      | some g => (g.live &&& ~~~m) != 0 && (getName g n).spilled
      | none => false
    let s := if part then stateOf (fillFirst c slot [n] s) else s
    match getGroup s c slot with
    | none => s
    | some g =>
      let s := putNames s c slot g (maskedWrite g m n (fun _ => name n) (getCore s c).seq)
      seatNames c slot m name ns (if part then engineRoom s c slot else s)

/-- A window takes a lane (R193 step 3): the lane live and resting, its state fresh, its element of every allocated name and its
state block as given. -/
def seatLane (s : State) (c slot l wid : Nat) (st : LaneSt) (markers : Nat) (name : Nat → Word) (block : List Byte) : State :=
  match getGroup s c slot with
  | none => s
  | some g =>
    let m := laneBit l
    let g := { g with live := g.live ||| m }
    let g := setLane g l { st with win := some { win := wid, busy := false, entry := 0, cause := 0, buf := none, last := false } }
    let g := (List.range Config.numMarkers).foldl (fun g k =>
      if testBit markers k then let y := getMarker g k; setMarker g k { y with enr := y.enr ||| m } else g) g
    let s := homeWrite (setGroup s c slot (placeEntries g [restingEntry l])) ⟨.scr c g.id.blockKey, 1024 * l⟩ block
    engineRoom (seatNames c slot m name (fkeys g.names) s) c slot

/-- Note in the directory that a window stands in a lane. -/
def placeWin (s : State) (x : Ctx) (st wid c slot l : Nat) : State :=
  match getStream s x st, getGroup s c slot with
  | some k, some g =>
    match getWin k wid with
    | some w => setStream s x st (setWin k wid { w with place := .lane (winNum g) l })
    | none => s
  | _, _ => s

/-! ### What a delivery is grouped by (R194, R195) -/

/-- The close flags of a window as its close is delivered (R195, R201, R411). (Log entry 45, DEDUCED, unsafe.) -/
def closeFlags (w : Win) : Nat :=
  (if w.ended && !w.trig && !w.early then 1 else 0) + (if w.early && !w.trig then 2 else 0) + (if w.ended then 4 else 0)

/-- What a delivery is grouped by: its record or pane, or the closes that one record caused. -/
structure DelKey where
  cause : Word
  cls : Nat
  vals : List Word
  v5 : Word
  v6 : Word
  deriving DecidableEq, Repr

def itemKey (k : Stream) (i : Item) : DelKey :=
  let w := getWin k i.win
  if i.entry == 4 then
    ⟨i.cause, 2, [0, 0, 0, 0], bw (match w with | some w => w.fin | none => 0), bw (match w with | some w => closeFlags w | none => 0)⟩
  else ⟨i.cause, if i.entry == 5 then 3 else if i.record.isEmpty then 1 else 0, i.vals, bw i.time, i.v6⟩

/-- The deliveries that a window may still be waiting for: in an `ORDERED` stream those of the delivery, or the close, that is due next,
as each later one is made only once those before it have committed (R198, R199, R202). (Log entry 44, DEDUCED, safe.) -/
def dueItems (k : Stream) : List Item :=
  if !k.cfg.ordered then k.items
  else
    match k.items with
    | [] => []
    | i :: is => if i.entry == 4 then [i] else i :: is.filter (fun j => itemKey k j == itemKey k i)

/-! ### Stash and re-cast (R202 to R204) -/

/-- A stash slot that holds no window. -/
def freeStash (k : Stream) : Option Nat :=
  let used := (winsOf k).filterMap (fun w => match w.2.place with | .stash i => some i | _ => none)
  let n := ((List.range (used.length + 1)).find? (fun i => !used.contains i)).getD 0
  if n < k.cfg.stashn then some n else none

/-- A resting window without a pending delivery stands in a lane: its core, slot, group and lane. -/
def restingAt (s : State) (x : Ctx) (st : Nat) (k : Stream) (wid : Nat) : Option (Nat × Nat × Group × Nat) :=
  match getWin k wid with
  | none => none
  | some w =>
    match w.place with
    | .stash _ => none
    | .lane num l =>
      match winGroup s x st num with
      | none => none
      | some p => if laneBusy p.2.2 l || (dueItems k).any (fun i => i.win == wid || i.other == wid && i.entry == 5) then none
          else some (p.1, p.2.1, p.2.2, l)

/-- The first 4 KiB less of a stash slot, and the lane's values by name (R203). -/
def stashImage (s : State) (c : Nat) (g : Group) (l wid statesz : Nat) : List (Nat × List Byte) :=
  let y := laneSt g l
  let mk := (List.range Config.numMarkers).foldl (fun a k => if hasLane (getMarker g k).enr l then a + 2 ^ k else a) 0
  [(0, leBytes 4 wid ++ leBytes 4 y.fmode.toNat ++ leBytes 4 y.fstat.toNat ++ leBytes 4 mk ++ zeroBytes 48
      ++ (List.range 256).map (tagByte g) ++ zeroBytes 704),
   (0x400, homeRead s ⟨.scr c g.id.blockKey, 1024 * l⟩ statesz)]
    ++ g.names.map (fun p => (0x800 + 4 * p.1, leBytes 4 (shapedAt p.2.val l).toNat))

/-- Write pieces at offsets from an address. -/
def streamWrites (x : Ctx) (st va : Nat) : List (Nat × List Byte) → State → Except State State
  | [], s => .ok s
  | p :: ps, s =>
    match streamWrite s x st (va + p.1) p.2 with
    | .error s => .error s
    | .ok s => streamWrites x st va ps s

/-- A fill in progress of a group completes before the group is spilled (R69). -/
def finishFill (s : State) (c k : Nat) : State :=
  match getGroup s c k with
  | none => s
  | some g => (match g.gpark with | .fill _ => cloakFill s c k | _ => s)

/-- Stash a resting window: through the group's cloakroom (R69) into a slot; its lane is struck from every marker and freed, and a
barrier opens that waited for it alone (R332). The state after a failure otherwise; nothing happens where no slot is free, and a spill
that fails traps `CLOAK` (R68), and a poisoned state block kills the context (R312). (Log entry 47, DEDUCED, unsafe.) -/
def stashWindow (s : State) (x : Ctx) (st wid : Nat) : Except State State :=
  match getStream s x st with
  | none => .error s
  | some k =>
    match restingAt s x st k wid, freeStash k with
    | some p, some i =>
      let s := finishFill s p.1 p.2.1
      match poisonIn s ⟨.scr p.1 p.2.2.1.id.blockKey, 1024 * p.2.2.2⟩ k.cfg.statesz with
      | some gr => .error (poisonKill s x gr)
      | none =>
      match spillGroup s p.1 p.2.1 false with
      | .error e => .error (cloakTrap s p.1 p.2.1 e)
      | .ok s1 =>
        match streamWrites x st (k.cfg.stash + Config.stashSlotBytes * i) (stashImage s p.1 p.2.2.1 p.2.2.2 wid k.cfg.statesz) s1 with
        | .error s => .error s
        | .ok s2 =>
          match getGroup s2 p.1 p.2.1, getWin k wid with
          | some g, some w =>
            let m := laneBit p.2.2.2
            let g := dropLanes (leaveMarkers g m) m
            let g := { g with live := g.live &&& ~~~m, lanes := g.lanes.filter (fun q => q.1 != p.2.2.2) }
            let s2 := barrierCheck (setGroup s2 p.1 p.2.1 g) p.1 g.id.blockKey
            .ok (setStream s2 x st (setWin ((getStream s2 x st).getD k) wid { w with place := .stash i }))
          | _, _ => .error s2
    | _, _ => .error s

/-- The resting windows of a stream, the one that has gone longest without a delivery first (R193); of those last delivered to together
the lowest `WINID`. (Log entry 88, DESIGN CHOICE, unsafe.) -/
def restingWindows (s : State) (x : Ctx) (st : Nat) (k : Stream) : List Nat :=
  (sortBy (fun a b => decide (a.2.given ≤ b.2.given)) ((winsOf k).filter (fun w => (restingAt s x st k w.1).isSome))).map (·.1)

/-- Where a search for a lane ends: at a lane, at none, or in a state in which the stream pauses or is served no more. -/
inductive LaneRes where
  | lane (c slot l : Nat) (s : State)
  | none (s : State)
  | stop (s : State)

/-- The lane of the first of the windows given that can be stashed. One whose group traps at its spill passes the turn on. -/
def displace (x : Ctx) (st : Nat) : List Nat → State → LaneRes
  | [], s => .none s
  | wid :: ws, s =>
    match getStream s x st with
    | Option.none => .stop s
    | some k =>
      match restingAt s x st k wid, freeStash k with
      | some p, some _ =>
        match stashWindow s x st wid with
        | .ok s => .lane p.1 p.2.1 p.2.2.2 s
        | .error t =>
          if streamHeld t x st || ((getStream t x st).bind (getWin · wid)).isNone then .stop t else displace x st ws t
      | _, _ => displace x st ws s

/-- A lane for a window by step 2 of R193, in the state after a group has been created or a window displaced for it. -/
def findLane (s : State) (x : Ctx) (st : Nat) : LaneRes :=
  match freeLane s x st with
  | some p => .lane p.1 p.2.1 p.2.2 s
  | Option.none =>
    match getStream s x st with
    | Option.none => .stop s
    | some k =>
      match newWindowGroup s x st k with
      | some r => .lane r.1 r.2.1 0 r.2.2
      | Option.none => displace x st (restingWindows s x st k) s

/-- Re-cast a stashed window into a lane (R204). -/
def recast (s : State) (x : Ctx) (st wid i : Nat) : Except State State :=
  match findLane s x st with
  | .none s | .stop s => .error s
  | .lane c slot l s =>
    match getStream s x st with
    | none => .error s
    | some k =>
      match streamRead s x st (k.cfg.stash + Config.stashSlotBytes * i) Config.stashSlotBytes with
      | .error s => .error s
      | .ok bs =>
        let s := devTouch s x (k.cfg.stash + Config.stashSlotBytes * i) Config.stashSlotBytes
        let has := fun (n : Nat) => bitsOf (fieldAt bs (0x40 + n / 4) 1) (2 * (n % 4) + 1) (2 * (n % 4)) != 0
        let val := fun (n : Nat) => if has n then bw (fieldAt bs (0x800 + 4 * n) 4) else 0
        -- a name that only the slot records is allocated by its write
        let s := match getGroup s c slot with
          | none => s
          | some g => setGroup s c slot ((List.range Config.numNames).foldl (fun g n =>
              if has n && (getName g n).val == .unalloc then setName g n ⟨.uniform 0, false, (getCore s c).seq⟩ else g) g)
        let y := { LaneSt.start 0 with fmode := bw (fieldAt bs 4 4), fstat := bw (fieldAt bs 8 4) }
        let s := seatLane s c slot l wid y (fieldAt bs 0xC 4) val ((bs.drop 0x400).take k.cfg.statesz)
        .ok (placeWin s x st wid c slot l)

/-! ### Cast-on (R193) -/

/-- Open a window: a directory entry, a lane, and the lane's fresh state. Its `WINID`, where it is opened. -/
def castOn (s : State) (x : Ctx) (st : Nat) (w : Win) : Option Nat × State :=
  match getStream s x st with
  | none => (none, s)
  | some k =>
    match freeEntry k with
    | none => (none, dropDir s x st)
    | some wid =>
      match findLane s x st with
      | .none s => (none, dropLane s x st)
      | .stop s => (none, s)
      | .lane c slot l s =>
        match getStream s x st, getGroup s c slot with
        | some k, some g =>
          let s := setStream s x st (setWin k wid { w with place := .lane (winNum g) l })
          (some wid, seatLane s c slot l wid (LaneSt.start 0) 0 (fun _ => 0) (zeroBytes 1024))
        | _, _ => (none, s)

/-! ### The end of a window (R200) -/

/-- Deliveries to a window that has ended are dropped; the later session of a graft that will not be made stays a session. -/
def dropItems (k : Stream) (wid : Nat) : Stream :=
  let gone := k.items.filter (fun i => i.win == wid)
  let k := { k with items := k.items.filter (fun i => i.win != wid) }
  gone.foldl (fun k i =>
    if i.entry == 5 then
      match getWin k i.other with
      | some w => if w.closed then k else setWin k i.other { w with shut := false }
      | none => k
    else k) k

/-- Records consumed up to the oldest whose delivery is not committed (R196). -/
def pendingCauses (s : State) (x : Ctx) (st : Nat) (k : Stream) : List Word :=
  (k.items.filter (fun i => !i.record.isEmpty)).map (·.cause)
    ++ (winGroups s x st).flatMap (fun p => (lanesOf p.2.2.live).filterMap (fun l => match laneWindow p.2.2 l with
        | some w => if w.busy && w.buf.isSome then some w.cause else none
        | none => none))

/-- `HEAD` advances over the leading free slots, by a release at `DEVICE` (R196). -/
def advanceHead (s : State) (x : Ctx) (st : Nat) : State :=
  match getStream s x st with
  | none => s
  | some k =>
    let d := (pendingCauses s x st k).foldl (fun (a : Nat) c => min a (c - k.head).toNat) (k.next - k.head).toNat
    if d == 0 then s
    else
      let h := k.head + bw d
      entryOwed (setStream s x st { k with head := h }) x st 0x78 h

/-- A group without a busy lane parks, with no pending delivery (R194). -/
def parkIdle (s : State) (c slot : Nat) : State :=
  match getGroup s c slot with
  | some g =>
    if isWindow g && g.live != 0 && g.gpark == .none && busyLanes g == 0 then
      setGroup s c slot { g with gpark := .noDelivery, token := false }
    else s
  | none => s

/-- A window's directory entry is freed with what is pending for it. -/
def freeWindow (s : State) (x : Ctx) (st wid : Nat) : State :=
  match getStream s x st with
  | none => s
  | some k =>
    let k := dropItems k wid
    setStream s x st { k with dir := ferase k.dir wid }

/-- Lanes of a group end (R36, R200): in a window group their windows are bound off. -/
def exitLanes (s : State) (c slot : Nat) (m : LaneSet) : State :=
  match getGroup s c slot with
  | none => s
  | some g =>
    match g.kind with
    | .window st _ =>
      let wids := (lanesOf m).filterMap (fun l => (laneWindow g l).map (·.win))
      let s := (releaseAt s c g.id.ctx .device (getCore s c).seq).1
      let s := wids.foldl (fun s w => freeWindow s g.id.ctx st w) s
      advanceHead (parkIdle (retireLanes s c slot m) c slot) g.id.ctx st
    | _ => retireLanes s c slot m

/-! ### Deliveries (R194, R195) -/

/-- Address of entry e (1 open to 5 graft) of a stream's code. -/
def entryPc (c : StreamCfg) (e : Nat) : Pc := BitVec.ofNat 56 (c.code + c.entries.getD (e - 1) 0)

/-- A delivery buffer of a group that no busy lane uses. -/
def freeBuffer (g : Group) : Option Nat :=
  (List.range 8).find? (fun b => !(lanesOf (busyLanes g)).any (fun l => match laneWindow g l with
    | some w => w.buf == some b
    | none => false))

/-- The lane of a window in a group, if it is free for a delivery. -/
def readyLane (k : Stream) (g : Group) (wid : Nat) : Option Nat :=
  match getWin k wid with
  | some w =>
    match w.place with
    | .lane num l => if num == winNum g && !laneBusy g l then some l else none
    | .stash _ => none
  | none => none

/-- The windows' counts at a delivery (R209). -/
def countDelivery (k : Stream) (i : Item) : Stream :=
  match getWin k i.win with
  | none => k
  | some w =>
    let pane := i.entry != 4 && i.entry != 5 && i.record.isEmpty
    setWin k i.win { w with touch := k.taken, given := k.given, data := w.data + i.data, lastTime := if i.data == 0 then w.lastTime else i.stamp,
                            panes := if pane then w.panes + 1 else w.panes, paneCnt := if pane then i.data else 0 }

/-- Make one delivery: the items and their lanes, in a group, with the record's buffer. -/
def deliver (s : State) (x : Ctx) (st c slot : Nat) (its : List (Item × Nat)) (buf : Option Nat) (v4 : Nat → Word) : State :=
  -- delivery registers that lie in the cloakroom are filled first, where other lanes keep theirs (R67)
  let s := match getGroup s c slot with
    | some g => if (g.live &&& ~~~laneSetOfList (its.map (·.2))) == 0 then s else stateOf (fillFirst c slot (List.range 7) s)
    | none => s
  match getStream s x st, getGroup s c slot, its with
  | some k, some g, (i0, _) :: _ =>
    let key := itemKey k i0
    let m := laneSetOfList (its.map (·.2))
    let cnt := g.rgnCnt + 1
    let g := dropLanes { g with rgnCnt := cnt } m
    let g := its.foldl (fun g p =>
      let y := laneSt g p.2
      setLane g p.2 { y with
        wb := 0, rgnPc := entryPc k.cfg p.1.entry, rgnCnt := cnt, nonRep := false, fresh := false, restart := false, mute := false,
        win := some { win := p.1.win, busy := true, entry := p.1.entry, cause := p.1.cause, buf := buf, last := p.1.last } }) g
    let use := (getCore s c).seq
    let old := g
    let g := (List.range 7).foldl (fun g n => maskedWrite g m n (fun l =>
      if n < 4 then key.vals.getD n 0 else if n == 4 then v4 l else if n == 5 then key.v5 else key.v6) use) g
    let s := clearMaps s old g
    let pcs := (its.map (fun p => entryPc k.cfg p.1.entry)).eraseDups
    let es := pcs.map (fun pc => arrive s c x pc
      (laneSetOfList ((its.filter (fun p => entryPc k.cfg p.1.entry == pc)).map (·.2))) 0)
    let g := placeEntries g es
    let g := if g.gpark == .noDelivery then { g with gpark := .none, readyAt := s.clock } else g
    let k := its.foldl (fun k p => countDelivery { k with items := k.items.erase p.1 } p.1) { k with given := k.given + 1 }
    let s := setStream (setGroup s c slot g) x st k
    engineRoom (invalidateAt s c x .device) c slot
  | _, _, _ => s

/-- The deliveries that go to a group together: those of the same record, pane or closes whose window waits for nothing earlier.
(Log entry 44, DEDUCED, safe.) -/
def together (k : Stream) (g : Group) (key : DelKey) : List Nat → List Item → List (Item × Nat)
  | _, [] => []
  | seen, i :: is =>
    let rest := together k g key (i.win :: (if i.entry == 5 then i.other :: seen else seen)) is
    match if itemKey k i == key && !seen.contains i.win then readyLane k g i.win else none with
    | some l => (i, l) :: rest
    | none => rest

/-- The closes of an `ORDERED` stream that go in one delivery: from the first on, while they are alike and ascending lane order, in which
their records are appended, agrees with the order of the closes (R199, R208). -/
def closesTogether (k : Stream) (g : Group) (key : DelKey) : Nat → List Item → List (Item × Nat)
  | _, [] => []
  | lo, i :: is =>
    match if itemKey k i == key then readyLane k g i.win else none with
    | some l => if l < lo then [] else (i, l) :: closesTogether k g key (l + 1) is
    | none => []

/-- A window stands in a lane, re-cast if it is stashed. -/
def ensureLane (s : State) (x : Ctx) (st wid : Nat) : Except State State :=
  match getStream s x st with
  | none => .error s
  | some k =>
    match getWin k wid with
    | none => .error s
    | some w =>
      match w.place with
      | .lane .. => .ok s
      | .stash i => recast s x st wid i

/-- Where a window's lane stands. -/
def laneOfWin (s : State) (x : Ctx) (st wid : Nat) : Option (Nat × Nat × Group × Nat) :=
  match getStream s x st with
  | none => none
  | some k =>
    match getWin k wid with
    | none => none
    | some w =>
      match w.place with
      | .stash _ => none
      | .lane num l => (winGroup s x st num).map (fun p => (p.1, p.2.1, p.2.2, l))

/-- Whether delivery i may begin as far as order goes (R197, R198): in an `ORDERED` stream every delivery and close before it has been made
and has committed, so that what they emit enters the output ring in their order (R199, R208). -/
def mayDeliver (s : State) (x : Ctx) (st : Nat) (k : Stream) (i : Nat) : Bool :=
  serving s x && k.held.isNone && (!k.cfg.ordered || (match k.items[i]? with
    | none => false
    | some it =>
      (k.items.take i).all (fun j => it.entry != 4 && itemKey k j == itemKey k it)
        && (winGroups s x st).all (fun p => busyLanes p.2.2 == 0)))

/-- Make the deliveries to one group that go together, with the record's buffer; nothing where no buffer is free. -/
def deliverGroup (s : State) (x : Ctx) (st c slot : Nat) (g : Group) (it : Item) (its : List (Item × Nat)) : State :=
  if it.record.isEmpty then deliver s x st c slot its none (fun l => if it.entry == 4 then bw (1024 * l) else 0)
  else
    match freeBuffer g with
    | none => s
    | some b =>
      deliver (homeWrite s ⟨.scr c g.id.blockKey, 0x10000 + 256 * b⟩ it.record) x st c slot its (some b) (fun _ => bw (0x10000 + 256 * b))

/-- The windows given stand in lanes, re-cast where they are stashed, as far as lanes can be had. -/
def ensureSome (x : Ctx) (st : Nat) (ws : List Nat) (s : State) : State :=
  ws.foldl (fun s w => if streamHeld s x st then s else stateOf (ensureLane s x st w)) s

/-- The deliveries of an `ORDERED` stream that belong together go to every group at once, each group getting one (R194, R198), once each
has a buffer for the record. Windows that found no lane have theirs once those before them have committed. (Log entry 44, DEDUCED,
safe.) -/
def deliverAll (s : State) (x : Ctx) (st : Nat) (k : Stream) (it : Item) : State :=
  let key := itemKey k it
  let s := ensureSome x st (((k.items.filter (fun j => itemKey k j == key)).map (·.win)).eraseDups) s
  match getStream s x st with
  | none => s
  | some k =>
    if k.held.isSome then s
    else
      let parts := (winGroups s x st).filterMap (fun p => match together k p.2.2 key [] k.items with
        | [] => none
        | its => some (p, its))
      if !(it.record.isEmpty || parts.all (fun q => (freeBuffer q.1.2.2).isSome)) then s
      else parts.foldl (fun s q => match getGroup s q.1.1 q.1.2.1 with
        | some g => deliverGroup s x st q.1.1 q.1.2.1 g it q.2
        | none => s) s

/-- Delivery i, with those that go to its group with it (R194). -/
def delivery (s : State) (x : Ctx) (st i : Nat) : State :=
  let s := payOwed s x st
  match getStream s x st with
  | none => s
  | some k =>
    match k.items[i]? with
    | none => s
    | some it =>
      if !mayDeliver s x st k i || it.entry == 5
        || (k.items.take i).any (fun j => j.win == it.win || (j.entry == 5 && j.other == it.win)) then s
      else if k.cfg.ordered && it.entry != 4 then deliverAll s x st k it
      else
        match ensureLane s x st it.win with
        | .error s => s
        | .ok s =>
          match getStream s x st, laneOfWin s x st it.win with
          | some k, some (c, slot, g, l) =>
            if laneBusy g l then s
            else deliverGroup s x st c slot g it
              (if k.cfg.ordered then closesTogether k g (itemKey k it) 0 k.items else together k g (itemKey k it) [] k.items)
          | _, _ => s

/-- The graft of item i (R205): once both sessions rest, the later one's state block is copied, the earlier one is delivered at its
graft entry, and the later one is retired. -/
def graft (s : State) (x : Ctx) (st i : Nat) : State :=
  let s := payOwed s x st
  match getStream s x st with
  | none => s
  | some k =>
    match k.items[i]? with
    | none => s
    | some it =>
      if !mayDeliver s x st k i || it.entry != 5
        || (k.items.take i).any (fun j => j.win == it.win || j.win == it.other) then s
      else if (getWin k it.other).isNone then setStream s x st { k with items := k.items.erase it }
      else
        match ensureLane s x st it.win with
        | .error s => s
        | .ok s =>
          match ensureLane s x st it.other with
          | .error s => s
          | .ok s =>
            match laneOfWin s x st it.win, laneOfWin s x st it.other with
            | some (c, slot, g, l), some (c2, slot2, g2, l2) =>
              let inUse := (lanesOf (busyLanes g)).any (fun j => match laneWindow g j with | some w => w.entry == 5 | none => false)
              if laneBusy g l || laneBusy g2 l2 || inUse then s
              else if let some gr := poisonIn s ⟨.scr c2 g2.id.blockKey, 1024 * l2⟩ k.cfg.statesz then poisonKill s x gr
              else
                let bs := homeRead s ⟨.scr c2 g2.id.blockKey, 1024 * l2⟩ k.cfg.statesz
                let s := homeWrite s ⟨.scr c g.id.blockKey, 0x10800⟩ bs
                let s := deliver s x st c slot [(it, l)] none (fun _ => 0x10800)
                let s := freeWindow s x st it.other
                parkIdle (retireLanes s c2 slot2 (laneBit l2)) c2 slot2
            | _, _ => s

/-! ### Commits (R196, R199) -/

/-- Queue a window's close, once (R199, R201, R207). -/
def queueClose (k : Stream) (wid : Nat) (cause : Word) : Stream :=
  match getWin k wid with
  | none => k
  | some w =>
    if w.closed then k
    else
      let k := setWin k wid { w with closed := true, shut := true }
      { k with items := k.items ++ [{ win := wid, entry := 4, cause := cause, vals := [0, 0, 0, 0], time := w.fin, v6 := 0, record := [],
                                      stamp := 0, data := 0, last := false, other := 0 }] }

/-- A lane commits its delivery: its window's trigger may fire. -/
def commitLane (s : State) (x : Ctx) (st c slot l : Nat) : State :=
  match getGroup s c slot, getStream s x st with
  | some g, some k =>
    match laneWindow g l with
    | none => s
    | some v =>
      let g := setLane g l { laneSt g l with win := some { v with busy := false, entry := 0, buf := none, last := false } }
      let k := match getWin k v.win with
        | some w => if v.last && !w.trig then queueClose (setWin k v.win { w with trig := true, shut := true }) v.win v.cause else k
        | none => k
      setStream (setGroup s c slot g) x st k
  | _, _ => s

end Sys2Proof.Machine
end

