-- ==== Sys2Proof/Machine/Service.lean ====
section
/-!
DEFINITION. Service calls (R289 to R294, R404): the call, its record in the host's ring, and the host's answer; with the messages to
the host (R319) and the scheduler's own accesses to memory (R304, R312), which the ring shares with the launch queues.
-/
namespace Sys2Proof.Machine

/-! ### Messages to the host (R319) -/

/-- Send an MSI-X message of a wing's function; a wing without a host queue sends none (R259).
(Log entry 69, DESIGN CHOICE, safe.) -/
def sendMsi (s : State) (w vec : Nat) : State :=
  if (getWing s w).whq == 0 then s else { s with msi := s.msi ++ [(w, vec)] }

/-- A tenant's ring has a new record. -/
def notifySvc (s : State) (x : Ctx) : State :=
  let w := getWing s x.wing
  let b : BitVec 8 := BitVec.ofNat 8 (2 ^ x.ten)
  if w.nsvc &&& b != 0 then s
  else
    let s := setWing s x.wing { w with nsvc := w.nsvc ||| b }
    if w.nmask.getLsbD x.ten then s else sendMsi s x.wing x.ten

/-- The fault queue has a new record. -/
def notifyFault (s : State) (w : Nat) : State :=
  let k := getWing s w
  if k.nfq then s
  else
    let s := setWing s w { k with nfq := true }
    if k.nmask.getLsbD 8 then s else sendMsi s w 8

/-! ### The scheduler's accesses (R304) -/

/-- A context is killed as R268 lays down; the flag says whether its save was too large. -/
def overrunKill (s : State) (x : Ctx) (fsize : Bool) : State :=
  let s := killContext s x true
  (addRecord s x.wing { FaultRec.blank 0x21 causeOverrun x.ten with fsize := fsize }).2

/-- Ask for the record of a failed access of the scheduler; its number where the access may be replayed. -/
def schedRecord (s : State) (x : Ctx) (f : XlFault) (va acc : Nat) : Option Nat × State :=
  let a := addRecord s x.wing (xlRecord { FaultRec.blank 0x15 0 x.ten with addr := va, acc := acc } f)
  (if f.replay then a.1 else none, a.2)

/-- An access to the service ring or the context block has failed: it waits for its record, or the context is killed. -/
def ringFault (s : State) (x : Ctx) (f : XlFault) (va acc : Nat) : State :=
  let r := schedRecord s x f va acc
  match r.1 with
  | some id => let t := getTenant r.2 x; setTenant r.2 x { t with held := some id }
  | none => overrunKill r.2 x false

/-- An acquiring read of the scheduler; on failure the state that follows from it. -/
def ringRead (s : State) (x : Ctx) (va n : Nat) : Except State (List Byte × State) :=
  let r := devAcquire s x va n
  let s := devTouch r.1 x va n
  match devRead r.1 x va n with
  | .error f => .error (ringFault s x f va 0)
  | .ok bs =>
    match devPoison r.1 x va n with
    | some g => .error (poisonKill s x g)
    | none => if r.2 then .ok (bs, s) else .error s

def ringWrite (s : State) (x : Ctx) (va : Nat) (bs : List Byte) : Except State State :=
  match devWrite s x va bs with
  | .error f => .error (ringFault s x f va 1)
  | .ok s => .ok s

/-! ### The call (R289, R294, R404) -/

/-- Address of the ring's control block: nothing where the context has none, or its wing no path to the host (R259). -/
def svcRing (s : State) (x : Ctx) : Option Nat :=
  match (getTenant s x).block with
  | some b => if b.svcring == 0 || (getWing s x.wing).whq == 0 then none else some b.svcring
  | none => none

/-- Operations of the first kind of some of the lanes are outstanding (R294). -/
def firstKindLeft (s : State) (c k age : Nat) (m : LaneSet) : Bool :=
  let q := getCore s c
  let n := getCluster s (clusterOf c)
  q.loads.any (fun o => o.slot == k && o.age == age && o.parts.any (fun p => hasLane m p.lane))
    || n.queue.any (fun o => o.core == c && o.slot == k && o.age == age && hasLane m o.lane)
    || n.resv.any (fun o => o.core == c && o.slot == k && o.age == age)
    || q.boxes.any (fun b => b.posted.any (fun p => p.slot == k && p.age == age && (p.lanes &&& m) != 0))
    || q.sends.any (fun o => o.slot == k && o.age == age)

/-- The group parks off-core with its call. (Log entry 67, DEDUCED, safe.) -/
def svcPark (s : State) (i : Iss) (n a d : Nat) : State :=
  let call : SvcCall :=
    { seq := none, lanes := i.e.lanes, pc := i.e.pc, argn := n,
      args := (List.range 64).map (fun l => if hasLane i.e.lanes l then (List.range n).map (fun k => readLane i l (a + k)) else []),
      names := (List.range 64).map (fun l => (nameIx i.g l d).getD 0), entry := { i.e with clause := some i.cc } }
  let g := (touchFields s i (fieldsFrom a n)).g
  let s1 := setGroup (countIssue s i.core) i.core i.slot
    { g with active := none, gpark := .svc, token := false, svc := some call }
  match spillGroup s1 i.core i.slot false with
  | .ok s => s
  | .error e => trapWord (cloakRecord s i.core i.g (lowLane i.e.lanes) e) i causeCloak i.e.lanes e.addr 0

def execSvc (n : BitVec 4) (sa d : Reg) (s : State) : Out :=
  let k := n.toNat + 1
  runOutside s (fieldsFrom sa.toNat k) [d.toNat, d.toNat + 1] fun i =>
    let r := releaseAt s i.core i.g.id.ctx .system (getCore s i.core).seq
    if !r.2 then .next (holdIssue r.1)
    else
      let i := refresh r.1 i
      match svcRing r.1 i.g.id.ctx with
      | none => .next (trapWord r.1 i causeSvc i.e.lanes 0xFFFFFFFF 0)
      | some _ =>
        if firstKindLeft r.1 i.core i.slot i.g.id.age i.e.lanes then .next (holdIssue r.1)
        else .next (svcPark r.1 i k sa.toNat d.toNat)

/-! ### The record (R289 to R291) -/

/-- The header of a slot. -/
def svcHeader (c : Nat) (g : Group) (v : SvcCall) (j : Word) : List Byte :=
  leBytes 4 0 ++ leBytes 4 v.argn ++ leBytes 8 v.lanes.toNat ++ leBytes 4 g.id.launchId.toNat ++ leBytes 4 g.id.gang
    ++ leBytes 4 (c * 2 ^ 16 + g.id.group * 2 ^ 8 + g.id.block) ++ leBytes 4 (streamOf g).toNat ++ leBytes 8 v.pc.toNat
    ++ leBytes 4 j.toNat ++ zeroBytes 212

/-- What a record writes: the header, and the argument block of each calling lane, at offsets of the slot. -/
def svcPieces (c : Nat) (g : Group) (v : SvcCall) (j : Word) : List (Nat × List Byte) :=
  (0, svcHeader c g v j) :: (lanesOf v.lanes).map (fun l =>
    (0x100 + 64 * l, (List.range 16).flatMap (fun k => leBytes 4 ((v.args.getD l []).getD k 0).toNat)))

def ringWrites (x : Ctx) (va : Nat) : List (Nat × List Byte) → State → Except State State
  | [], s => .ok s
  | p :: ps, s =>
    match ringWrite s x (va + p.1) p.2 with
    | .error s => .error s
    | .ok s => ringWrites x va ps s

/-- Address of a record's slot, by the control block's bytes. -/
def svcSlotAt (ctl : List Byte) (j : Nat) : Nat := fieldAt ctl 0 8 + Config.svcSlotBytes * (j % 2 ^ bitsOf (fieldAt ctl 0x10 4) 3 0)

/-- The ring has a free slot. -/
def svcRoom (ctl : List Byte) : Bool :=
  (bw (fieldAt ctl 8 4) - bw (fieldAt ctl 0xC 4)).toNat != 2 ^ bitsOf (fieldAt ctl 0x10 4) 3 0

/-- `SVC_RECORD_WRITE`: the group's call takes the next slot of the ring, where there is one, and the host is notified. -/
def svcRecord (s : State) (c k : Nat) : State :=
  match getGroup s c k with
  | none => s
  | some g =>
    let x := g.id.ctx
    match g.svc, svcRing s x with
    | some v, some ring =>
      if g.gpark != .svc || v.seq.isSome || !contextRuns s x || (getTenant s x).held.isSome then s
      else
        match ringRead s x ring 64 with
        | .error s => s
        | .ok (ctl, s) =>
          if !svcRoom ctl then s
          else
            let j := bw (fieldAt ctl 8 4)
            match ringWrites x (svcSlotAt ctl j.toNat) (svcPieces c g v j) s with
            | .error s => s
            | .ok s =>
              match ringWrite s x (ring + 8) (leBytes 4 (j + 1).toNat) with
              | .error s => s
              | .ok s =>
                let g := (getGroup s c k).getD g
                let s := notifySvc (setGroup s c k { g with svc := some { v with seq := some j } }) x
                -- the group's area holds the number too (R295)
                match cloakWrite s x (g.id.cloak + 0x18C) (leBytes 4 j.toNat) false with
                | .ok s => s
                | .error e => cloakTrap s c k e
    | _, _ => s

def execSvcRecordWrite (core slot : Nat) (s : State) : Out := .next (svcRecord s core slot)

/-! ### The answer (R292) -/

/-- A pending call of a group whose slot's `STATUS` reads as given: the group, the call, its number and its slot's address. -/
def svcAnswered (s : State) (c k status : Nat) : Except State (Group × SvcCall × Word × Nat × State) :=
  match getGroup s c k with
  | none => .error s
  | some g =>
    let x := g.id.ctx
    match g.svc, svcRing s x with
    | some v, some ring =>
      match v.seq with
      | none => .error s
      | some j =>
        if g.gpark != .svc || g.halt != .run || !contextRuns s x || (getTenant s x).held.isSome then .error s
        else
          match ringRead s x ring 64 with
          | .error s => .error s
          | .ok (ctl, s) =>
            let a := svcSlotAt ctl j.toNat
            match ringRead s x a 4 with
            | .error s => .error s
            | .ok (bs, s) => if leNat bs == status then .ok ((getGroup s c k).getD g, v, j, a, s) else .error s
    | _, _ => .error s

/-- The reply words of the calling lanes reach `D` and `D` + 1. -/
def svcWrite (g : Group) (v : SvcCall) (rep : List Byte) (use : Nat) : Group :=
  (lanesOf v.lanes).foldl (fun g l =>
    let d := v.names.getD l 0
    setElem (setElem g d l (bw (fieldAt rep (8 * l) 4)) use) (d + 1) l (bw (fieldAt rep (8 * l + 4) 4)) use) g

/-- `SVC_REPLY`: the group comes back with the reply, and its calling lanes go on after the clause. -/
def svcReply (s : State) (c k : Nat) : State :=
  match svcAnswered s c k 1 with
  | .error s => s
  | .ok (g, v, _, a, s) =>
    let x := g.id.ctx
    match ringRead s x (a + 0x1100) 512 with
    | .error s => s
    | .ok (rep, s) =>
      match ringWrite s x a (leBytes 4 3) with
      | .error s => s
      | .ok s =>
        let ds := (lanesOf v.lanes).map (fun l => let d := v.names.getD l 0; (l, [d, d + 1]))
        let s := stateOf (fillFirst c k (partNames g ds) s)
        match getGroup s c k with
        | none => s
        | some g0 =>
        let g := svcWrite g0 v rep (getCore s c).seq
        let next := match v.entry.clause with
          | some cc => afterClause cc
          | none => v.pc + 4
        let e := arrive s c x next v.lanes v.entry.pri
        let g := { g with svc := none, gpark := .none, readyAt := s.clock, frontier := addEntry g.frontier e }
        engineRoom (invalidateAt (putNames s c k g0 g) c x .system) c k

def execSvcReply (core slot : Nat) (s : State) : Out := .next (svcReply s core slot)

/-- `SVC_REFUSED`: the calling lanes trap at the `SVC` word. -/
def svcRefused (s : State) (c k : Nat) : State :=
  match svcAnswered s c k 2 with
  | .error s => s
  | .ok (g, v, j, a, s) =>
    match ringWrite s g.id.ctx a (leBytes 4 3) with
    | .error s => s
    | .ok s =>
      let g := { g with svc := none, gpark := .none, readyAt := s.clock }
      match v.entry.clause with
      | some cc => trapWord s ⟨c, k, g, v.entry, cc⟩ causeSvc v.lanes j.toNat 0
      | none => setGroup s c k g

def execSvcRefused (core slot : Nat) (s : State) : Out := .next (svcRefused s core slot)

end Sys2Proof.Machine
end

