-- ==== Sys2Proof/Machine/Launches.lean ====
section
/-!
DEFINITION. Launch queues and launches (R243 to R255, R363): the append, event signals, the queue's head, the start or refusal of a
launch, the placement of its gangs, and its completion.
-/
namespace Sys2Proof.Machine

/-! ### Queues (R244, R247) -/

def getQueue (s : State) (x : Ctx) (q : Nat) : LQueue := sget LQueue.reset (getTenant s x).queues q

def setQueue (s : State) (x : Ctx) (q : Nat) (k : LQueue) : State :=
  let t := getTenant s x
  setTenant s x { t with queues := sset LQueue.reset t.queues q k }

/-- A launch queue's entry as its bytes hold it (R244). -/
structure QEnt where
  ring : Nat
  tail : Word
  head : Word
  en : Bool
  pri : Nat
  log : Nat
  /-- The word that holds `BADDESC`. -/
  flags : Word
  deriving DecidableEq, Repr

/-- The entry of its bytes. A reserved field of a table in memory that no rule checks (R242 at 0x14, R244 at +0x10 [27:21] and [15:0]) stays
as the program wrote it, and is not looked at (R4; log entry 81, DESIGN CHOICE, unsafe). -/
def queueEnt (bs : List Byte) : QEnt :=
  { ring := fieldAt bs 0 8, tail := bw (fieldAt bs 8 4), head := bw (fieldAt bs 0xC 4), en := testBit (fieldAt bs 0x10 4) 31,
    pri := bitsOf (fieldAt bs 0x10 4) 30 28, log := bitsOf (fieldAt bs 0x10 4) 20 16,
    flags := bw (fieldAt bs 0x14 4) }

/-- An enabled queue with `QLOG` in range is served (R363). -/
def QEnt.served (e : QEnt) : Bool := e.en && decide (1 ≤ e.log) && decide (e.log ≤ 16)

/-- Slot j of a queue's ring. -/
def QEnt.slot (e : QEnt) (j : Word) : Nat := e.ring + 8 * (j.toNat % 2 ^ e.log)

/-- The next value of a launch counter: 0xFFFF_FFFF is skipped (R247). -/
def nextLaunchId (v : Word) : Word := if v + 1 == 0xFFFFFFFF then 0 else v + 1

/-- `QHEAD`: the scheduler's own, once it has read it (R3, R244). -/
def headOf (k : LQueue) (e : QEnt) : Word := k.qhead.getD e.head

/-- A start's atomic step (R247): the head's events are consumed, `QHEAD` advances, a `LAUNCHID` is taken. -/
def startStep (s : State) (x : Ctx) (q : Nat) : Word × State :=
  let k := getQueue s x q
  let v := k.qhead.getD 0 + 1
  let s := putWord s x (queueAddr s x q + 0xC) v
  let t := getTenant s x
  let consume : BitVec 256 := match k.head with | some h => h.consume | none => 0
  let s := setTenant s x { t with events := t.events &&& ~~~consume, launchCtr := nextLaunchId t.launchCtr }
  (t.launchCtr, setQueue s x q { getQueue s x q with head := none, taking := none, qhead := some v })

/-- `BADDESC` as its word holds it; the rest of the word is read-only and zero (R244). -/
def badWord (bad : Bool) : Word := if bad then 0x80000000 else 0

/-- A record holds an access for a queue. -/
def holdQueue (s : State) (x : Ctx) (q id : Nat) : State :=
  let k := getQueue s x q
  setQueue s x q { k with held := some id, app := k.app.filter (·.2.2.2) }

/-- `BADDESC` and a record for a descriptor that is refused (R248). Where its word cannot be written, that access has its own record,
and waits for it (R304). -/
def refuseDesc (s : State) (x : Ctx) (q desc : Nat) (id : Word) : State :=
  let a := queueAddr s x q + 0x14
  let s := setQueue s x q { getQueue s x q with bad := true }
  let s := (addRecord s x.wing { FaultRec.blank 0x22 0 x.ten with addr := desc, launch := id }).2
  match devWrite s x a (leBytes 4 (badWord true).toNat) with
  | .ok s => s
  | .error f =>
    let r := schedRecord s x f a 1
    match r.1 with
    | some id => holdQueue r.2 x q id
    | none => r.2

/-- Refuse a launch whose start has been made (R248). -/
def refuseStarted (s : State) (x : Ctx) (q desc : Nat) (id : Word) : State :=
  refuseDesc (setQueue s x q { getQueue s x q with last := none }) x q desc id

/-- The head is refused for an access that has failed, whatever of it has been read (R304). -/
def refuseNow (s : State) (x : Ctx) (q : Nat) : State :=
  let k := getQueue s x q
  match k.head.map (·.desc) <|> k.taking with
  | none => s
  | some d => let r := startStep s x q; refuseStarted r.2 x q d r.1

/-- An access for a queue has failed (R304): it waits for its record, or the head is refused. -/
def queueFault (s : State) (x : Ctx) (q : Nat) (f : XlFault) (va acc : Nat) : State :=
  let r := schedRecord s x f va acc
  match r.1 with
  | some id => holdQueue r.2 x q id
  | none => refuseNow r.2 x q

/-- The head starts, unless the write of `QHEAD` meets a fault (R247, R304). -/
def startThen (s : State) (x : Ctx) (q : Nat) (go : Word × State → State) : State :=
  let a := queueAddr s x q + 0xC
  match devWrite s x a (leBytes 4 ((getQueue s x q).qhead.getD 0 + 1).toNat) with
  | .error f => queueFault s x q f a 1
  | .ok _ => go (startStep s x q)

/-- Start the head and refuse it. -/
def refuseHead (s : State) (x : Ctx) (q : Nat) : State :=
  match (getQueue s x q).head with
  | none => s
  | some h => startThen s x q (fun r => refuseStarted r.2 x q h.desc r.1)

/-- An acquiring read for a queue; on failure the state that follows from it. -/
def queueRead (s : State) (x : Ctx) (q va n : Nat) : Except State (List Byte × State) :=
  let r := devAcquire s x va n
  let s := devTouch r.1 x va n
  match devRead r.1 x va n with
  | .error f => .error (queueFault s x q f va 0)
  | .ok bs =>
    match devPoison r.1 x va n with
    | some g => .error (poisonKill s x g)
    | none => if r.2 then .ok (bs, s) else .error s

/-- A descriptor address that the scheduler cannot read (R247). -/
def badDesc (d : Nat) : Bool := d % 32 != 0 || decide (2 ^ 56 ≤ d)

/-- The descriptor at `QHEAD` becomes the head (R247): its address and its waited events are read and kept. -/
def takeHead (s : State) (x : Ctx) (q : Nat) (e : QEnt) : State :=
  let k := getQueue s x q
  if k.head.isSome || !e.served || headOf k e == k.tail then s
  else
    let s := setQueue s x q { k with qhead := some (headOf k e), taking := some 0 }
    match queueRead s x q (e.slot (headOf k e)) 8 with
    | .error s => s
    | .ok (bs, s) =>
      let d := leNat bs
      if badDesc d then setQueue s x q { getQueue s x q with head := some ⟨d, true, 0, 0⟩, taking := none }
      else
        match queueRead (setQueue s x q { getQueue s x q with taking := some d }) x q (d + 0x60) 32 with
        | .error s => s
        | .ok (ws, s) =>
          setQueue s x q { getQueue s x q with head := some ⟨d, false, BitVec.ofNat 256 (leNat ws), 0⟩, taking := none }

/-- The scheduler reads the queues of a context: it runs, and no record holds the read. -/
def queueReady (s : State) (x : Ctx) (q : Nat) : Bool :=
  contextRuns s x && (getTenant s x).block.isSome && (getTenant s x).held.isNone && (getQueue s x q).held.isNone

/-- A queue as the scheduler holds it once it has seen an entry: `QHEAD` and `BADDESC` are what it first read, and its own from then on
(R3); a queue that has been enabled loses `BADDESC` (R244). -/
def seenQueue (k : LQueue) (e : QEnt) : LQueue :=
  { k with qhead := some (headOf k e), bad := !(e.en && !k.en) && (k.bad || k.qhead.isNone && e.flags.getLsbD 31), en := e.en }

/-- A read-only word of an entry is put back where a store has changed it (R3). -/
def keepWord (s : State) (x : Ctx) (va : Nat) (found v : Word) : State := if found == v then s else putWord s x va v

/-- The scheduler sees an entry of the queue table. -/
def seeQueue (s : State) (x : Ctx) (q : Nat) (e : QEnt) : State :=
  let k := seenQueue (getQueue s x q) e
  let a := queueAddr s x q
  let s := setQueue s x q k
  keepWord (keepWord s x (a + 0xC) e.head (headOf k e)) x (a + 0x14) e.flags (badWord k.bad)

/-- The scheduler reads the entry of a queue by an acquire. -/
def readEntry (s : State) (x : Ctx) (q : Nat) : Except State (QEnt × State) :=
  match queueRead (setQueue s x q { getQueue s x q with taking := none }) x q (queueAddr s x q) 32 with
  | .error s => .error s
  | .ok (bs, s) => .ok (queueEnt bs, seeQueue s x q (queueEnt bs))

/-- The scheduler acquires a queue's `QTAIL`; it sees `QEN` change whether or not the context runs. -/
def pollQueue (s : State) (x : Ctx) (q : Nat) : State :=
  if !queueReady s x q then
    if (getTenant s x).block.isNone then s
    else
      match devRead s x (queueAddr s x q) 32 with
      | .ok bs =>
        if (devPoison s x (queueAddr s x q) 32).isSome then s
        else seeQueue (devTouch s x (queueAddr s x q) 32) x q (queueEnt bs)
      | .error _ => s
  else
    match readEntry s x q with
    | .error s => s
    | .ok (e, s) => takeHead (setQueue s x q { getQueue s x q with tail := e.tail }) x q e

def execQtailWriteSeen (w t q : Nat) (s : State) : Out := .next (pollQueue s ⟨w, t⟩ q)

def execQtailPoll (w t q : Nat) (s : State) : Out := .next (pollQueue s ⟨w, t⟩ q)

/-! ### LAUNCH and EVSIG (R249, R250, R363) -/

/-- The append of a launch has failed: the launch is refused, and nothing is appended (R304). No `LAUNCHID` has been assigned to it.
(Log entry 54, DEDUCED, unsafe.) -/
def refuseAppend (s : State) (i : Iss) (q d : Nat) (fs : List Nat) : Out :=
  let x := i.g.id.ctx
  let s := refuseDesc (setQueue s x q { getQueue s x q with app := none }) x q d 0xFFFFFFFF
  finish s (markNonRep (refresh s i)) fs [] [] 1

/-- An access of an append has failed (R304): it waits for its record, or the launch is refused. -/
def appendFault (s : State) (i : Iss) (q : Nat) (f : XlFault) (va acc d : Nat) (fs : List Nat) : Out :=
  let x := i.g.id.ctx
  let r := schedRecord s x f va acc
  match r.1 with
  | some id => .next (setQueue r.2 x q { getQueue r.2 x q with held := some id, app := some (i.core, i.slot, i.g.id.age, false) })
  | none => refuseAppend r.2 i q d fs

/-- The failed append of a queue that its group has not met yet. -/
def failedAppend (s : State) (k : LQueue) : Option (Nat × Nat × Nat × Bool) :=
  k.app.filter (fun a => a.2.2.2 && (groupOfAge s a.1 a.2.1 a.2.2.1).isSome)

/-- The append, once the descriptor address has been checked. -/
def launchAppend (s : State) (i : Iss) (q d : Nat) (fs : List Nat) : Out :=
  let x := i.g.id.ctx
  let k := getQueue s x q
  if failedAppend s k == some (i.core, i.slot, i.g.id.age, true) then refuseAppend s i q d fs
  else if k.held.isSome || (failedAppend s k).isSome then .next (holdIssue s)
  else
    let a := queueAddr s x q
    match devRead s x a 32 with
    | .error f => appendFault (devTouch s x a 32) i q f a 0 d fs
    | .ok bs =>
      match devPoison s x a 32 with
      | some g => .next (poisonKill s x g)
      | none =>
      let e := queueEnt bs
      if !e.served then .next (trapWord s i causePerm i.e.lanes a 0)
      else
        let r := releaseAt (devTouch s x a 32) i.core x .device (getCore s i.core).seq
        if !r.2 || (e.tail - headOf (getQueue s x q) e).toNat == 2 ^ e.log then .next (holdIssue r.1)
        else
          match devWrite r.1 x (e.slot e.tail) (leBytes 8 d) with
          | .error f => appendFault r.1 i q f (e.slot e.tail) 1 d fs
          | .ok s =>
            match devWrite s x (a + 8) (leBytes 4 (e.tail + 1).toNat) with
            | .error f => appendFault s i q f (a + 8) 1 d fs
            | .ok s => finish s (markNonRep (refresh s i)) fs [] [] 1

def execLaunch (n : BitVec 6) (sa : Reg) (s : State) : Out :=
  runLow s [sa.toNat, sa.toNat + 1] false fun i l =>
    let d := (readPair i l sa.toNat).toNat
    if badDesc d then .next (trapWord s i causeMisalign i.e.lanes d 0)
    else launchAppend s i n.toNat d [sa.toNat, sa.toNat + 1]

/-- Set or clear one event of a context. -/
def changeEvent (s : State) (x : Ctx) (e : Nat) (on : Bool) : State :=
  let t := getTenant s x
  let b : BitVec 256 := BitVec.ofNat 256 (2 ^ e)
  setTenant s x { t with events := if on then t.events ||| b else t.events &&& ~~~b }

def execEvsigSet (sa : Reg) (s : State) : Out :=
  runLow s [sa.toNat] false fun i l =>
    let e := (readLane i l sa.toNat).toNat
    if 255 < e then .next (illegal s i i.e.lanes)
    else
      let r := releaseAt s i.core i.g.id.ctx .device (getCore s i.core).seq
      if !r.2 then .next (holdIssue r.1)
      else finishWith r.1 (markNonRep (refresh r.1 i)) [sa.toNat] [] [] 1 (fun s => changeEvent s i.g.id.ctx e true)

def execEvsigClr (sa : Reg) (s : State) : Out :=
  runLow s [sa.toNat] false fun i l =>
    let e := (readLane i l sa.toNat).toNat
    if 255 < e then .next (illegal s i i.e.lanes)
    else finishWith s (markNonRep i) [sa.toNat] [] [] 1 (fun s => changeEvent s i.g.id.ctx e false)

/-! ### The start (R247, R248) -/

/-- The waiting gangs of a launch. -/
def gangWaits (s : State) (x : Ctx) (n : Nat) : Bool :=
  (fvals (getWing s x.wing).waiting).any (fun g => g.ctx == x && g.launch == n)

/-- The queue's previous launch has been placed in full, aborted or refused (R247). -/
def lastPlaced (s : State) (x : Ctx) (q : Nat) : Bool :=
  match (getQueue s x q).last with
  | none => true
  | some n =>
    match getLaunch s x n with
    | none => true
    | some l => l.aborted || (l.nextGang == l.gangs && !gangWaits s x n)

/-- Bytes of scratchpad by a two-bit code (R246). -/
def scratchOf (c : Nat) : Nat := if c == 0 then 0 else if c == 1 then 131072 else if c == 2 then 262144 else 327680

/-- The launch that a descriptor and a kernel descriptor describe (R245, R246). -/
def launchOf (id : Word) (desc q pri : Nat) (d k : List Byte) : Launch :=
  let ap := fieldAt d 8 8
  { launchId := id, desc := desc, queue := q, pri := pri,
    kentry := BitVec.ofNat 56 (fieldAt d 0 8) + (bw (fieldAt k 0 4)).signExtend 56,
    ap := if ap == 0 then none else some (BitVec.ofNat 56 ap), cloak := fieldAt d 0x10 8, cloakN := fieldAt d 0x20 4, cloakUsed := [],
    gangs := fieldAt d 0x18 4, groups := bitsOf (fieldAt d 0x1C 4) 12 8, blocks := bitsOf (fieldAt d 0x1C 4) 2 0,
    minRegs := bitsOf (fieldAt k 4 4) 30 24, scratch := scratchOf (bitsOf (fieldAt k 4 4) 23 22),
    args := (List.range 8).map (fun j => bw (fieldAt d (0x40 + 4 * j) 4)), sets := BitVec.ofNat 256 (fieldAt d 0x80 32),
    nextGang := 0, resident := 0, apOn := [], aborted := false }

/-- The fields of a launch descriptor are in range and its reserved fields zero (R245). -/
def descOk (d : List Byte) : Bool :=
  let al := fun (a n : Nat) => a % n == 0 && decide (a < 2 ^ 56)
  let w := fieldAt d 0x1C 4
  let g := bitsOf w 12 8
  let b := bitsOf w 2 0
  al (fieldAt d 0 8) 32 && al (fieldAt d 8 8) 4 && al (fieldAt d 0x10 8) 4096 && decide (1 ≤ fieldAt d 0x18 4)
    && decide (fieldAt d 0x18 4 ≤ 16777216) && bitsOf w 31 13 == 0 && bitsOf w 7 3 == 0 && decide (1 ≤ g) && decide (g ≤ 16)
    && decide (1 ≤ b) && decide (b ≤ 4) && decide (b * g ≤ fieldAt d 0x20 4) && bitsOf (fieldAt d 0x24 4) 31 1 == 0
    && fieldAt d 0x28 24 == 0

/-- The kernel descriptor is one of an ordinary kernel (R246). (Log entry 70, DESIGN CHOICE, safe.) -/
def kernelOk (k : List Byte) : Bool :=
  let w := fieldAt k 4 4
  !testBit w 31 && decide (8 ≤ bitsOf w 30 24) && decide (bitsOf w 30 24 ≤ 64) && bitsOf w 21 14 == 0 && bitsOf w 13 0 == 0
    && fieldAt k 8 4 == 0

/-- The live clusters of a wing. -/
def wingClusters (s : State) (w : Nat) : List Nat :=
  (List.range Config.numClusters).filter (fun n => liveCluster s n && (getWing s w).wclu.getLsbD n)

/-- The cores that a launch may use: with an access processor, those whose own serves no other launch (R136). -/
def openCores (s : State) (x : Ctx) (n : Nat) (l : Launch) (cl : Nat) : List Nat :=
  (coresOf cl).filter (fun c => l.ap.isNone || apFree (getCore s c) x n)

/-- What R248 asks beyond the fields: a block fits an empty core, and some cluster has cores enough. -/
def launchFits (s : State) (x : Ctx) (n : Nat) (l : Launch) : Bool :=
  let room := poolRoom (splitWing s x.wing)
  let mins := l.groups * l.minRegs
  !(l.ap.isSome && l.scratch == 0) && decide (mins ≤ room.2) && decide (4 * mins ≤ room.1)
    && decide (l.groups ≤ (slotRange s x).length)
    && (wingClusters s x.wing).any (fun cl => decide (l.blocks ≤ (openCores s x n l cl).length))

/-- A launch that has started, placed nowhere yet. -/
def addLaunch (s : State) (x : Ctx) (q : Nat) (l : Launch) : State :=
  let t := getTenant s x
  let n := t.launchSeq
  let s := setTenant s x { t with launches := fset t.launches n l, launchSeq := n + 1 }
  setQueue s x q { getQueue s x q with last := some n }

/-- Start the head, whose descriptor has been read: the kernel descriptor follows, and the launch runs or is refused. -/
def startLaunch (s : State) (x : Ctx) (q : Nat) (h : QHead) (pri : Nat) (d : List Byte) : State :=
  let s := setQueue s x q { getQueue s x q with head := some { h with consume := if testBit (fieldAt d 0x24 4) 0 then h.waits else 0 } }
  if !descOk d then refuseHead s x q
  else
    match queueRead s x q (fieldAt d 0 8) 32 with
    | .error s => s
    | .ok (k, s) =>
      let l := launchOf (getTenant s x).launchCtr h.desc q pri d k
      if kernelOk k && launchFits s x (getTenant s x).launchSeq l then startThen s x q (fun r => addLaunch r.2 x q l)
      else refuseHead s x q

/-- `LAUNCH_START`: the head of a queue is tested, and starts. -/
def launchStart (s : State) (x : Ctx) (q : Nat) : State :=
  if !(serving s x && queueReady s x q) then s
  else
    match readEntry s x q with
    | .error s => s
    | .ok (e, s) =>
      if !e.served then s
      else
        match (getQueue s x q).head with
        | none => takeHead s x q e
        | some h =>
          if h.bad then refuseHead s x q
          else if h.waits &&& ~~~(getTenant s x).events != 0 || !lastPlaced s x q then s
          else
            match queueRead s x q h.desc 160 with
            | .error s => s
            | .ok (d, s) => startLaunch s x q h e.pri d

def execLaunchStart (w t q : Nat) (s : State) : Out := .next (launchStart s ⟨w, t⟩ q)

/-! ### Placement (R251 to R254) -/

/-- The lowest free cloakroom area of a launch. -/
def freeArea (l : Launch) : Nat := ((List.range (l.cloakUsed.length + 1)).find? (fun k => !l.cloakUsed.contains k)).getD 0

/-- Start one group of a block (R254). -/
def startGroup (x : Ctx) (n gang b key c : Nat) (s : State) (j : Nat) : State :=
  match getLaunch s x n with
  | none => s
  | some l =>
    let k := freeArea l
    let id : GroupId :=
      { ctx := x, launch := n, launchId := l.launchId, gang := gang, block := b, group := j, blockKey := key, minRegs := l.minRegs,
        cloak := l.cloak + Config.cloakBytes * k, age := 0 }
    let g := freshGroup .compute id allLanes l.kentry
    let use := (getCore s c).seq
    let g := { g with names := (l.args.zipIdx).map (fun p => (p.2, ⟨.uniform p.1, false, use⟩)),
                      frontier := [arrive s c x l.kentry allLanes 0] }
    match addGroup s c g with
    | none => s
    | some r => engineRoom (setLaunch r.2 x n { l with cloakUsed := l.cloakUsed ++ [k] }) c r.1

/-- The access processor of a core starts for a launch, as one group of 64 lanes, with the first of the launch's blocks there (R136, R137). (Log entry 35, DEDUCED, unsafe.) -/
def startAp (s : State) (c : Nat) (x : Ctx) (n key : Nat) (l : Launch) : State :=
  match l.ap, (getCore s c).apq with
  | some pc, none =>
    let q := getCore s c
    let id : GroupId :=
      { ctx := x, launch := n, launchId := l.launchId, gang := 0, block := 0, group := 0, blockKey := key, minRegs := 0, cloak := 0,
        age := q.seq }
    let g := freshGroup .ap id allLanes pc
    let g := { g with names := (l.args.zipIdx).map (fun p => (p.2, ⟨.uniform p.1, false, q.seq⟩)),
                      frontier := [arrive s c x pc allLanes 0], readyAt := s.clock }
    let s := setCore s c { q with seq := q.seq + 1, apq := some ⟨x, n, key, [], []⟩ }
    setGroup s c Config.apSlot g
  | _, _ => s

/-- A launch's first block on a core starts its access processor there (R136). -/
def firstAp (s : State) (c : Nat) (x : Ctx) (n key : Nat) : State :=
  match getLaunch s x n with
  | none => s
  | some l =>
    if l.ap.isNone || l.apOn.contains c then s else startAp (setLaunch s x n { l with apOn := l.apOn ++ [c] }) c x n key l

/-- Start block b of a gang on its core (R252 to R254). -/
def startBlock (x : Ctx) (n gang cl : Nat) (s : State) (b : Nat) : State :=
  match getLaunch s x n with
  | none => s
  | some l =>
    let c := 4 * cl + b
    let r := addBlock (countPass s c x (some (n, gang))) c
      { ctx := x, launch := n, gang := gang, block := b, cluster := cl, groups := l.groups, scratch := l.scratch,
        apUsed := l.ap.isSome, mem := [], absent := [], poison := [], ended := false, win := false, books := [] }
    let s := invalidateAt (setLaunch r.2 x n { l with resident := l.resident + 1 }) c x .system
    let s := (List.range l.groups).foldl (startGroup x n gang b r.1 c) s
    firstAp s c x n r.1

/-- Whether block b of a gang can start now (R251). -/
def blockFits (s : State) (x : Ctx) (n gang cl b : Nat) : Bool :=
  match getLaunch s x n with
  | none => false
  | some l => areasLeft l && mayPlace s (4 * cl + b) x (launchNeed n l) (some (n, gang))

/-- Start the blocks given that fit, in turn: those that have started. -/
def startBlocks (x : Ctx) (n gang cl : Nat) : List Nat → State → List Nat × State
  | [], s => ([], s)
  | b :: bs, s =>
    if blockFits s x n gang cl b then
      let r := startBlocks x n gang cl bs (startBlock x n gang cl s b)
      (b :: r.1, r.2)
    else startBlocks x n gang cl bs s

/-- How many blocks of the next gang of a launch fit on a cluster now. -/
def fitCount (s : State) (x : Ctx) (n cl : Nat) (l : Launch) : Nat :=
  let k := ((List.range l.blocks).filter (fun b => mayPlace s (4 * cl + b) x (launchNeed n l) (some (n, l.nextGang)))).length
  min k ((l.cloakN - l.cloakUsed.length) / l.groups)

def setWaiting (s : State) (w key : Nat) (g : Option WaitGang) : State :=
  let k := getWing s w
  setWing s w { k with waiting := match g with
    | some g => fset k.waiting key g
    | none => ferase k.waiting key }

/-- A waiting gang starts those of its blocks that now fit (R252, R253). -/
def placeWaiting (x : Ctx) (s : State) (p : Nat × WaitGang) : State :=
  if p.2.ctx != x then s
  else
    match getLaunch s x p.2.launch with
    | none => setWaiting s x.wing p.1 none
    | some l =>
      let cl := p.1 % 128
      let todo := (List.range l.blocks).filter (fun b => !p.2.placed.contains b)
      let r := startBlocks x p.2.launch p.2.gang cl todo s
      let placed := p.2.placed ++ r.1
      setWaiting r.2 x.wing p.1 (if placed.length == l.blocks then none else some { p.2 with placed := placed })

/-- The launch whose next gang is placed (R252): the highest priority, then the earliest start. -/
def nextLaunch (t : Tenant) : Option (Nat × Launch) :=
  (t.launches.filter (fun p => !p.2.aborted && decide (p.2.nextGang < p.2.gangs))).foldl (fun (b : Option (Nat × Launch)) p =>
    match b with
    | none => some p
    | some r => if r.2.pri < p.2.pri then some p else some r) none

/-- The cluster of a gang (R252), and whether the whole gang fits it now. -/
def chooseCluster (s : State) (x : Ctx) (n : Nat) (l : Launch) : Option (Nat × Bool) :=
  let cs := (wingClusters s x.wing).map (fun cl => (cl, fitCount s x n cl l))
  match cs.find? (fun p => p.2 == l.blocks) with
  | some p => some (p.1, true)
  | none =>
    (cs.filter (fun p => (fget (getWing s x.wing).waiting (waitKey x p.1)).isNone)).foldl (fun (b : Option (Nat × Nat)) p => match b with
      | none => some p
      | some r => if r.2 < p.2 then some p else some r) none |>.map (fun p => (p.1, false))

/-- The next gang takes its cluster; what does not fit there waits. -/
def placeGang (s : State) (x : Ctx) (n : Nat) (l : Launch) : State :=
  match chooseCluster s x n l with
  | none => s
  | some (cl, _) =>
    let gang := l.nextGang
    let s := setLaunch s x n { l with nextGang := gang + 1 }
    let r := startBlocks x n gang cl (List.range l.blocks) s
    if r.1.length == l.blocks then r.2
    else setWaiting r.2 x.wing (waitKey x cl) (some { ctx := x, launch := n, gang := gang, placed := r.1, passes := 0, closed := [] })

/-- `GANG_PLACE`: the waiting gangs of the running context, then its next gang. -/
def gangPlace (s : State) (w : Nat) : State :=
  let x : Ctx := ⟨w, (getWing s w).curt.toNat⟩
  if !serving s x then s
  else
    let s := (getWing s w).waiting.foldl (placeWaiting x) s
    match nextLaunch (getTenant s x) with
    | none => s
    | some p => placeGang s x p.1 p.2

def execGangPlace (w : Nat) (s : State) : Out := .next (gangPlace s w)

/-! ### Completion (R255) -/

/-- Something that a launch has written has not performed yet. -/
def writesLeft (s : State) (x : Ctx) (n : Nat) : Bool :=
  s.cores.any (fun c => c.2.sb.any (fun e => e.ctx == x && !e.win && e.launch == n) || c.2.comb.any (fun e => e.ctx == x))
    || s.clusters.any (fun k => k.2.queue.any (fun o => o.ctx == x && !o.win && o.launch == n)
        || k.2.resv.any (fun o => o.ctx == x && !o.win && o.launch == n))
    || peerPending s x

/-- `LAUNCH_COMPLETE`: every block has ended and every write has performed; the set events are set together. -/
def launchComplete (s : State) (x : Ctx) (n : Nat) : State :=
  match getLaunch s x n with
  | none => s
  | some l =>
    if l.aborted || l.nextGang != l.gangs || gangWaits s x n || l.resident != 0 then s
    else
      let s := (fkeys s.cores).foldl (fun s c => (releaseAt s c x .system (getCore s c).seq).1) s
      if writesLeft s x n then s
      else
        let t := getTenant s x
        dropForwards (setTenant s x { t with events := t.events ||| l.sets, launches := ferase t.launches n }) x n

def execLaunchComplete (w t i : Nat) (s : State) : Out := .next (launchComplete s ⟨w, t⟩ i)

end Sys2Proof.Machine
end

