-- ==== Sys2Proof/Machine/Faults.lean ====
section
/-!
DEFINITION. Translation walks that end after issue (R301, R310), invalidations (R302, R303), and the fault queue (R304 to R311): its
records, and what the host's answers do to the work that a record holds.
-/
namespace Sys2Proof.Machine

/-! ### Work that a record holds -/

def mapCores (s : State) (f : State → Nat → State) : State := (fkeys s.cores).foldl f s

def mapClusters (s : State) (f : State → Nat → State) : State := (fkeys s.clusters).foldl f s

/-- A group that a record holds goes on. -/
def wakeHeld (w id now : Nat) (g : Group) : Group :=
  if g.id.ctx.wing != w then g
  else
    match g.gpark with
    | .fault n _ => if n == id then { g with gpark := .none, readyAt := now } else g
    | .storeFault n => if n == id then { g with gpark := .none, readyAt := now } else g
    | _ => g

/-- Pieces of an engine operation that a record holds are to be issued again. -/
def wakePieces (id : Nat) (r : Option (List (Nat × Option Nat))) : Option (List (Nat × Option Nat)) :=
  r.map (fun ps => ps.map (fun p => if p.2 == some id then (p.1, none) else p))

/-- A context's held accesses go on. -/
def wakeTenant (w id now : Nat) (t : Tenant) : Tenant :=
  let un := fun (h : Option Nat) => if h == some id then none else h
  { t with held := un t.held, streams := t.streams.map (fun k => (k.1, { k.2 with held := un k.2.held })),
           queues := t.queues.map (fun q => (q.1, { q.2 with held := un q.2.held })),
           saved := t.saved.map (fun v => { v with cores := v.cores.map (fun c =>
             { c with groups := c.groups.map (fun p => (p.1, wakeHeld w id now p.2)) }) }) }

/-- All the work that a record holds walks again (R307). -/
def releaseHeld (s : State) (w id : Nat) : State :=
  let s := mapCores s (fun s c =>
    let q := getCore s c
    setCore s c { q with groups := q.groups.map (fun p => (p.1, wakeHeld w id s.clock p.2)),
                         sb := q.sb.map (fun e => if e.ctx.wing == w && e.heldBy == some id then { e with xl := .walking } else e) })
  let s := mapClusters s (fun s n =>
    let k := getCluster s n
    setCluster s n { k with queue := k.queue.map (fun o => if o.ctx.wing == w then { o with rest := wakePieces id o.rest } else o),
                            resv := k.resv.map (fun o => if o.ctx.wing == w then { o with rest := wakePieces id o.rest } else o) })
  let k := getWing s w
  setWing s w { k with tenants := k.tenants.map (fun t => (t.1, wakeTenant w id s.clock t.2)) }

def dropRecord (s : State) (w id : Nat) : State :=
  let k := getWing s w
  setWing s w { k with faults := k.faults.filter (fun r => r.id != id) }

/-! ### A record that fails (R304) -/

/-- The group that a record holds at its access: core, slot, group and lanes. -/
def faultGroup (s : State) (w id : Nat) : Option (Nat × Nat × Group × LaneSet) :=
  s.cores.findSome? (fun c => c.2.groups.findSome? (fun p =>
    match p.2.gpark with
    | .fault n m => if n == id && p.2.id.ctx.wing == w then some (c.1, p.1, p.2, m) else none
    | _ => none))

/-- A lane access or a fetch fails: `XLATE` at its word; the access processor's launch is aborted. -/
def failGroup (s : State) (c k : Nat) (g : Group) (m : LaneSet) (r : FaultRec) : State :=
  let g := { g with gpark := .none }
  if isAp g then failAbort s g.id.ctx false g.id.launch ((g.active.map (·.pc.toNat)).getD r.addr) r
  else
    match g.active with
    | some e =>
      match e.clause with
      | some cc => trapWord s ⟨c, k, g, e, cc⟩ causeXlate m r.addr 0
      | none => setGroup s c k g
    | none =>
      match g.frontier.find? (fun e => e.clause.isNone && e.pc.toNat == r.addr && (e.lanes &&& m) != 0) with
      | some e => headerTrap s c k g e causeXlate r.addr 0 e.lanes false false 0
      | none => setGroup s c k { g with readyAt := s.clock }

/-- Stores of a core never perform, nor the releases of their work that must cover them (R162): they leave its buffer, and the
work is aborted. -/
def failStores (s : State) (c : Nat) (es : List SbEntry) (r : FaultRec) : State :=
  let q := getCore s c
  let lost := lostWith es q.sb
  let s := setCore s c { q with sb := q.sb.filter (fun e => !lost.contains e) }
  let s := lost.foldl (fun s e => flagDone s c e.slot e.age e.flag) s
  match es with
  | e :: _ => failAbort s e.ctx e.win e.launch 0 r
  | [] => s

/-- The held stores of a record. -/
def failHeldStores (s : State) (w : Nat) (r : FaultRec) : State :=
  mapCores s (fun s c => failStores s c ((getCore s c).sb.filter (fun e => e.ctx.wing == w && e.heldBy == some r.id)) r)

/-- A record holds a piece of an operation. -/
def holdsPiece (id : Nat) (r : Option (List (Nat × Option Nat))) : Bool :=
  match r with
  | some ps => ps.any (fun p => p.2 == some id)
  | none => false

/-- An engine operation ends; what it has written stands. -/
def failEngines (s : State) (w : Nat) (r : FaultRec) : State :=
  mapClusters s (fun s n =>
    let k := getCluster s n
    let s := (k.queue.filter (fun o => o.ctx.wing == w && holdsPiece r.id o.rest)).foldl (fun s o =>
      failAbort (endEq s n o) o.ctx o.win o.launch 0 r) s
    (k.resv.filter (fun o => o.ctx.wing == w && holdsPiece r.id o.rest)).foldl (fun s o =>
      failAbort (endRt s n o) o.ctx o.win o.launch 0 r) s)

/-- A scheduler's access fails: the context is killed, the trap descriptor taken as absent, or the launch refused: the one that an append
has brought, or the head; a launch whose `BADDESC` could not be written has been refused. -/
def failSched (s : State) (x : Ctx) (r : FaultRec) : State :=
  let t := getTenant s x
  if t.held == some r.id then
    match t.block with
    | none => overrunKill (setTenant s x { t with held := none, blockFail := true }) x false
    | some b =>
      if b.trapbase != 0 && r.addr / 256 * 256 == b.trapbase then setTenant s x { t with held := none, trapFail := true }
      else overrunKill (setTenant s x { t with held := none }) x false
  else
    match t.queues.find? (fun q => q.2.held == some r.id) with
    | some q =>
      let s := setQueue s x q.1 { q.2 with held := none, app := q.2.app.map (fun a => (a.1, a.2.1, a.2.2.1, true)) }
      if q.2.app.any (fun a => !a.2.2.2) || r.addr == queueAddr s x q.1 + 0x14 then s else refuseNow s x q.1
    | none => s

/-- `FAIL` for the work that a record holds (R304). -/
def failHeld (s : State) (w : Nat) (r : FaultRec) : State :=
  let x : Ctx := ⟨w, r.ten⟩
  if r.kind == 0x11 then failHeldStores s w r
  else if r.kind == 0x12 then failEngines s w r
  else if r.kind == 0x14 then
    match (getTenant s x).streams.find? (fun k => k.2.held == some r.id) with
    | some k => disarmStream s x k.1
    | none => s
  else if r.kind == 0x15 then failSched s x r
  else
    match faultGroup s w r.id with
    | some p => failGroup s p.1 p.2.1 p.2.2.1 p.2.2.2 r
    | none => s

/-! ### Records (R305, R306, R319) -/

/-- Whether the group of a held engine operation has ended (R305). -/
def engineExited (s : State) (w id : Nat) : Bool :=
  s.clusters.any (fun n => n.2.queue.any (fun o => o.ctx.wing == w && holdsPiece id o.rest && (groupOfAge s o.core o.slot o.age).isNone)
    || n.2.resv.any (fun o => o.ctx.wing == w && holdsPiece id o.rest && (groupOfAge s o.core o.slot o.age).isNone))

/-- Whether the group of a held store has ended (R311). -/
def storeExited (s : State) (w : Nat) (r : FaultRec) : Bool :=
  s.cores.any (fun c => c.2.sb.any (fun e => e.ctx.wing == w && e.heldBy == some r.id && (groupOfAge s c.1 e.slot e.age).isNone))

/-- The 32 B of a record. -/
def recordBytes (r : FaultRec) : List Byte :=
  let b := fun (p : Bool) (n : Nat) => if p then 2 ^ n else 0
  leBytes 4 (r.kind * 2 ^ 24 + r.cause * 2 ^ 16 + r.ten * 2 ^ 13 + b r.replay 12 + b r.exited 11 + b r.stage2 10 + r.acc * 2 ^ 8
      + b r.fsize 7 + r.clu)
    ++ leBytes 4 r.rgnCnt.toNat ++ leBytes 8 r.addr ++ leBytes 4 r.launch.toNat ++ leBytes 4 r.gangWord.toNat
    ++ leBytes 8 (r.coreIx * 2 ^ 62 + r.rgnPc.toNat)

/-- `FAULT_RECORD_WRITE`: the next record goes to the queue, where there is room. Without a queue it is dropped and counted, and a
replayable fault fails. -/
def faultRecordWrite (s : State) (w : Nat) : State :=
  let k := getWing s w
  match if s.booterr then none else k.faults.find? (fun r => r.seq.isNone) with
  | none => s
  | some r =>
    if !hasFaultQueue k then
      let s := dropRecord s w r.id
      let k := getWing s w
      let s := setWing s w { k with fqlost := bump k.fqlost }
      if r.replay then failHeld s w r else s
    else if (k.fqtail - k.fqhead).toNat == 2 ^ k.fqlog.toNat then s
    else
      let r := { r with exited := r.exited || (r.kind == 0x11 && storeExited s w r) || (r.kind == 0x12 && engineExited s w r.id), seq := some k.fqtail }
      let s := homeWrite s ⟨.host, k.fqbase.toNat + 32 * (k.fqtail.toNat % 2 ^ k.fqlog.toNat)⟩ (recordBytes r)
      let faults := if r.replay then k.faults.map (fun q => if q.id == r.id then r else q) else k.faults.filter (fun q => q.id != r.id)
      notifyFault (setWing s w { k with faults := faults, fqtail := k.fqtail + 1 }) w

def execFaultRecordWrite (w : Nat) (s : State) : Out := .next (faultRecordWrite s w)

/-! ### The host's answer (R307 to R309) -/

/-- The pending record that `FQRSEQ` names, if it waits for an action. -/
def namedRecord (k : Wing) : Option FaultRec :=
  k.faults.find? (fun r => r.seq == some k.fqrseq && r.replay && !r.answered)

def fqReplay (s : State) (w : Nat) : State :=
  match namedRecord (getWing s w) with
  | none => s
  | some r => releaseHeld (dropRecord s w r.id) w r.id

def execFqReplay (w : Nat) (s : State) : Out := .next (fqReplay s w)

/-- A `FAIL` given while the tenant is away takes effect at its restore. -/
def fqFail (s : State) (w : Nat) : State :=
  let k := getWing s w
  match namedRecord k with
  | none => s
  | some r =>
    if (getTenant s ⟨w, r.ten⟩).saved.isSome then
      setWing s w { k with faults := k.faults.map (fun q => if q.id == r.id then { q with answered := true } else q) }
    else releaseHeld (failHeld (dropRecord s w r.id) w r) w r.id

def execFqFail (w : Nat) (s : State) : Out := .next (fqFail s w)

/-- The answers that waited for a tenant's restore. -/
def lateFails (s : State) (x : Ctx) : State :=
  ((getWing s x.wing).faults.filter (fun r => r.answered && r.ten == x.ten)).foldl (fun s r =>
    releaseHeld (failHeld (dropRecord s x.wing r.id) x.wing r) x.wing r.id) s

/-! ### Walks of stores (R301, R310) -/

/-- Two addresses of one context that one walk serves: they agree in bits [55:12] (R301). -/
def onePage (a e : SbEntry) : Bool := e.ctx == a.ctx && e.va / 4096 == a.va / 4096

/-- Entries of the store buffer whose walk is the one given and that belong to one operation (R307). -/
def sameWalk (a e : SbEntry) : Bool := onePage a e && e.opNo == a.opNo && e.xl == .walking

/-- An earlier record of the operation on the page. -/
def walkRecord (q : Core) (a : SbEntry) : Option Nat :=
  (q.sb.filter (fun e => onePage a e && e.opNo == a.opNo)).findSome? (·.heldBy)

/-- The walk of an entry ends in a fault: the entries of its operation that wait for it are held under one record, or the fault is
a `FAIL` at once. The record has the lowest faulting address (R306). -/
def walkFault (s : State) (c : Nat) (a : SbEntry) (f : XlFault) : State :=
  let q := getCore s c
  let es := q.sb.filter (sameWalk a)
  let hold := fun (s : State) (id : Nat) =>
    let q := getCore s c
    setCore s c { q with sb := q.sb.map (fun e => if sameWalk a e then { e with xl := .held id } else e) }
  let low := es.foldl (fun m e => min m e.va) a.va
  let r := xlRecord { ((es.head?).getD a).frec with addr := low } f
  match if f.replay then walkRecord q a else none with
  | some id => hold s id
  | none =>
    let r := { r with exited := !f.replay && (groupOfAge s c a.slot a.age).isNone }
    let t := addRecord s a.ctx.wing r
    match f.replay, t.1 with
    | true, some id => hold t.2 id
    | _, _ => failStores t.2 c (if es.isEmpty then [a] else es) r

/-- The cores of a core's quadrant (R9, R301). -/
def quadrantOf (s : State) (c : Nat) : List Nat := (fkeys s.cores).filter (fun d => d / 24 == c / 24)

/-- The walk of an entry ends, for the entry and for those that joined it, on every core of the quadrant (R301): each is translated, or
meets the fault as its own operation. -/
def endWalk (s : State) (c : Nat) (a : SbEntry) : State :=
  (quadrantOf s c).foldl (fun s d =>
    ((getCore s d).sb.filter (fun e => onePage a e && e.xl == .walking)).foldl (fun s e =>
      match (getCore s d).sb.find? (fun y => y.seq == e.seq && y.va == e.va) with
      | none => s
      | some e => if e.xl != .walking then s
        else match resolveEntry s e with
          | .ok _ => settleEntry s d e
          | .error f => walkFault s d e f) s) s

/-- `WALK_COMPLETE`: the walk of an entry of a core's store buffer ends, translated or in a fault. An entry whose place is known may
still find its port down (R321). -/
def walkComplete (s : State) (c i : Nat) : State :=
  match (getCore s c).sb[i]? with
  | none => s
  | some e =>
    if e.heldBy.isSome || paused s e.ctx then s
    else if e.xl == .walking then endWalk s c e
    else
      match resolveEntry s e with
      | .ok _ => s
      | .error f => walkFault s c e f

def execWalkComplete (core i : Nat) (s : State) : Out := .next (walkComplete s core i)

/-! ### Invalidations (R302, R303) -/

/-- Start an invalidation: the scope, the tenant. (Log entry 56, DEDUCED, safe.) -/
def xinvStart (s : State) (w scope t : Nat) : State :=
  let k := getWing s w
  setWing s w { k with xscope := BitVec.ofNat 2 scope, xten := BitVec.ofNat 3 t, xbusy := true }

def execXinvPage (w t : Nat) (s : State) : Out := .next (xinvStart s w 0 t)

def execXinvTenant (w t : Nat) (s : State) : Out := .next (xinvStart s w 1 t)

def execXinvWing (w t : Nat) (s : State) : Out := .next (xinvStart s w 2 t)

/-- A translation that an invalidation covers: at `XSCOPE` 0 every fragment of the stage-1 page that contains the address (R302, R303). -/
def xinvCovers (k : Wing) (w : Nat) (e : TlbEntry) : Bool :=
  e.ctx.wing == w && (k.xscope == 2 || e.ctx.ten == k.xten.toNat)
    && (k.xscope != 0 || decide (e.va / 2 ^ e.log1 = k.xaddr.toNat / 2 ^ e.log1))

/-- The tenants that an invalidation covers. -/
def xinvTenants (k : Wing) : List Nat := if k.xscope == 2 then List.range Config.numTenants else [k.xten.toNat]

/-- A translated store of a covered tenant has not performed. -/
def xinvLeft (s : State) (w : Nat) (ts : List Nat) : Bool :=
  s.cores.any (fun c => c.2.sb.any (fun e => e.ctx.wing == w && ts.contains e.ctx.ten && (match e.xl with | .done _ => true | _ => false)))
    || ts.any (fun t => peerPending s ⟨w, t⟩)

/-- `XINV_COMPLETE`: accesses that used a covered translation have performed at `SYSTEM`, and no cache holds one any more. -/
def xinvComplete (s : State) (w : Nat) : State :=
  if !(getWing s w).xbusy then s
  else
    let ts := xinvTenants (getWing s w)
    let s := mapCores s (fun s c => ts.foldl (fun s t => (releaseAt s c ⟨w, t⟩ .system (getCore s c).seq).1) s)
    let k := getWing s w
    let s := mapCores s (fun s c => let q := getCore s c; setCore s c { q with tlb := q.tlb.filter (fun e => !xinvCovers k w e) })
    let s := mapClusters s (fun s n => let q := getCluster s n; setCluster s n { q with tlb := q.tlb.filter (fun e => !xinvCovers k w e) })
    if xinvLeft s w ts then s else setWing s w { getWing s w with xbusy := false }

def execXinvComplete (w : Nat) (s : State) : Out := .next (xinvComplete s w)

end Sys2Proof.Machine
end

