-- ==== Sys2Proof/Machine/Keccak.lean ====
section
/-!
DEFINITION. SHAKE256, by which an attestation report digests its contents (R324): the sponge of FIPS 202 over Keccak-f[1600]. The standard
stands outside the spec. (Log entry 13, PRESUMED, unsafe.)
-/
namespace Sys2Proof.Machine

/-- Lane (x, y) of a state of 25 words, at 5y + x. -/
def kLane (a : List DWord) (x y : Nat) : DWord := a.getD (5 * (y % 5) + x % 5) 0

/-- Offsets of the rotations, by 5y + x. -/
def kOffsets : List Nat := [0, 1, 62, 28, 27, 36, 44, 6, 55, 20, 3, 10, 43, 25, 39, 41, 45, 15, 21, 8, 18, 2, 61, 56, 14]

/-- The constants of the 24 rounds. -/
def kRounds : List DWord :=
  [0x0000000000000001, 0x0000000000008082, 0x800000000000808A, 0x8000000080008000, 0x000000000000808B, 0x0000000080000001,
   0x8000000080008081, 0x8000000000008009, 0x000000000000008A, 0x0000000000000088, 0x0000000080008009, 0x000000008000000A]
  ++ [0x000000008000808B, 0x800000000000008B, 0x8000000000008089, 0x8000000000008003, 0x8000000000008002, 0x8000000000000080,
   0x000000000000800A, 0x800000008000000A, 0x8000000080008081, 0x8000000000008080, 0x0000000080000001, 0x8000000080008008]

/-- The parities of the columns, mixed into every lane. -/
def kTheta (a : List DWord) : List DWord :=
  let c := (List.range 5).map (fun x => (List.range 5).foldl (fun p y => p ^^^ kLane a x y) 0)
  let d := (List.range 5).map (fun x => c.getD ((x + 4) % 5) 0 ^^^ (c.getD ((x + 1) % 5) 0).rotateLeft 1)
  (List.range 25).map (fun j => kLane a j (j / 5) ^^^ d.getD (j % 5) 0)

/-- The lanes rotated, and moved: lane (y, 2x + 3y) is lane (x, y). -/
def kRhoPi (a : List DWord) : List DWord :=
  (List.range 25).map (fun j =>
    let x := (j % 5 + 3 * (j / 5)) % 5
    let y := j % 5
    (kLane a x y).rotateLeft (kOffsets.getD (5 * y + x) 0))

/-- The rows combined, and the constant of the round. -/
def kChi (rc : DWord) (a : List DWord) : List DWord :=
  (List.range 25).map (fun j =>
    let v := kLane a j (j / 5) ^^^ (~~~kLane a (j + 1) (j / 5) &&& kLane a (j + 2) (j / 5))
    if j == 0 then v ^^^ rc else v)

def keccakF (a : List DWord) : List DWord := kRounds.foldl (fun a rc => kChi rc (kRhoPi (kTheta a))) a

/-- Bytes of a block that the sponge takes in at once. -/
def shakeRate : Nat := 136

/-- A message padded to whole blocks, with the suffix of SHAKE. -/
def shakePad (bs : List Byte) : List Byte :=
  let z := shakeRate - 1 - bs.length % shakeRate
  if z == 0 then bs ++ [0x9F] else bs ++ [0x1F] ++ zeroBytes (z - 1) ++ [0x80]

/-- One block taken in. -/
def shakeBlock (a : List DWord) (b : List Byte) : List DWord :=
  keccakF ((List.range 25).map (fun j => if 8 * j < shakeRate then a.getD j 0 ^^^ BitVec.ofNat 64 (leNat ((b.drop (8 * j)).take 8)) else a.getD j 0))

/-- The blocks of a padded message taken in; the first argument counts them. -/
def shakeAbsorb : Nat → List Byte → List DWord → List DWord
  | 0, _, a => a
  | n + 1, bs, a => shakeAbsorb n (bs.drop shakeRate) (shakeBlock a (bs.take shakeRate))

/-- The first n bytes of the SHAKE256 digest of a message, of at most one block. -/
def shake256 (bs : List Byte) (n : Nat) : List Byte :=
  let p := shakePad bs
  ((shakeAbsorb (p.length / shakeRate) p (List.replicate 25 0)).flatMap (fun v => leBytes 8 v.toNat)).take n

end Sys2Proof.Machine
end

