-- ==== Sys2Proof/Machine/Images.lean ====
section
/-!
DEFINITION. The image of a saved context in memory (R269, R284, R295): the records of its save area, in order and with their sizes, what
each holds, and how a restore reads each back; the handler save slot; and the group state of a cloakroom area read back. The layout inside
a record, and what the device keeps of a context beside its records, is the model's. (Log entry 14, DESIGN CHOICE, unsafe.)
-/
namespace Sys2Proof.Machine

def align64 (n : Nat) : Nat := (n + 63) / 64 * 64

/-- Little-endian field of a structure given by its listed bytes. -/
def cellField (m : Memory) (off n : Nat) : Nat := leNat (memRead m off n)

/-! ### The records of a save area -/

/-- A record: the context header, a launch by its key, a block and a group by core and key, and what stands once for a core. -/
inductive RecId where
  | head
  | launch (n : Nat)
  | block (c key : Nat)
  | group (c k : Nat)
  | ap (c : Nat)
  | core (c : Nat)
  deriving DecidableEq, Repr

/-- The launches that an image names: gangs unplaced, or blocks resident. -/
def imageLaunches (t : Tenant) : List (Nat × Launch) :=
  t.launches.filter (fun l => !l.2.aborted && (decide (l.2.nextGang < l.2.gangs) || l.2.resident != 0))

def savedGroup (v : SavedCtx) (c k : Nat) : Option Group := v.cores.findSome? (fun q => if q.core == c then fget q.groups k else none)

def savedBlock (v : SavedCtx) (c key : Nat) : Option Block := v.cores.findSome? (fun q => if q.core == c then fget q.blocks key else none)

def savedBox (v : SavedCtx) (c : Nat) : Option MsgBox := v.cores.findSome? (fun q => if q.core == c then q.boxes.head? else none)

/-- A core holds messages of the context. -/
def boxUsed (b : MsgBox) : Bool := !(b.inbox.isEmpty && b.posted.isEmpty && b.overflow.isEmpty)

/-- The records of a context, in order. -/
def recIds (t : Tenant) (v : SavedCtx) : List RecId :=
  [.head] ++ (imageLaunches t).map (fun l => .launch l.1)
    ++ v.cores.flatMap (fun q => (fkeys q.blocks).map (.block q.core))
    ++ v.cores.flatMap (fun q => (q.groups.filter (fun p => !isAp p.2)).map (fun p => .group q.core p.1))
    ++ (v.cores.filter (fun q => q.apq.isSome)).map (fun q => .ap q.core)
    ++ (v.cores.filter (fun q => q.boxes.any boxUsed)).map (fun q => .core q.core)

/-- Scratchpad bytes that a block's record holds: of a block that has ended only the queue region (R140), and where they begin. -/
def blockData (b : Block) : Nat × Nat := if b.ended then (b.scratch - 65536, 65536) else (0, b.scratch)

/-- Bytes that an inbox entry takes. -/
def forwardSize (f : Forward) : Nat := 16 + payloadLen f.val

/-- The size of a record (R269). -/
def recSize (v : SavedCtx) : RecId → Nat
  | .head => 512
  | .launch _ => 64
  | .block c key => match savedBlock v c key with | some b => align64 (128 + (blockData b).2) | none => 0
  | .group c k => match savedGroup v c k with | some g => 64 + 16384 * g.tiles.length | none => 0
  | .ap _ => 1024
  | .core c => match savedBox v c with
    | some b => align64 (64 + 16 * b.posted.length + 272 * b.overflow.length + b.inbox.foldl (fun a f => a + forwardSize f) 0)
    | none => 0

/-- The size of an image in the save area. -/
def recsSize (t : Tenant) (v : SavedCtx) : Nat := (recIds t v).foldl (fun a r => a + recSize v r) 0

/-! ### What a record holds -/

/-- Fields one after the other: width in bytes and value. -/
def fieldsImage (fs : List (Nat × Nat)) : List Byte := fs.flatMap (fun f => leBytes f.1 f.2)

/-- The value of the field at a place in such a list. -/
def fieldNo (m : Memory) (base : Nat) (ws : List Nat) (i : Nat) : Nat := cellField m (base + (ws.take i).foldl (· + ·) 0) (ws.getD i 0)

/-- Sets of groups as 16 bits. -/
def groupBits (gs : List Nat) : Nat := (List.range 16).foldl (fun a j => if gs.contains j then a + 2 ^ j else a) 0

def bitGroups (n : Nat) : List Nat := (List.range 16).filter (testBit n)

/-- A guestbook in 16 B: what is declared, and who has signed. -/
def bookImage (b : Guestbook) : List Byte :=
  fieldsImage [(8, b.decl.toNat), (8, if b.blk then groupBits b.groups + groupBits b.gone * 2 ^ 16 else b.signed.toNat)]

def bookBack (m : Memory) (off : Nat) (b : Guestbook) : Guestbook :=
  let v := cellField m (off + 8) 8
  let b := { b with decl := BitVec.ofNat 64 (cellField m off 8) }
  if b.blk then { b with groups := b.groups.filter (testBit v) ++ (bitGroups (v % 2 ^ 16)).filter (fun j => !b.groups.contains j),
                         gone := bitGroups (v / 2 ^ 16 % 2 ^ 16) }
  else { b with signed := BitVec.ofNat 64 v }

def blockCells (b : Block) : Memory :=
  let d := blockData b
  let m := memWrite [] 0 (fieldsImage [(4, b.launch), (4, b.gang), (4, b.block), (4, b.cluster), (4, b.groups), (4, b.scratch)])
  let m := b.books.foldl (fun m k => memWrite m (64 + 16 * k.1) (bookImage k.2)) m
  memPut (fun _ => true) m 128 d.2 (memSlice b.mem d.1 d.2)

def blockBack (m : Memory) (b : Block) : Block :=
  let d := blockData b
  { b with mem := memPut (fun _ => true) b.mem d.1 d.2 (memSlice m 128 d.2),
           books := b.books.map (fun k => (k.1, bookBack m (64 + 16 * k.1) k.2)) }

/-- The elements of a tile, 4 B each (R216). -/
def tileCells (t : Tile) : Memory := t.vals.foldl (fun m e => memWrite m (4 * e.1) (leBytes 4 e.2.toNat)) []

/-- The elements that listed bytes hold. -/
def tileBack (m : Memory) : FMap Word :=
  ((m.map (fun p => p.1 / 4)).eraseDups).foldl (fun t e => sset 0 t e (bw (cellField m (4 * e) 4))) []

def savedTile (v : SavedCtx) (n p : Nat) : Option Tile := v.tiles.findSome? (fun t => if t.1 == n then fget t.2 p else none)

def groupCells (v : SavedCtx) (c : Nat) (g : Group) : Memory :=
  let m := memWrite [] 0 (fieldsImage ((List.range 4).map (fun k => (4, (sget 0 g.scales k).toNat))))
  let m := memWrite m 32 (fieldsImage ((g.tiles.take 16).flatMap (fun t => [(1, t.1), (1, t.2)])))
  g.tiles.zipIdx.foldl (fun m t => match savedTile v (clusterOf c) t.1.2 with
    | some x => memPut (fun _ => true) m (64 + 16384 * t.2) 16384 (tileCells x)
    | none => m) m

/-- The scale registers, the tile names, and the elements of each tile. -/
def groupBack (m : Memory) (c k : Nat) (v : SavedCtx) : SavedCtx :=
  match savedGroup v c k with
  | none => v
  | some g =>
    let scales := (List.range 4).foldl (fun r j => sset 0 r j (bw (cellField m (4 * j) 4))) g.scales
    let tiles := g.tiles.zipIdx.map (fun t => if t.2 < 16 then (cellField m (32 + 2 * t.2) 1, cellField m (33 + 2 * t.2) 1) else t.1)
    let ts := g.tiles.zipIdx.foldl (fun r t => r.map (fun n => if n.1 == clusterOf c then
        (n.1, fmodify n.2 t.1.2 (fun x => { x with vals := tileBack (memSlice m (64 + 16384 * t.2) 16384) })) else n)) v.tiles
    { v with tiles := ts, cores := v.cores.map (fun q => if q.core == c then
        { q with groups := fset q.groups k { g with scales := scales, tiles := tiles } } else q) }

/-- The value of a name of an access processor in 8 B (R137). -/
def pairImage : Shaped → Nat
  | .uniform u => u.toNat
  | .affine b s => b.toNat + 2 ^ 32 * s.toNat
  | _ => 0

/-- A value without its payload, by its tag (R55, R65). -/
def shapeBlank : Nat → Shaped
  | 1 => .uniform 0
  | 2 => .affine 0 0
  | 3 => .general []
  | _ => .unalloc

/-- The access processor's entry, of which it has one. -/
def apEntry (g : Group) : Option Entry := g.active.or g.frontier.head?

def apCells (q : SavedCore) : Memory :=
  match fget q.groups Config.apSlot with
  | none => []
  | some g =>
    let name := fun (n : Nat) => (getName g n).val
    let m := memWrite [] 0 (fieldsImage ((List.range 120).map (fun n => (8, pairImage (name n)))))
    let m := memWrite m 960 (fieldsImage ((List.range 30).map (fun j => (1, (List.range 4).foldl (fun a k => a + shapeCode (name (4 * j + k)) * 4 ^ k) 0))))
    let hd := match q.apq with | some a => (List.range 8).map (fun j => (2, sget 0 a.head j % 2 ^ 16)) | none => []
    let ct := match q.apq with | some a => (List.range 8).map (fun j => (1, sget 0 a.count j)) | none => []
    let m := memWrite m 990 (fieldsImage (hd ++ ct))
    memWrite m 1014 (leBytes 8 (match apEntry g with | some e => e.pc.toNat | none => 0))

def setPc (pc : Pc) (e : Entry) : Entry := { e with pc := pc }

def apBack (m : Memory) (q : SavedCore) : SavedCore :=
  match fget q.groups Config.apSlot with
  | none => q
  | some g =>
    let names := (List.range 120).foldl (fun r n =>
      let v := unpayload (shapeBlank (cellField m (960 + n / 4) 1 / 4 ^ (n % 4) % 4)) (memRead m (8 * n) 8)
      if v == .unalloc then ferase r n else fset r n { (fget r n).getD Name.free with val := v }) g.names
    let pc : Pc := BitVec.ofNat 56 (cellField m 1014 8)
    let g := { g with names := names, active := g.active.map (setPc pc), frontier := if g.active.isSome then g.frontier else g.frontier.map (setPc pc) }
    let num := fun (old v : Nat) => old / 2 ^ 16 * 2 ^ 16 + v
    { q with groups := fset q.groups Config.apSlot g,
             apq := q.apq.map (fun a => { a with
               head := (List.range 8).foldl (fun r j => sset 0 r j (num (sget 0 a.head j) (cellField m (990 + 2 * j) 2))) a.head,
               count := (List.range 8).foldl (fun r j => sset 0 r j (cellField m (1006 + j) 1)) a.count }) }

/-- A posted receive in 16 B, a message in 272 B, an inbox entry in 16 B and its payload. -/
def postedImage (p : Posted) : List Byte :=
  let o := (if p.anyTag then 1 else 0) + (if p.anySrc then 2 else 0)
  fieldsImage [(2, p.tag), (2, p.src.toNat % 2 ^ 16), (8, p.lanes.toNat), (1, p.slot), (1, (p.flag.map (· + 1)).getD 0), (2, o)]

def postedBack (m : Memory) (off : Nat) (p : Posted) : Posted :=
  let f := fieldNo m off [2, 2, 8, 1, 1, 2]
  { p with tag := f 0, src := bw (f 1), lanes := BitVec.ofNat 64 (f 2), slot := f 3, flag := if f 4 == 0 then none else some (f 4 - 1),
           anyTag := testBit (f 5) 0, anySrc := testBit (f 5) 1 }

def msgImage (g : Msg) : List Byte :=
  fieldsImage [(2, g.tag), (2, g.src.toNat % 2 ^ 16), (2, g.n), (10, 0)] ++ (List.range 64).flatMap (fun l => leBytes 4 (g.words.getD l 0).toNat)

def msgBack (m : Memory) (off : Nat) (g : Msg) : Msg :=
  let f := fieldNo m off [2, 2, 2]
  { tag := f 0, src := bw (f 1), n := f 2, words := (List.range g.words.length).map (fun l => bw (cellField m (off + 16 + 4 * l) 4)) }

def forwardImage (f : Forward) : List Byte :=
  fieldsImage [(4, f.launch), (1, if f.win then 1 else 0), (1, shapeCode f.val), (10, 0)] ++ payload f.val

def forwardBack (m : Memory) (off : Nat) (f : Forward) : Forward :=
  { f with launch := cellField m off 4, win := cellField m (off + 4) 1 == 1,
           val := unpayload (shapeBlank (cellField m (off + 5) 1)) (memRead m (off + 16) (payloadLen f.val)) }

/-- Values of the sizes given, one after the other from an offset: the offset of each. -/
def offsetsFrom : Nat → List Nat → List Nat
  | _, [] => []
  | a, n :: ns => a :: offsetsFrom (a + n) ns

def boxCells (b : MsgBox) : Memory :=
  memWrite (memWrite [] 0 (fieldsImage [(4, b.posted.length), (4, b.overflow.length), (4, b.inbox.length)])) 64
    (b.posted.flatMap postedImage ++ b.overflow.flatMap msgImage ++ b.inbox.flatMap forwardImage)

def boxBack (m : Memory) (b : MsgBox) : MsgBox :=
  let o := 64 + 16 * b.posted.length
  let i := o + 272 * b.overflow.length
  { b with posted := b.posted.zipIdx.map (fun p => postedBack m (64 + 16 * p.2) p.1),
           overflow := b.overflow.zipIdx.map (fun g => msgBack m (o + 272 * g.2) g.1),
           inbox := (b.inbox.zip (offsetsFrom i (b.inbox.map forwardSize))).map (fun f => forwardBack m f.2 f.1) }

/-- The listed bytes of a record, by offset. -/
def recCells (t : Tenant) (v : SavedCtx) : RecId → Memory
  | .head =>
    let n := fun (p : RecId → Bool) => (4, ((recIds t v).filter p).length)
    memWrite [] 0 (fieldsImage [(4, t.launchCtr.toNat), n (fun r => match r with | .launch _ => true | _ => false),
      n (fun r => match r with | .block .. => true | _ => false), n (fun r => match r with | .group .. => true | _ => false),
      n (fun r => match r with | .ap _ => true | _ => false), n (fun r => match r with | .core _ => true | _ => false)])
  | .launch n => match fget t.launches n with
    | some l => memWrite [] 0 (fieldsImage [(4, l.launchId.toNat), (4, l.nextGang), (8, l.desc), (4, l.resident)])
    | none => []
  | .block c key => match savedBlock v c key with | some b => blockCells b | none => []
  | .group c k => match savedGroup v c k with | some g => groupCells v c g | none => []
  | .ap c => match v.cores.find? (fun q => q.core == c) with | some q => apCells q | none => []
  | .core c => match savedBox v c with | some b => boxCells b | none => []

/-- A record read back: what it holds takes the place of what the device has kept. -/
def recBack (m : Memory) (r : Tenant × SavedCtx) : RecId → Tenant × SavedCtx
  | .head => ({ r.1 with launchCtr := bw (cellField m 0 4) }, r.2)
  | .launch n =>
    ({ r.1 with launches := fmodify r.1.launches n (fun l => { l with
        launchId := bw (cellField m 0 4), nextGang := cellField m 4 4, desc := cellField m 8 8, resident := cellField m 16 4 }) }, r.2)
  | .block c key =>
    (r.1, { r.2 with cores := r.2.cores.map (fun q => if q.core == c then { q with blocks := fmodify q.blocks key (blockBack m) } else q) })
  | .group c k => (r.1, groupBack m c k r.2)
  | .ap c => (r.1, { r.2 with cores := r.2.cores.map (fun q => if q.core == c then apBack m q else q) })
  | .core c => (r.1, { r.2 with cores := r.2.cores.map (fun q => if q.core == c then { q with boxes := q.boxes.map (boxBack m) } else q) })

/-! ### Writing and reading the records -/

/-- Write the records given from an address on; the fault and its address otherwise. -/
def writeRecs (x : Ctx) (t : Tenant) (v : SavedCtx) : List RecId → Nat → State → Except (XlFault × Nat) State
  | [], _, s => .ok s
  | r :: rs, a, s =>
    match devPut s x a (recSize v r) (recCells t v r) with
    | .error f => .error (f, a)
    | .ok s => writeRecs x t v rs (a + recSize v r) s

/-- Read them back, each of the size that it was written with. -/
def readRecs (s : State) (x : Ctx) (v : SavedCtx) : List RecId → Nat → Tenant × SavedCtx → Except (XlFault × Nat) (Tenant × SavedCtx)
  | [], _, b => .ok b
  | r :: rs, a, b =>
    match devSlice s x a (recSize v r) with
    | .error f => .error (f, a)
    | .ok m => readRecs s x v rs (a + recSize v r) (recBack m b r)

/-- A poisoned granule of a structure that the device reads (R312). -/
def imagePoison (s : State) (x : Ctx) (va n : Nat) : Option Nat :=
  if s.poison.isEmpty && s.hostBad.isEmpty && s.peerBad.isEmpty then none else devPoison s x va n

/-! ### The handler save slot (R284) -/

/-- The handler frontier, with the entry that stands at a word. -/
def handlerFrontier (g : Group) : List Entry := g.active.toList ++ g.frontier

def handlerImage (g : Group) (h : Handler) : List Byte :=
  let t := g.traps
  let name := fun (f : Nat) => match fget h.names f with | some n => n.val | none => Shaped.unalloc
  leBytes 4 t.cause.toNat ++ leBytes 4 (t.pc.toNat % 2 ^ 32) ++ leBytes 4 (t.rgnPc.toNat % 2 ^ 32) ++ leBytes 4 t.rgnCnt.toNat
    ++ leBytes 4 (t.addr.toNat % 2 ^ 32) ++ leBytes 8 t.mask.toNat ++ leBytes 4 t.shapes.toNat ++ leBytes 4 (t.pc.toNat / 2 ^ 32)
    ++ leBytes 4 (t.rgnPc.toNat / 2 ^ 32) ++ leBytes 4 (t.addr.toNat / 2 ^ 32 % 2 ^ 24) ++ leBytes 4 t.word.toNat ++ zeroBytes 16
    ++ (List.range 64).flatMap (fun l => if hasLane h.lanes l then
        leBytes 4 ((laneSt g l).savedTe.toNat + (laneSt g l).hvb.toNat * 2 ^ 8) else zeroBytes 4)
    ++ (((handlerFrontier g).take 64).flatMap entryImage ++ zeroBytes (24 * (64 - (handlerFrontier g).length)))
    ++ leBytes 4 ((List.range 16).foldl (fun a f => a + shapeCode (name f) * 2 ^ (2 * f)) 0) ++ zeroBytes 188
    ++ (List.range 16).flatMap (fun f => let p := payload (name f); p ++ zeroBytes (256 - p.length))

/-- An entry as its 24 B hold it (R295); what they do not hold stands as the device has kept it. -/
def entryBack (m : Memory) (off : Nat) (e : Entry) : Entry :=
  { e with lanes := BitVec.ofNat 64 (cellField m off 8), pc := BitVec.ofNat 56 (cellField m (off + 8) 8), pass := cellField m (off + 16) 2,
           pri := cellField m (off + 18) 1, mark := testBit (cellField m (off + 20) 1) 1 }

/-- The first 64 of a list of entries, from the slots of 24 B that begin at an offset. -/
def entriesBack (m : Memory) (off : Nat) (es : List Entry) : List Entry :=
  es.zipIdx.map (fun e => if e.2 < 64 then entryBack m (off + 24 * e.2) e.1 else e.1)

/-- A group in its handler as the slot holds it. -/
def handlerBack (m : Memory) (g : Group) (h : Handler) : Group :=
  let f := cellField m
  let t : TrapRegs :=
    { cause := bw (f 0 4), pc := BitVec.ofNat 56 (f 4 4 + 2 ^ 32 * f 0x20 4), rgnPc := BitVec.ofNat 56 (f 8 4 + 2 ^ 32 * f 0x24 4),
      rgnCnt := bw (f 0xC 4), addr := BitVec.ofNat 64 (f 0x10 4 + 2 ^ 32 * f 0x28 4), mask := BitVec.ofNat 64 (f 0x14 8),
      shapes := bw (f 0x1C 4), word := bw (f 0x2C 4) }
  let g := mapLanes g h.lanes (fun l x => { x with savedTe := BitVec.ofNat 5 (f (0x40 + 4 * l) 4), hvb := BitVec.ofNat 10 (f (0x40 + 4 * l) 4 / 2 ^ 8) })
  let names := (List.range 16).foldl (fun r j =>
    let v := unpayload (shapeBlank (f 0x740 4 / 4 ^ j % 4)) (memRead m (0x800 + 256 * j) 256)
    if v == .unalloc then ferase r j else fset r j { (fget r j).getD Name.free with val := v }) h.names
  let es := entriesBack m 0x140 (handlerFrontier g)
  { g with traps := t, active := g.active.bind (fun _ => es.head?), frontier := es.drop g.active.toList.length, handler := some { h with names := names } }

/-! ### The cloakroom area read back (R65, R69, R72, R295) -/

/-- The names that a tag map names, with their tags. -/
def taggedNames (m : Memory) : List (Nat × Nat) :=
  ((m.filter (fun p => decide (p.1 < 256))).flatMap (fun p => (List.range 4).map (fun k => (4 * p.1 + k, p.2.toNat / 4 ^ k % 4)))).filter (fun n => n.2 != 0)

/-- The bytes of a payload, by its tag. -/
def tagLen : Nat → Nat
  | 1 => 4
  | 2 => 8
  | 3 => 256
  | _ => 0

/-- The payloads of the names given. -/
def readNames (s : State) (g : Group) : List (Nat × Nat) → FMap Name → Except CloakErr (FMap Name)
  | [], r => .ok r
  | n :: ns, r =>
    let a := g.id.cloak + 0x1000 + 256 * n.1
    match devRead s g.id.ctx a (tagLen n.2) with
    | .error f => .error ⟨a, true, f.stage2⟩
    | .ok bs => readNames s g ns (fset r n.1 { getName g n.1 with val := unpayload (shapeBlank n.2) bs })

/-- The lines and the table entries that the reads of names reach. -/
def touchNames (s : State) (g : Group) (ns : List (Nat × Nat)) : State :=
  ns.foldl (fun s n => devTouch s g.id.ctx (g.id.cloak + 0x1000 + 256 * n.1) (tagLen n.2)) s

/-- The group state of an area (R295): offsets from its own start at 0x0180. -/
def stateBack (m : Memory) (g : Group) : Group :=
  let f := cellField m
  let na := g.active.toList.length
  let nf := g.frontier.length
  let es := entriesBack m 0x40 (imageEntries g)
  let nh := (match g.handler with | some h => h.halted.length | none => 0)
  let np := g.pendTrap.toList.length
  let g := { g with
    rgnCnt := bw (f 4 4), live := BitVec.ofNat 64 (f 0x10 8), wemit := BitVec.ofNat 64 (f 0x18 8),
    active := if na == 0 then none else es.head?, frontier := (es.drop na).take nf,
    handler := g.handler.map (fun h => { h with halted := (es.drop (na + nf)).take nh }),
    pendTrap := g.pendTrap.map (fun p => { p with entry := ((es.drop (na + nf + nh)).head?).getD p.entry }),
    svc := g.svc.map (fun v => { v with seq := v.seq.map (fun _ => bw (f 0xC 4)), entry := ((es.drop (na + nf + nh + np)).head?).getD v.entry }),
    markers := (List.range Config.numMarkers).foldl (fun r k =>
      sset ⟨0, 0⟩ r k ⟨BitVec.ofNat 64 (f (0x640 + 16 * k) 8), BitVec.ofNat 64 (f (0x648 + 16 * k) 8)⟩) g.markers }
  mapLanes g g.live (fun l x => { x with
    wb := BitVec.ofNat 10 (f (0x700 + 4 * l) 4), fmode := bw (f (0x800 + 8 * l) 4), fstat := bw (f (0x804 + 8 * l) 4),
    rgnPc := BitVec.ofNat 56 (f (0xA00 + 16 * l) 8), rgnCnt := bw (f (0xA08 + 16 * l) 4), nonRep := testBit (f (0xA0C + 16 * l) 4) 0 })

/-- A poisoned granule of what a restore reads of a group's area (R312). -/
def areaPoison (s : State) (g : Group) : Option Nat :=
  match devSlice s g.id.ctx g.id.cloak 0x1000 with
  | .error _ => none
  | .ok m => (imagePoison s g.id.ctx g.id.cloak 0x1000).or
      ((taggedNames m).findSome? (fun n => imagePoison s g.id.ctx (g.id.cloak + 0x1000 + 256 * n.1) (tagLen n.2)))

/-- A group as its cloakroom area holds it; the access that fails otherwise (R68). Names that were resident are resident again, and the
spilled map names the others (R65). -/
def groupFromArea (s : State) (g : Group) : Except CloakErr (Group × State) :=
  let a := g.id.cloak
  match devSlice s g.id.ctx a 0x1000 with
  | .error f => .error ⟨a, true, f.stage2⟩
  | .ok m =>
    match readNames s g (taggedNames m) [] with
    | .error e => .error e
    | .ok ns =>
      let g := stateBack (memSlice m 0x180 0xE80) { g with names := ns }
      match cloakWrite (touchNames (devTouch s g.id.ctx a 0x1000) g (taggedNames m)) g.id.ctx (a + 0x100)
          ((List.range 128).map (spillByte g)) true with
      | .error e => .error e
      | .ok s => .ok (g, s)

end Sys2Proof.Machine
end

