-- ==== Sys2Proof/Machine/Saves.lean ====
section
/-!
DEFINITION. Saving a context at a slot edge and restoring it (R237 to R242, R264 to R269, R279, R284, R309): what a halted context
leaves behind it, the images it writes, the half it comes back to, and the structures read at its start.
-/
namespace Sys2Proof.Machine

/-! ### Whether a context can be saved (R265) -/

/-- Cores of a wing that hold any state. -/
def wingCores (s : State) (w : Nat) : List Nat := (fkeys s.cores).filter (fun c => (getWing s w).wclu.getLsbD (clusterOf c))

/-- Every group of a context has halted. -/
def allHalted (s : State) (x : Ctx) : Bool := s.cores.all (fun c => c.2.groups.all (fun p => p.2.id.ctx != x || p.2.halt == .halted))

/-- The engine operations of a context have completed, but for those that faults hold and those behind them (R309). -/
def enginesDone (s : State) (x : Ctx) : Bool :=
  s.clusters.all (fun k =>
    let held := k.2.queue.any (fun o => o.ctx == x && restHeld o.rest) || k.2.resv.any (fun o => o.ctx == x && restHeld o.rest)
    k.2.queue.all (fun o => o.ctx != x || restHeld o.rest || (!o.started && held))
      && k.2.resv.all (fun o => o.ctx != x || restHeld o.rest || (!o.started && held)))

/-- Loads of a context on a core return, its sends that have been delivered complete, its forwards arrive, its stores drain. -/
def quiesceCore (x : Ctx) (s : State) (c : Nat) : State :=
  let s := ((getCore s c).loads.filter (fun o => o.ctx == x)).foldl (fun s o => returnLoad s c o) s
  let s := ((getCore s c).sends.filter (fun o => o.ctx == x && o.status.isSome)).foldl (fun s o =>
    match (getCore s c).sends.findIdx? (fun p => p.id == o.id) with
    | some i => sendComplete s c i
    | none => s) s
  let q := getCore s c
  let s := wakeInbox (setCore s c { q with boxes := q.boxes.map (fun b => if b.ctx == x then
    { b with inbox := b.inbox.map (fun f => { f with arrived := true }) } else b) }) c x
  (releaseAt (flushAll s c) c x .device (getCore s c).seq).1

/-- What of a context a save waits for (R265, R266): loads and sends on their way, stores that no fault holds or bars, entries of the
combining buffer, peer writes, and engine operations. -/
def leftOver (s : State) (x : Ctx) : Bool :=
  s.cores.any (fun c => c.2.loads.any (fun o => o.ctx == x) || c.2.comb.any (fun e => e.ctx == x)
      || c.2.sb.any (fun e => e.ctx == x && e.heldBy.isNone && !c.2.sb.any (fun d => d.ctx == x && d.heldBy.isSome && decide (d.seq ≤ e.seq))))
    || peerPending s x || !enginesDone s x

/-! ### Saving a group -/

/-- Write the image of one group to its cloakroom area, and of its handler to its slot (R69, R269, R284); the group itself keeps its names as
they stand, since a restore brings them back. A fill in progress completes first. A spill that fails is a `CLOAK` trap of the group, which
then halts anew (R68); a handler slot that cannot be written leaves the context unsaved. The flag says whether the image is whole. -/
def saveGroup (x : Ctx) (c : Nat) (r : State × Bool) (k : Nat) : State × Bool :=
  let s := finishFill r.1 c k
  match getGroup s c k with
  | none => (s, r.2)
  | some g =>
    if isAp g then (s, r.2)
    else
      match spillGroup s c k true with
      | .error e => (cloakTrap (setGroup s c k { g with halt := .run }) c k e, false)
      | .ok u =>
        match g.handler, (getTenant u x).trap with
        | some h, some d =>
          (match devWrite u x (d.tsave + 8192 * c) (handlerImage g h) with
            | .ok v => (setGroup v c k g, r.2)
            | .error _ => (setGroup u c k g, false))
        | _, _ => (setGroup u c k g, r.2)

/-- The groups of a context on a core. -/
def ctxSlots (s : State) (c : Nat) (x : Ctx) : List Nat := ((getCore s c).groups.filter (fun p => p.2.id.ctx == x)).map (·.1)

/-! ### Taking a context away (R266, R269) -/

/-- What a core keeps of a context in its image. -/
def savedCore (q : Core) (c : Nat) (x : Ctx) : SavedCore :=
  let gs := q.groups.filter (fun p => p.2.id.ctx == x)
  let mine := fun (k : Nat) => gs.any (fun p => p.1 == k)
  { core := c, groups := gs, blocks := q.blocks.filter (fun b => b.2.ctx == x),
    apq := match q.apq with | some a => if a.ctx == x then some a else none | none => none,
    boxes := q.boxes.filter (fun b => b.ctx == x), sends := q.sends.filter (fun o => o.ctx == x),
    trapOwner := q.trapOwner.filter mine, trapQueue := q.trapQueue.filter mine }

/-- A core without a context, its L1, tag array and locality state cleared, and the context's translations gone (R266). -/
def clearCore (x : Ctx) (s : State) (c : Nat) : State :=
  let q := getCore s c
  let mine := fun (k : Nat) => q.groups.any (fun p => p.1 == k && p.2.id.ctx == x)
  let keep := fun (o : Option Nat) => o.filter (fun k => !mine k)
  setCore s c { q with
    groups := q.groups.filter (fun p => p.2.id.ctx != x), blocks := q.blocks.filter (fun b => b.2.ctx != x),
    apq := match q.apq with | some a => if a.ctx == x then none else some a | none => none,
    boxes := q.boxes.filter (fun b => b.ctx != x), sends := q.sends.filter (fun o => o.ctx != x),
    trapOwner := keep q.trapOwner, trapQueue := q.trapQueue.filter (fun k => !mine k), side0 := keep q.side0, side1 := keep q.side1,
    l1 := [], victims := [], cap := 64, tlb := q.tlb.filter (fun e => e.ctx != x) }

/-- A cluster without a context's tiles, requests and translations. -/
def clearCluster (x : Ctx) (s : State) (n : Nat) : State :=
  let k := getCluster s n
  setCluster s n { k with
    tiles := k.tiles.filter (fun t => t.2.ctx != x), tileReqs := k.tileReqs.filter (fun r => reqCtx s r != x),
    tileGrants := k.tileGrants.filter (fun g => reqCtx s g.1 != x), rtReqs := k.rtReqs.filter (fun r => reqCtx s r != x),
    rtGrants := k.rtGrants.filter (fun r => reqCtx s r != x), tlb := k.tlb.filter (fun e => e.ctx != x) }

/-- The context's image as its units stand. -/
def imageOf (s : State) (x : Ctx) : SavedCtx :=
  let cores := (fkeys s.cores).map (fun c => savedCore (getCore s c) c x)
  let tiles := s.clusters.map (fun k => (k.1, k.2.tiles.filter (fun t => t.2.ctx == x)))
  { half := (getTenant s x).half, tiles := tiles.filter (fun p => !p.2.isEmpty),
    cores := cores.filter (fun v => !(v.groups.isEmpty && v.blocks.isEmpty && v.apq.isNone && v.boxes.isEmpty && v.sends.isEmpty)) }

/-- The size of a context's image in its save area (R269). -/
def imageSize (s : State) (x : Ctx) : Nat := recsSize (getTenant s x) (imageOf s x)

/-- The units of the wing are cleared of a context (R266). -/
def clearUnits (s : State) (x : Ctx) : State := (wingCores s x.wing).foldl (clearCore x) (mapClusters s (clearCluster x))

/-- The context leaves the wing's units, its image taken. -/
def takeAway (s : State) (x : Ctx) (v : SavedCtx) : State :=
  clearUnits (setTenant s x { getTenant s x with saved := some v }) x

/-- An access to the save area has failed: it waits for its record, or the context is killed, as for its context block (R304).
(Log entry 14, DESIGN CHOICE, unsafe.) -/
def saveFault (s : State) (x : Ctx) (f : XlFault × Nat) (acc : Nat) : State := ringFault s x f.1 f.2 acc

/-- Halted groups execute their fences, the images are written, and the context is saved; nothing where it cannot be yet. A context
whose image exceeds `SAVESZ` is killed (R268). (Log entry 52, DEDUCED, unsafe.) -/
def trySave (s : State) (x : Ctx) : State :=
  if !allHalted s x || (getTenant s x).held.isSome then s
  else
    let s := mapCores s (quiesceCore x)
    if leftOver s x then s
    else
      let r := (fkeys s.cores).foldl (fun r c => (ctxSlots r.1 c x).foldl (saveGroup x c) r) (s, true)
      if !r.2 then r.1
      else
        let s := (fkeys (getTenant r.1 x).streams).foldl (fun s st => writeHeader s x st) r.1
        let v := imageOf s x
        match (getTenant s x).block with
        | none => takeAway s x v
        | some b =>
          if b.savesz < imageSize s x then overrunKill s x true
          else
            match writeRecs x (getTenant s x) v (recIds (getTenant s x) v) b.save s with
            | .error f => saveFault s x f 1
            | .ok s => takeAway s x v

/-! ### Coming back (R264, R269) -/

/-- A group slot in the other half; the access processor's stays. (Log entry 51, DEDUCED, unsafe.) -/
def otherSlot (k : Nat) : Nat := if k < 64 then k ^^^ 16 else k

def otherTile (p : Nat) : Nat := p ^^^ 64

/-- A map under a change of its keys. -/
def rekey {α : Type} (f : Nat → Nat) (m : FMap α) : FMap α := m.foldl (fun r p => fset r (f p.1) p.2) []

/-- A group as it stands in the other half. -/
def moveGroup (g : Group) : Group := { g with tiles := g.tiles.map (fun t => (t.1, otherTile t.2)) }

def moveBlock (b : Block) : Block :=
  { b with books := b.books.map (fun k => (k.1, { k.2 with owner := otherSlot k.2.owner, lastSlot := otherSlot k.2.lastSlot })) }

def moveSaved (v : SavedCore) : SavedCore :=
  { v with groups := rekey otherSlot (v.groups.map (fun p => (p.1, moveGroup p.2))),
           blocks := v.blocks.map (fun b => (b.1, moveBlock b.2)),
           boxes := v.boxes.map (fun b => { b with posted := b.posted.map (fun p => { p with slot := otherSlot p.slot }) }),
           sends := v.sends.map (fun o => { o with slot := otherSlot o.slot }),
           trapOwner := v.trapOwner.map otherSlot, trapQueue := v.trapQueue.map otherSlot }

/-- The image of a context in the other half: no value changes (R269). -/
def moveImage (v : SavedCtx) : SavedCtx :=
  { half := 1 - v.half, cores := v.cores.map moveSaved, tiles := v.tiles.map (fun t => (t.1, rekey otherTile t.2)) }

/-- What the units still hold of a saved context, by the slots and tiles of the other half: held stores and paused operations. -/
def moveLeft (s : State) (x : Ctx) : State :=
  let s := mapCores s (fun s c =>
    let q := getCore s c
    setCore s c { q with sb := q.sb.map (fun e => if e.ctx == x then { e with slot := otherSlot e.slot } else e) })
  mapClusters s (fun s n =>
    let k := getCluster s n
    setCluster s n { k with
      queue := k.queue.map (fun o => if o.ctx == x then { o with slot := otherSlot o.slot } else o),
      resv := k.resv.map (fun o => if o.ctx == x then
        { o with slot := otherSlot o.slot, fslot := otherSlot o.fslot, tile := otherTile o.tile } else o) })

/-- One restored group runs again; the core's tokens it has yet to take (R46). -/
def resume (now : Nat) (g : Group) : Group := { g with halt := .run, token := false, readyAt := now, gpark := if g.gpark == .pool then .none else g.gpark }

/-- A restored group has what its cloakroom area and its handler slot hold (R269, R284). A read of the area that fails traps `CLOAK`
(R68); a poisoned one, or a slot that cannot be read, kills the context (R312; log entry 14, DESIGN CHOICE, unsafe). -/
def groupBackFrom (x : Ctx) (c : Nat) (s : State) (k : Nat) : State :=
  match getGroup s c k with
  | none => s
  | some g =>
    if isAp g || g.id.ctx != x then s
    else
      match areaPoison s g with
      | some p => poisonKill s x p
      | none =>
        match groupFromArea s g with
        | .error e => cloakTrap s c k e
        | .ok r =>
          match r.1.handler, (getTenant r.2 x).trap with
          | some h, some d =>
            (match devSlice r.2 x (d.tsave + 8192 * c) 0x1800, imagePoison r.2 x (d.tsave + 8192 * c) 0x1800 with
              | .ok _, some p => poisonKill r.2 x p
              | .ok m, none => setGroup (devTouch r.2 x (d.tsave + 8192 * c) 0x1800) c k (handlerBack m r.1 h)
              | .error _, _ => overrunKill r.2 x false)
          | _, _ => setGroup r.2 c k r.1

/-- Put a context's image back on a core; its lanes acquire at `DEVICE` (R168), and those that wait at the inbox look again (R349). -/
def restoreCore (x : Ctx) (s : State) (v : SavedCore) : State :=
  let q := getCore s v.core
  let s := setCore s v.core { q with
    groups := v.groups.foldl (fun m p => fset m p.1 (resume s.clock p.2)) q.groups,
    blocks := v.blocks.foldl (fun m b => fset m b.1 b.2) q.blocks,
    apq := if v.apq.isSome then v.apq else q.apq, boxes := q.boxes ++ v.boxes, sends := q.sends ++ v.sends,
    trapOwner := if v.trapOwner.isSome then v.trapOwner else q.trapOwner, trapQueue := q.trapQueue ++ v.trapQueue }
  let s := (fkeys v.groups).foldl (groupBackFrom x v.core) s
  wakeInbox (invalidateAt s v.core x .device) v.core x

/-- An address still meets a replayable fault. -/
def stillFaults (s : State) (x : Ctx) (va : Nat) : Bool :=
  match walk s x va with
  | .error f => f.replay
  | .ok _ => false

/-- Held accesses are issued again (R265, R309): those whose page still faults join the record that is pending, the others go on. -/
def reissue (s : State) (x : Ctx) : State :=
  ((getWing s x.wing).faults.filter (fun r => r.replay && !r.answered && r.ten == x.ten)).foldl (fun s r =>
    if stillFaults s x r.addr then s else releaseHeld s x.wing r.id) s

/-- The image comes back to the units, moved where the context changes halves (R264, R269). -/
def putBack (s : State) (x : Ctx) (half : Nat) (v : SavedCtx) : State :=
  let move := splitWing s x.wing && v.half != half
  let s := if move then moveLeft s x else s
  let s := setTenant s x { getTenant s x with saved := none, half := half }
  let v := if move then moveImage v else v
  let s := v.tiles.foldl (fun s p =>
    let k := getCluster s p.1
    setCluster s p.1 { k with tiles := p.2.foldl (fun m t => fset m t.1 t.2) k.tiles }) s
  reissue (lateFails (v.cores.foldl (restoreCore x) s) x) x

/-- Restore a context into a half: its records are read back (R269). Where that fails the state that follows. -/
def restoreCtx (s : State) (x : Ctx) (half : Nat) : Except State State :=
  let t := getTenant s x
  match t.saved, t.block with
  | none, _ => .ok (setTenant s x { t with half := half })
  | some v, none => .ok (putBack s x half v)
  | some v, some b =>
    match readRecs s x v (recIds t v) b.save (t, v) with
    | .error f => .error (saveFault s x f 0)
    | .ok r =>
      match imagePoison s x b.save (recsSize t v) with
      | some g => .error (poisonKill s x g)
      | none => .ok (putBack (setTenant (devTouch s x b.save (recsSize t v)) x r.1) x half r.2)

/-! ### The context block and the trap descriptor (R242, R279) -/

def blockOf (b : List Byte) : CtxBlock :=
  { lqtab := fieldAt b 0 8, strtab := fieldAt b 8 8, strn := fieldAt b 0x10 4, save := fieldAt b 0x18 8, savesz := fieldAt b 0x20 4,
    trapbase := fieldAt b 0x28 8, svcring := fieldAt b 0x30 8 }

def trapOf (b : List Byte) : TrapDesc :=
  { hentry := BitVec.ofNat 56 (fieldAt b 0 8), tsave := fieldAt b 8 8, tenable := BitVec.ofNat 13 (fieldAt b 0x10 4),
    bpen := BitVec.ofNat 4 (fieldAt b 0x14 4), wpen := BitVec.ofNat 4 (bitsOf (fieldAt b 0x14 4) 7 4),
    bpa := (List.range 4).map (fun k => fieldAt b (0x20 + 8 * k) 8),
    wp := (List.range 4).map (fun k => (fieldAt b (0x40 + 16 * k) 8, bitsOf (fieldAt b (0x48 + 16 * k) 4) 20 0,
      testBit (fieldAt b (0x48 + 16 * k) 4) 31, testBit (fieldAt b (0x48 + 16 * k) 4) 30)) }

/-- The limits of R279. -/
def trapOk (b : List Byte) : Bool :=
  let d := trapOf b
  let w10 := fieldAt b 0x10 4
  decide (fieldAt b 0 8 < 2 ^ 56) && fieldAt b 0 8 % 4 == 0 && d.tsave % 4096 == 0 && decide (d.tsave < 2 ^ 56)
    && bitsOf w10 31 13 == 0 && !testBit w10 0 && bitsOf (fieldAt b 0x14 4) 31 8 == 0 && fieldAt b 0x18 8 == 0
    && d.bpa.all (fun a => a % 4 == 0 && decide (a < 2 ^ 56))
    && (List.range 4).all (fun k => bitsOf (fieldAt b (0x48 + 16 * k) 4) 29 21 == 0 && fieldAt b (0x4C + 16 * k) 4 == 0
        && (match d.wp[k]? with | some p => decide (1 ≤ p.2.1) && decide (p.2.1 ≤ 1048576) | none => true))
    && fieldAt b 0x80 128 == 0

/-- The context block is read at the start of the context's first slot; the state otherwise that a failure leaves. -/
def readBlock (s : State) (x : Ctx) : Except State State :=
  let t := getTenant s x
  if t.held.isSome then .error s
  else if t.block.isSome || t.blockFail then .ok s
  else
    match ringRead s x (t.ctxReg.toNat / 128 * 128) 128 with
    | .error s =>
      let t := getTenant s x
      .error (if t.held.isNone then setTenant s x { t with blockFail := true } else s)
    | .ok (b, s) => let t := getTenant s x; .ok (setTenant s x { t with block := some (blockOf b) })

/-- The trap descriptor is read at every restore and at the first slot; one that breaks its limits counts as absent, with a record. -/
def readTrap (s : State) (x : Ctx) : Except State State :=
  let t := getTenant s x
  let put := fun (s : State) (d : Option TrapDesc) => let t := getTenant s x; setTenant s x { t with trap := d, trapFail := false }
  match t.block with
  | none => .ok (put s none)
  | some b =>
    if b.trapbase == 0 || t.trapFail then .ok (put s none)
    else if b.trapbase % 256 != 0 || decide (2 ^ 56 ≤ b.trapbase) then
      .ok (put (addRecord s x.wing { FaultRec.blank 0x23 0 x.ten with addr := b.trapbase }).2 none)
    else
      match devRead s x b.trapbase 256 with
      | .error f =>
        let r := schedRecord s x f b.trapbase 0
        match r.1 with
        | some id => let t := getTenant r.2 x; .error (setTenant r.2 x { t with held := some id })
        | none => .ok (put r.2 none)
      | .ok bs =>
        if (devPoison s x b.trapbase 256).isSome then .ok (put (poisonKill s x (physGranule s x b.trapbase)) none)
        else if trapOk bs then .ok (put (devTouch s x b.trapbase 256) (some (trapOf bs)))
        else .ok (put (addRecord (devTouch s x b.trapbase 256) x.wing { FaultRec.blank 0x23 0 x.ten with addr := b.trapbase }).2 none)

end Sys2Proof.Machine
end

