-- ==== Sys2Proof/Machine/Slots.lean ====
section
/-!
DEFINITION. Wings and their slot tables (R256 to R270): the writes of their registers, row changes and slot edges, the pre-emption
ladder, donation, and the pre-emption of a whole wing.
-/
namespace Sys2Proof.Machine

/-! ### The slot table (R260) -/

def rowDur (v : BitVec 128) : Nat := (v.extractLsb' 0 16).toNat
def rowDonates (v : BitVec 128) : Bool := v.getLsbD 24
def rowDrow (v : BitVec 128) : Nat := (v.extractLsb' 19 5).toNat
def rowL2 (v : BitVec 128) : BitVec 16 := v.extractLsb' 48 16
def rowMs (v : BitVec 128) : BitVec 16 := v.extractLsb' 32 16

/-- The defined bits of a row; the others read as zero (R4). -/
def rowMask : BitVec 128 := 0x00000000FFFF0000FFFFFFFFF1F8FFFF

/-- Two valid rows agree: equal way masks for one tenant, masks without a common bit for two. -/
def rowsAgree (a b : BitVec 128) : Bool :=
  if rowTenant a == rowTenant b then rowL2 a == rowL2 b && rowMs a == rowMs b
  else (rowL2 a &&& rowL2 b) == 0 && (rowMs a &&& rowMs b) == 0

/-- A table is consistent (R260). -/
def consistent (k : Wing) (rows : FMap (BitVec 128)) : Bool :=
  let vs := rows.filter (fun r => rowValid r.2)
  !vs.isEmpty && vs.all (fun r =>
    decide (1 ≤ rowDur r.2) && (sget Tenant.reset k.tenants (rowTenant r.2)).ctxReg.getLsbD 0
      && vs.all (fun q => rowsAgree r.2 q.2)
      && (!rowDonates r.2 || (let d := sget 0 rows (rowDrow r.2); rowValid d && rowTenant d != rowTenant r.2)))

/-- The next valid row from a row on, in ascending order and then from the lowest. -/
def validFrom (k : Wing) (r : Nat) : Option Nat :=
  ((List.range 32).map (fun j => (r + j) % 32)).find? (fun j => rowValid (getRow k j))

/-- The rows from the one after a row up to another, in the order in which they run. -/
def rowsUpTo (a r : Nat) : List Nat := ((List.range 32).map (fun j => (a + 1 + j) % 32)).takeWhile (· != r) ++ [r]

/-- Rows as written take effect at their starts; a row that is passed over since it is not valid counts as started (R260). -/
def takeRows (k : Wing) (js : List Nat) : Wing := { k with eff := js.foldl (fun m j => sset 0 m j (getRow k j)) k.eff }

/-- The number of the lowest set bit of a mask of n bits. -/
def lowBit (m n : Nat) : Option Nat := (List.range n).find? (testBit m)

/-- A wing's timing die (R262). -/
def timingDie (k : Wing) : Nat :=
  match lowBit k.wclu.toNat 96, lowBit k.wl2s.toNat 96, lowBit k.wweng.toNat 96, lowBit k.wchan.toNat 256 with
  | some c, _, _, _ | none, some c, _, _ | none, none, some c, _ => c / 24
  | none, none, none, some h => h / 64
  | _, _, _, _ => 0

/-- Microseconds that a wing's timing die has counted (R14, R15). -/
def wingMicros (s : State) (k : Wing) : Nat := sget 0 s.micros (timingDie k)

/-- The running tenant's context of a wing. -/
def curCtx (s : State) (w : Nat) : Ctx := ⟨w, (getWing s w).curt.toNat⟩

/-- The wing runs a tenant, or is changing to one. -/
def wingLive (k : Wing) : Bool := k.running || k.edge.isSome

/-! ### Slot edges -/

/-- An edge of a wing from its running tenant to a row, or the pre-emption of that tenant. -/
def edgeFor (s : State) (k : Wing) (row : Option Nat) (donor : Option Nat) : Edge :=
  { out := if k.running then some k.curt.toNat else none, row := row, inc := row.map (fun r => rowTenant (getRow k r)),
    donor := donor, t0 := wingMicros s k, grace1 := false, grace2 := false, killed := false }

/-- Begin an edge, or the pre-emption of the running tenant. -/
def startEdge (s : State) (w : Nat) (row : Option Nat) (donor : Option Nat) : State :=
  let k := getWing s w
  setWing s w { k with edge := some (edgeFor s k row donor) }

/-- `SLOT_ROW_END` (R262): the next valid row; an edge, where it is another tenant's. (Log entry 50, DEDUCED, unsafe.) -/
def slotRowEnd (s : State) (w : Nat) : State :=
  let k := getWing s w
  if s.booterr || !k.running || k.edge.isSome then s
  else
    let cur := k.donated.getD k.row.toNat
    match validFrom k (cur + 1) with
    | none => s
    | some r =>
      let k := takeRows k (rowsUpTo cur r)
      if rowTenant (getRow k r) == k.curt.toNat then
        setWing s w { k with row := BitVec.ofNat 5 r, curRow := getRow k r, donated := none }
      else setWing s w { k with edge := some (edgeFor s k (some r) none) }

def execSlotRowEnd (w : Nat) (s : State) : Out := .next (slotRowEnd s w)

/-- A group stands at a word that an edge cancels: a `LAUNCH` or a `WEMIT` under way, or one that a held store bars (R265, R363,
R411). -/
def cutShort (s : State) (c k : Nat) (g : Group) : Bool :=
  match g.active with
  | none => true
  | some e =>
    (heldStore s c k g).isSome ||
      (match peekWord s c g.id.ctx e.pc with
        | .word w => (match decodeWord w (some 0) with
          | .ok (.launch ..) | .ok (.wemit ..) => true
          | _ => false)
        | .fail _ => false)

/-- A group may halt now (R265). -/
def mayHalt (s : State) (c k : Nat) (g : Group) (e : Edge) : Bool :=
  g.halt == .run && (g.gpark != .none || (g.active.isNone && (e.grace1 || g.frontier.all (atTask s c g.id.ctx)))
    || (e.grace1 && cutShort s c k g))

/-- `GROUP_HALT` (R265, R266): the group halts, its lanes execute a `FENCE` at `DEVICE`, and with the last one the context is saved. -/
def groupHalt (s : State) (c k : Nat) : State :=
  match getGroup s c k with
  | none => s
  | some g =>
    match edgeOf s g.id.ctx with
    | none => s
    | some e =>
      if !mayHalt s c k g e then s
      else
        let s := setGroup s c k { g with halt := .halted }
        let r := releaseAt s c g.id.ctx .device (getCore s c).seq
        trySave (invalidateAt r.1 c g.id.ctx .device) g.id.ctx

def execGroupHalt (core slot : Nat) (s : State) : Out := .next (groupHalt s core slot)

def setEdge (s : State) (w : Nat) (e : Option Edge) : State := setWing s w { getWing s w with edge := e }

/-- `GRACE1_EXPIRY` (R265): groups halt at their next clause boundary. -/
def grace1Expiry (s : State) (w : Nat) : State :=
  match (getWing s w).edge with
  | some e => if e.out.isSome then setEdge s w (some { e with grace1 := true }) else s
  | none => s

def execGrace1Expiry (w : Nat) (s : State) : Out := .next (grace1Expiry s w)

/-- The outgoing tenant is saved, or has been killed and has nothing outstanding any more (R268). -/
def outGone (s : State) (w : Nat) (e : Edge) : Bool :=
  match e.out with
  | none => true
  | some t => (e.killed && !leftOver s ⟨w, t⟩) || (getTenant s ⟨w, t⟩).saved.isSome

/-- `GRACE2_EXPIRY` (R268): a tenant that is not saved is killed. -/
def grace2Expiry (s : State) (w : Nat) : State :=
  match (getWing s w).edge with
  | none => s
  | some e =>
    match e.out with
    | none => s
    | some t =>
      if e.killed || (getTenant s ⟨w, t⟩).saved.isSome then s
      else overrunKill (setEdge s w (some { e with grace2 := true })) ⟨w, t⟩ false

def execGrace2Expiry (w : Nat) (s : State) : Out := .next (grace2Expiry s w)

/-- What a killed tenant has outstanding completes, and the wing's units are cleared of it (R266, R268). -/
def clearKilled (s : State) (x : Ctx) : State :=
  let s := mapCores s (quiesceCore x)
  if leftOver s x then s else clearUnits s x

/-- The outgoing tenant is saved now, if it can be; of one that has been killed the rest completes. -/
def saveOut (s : State) (w : Nat) (e : Edge) : State :=
  match e.out with
  | some t =>
    if (getTenant s ⟨w, t⟩).saved.isSome then s
    else if e.killed then clearKilled s ⟨w, t⟩
    else
      let s := trySave s ⟨w, t⟩
      if ((getWing s w).edge.map (·.killed)).getD false then clearKilled s ⟨w, t⟩ else s
  | none => s

/-- The edge as it stands. -/
def edgeNow (s : State) (w : Nat) (e : Edge) : Edge := (getWing s w).edge.getD e

/-- The wing is pre-empted (R270). -/
def preempted (s : State) (w : Nat) (row : Option Nat) : State :=
  let k := getWing s w
  setWing s w { k with edge := none, running := false, pdone := true, preempt := false, donated := none,
                       row := match row with | some r => BitVec.ofNat 5 r | none => k.row,
                       en := k.en && !k.disabling, disabling := false }

/-- The half that an incoming tenant restores into: the one the outgoing tenant does not use (R264). -/
def halfFor (s : State) (w : Nat) (e : Edge) (t : Nat) : Nat :=
  match e.out with
  | some o => if o == t then (getTenant s ⟨w, t⟩).half else 1 - (getTenant s ⟨w, o⟩).half
  | none => (getTenant s ⟨w, t⟩).half

/-- The incoming tenant's slot begins. -/
def beginSlot (s : State) (w : Nat) (e : Edge) (r t : Nat) : State :=
  let x : Ctx := ⟨w, t⟩
  match restoreCtx s x (halfFor s w e t) with
  | .error s => s
  | .ok s =>
    let y := getTenant s x
    let us := min (2 ^ 32 - 1) (y.edgewait.toNat + (wingMicros s (getWing s w) - e.t0))
    let s := setTenant s x { y with edgewait := bw us }
    let k := getWing s w
    let s := setWing s w { k with edge := none, running := true, curt := BitVec.ofNat 3 t, row := BitVec.ofNat 5 r,
                                  curRow := sget 0 k.eff r, donated := e.donor }
    if k.preempt || k.disabling then startEdge s w none none else s

/-- `EDGE_COMMIT` (R262, R242, R279): once the outgoing tenant is saved, the incoming one is restored and runs. -/
def edgeCommit (s : State) (w : Nat) : State :=
  match (getWing s w).edge with
  | none => s
  | some e =>
    let s := if s.booterr then s else saveOut s w e
    let e := edgeNow s w e
    if s.booterr || !outGone s w e then s
    else
      match e.row, e.inc with
      | some r, some t =>
        match readBlock s ⟨w, t⟩ with
        | .error s => s
        | .ok s =>
          match readTrap s ⟨w, t⟩ with
          | .error s => s
          | .ok s => beginSlot s w e r t
      | _, _ => preempted s w none

def execEdgeCommit (w : Nat) (s : State) : Out := .next (edgeCommit s w)

/-! ### Donation (R263) -/

/-- The head of a queue can start, or the queue holds a descriptor that can become its head: the queue is served. -/
def queueWork (s : State) (x : Ctx) (q : Nat) (k : LQueue) : Bool :=
  match devRead s x (queueAddr s x q) 32 with
  | .error _ => false
  | .ok bs =>
    (queueEnt bs).served && (match k.head with
      | some h => h.bad || ((h.waits &&& ~~~(getTenant s x).events) == 0 && lastPlaced s x q)
      | none => headOf k (queueEnt bs) != k.tail)

/-- A launch of a context can start or place now. -/
def launchWork (s : State) (x : Ctx) : Bool :=
  (getTenant s x).queues.any (fun q => queueWork s x q.1 q.2)
    || (match nextLaunch (getTenant s x) with
      | some p => (match chooseCluster s x p.1 p.2 with | some c => c.2 || decide (0 < fitCount s x p.1 c.1 p.2) | none => false)
      | none => false)
    || (getWing s x.wing).waiting.any (fun p => p.2.ctx == x && (match getLaunch s x p.2.launch with
      | some l => (List.range l.blocks).any (fun b => !p.2.placed.contains b && blockFits s x p.2.launch p.2.gang (p.1 % 128) b)
      | none => false))

/-! ### Enabling and pre-empting a wing (R256, R260, R270) -/

/-- A write of 1 to `EN`: a wing that does not run starts at its row, if its table is consistent. -/
def wingEnable (s : State) (w : Nat) : State :=
  let k := getWing s w
  let k := { k with pdone := false }
  if wingLive k then setWing s w k
  else if s.booterr then s
  else if !consistent k k.rows then setWing s w { k with tblerr := true }
  else
    let s := setWing s w { k with en := true, tblerr := false, eff := k.rows }
    startEdge s w (validFrom k k.row.toNat) none

def execWingEnable (w : Nat) (s : State) : Out := .next (wingEnable s w)

/-- Ask for the wing's pre-emption: at once, or after the edge in progress; where the wing does not run, at the first slot that begins
(log entry 50, DEDUCED, unsafe). `PREEMPT` reads 1 from then on (R3). -/
def askPreempt (s : State) (w : Nat) : State :=
  let k := getWing s w
  let s := setWing s w { k with preempt := true }
  if k.edge.isNone && k.running then startEdge s w none none else s

def execWingPreempt (w : Nat) (s : State) : Out := .next (askPreempt s w)

/-- A write of 0 to `EN`: a wing that runs is pre-empted first. -/
def wingDisable (s : State) (w : Nat) : State :=
  let k := getWing s w
  let k := { k with pdone := false }
  if wingLive k then askPreempt (setWing s w { k with disabling := true }) w else setWing s w { k with en := false }

def execWingDisable (w : Nat) (s : State) : Out := .next (wingDisable s w)

/-- `PREEMPT_TIMEOUT` (R270): the edge has not committed within `GRACE2` of the request, and its incoming restore is abandoned. -/
def preemptTimeout (s : State) (w : Nat) : State :=
  let k := getWing s w
  match k.edge with
  | none => s
  | some e =>
    if !(k.preempt || k.disabling) || e.inc.isNone then s
    else
      let s := saveOut s w e
      let s := if outGone s w (edgeNow s w e) then s else grace2Expiry s w
      let s := if outGone s w (edgeNow s w e) then s else saveOut s w (edgeNow s w e)
      if outGone s w (edgeNow s w e) then preempted s w e.row else s

def execPreemptTimeout (w : Nat) (s : State) : Out := .next (preemptTimeout s w)

/-! ### Writes of a wing's registers -/

/-- A write of a slot-table row (R260): while `EN` is 1, not one that would make the table inconsistent. -/
def slotRowWrite (s : State) (w row : Nat) (v : BitVec 128) : State :=
  let k := getWing s w
  let rows := sset 0 k.rows (row % 32) (v &&& rowMask)
  if k.en && !consistent k rows then setWing s w { k with tblerr := true }
  else setWing s w { k with rows := rows, tblerr := false }

def execSlotRowWrite (w row : Nat) (v : BitVec 128) (s : State) : Out := .next (slotRowWrite s w row v)

/-- What units hold of a saved context whose register is written: held stores, paused operations and waiting gangs go with it, and
the pins of the context that is no more (R132). -/
def dropContext (s : State) (x : Ctx) : State :=
  let s := mapCores s (fun s c => let q := getCore s c; setCore s c { q with sb := q.sb.filter (fun e => e.ctx != x) })
  let s := mapClusters s (fun s n =>
    let k := getCluster s n
    let ids := (k.queue.filter (fun o => o.ctx == x)).map (·.id) ++ (k.resv.filter (fun o => o.ctx == x)).map (·.id)
    setCluster s n { k with queue := k.queue.filter (fun o => o.ctx != x), resv := k.resv.filter (fun o => o.ctx != x),
                            vit := k.vit.filter (fun v => !ids.contains v.op) })
  let k := getWing s x.wing
  setWing { s with pins := s.pins.filter (fun p => p.ctx != x) } x.wing { k with waiting := k.waiting.filter (fun g => g.2.ctx != x) }

/-- A tenant whose context register is written: a context of which nothing has run yet, whose block is read at its first slot (R242), its
events zero (R243) and its launch counter at its start (R247). The counters of R256 go on. (Log entry 52, DEDUCED, unsafe.) -/
def newContext (y : Tenant) (v : DWord) : Tenant :=
  { y with ctxReg := v &&& ~~~(0x7E : DWord), block := none, trap := none, blockFail := false, trapFail := false, events := 0, launchCtr := 0,
           launches := [], queues := [], streams := [], saved := none, held := none }

/-- A write of a context register (R261, R243, R242). -/
def contextRegWrite (s : State) (w t : Nat) (v : DWord) : State :=
  let k := getWing s w
  if wingLive k && k.eff.any (fun r => rowValid r.2 && rowTenant r.2 == t) then setWing s w { k with tblerr := true }
  else
    let s := dropContext s ⟨w, t⟩
    setTenant s ⟨w, t⟩ (newContext (getTenant s ⟨w, t⟩) v)

def execContextRegWrite (w t : Nat) (v : DWord) (s : State) : Out := .next (contextRegWrite s w t v)

/-- Word j of a map replaced. -/
def putWordAt {n : Nat} (m : BitVec n) (j : Nat) (v : Word) : BitVec n :=
  (m &&& ~~~((BitVec.allOnes 32).setWidth n <<< (32 * j))) ||| (v.setWidth n <<< (32 * j))

/-- What other wings own of one kind of unit. -/
def foreign {n : Nat} (s : State) (w : Nat) (f : Wing → BitVec n) : BitVec n :=
  (fkeys s.wings).foldl (fun m j => if j == w then m else m ||| f (getWing s j)) 0

/-- A write of an ownership bitmap (R256, R258), ignored while `EN` is 1: bits of fused units, and of units of another wing, stay 0; a
copy engine's bit stands only with its cluster's. -/
def bitmapWrite (s : State) (w off : Nat) (v : Word) : State :=
  let k := getWing s w
  let j := fun (base : Nat) => (off - base) / 4
  let clu := fun (m : BitVec 96) (f : Wing → BitVec 96) => m &&& s.liveClu &&& ~~~foreign s w f
  if k.en then s
  else if off < 0x0C then
    let m := clu (putWordAt k.wclu (j 0) v) (·.wclu)
    setWing s w { k with wclu := m, wcopy := k.wcopy &&& m }
  else if 0x10 ≤ off && off < 0x1C then setWing s w { k with wl2s := clu (putWordAt k.wl2s (j 0x10) v) (·.wl2s) }
  else if 0x20 ≤ off && off < 0x2C then setWing s w { k with wweng := clu (putWordAt k.wweng (j 0x20) v) (·.wweng) }
  else if 0x30 ≤ off && off < 0x50 then
    setWing s w { k with wchan := putWordAt k.wchan (j 0x30) v &&& s.liveChan &&& ~~~foreign s w (·.wchan) }
  else if 0x50 ≤ off && off < 0x5C then
    setWing s w { k with wcopy := clu (putWordAt k.wcopy (j 0x50) v) (·.wcopy) &&& k.wclu }
  else if 0x5C ≤ off && off < 0x60 then setWing s w { k with whq := v &&& ~~~foreign s w (·.whq) }
  else s

def execWingBitmapWrite (w off : Nat) (v : Word) (s : State) : Out := .next (bitmapWrite s w off v)

/-- `GRACE1` (R256): 1 or more and less than `GRACE2`, while `EN` is 0. -/
def execGrace1Write (w : Nat) (v : Word) (s : State) : Out :=
  let k := getWing s w
  let g : BitVec 16 := v.setWidth 16
  if k.en || g == 0 || decide (k.grace2.toNat ≤ g.toNat) then .next s else .next (setWing s w { k with grace1 := g })

/-- `GRACE2` (R256): greater than `GRACE1`, while `EN` is 0. -/
def execGrace2Write (w : Nat) (v : Word) (s : State) : Out :=
  let k := getWing s w
  let g : BitVec 20 := v.setWidth 20
  if k.en || decide (g.toNat ≤ k.grace1.toNat) then .next s else .next (setWing s w { k with grace2 := g })

end Sys2Proof.Machine
end

