-- ==== Sys2Proof/Machine/Views.lean ====
section
/-!
DEFINITION. What a read of a 32-bit register of a register view returns (R3, R21, R22, R149, R256, R260, R261, R303, R318, R321,
R324, R326). The reads that latch a second word are events of their own; a write-only or absent register reads as zero.
-/
namespace Sys2Proof.Machine

/-- Word k of a wide register. -/
def wordNo (v k : Nat) : Word := bw (v / 2 ^ (32 * k))

def bitAt (b : Bool) (n : Nat) : Nat := if b then 2 ^ n else 0

/-- The capability block (R21) over the units given: offsets from 0x0100. -/
def capBlock (s : State) (units : Word) (mib clus chans : Nat) (o : Nat) : Word :=
  if o == 0 then bw (Config.deviceCode * 2 ^ 16 + s.stepping.toNat * 2 ^ 8)
  else if o == 4 then units
  else if o == 8 then bw mib
  else if 0x10 ≤ o && decide (o ≤ 0x18) then wordNo clus ((o - 0x10) / 4)
  else if 0x20 ≤ o && decide (o ≤ 0x3C) then wordNo chans ((o - 0x20) / 4)
  else 0

/-- The physical function's counts (R22): every live unit. -/
def packageUnits (s : State) : Word :=
  let c := popCount s.liveClu.toNat 96
  capUnits c c (popCount s.liveChan.toNat 256) c

/-- MiB behind a number of channels (R13). -/
def channelMib (n : Nat) : Nat := n * (Config.channelBytes / 2 ^ 20)

def pfCap (s : State) (o : Nat) : Word :=
  capBlock s (packageUnits s) (channelMib (popCount s.liveChan.toNat 256)) s.liveClu.toNat s.liveChan.toNat o

def vfCap (s : State) (w o : Nat) : Word :=
  let k := getWing s w
  capBlock s (wingUnits k) (channelMib (popCount k.wchan.toNat 256)) k.wclu.toNat k.wchan.toNat o

/-- The wing block (R256). -/
def wingBlockRead (s : State) (w o : Nat) : Word :=
  let k := getWing s w
  if o ≤ 0x08 then wordNo k.wclu.toNat (o / 4)
  else if 0x10 ≤ o && decide (o ≤ 0x18) then wordNo k.wl2s.toNat ((o - 0x10) / 4)
  else if 0x20 ≤ o && decide (o ≤ 0x28) then wordNo k.wweng.toNat ((o - 0x20) / 4)
  else if 0x30 ≤ o && decide (o ≤ 0x4C) then wordNo k.wchan.toNat ((o - 0x30) / 4)
  else if 0x50 ≤ o && decide (o ≤ 0x58) then wordNo k.wcopy.toNat ((o - 0x50) / 4)
  else if o == 0x5C then k.whq
  else if o == 0x60 then k.weights
  else if o == 0x64 then bw (bitAt k.en 31 + bitAt k.preempt 30 + bitAt k.pdone 29 + bitAt k.tblerr 28)
  else if o == 0x68 then bw (k.row.toNat * 2 ^ 27 + k.curt.toNat * 2 ^ 24 + bitAt k.edge.isSome 23)
  else if o == 0x6C then bw k.grace1.toNat
  else if o == 0x70 then bw k.grace2.toNat
  else if 0x80 ≤ o then
    let t := getTenant s ⟨w, (o - 0x80) / 16⟩
    if o % 16 == 0 then t.thrloss.extractLsb' 0 32
    else if o % 16 == 4 then t.thrlatch
    else if o % 16 == 8 then t.edgewait
    else t.overruns
  else 0

/-- The translation registers (R303), by their offset there; `pf` tells the physical function's view. -/
def xlRead (s : State) (w o : Nat) (pf : Bool) : Word :=
  let k := getWing s w
  if 0x240 ≤ o && decide (o < 0x280) then wordNo (getTenant s ⟨w, (o - 0x240) / 8⟩).s1root.toNat (o / 4 % 2)
  else if 0x280 ≤ o && decide (o < 0x288) then (if pf then wordNo k.s2root.toNat (o / 4 % 2) else 0)
  else if 0x288 ≤ o && decide (o < 0x290) then (if pf then wordNo k.fqbase.toNat (o / 4 % 2) else 0)
  else if o == 0x290 then k.fqtail
  else if o == 0x294 then k.fqhead
  else if o == 0x298 then bw k.fqlog.toNat
  else if o == 0x2A4 then bw (bitAt k.xbusy 31 + k.xscope.toNat * 2 ^ 29 + k.xten.toNat * 2 ^ 26)
  else if 0x2A8 ≤ o && decide (o < 0x2B0) then wordNo k.xaddr.toNat (o / 4 % 2)
  else if o == 0x2B0 then k.fqlost
  else 0

/-- The slot table, the context registers and the translation registers of a wing (R260, R261, R303). -/
def slotBlockRead (s : State) (w o : Nat) : Word :=
  if o < 0x200 then wordNo (getRow (getWing s w) (o / 16)).toNat (o / 4 % 4)
  else if o < 0x240 then wordNo (getTenant s ⟨w, (o - 0x200) / 8⟩).ctxReg.toNat (o / 4 % 2)
  else xlRead s w o true

/-- An attestation mailbox (R324), by offset from 0x0600. -/
def mailRead (s : State) (view o : Nat) : Word :=
  let m := sget Mailbox.reset s.mailboxes view
  if o < 0x20 then wordNo m.nonce.toNat (o / 4)
  else if o < 0x28 then wordNo m.buf.toNat (o / 4 % 2)
  else if o == 0x28 then bw (bitAt m.go 31 + bitAt m.err 30 + bitAt m.op 0)
  else 0

/-- The counters of a channel (R149); a fused channel's read as zero. -/
def channelRead (s : State) (h o : Nat) : Word :=
  let k := sget Channel.reset s.channels h
  if !s.liveChan.getLsbD h then 0
  else if o == 0 then k.refwait.extractLsb' 0 32
  else if o == 4 then k.latch
  else if o == 8 then k.pinbyp
  else k.scrubdrop ++ k.scrubfix

/-- A Joesh port's block (R321). -/
def portRead (s : State) (p o : Nat) : Word :=
  let k := sget Port.reset s.ports p
  if o == 0 then bw (bitAt k.jup 31 + bitAt k.jen 30 + k.jwing.toNat * 2 ^ 25 + k.jten.toNat * 2 ^ 22)
  else if o == 4 then k.jretry
  else 0

/-- A read of a virtual function's view (R318): its wing's. -/
def vfRead (s : State) (w o : Nat) : Word :=
  let k := getWing s w
  if o == 0 then bw (bitAt k.nfq 8 + k.nsvc.toNat)
  else if o == 4 then bw k.nmask.toNat
  else if 0x100 ≤ o && decide (o < 0x140) then vfCap s w (o - 0x100)
  else if 0x200 ≤ o && decide (o < 0x400) then wordNo (getTenant s ⟨w, (o - 0x200) / 32 % 8⟩).events.toNat (o / 4 % 8)
  else if 0x600 ≤ o && decide (o < 0x630) then mailRead s w (o - 0x600)
  else if 0xA40 ≤ o && decide (o ≤ 0xAB4) then xlRead s w (o - 0x800) false
  else 0

/-- A read of the physical function's view, in which the virtual functions' views appear again (R317). -/
def pfRead (s : State) (o : Nat) : Word :=
  if o == 0 then bw (bitAt s.stopped 31 + bitAt s.booterr 30)
  else if o == 4 then bw s.plimit.toNat
  else if o == 8 then bw (s.clkstep.toNat * 2 ^ 27 + s.temp.toNat)
  else if 0x100 ≤ o && decide (o < 0x140) then pfCap s (o - 0x100)
  else if 0x600 ≤ o && decide (o < 0x630) then mailRead s 24 (o - 0x600)
  else if 0x1000 ≤ o && decide (o < 0x1200) then portRead s ((o - 0x1000) / 0x40) (o % 0x40)
  else if 0x2000 ≤ o && decide (o < 0x3800) then wingBlockRead s ((o - 0x2000) / 0x100) (o % 0x100)
  else if 0x4000 ≤ o && decide (o < 0x5000) then channelRead s ((o - 0x4000) / 0x10) (o % 0x10)
  else if 0x8000 ≤ o && decide (o < 0xE000) then slotBlockRead s ((o - 0x8000) / 0x400) (o % 0x400)
  else if 0x10000 ≤ o && decide (o < 0x70000) then vfRead s ((o - 0x10000) / 0x4000) (o % 0x4000)
  else 0

end Sys2Proof.Machine
end

