-- ==== Sys2Proof/Machine/Registers.lean ====
section
/-!
DEFINITION. The register views (R149, R256, R303, R318, R321, R324, R326): writes of registers without behaviour of their own, latching
reads, notification bits, events and streams set from the host, attestation, memory channels (R147, R148), and clock steps (R326).
-/
namespace Sys2Proof.Machine

/-! ### Halves of a 64-bit register -/

def putLo (r : DWord) (v : Word) : DWord := (r &&& 0xFFFFFFFF00000000) ||| v.setWidth 64

def putHi (r : DWord) (v : Word) : DWord := (r &&& 0x00000000FFFFFFFF) ||| (v.setWidth 64 <<< 32)

/-! ### Memory channels (R147 to R149) -/

/-- The pseudo-channel of a bank: banks are numbered 256 to each. (Log entry 61, DEDUCED, safe.) -/
def bankPc (bank : Nat) : Nat := bank / 256

/-- The channel of a pseudo-channel has refreshed, with the demand requests that waited behind it (R149); the postponements given are
made up for. -/
def refreshed (s : State) (pc waited : Nat) (gone : Nat → Bool) : State :=
  let ch := pc / 2
  if s.liveChan.getLsbD ch then
    let k := getChannel s ch
    { setChannel s ch { k with refwait := k.refwait + BitVec.ofNat 64 waited } with postponed := s.postponed.filter (fun p => !gone p.1) }
  else s

/-- `REFRESH` (R147): a refresh of a bank takes place, or is postponed, up to eight times; then every bank of the pseudo-channel
refreshes. -/
def refreshBank (s : State) (bank waited : Nat) : State :=
  let n := sget 0 s.postponed bank
  if 8 ≤ n then refreshed s (bankPc bank) waited (fun b => bankPc b == bankPc bank)
  else
  let ch := choose s 2
  if ch.1 == 1 then { ch.2 with postponed := sset 0 ch.2.postponed bank (n + 1) }
  else refreshed ch.2 (bankPc bank) waited (· == bank)

def execRefresh (bank waited : Nat) (s : State) : Out := .next (refreshBank s bank waited)

/-- `FORCED_REFRESH` (R147): a bank's allowance is exhausted, and every bank of the pseudo-channel refreshes. -/
def execForcedRefresh (pc waited : Nat) (s : State) : Out :=
  if s.postponed.any (fun p => bankPc p.1 == pc && p.2 == 8) then .next (refreshed s pc waited (fun b => bankPc b == pc)) else .next s

/-- `PATROL_SCRUB` (R148): a granule with a correctable error is written back, unless a demand write came between. The bytes of the
granule are those it held. (Log entry 61, DEDUCED, safe.) -/
def patrolScrub (s : State) (granule : Nat) (bad intervened : Bool) : State :=
  let g := granule / 32 * 32
  if bad || (fget s.correctable g).isSome then countScrub { s with correctable := ferase s.correctable g } (channelOf s none (g / 128)) intervened
  else s

def execPatrolScrub (granule : Nat) (corrected : Option (List Byte)) (intervened : Bool) (s : State) : Out :=
  .next (patrolScrub s granule corrected.isSome intervened)

/-- `REFWAIT_READ` (R149): the read of the low half latches the high half. -/
def execRefwaitRead (channel : Nat) (s : State) : Out :=
  let k := getChannel s channel
  .next (setChannel s channel { k with latch := (k.refwait >>> 32).setWidth 32 })

/-- `THRLOSS_READ` (R256). -/
def execThrlossRead (w t : Nat) (s : State) : Out :=
  let y := getTenant s ⟨w, t⟩
  .next (setTenant s ⟨w, t⟩ { y with thrlatch := (y.thrloss >>> 32).setWidth 32 })

/-! ### Attestation (R324) -/

def getMailbox (s : State) (view : Nat) : Mailbox := sget Mailbox.reset s.mailboxes view

def setMailbox (s : State) (view : Nat) (m : Mailbox) : State := { s with mailboxes := sset Mailbox.reset s.mailboxes view m }

/-- Bytes of the part itself, from an offset of a kind of them (R324). -/
def partBytes (kind off n : Nat) : List Byte := (List.range n).map (fun j => Config.attestationByte kind (off + j))

/-- The identity key's signature over bytes (R324). -/
def signatureOf (bs : List Byte) (n : Nat) : List Byte := (List.range n).map (Config.signatureByte bs)

/-- A wing's block of R256 with its read-only fields as zero. -/
def wingConfig (s : State) (w o : Nat) : Word :=
  if o == 0x64 then wingBlockRead s w o &&& 0xC0000000 else if o == 0x68 || 0x74 ≤ o then 0 else wingBlockRead s w o

/-- What the digest of a wing's configuration covers (R324). -/
def wingDigest (s : State) (w : Nat) : List Byte :=
  let words := fun (n : Nat) (f : Nat → Word) => (List.range n).flatMap (fun j => leBytes 4 (f (4 * j)).toNat)
  words 64 (wingConfig s w) ++ words 144 (slotBlockRead s w) ++ leBytes 8 (getWing s w).s2root.toNat ++ leBytes 8 (getWing s w).fqbase.toNat

/-- The wings in the scope of a mailbox: a virtual function's own, or all. -/
def scopeWings (view : Nat) : List Nat := if view < 24 then [view] else List.range Config.numWings

/-- The signed part of a report (R324). -/
def reportBytes (s : State) (view : Nat) : List Byte :=
  leBytes 4 1 ++ leBytes 4 (if view < 24 then view else 0xFFFFFFFF) ++ leBytes 32 (getMailbox s view).nonce.toNat
    ++ partBytes 0 0 200 ++ shake256 ((scopeWings view).flatMap (wingDigest s)) 64 ++ leBytes 4 s.reports.toNat ++ zeroBytes 12

/-- A write of `ATTGO`: the request is accepted unless one is under way, and captures the configuration, its operation and its
buffer. -/
def attestGo (s : State) (view : Nat) (cert : Bool) : State :=
  let m := getMailbox s view
  if m.go then s
  else setMailbox s view { m with go := true, err := false, op := cert, goOp := cert, goBuf := m.buf,
                                  captured := if cert then [] else reportBytes s view }

def execAttestReport (view : Nat) (s : State) : Out := .next (attestGo s view false)

def execAttestCert (view : Nat) (s : State) : Out := .next (attestGo s view true)

/-- The length of the part's certificate chain, at most 32 KiB. -/
def chainLength : Nat := leNat (partBytes 2 0 2) % 32769

/-- The bytes that a request writes: a report with its signature, or the certificate chain. -/
def attestOut (m : Mailbox) : List Byte :=
  if m.goOp then partBytes 1 0 chainLength else m.captured ++ signatureOf m.captured 29792

/-- `ATTEST_DONE`: the buffer is written and `ATTGO` clears, or the write has failed. A wing without a host queue has no path. -/
def attestDone (s : State) (view : Nat) (ok : Bool) : State :=
  let m := getMailbox s view
  if !m.go then s
  else
    let path := !decide (view < 24) || (getWing s view).whq != 0
    if ok && path then
      let s := { homeWrite s ⟨.host, m.goBuf.toNat⟩ (attestOut m) with reports := if m.goOp then s.reports else s.reports + 1 }
      setMailbox s view { m with go := false, captured := [] }
    else setMailbox s view { m with go := false, err := true, captured := [] }

def execAttestDone (view : Nat) (ok : Bool) (s : State) : Out := .next (attestDone s view ok)

/-! ### Plain registers -/

/-- `XCTL`: a write that carries `XSCOPE` 3 is ignored in whole; one with `XBUSY` starts an invalidation (R303). -/
def xctlWrite (s : State) (w : Nat) (v : Word) : State :=
  let scope := bitsOf v.toNat 30 29
  let t := bitsOf v.toNat 28 26
  if scope == 3 then s
  else if testBit v.toNat 31 then xinvStart s w scope t
  else setWing s w { getWing s w with xscope := BitVec.ofNat 2 scope, xten := BitVec.ofNat 3 t }

/-- The effect of a write on a register without behaviour of its own. -/
def plainWrite (s : State) (r : PlainReg) (v : Word) : State :=
  match r with
  | .plimit => let p : BitVec 16 := v.setWidth 16; if 600 ≤ p.toNat && decide (p.toNat ≤ 2400) then { s with plimit := p } else s
  | .weights w => let k := getWing s w; if k.en then s else setWing s w { k with weights := v }
  | .jctl p =>
    let k := sget Port.reset s.ports p
    { s with ports := sset Port.reset s.ports p { k with jen := testBit v.toNat 30, jwing := v.extractLsb' 25 5, jten := v.extractLsb' 22 3 } }
  | .s1rootLo w t => let y := getTenant s ⟨w, t⟩; setTenant s ⟨w, t⟩ { y with s1root := putLo y.s1root v }
  | .s1rootHi w t => let y := getTenant s ⟨w, t⟩; setTenant s ⟨w, t⟩ { y with s1root := putHi y.s1root v }
  | .s2rootLo w => let k := getWing s w; if k.en then s else setWing s w { k with s2root := putLo k.s2root v }
  | .s2rootHi w => let k := getWing s w; if k.en then s else setWing s w { k with s2root := putHi k.s2root v }
  | .fqbaseLo w => let k := getWing s w; if k.en then s else setWing s w { k with fqbase := putLo k.fqbase v }
  | .fqbaseHi w => let k := getWing s w; if k.en then s else setWing s w { k with fqbase := putHi k.fqbase v }
  | .fqhead w => setWing s w { getWing s w with fqhead := v }
  | .fqlog w => setWing s w { getWing s w with fqlog := v.setWidth 5 }
  | .fqrseq w => setWing s w { getWing s w with fqrseq := v }
  | .xctl w => xctlWrite s w v
  | .xaddrLo w => let k := getWing s w; setWing s w { k with xaddr := putLo k.xaddr v }
  | .xaddrHi w => let k := getWing s w; setWing s w { k with xaddr := putHi k.xaddr v }
  | .nmask w => setWing s w { getWing s w with nmask := v.setWidth 9 }
  | .attnonce view k => let m := getMailbox s view; setMailbox s view { m with nonce := putWordAt m.nonce (k % 8) v }
  | .attbufLo view => let m := getMailbox s view; setMailbox s view { m with buf := putLo m.buf v }
  | .attbufHi view => let m := getMailbox s view; setMailbox s view { m with buf := putHi m.buf v }
  | .attop view =>
    if testBit v.toNat 31 then attestGo s view (testBit v.toNat 0)
    else let m := getMailbox s view; setMailbox s view { m with op := testBit v.toNat 0 }
  | .readOnly _ => s

def execRegisterWrite (r : PlainReg) (v : Word) (s : State) : Out := .next (plainWrite s r v)

/-! ### A virtual function's view (R318) -/

/-- `NOTIFY_CLEAR`: bits written as 1 clear. -/
def execNotifyClear (w : Nat) (v : Word) (s : State) : Out :=
  let k := getWing s w
  .next (setWing s w { k with nfq := k.nfq && !testBit v.toNat 8, nsvc := k.nsvc &&& ~~~(v.setWidth 8) })

/-- The context of a tenant is enabled (R261). (Log entry 55, DEDUCED, unsafe.) -/
def enabledCtx (s : State) (x : Ctx) : Bool := (getTenant s x).ctxReg.getLsbD 0

/-- Events 32k + b of a tenant, for the bits b of a word. -/
def eventWord (k : Nat) (v : Word) : BitVec 256 := v.setWidth 256 <<< (32 * k)

def execEvsWrite (w t k : Nat) (v : Word) (s : State) : Out :=
  let y := getTenant s ⟨w, t⟩
  if enabledCtx s ⟨w, t⟩ then .next (setTenant s ⟨w, t⟩ { y with events := y.events ||| eventWord k v }) else .next s

def execEvcWrite (w t k : Nat) (v : Word) (s : State) : Out :=
  let y := getTenant s ⟨w, t⟩
  if enabledCtx s ⟨w, t⟩ then .next (setTenant s ⟨w, t⟩ { y with events := y.events &&& ~~~eventWord k v }) else .next s

/-- A `STROP` write; one of an absent tenant, or of an index at or beyond `STRN`, is ignored. -/
def strop (s : State) (x : Ctx) (ix op : Nat) : State :=
  let strn := match (getTenant s x).block with
    | some b => b.strn
    | none => 0
  if enabledCtx s x && decide (ix < strn) then streamControl s x ix op 0 else s

def execStropArm (w t : Nat) (ix : BitVec 14) (s : State) : Out := .next (strop s ⟨w, t⟩ ix.toNat 0)

def execStropPause (w t : Nat) (ix : BitVec 14) (s : State) : Out := .next (strop s ⟨w, t⟩ ix.toNat 1)

def execStropResume (w t : Nat) (ix : BitVec 14) (s : State) : Out := .next (strop s ⟨w, t⟩ ix.toNat 2)

/-! ### Power (R326, R327) -/

/-- The device stops (R327): its ports go down, and the physical function sends vector 0. -/
def deviceStop (s : State) : State :=
  if s.stopped then s
  else { s with stopped := true, msi := s.msi ++ [(24, 0)],
                ports := s.ports.foldl (fun m p => sset Port.reset m p.1 { p.2 with jup := false }) [] }

/-- `THROTTLE_STEP` (R326): every 100 µs; `raise` says that a millisecond has passed since the last rise. At
110 °C the device stops (R327). -/
def execThrottleStep (power temp : Nat) (raise : Bool) (s : State) : Out :=
  let s := { s with temp := BitVec.ofNat 8 temp }
  let s := if 110 ≤ temp then deviceStop s else s
  if s.plimit.toNat < power || 100 ≤ temp then
    .next (if 4 < s.clkstep.toNat then { s with clkstep := s.clkstep - 1 } else s)
  else if raise && decide (100 * power < 95 * s.plimit.toNat) && decide (temp < 95) then
    .next (if s.clkstep.toNat < 16 then { s with clkstep := s.clkstep + 1 } else s)
  else .next s

def execOvertempStop (s : State) : Out := .next (deviceStop { s with temp := 110 })

end Sys2Proof.Machine
end

