-- ==== Sys2Proof/Machine/Host.lean ====
section
/-!
DEFINITION. The outside of the device (R179, R180, R312 to R327): host reads and writes, what peers send and acknowledge, links,
uncorrectable errors and their confinement, and resets.
-/
namespace Sys2Proof.Machine

/-! ### Host accesses (R179, R317) -/

/-- The place of a byte that a host or peer names by an intermediate address of a wing (R317, R321): device memory, with the rights.
(Log entry 58, DEDUCED, unsafe.) -/
def wingPlace (s : State) (w ia : Nat) (wr : Bool) : Option (Leaf × Nat) :=
  let k := getWing s w
  match walkStage2 s k ia with
  | .error _ => none
  | .ok l =>
    match leafTgt s k l with
    | .ok .dev => if testBit l.pte (if wr then 3 else 2) then some (l, l.out) else none
    | _ => none

/-- The device addresses of a range of intermediate addresses, byte by byte; nothing where one fails. -/
def wingBytes (s : State) (w ia : Nat) (rd wr plain : Bool) (n : Nat) : Option (List Nat) :=
  (List.range n).mapM (fun j =>
    match (if rd then wingPlace s w (ia + j) false else wingPlace s w (ia + j) true) with
    | none => none
    | some p =>
      if (wr && !testBit p.1.pte 3) || (plain && bitsOf p.1.pte 57 56 != 0) then none else some p.2)

/-- Write bytes at device addresses. -/
def writeBytes (s : State) (as : List Nat) (bs : List Byte) : State :=
  match as, bs with
  | a :: _, _ =>
    if as == (List.range as.length).map (a + ·) then homeWrite s ⟨.dev, a⟩ bs
    else (as.zip bs).foldl (fun s p => homeWrite s ⟨.dev, p.1⟩ [p.2]) s
  | [], _ => s

/-- `HOST_WRITE` (R179): it performs at its home. Through a wing's window, a failure of stage 2 is an Unsupported Request. -/
def hostWrite (s : State) (sp : HostSpace) (a : Nat) (bs : List Byte) : State :=
  match sp with
  | .hostMem => homeWrite s ⟨.host, a⟩ bs
  | .device => if s.booterr || decide (deviceBytes s < a + bs.length) then s else homeWrite s ⟨.dev, a⟩ bs
  | .wingBar w =>
    if s.booterr then s
    else
      match wingBytes s w a false true false bs.length with
      | some as => writeBytes s as bs
      | none => s

def execHostWrite (sp : HostSpace) (a : Nat) (bs : List Byte) (s : State) : Out := .next (hostWrite s sp a bs)

/-- Bytes of device memory as they leave the device: poisoned ones are marked, and their value is free (R312). -/
def readBytes (s : State) (as : List Nat) : List Byte × Bool × State :=
  if as.any (fun a => (poisonIn s ⟨.dev, a⟩ 1).isSome) then
    let r := as.foldl (fun (r : List Byte × State) _ => let f := freshWord r.2; (r.1 ++ [f.1.setWidth 8], f.2)) ([], s)
    (r.1, true, r.2)
  else (as.map (fun a => memByte s.mem a), false, s)

/-- `HOST_READ` (R179): the read binds at the home. -/
def hostReadOp (s : State) (sp : HostSpace) (a n : Nat) : State :=
  let give := fun (as : List Nat) => let r := readBytes s as; { r.2.2 with hostRead := some r.1, hostPoison := r.2.1 }
  let unsupported := { s with hostRead := none, hostPoison := false }
  match sp with
  | .hostMem => { s with hostRead := some (memRead s.hostMem a n), hostPoison := false }
  | .device => if s.booterr || decide (deviceBytes s < a + n) then unsupported else give ((List.range n).map (a + ·))
  | .wingBar w =>
    if s.booterr then unsupported
    else
      match wingBytes s w a true false false n with
      | some as => give as
      | none => unsupported

def execHostRead (sp : HostSpace) (a n : Nat) (s : State) : Out := .next (hostReadOp s sp a n)

/-! ### Joesh (R180, R320, R321) -/

def getPort (s : State) (p : Nat) : Port := sget Port.reset s.ports p

def setPort (s : State) (p : Nat) (k : Port) : State := { s with ports := sset Port.reset s.ports p k }

def execJoeshLinkTrain (p : Nat) (up : Bool) (s : State) : Out :=
  .next (if up && s.stopped then s else setPort s p { getPort s p with jup := up })

/-- `JOESH_FLIT_ERROR` (R320): the flit is repeated, and counted. -/
def execJoeshFlitError (p : Nat) (s : State) : Out :=
  .next (setPort s p { getPort s p with jretry := bump (getPort s p).jretry })

/-- A port takes incoming requests: it is enabled, its link up and its wing enabled (R321). -/
def takesPeers (s : State) (p : Nat) : Bool :=
  let k := getPort s p
  k.jup && k.jen && (getWing s k.jwing.toNat).en && !s.stopped && !s.booterr

/-- An incoming read or atomic acquires at `SYSTEM` (R180): releases that were the units' last writes are promoted (R169). -/
def peerAcquire (s : State) (x : Ctx) (as : List Nat) : State :=
  as.foldl (fun s a => (promote s (4 * Config.numClusters) x ⟨.dev, a⟩).1) s

/-- One atomic step on a word in device memory for a peer; the old value. -/
def peerStep (s : State) (as : List Nat) (f : Nat → Option Nat) : State :=
  let old := as.map (fun a => memByte s.mem a)
  let s := { s with peerReply := some old }
  match f (leNat old) with
  | some v => writeBytes s as (leBytes as.length v)
  | none => s

/-- `JOESH_INCOMING_ACCESS`: translated by the wing's stage 2, and refused where R321 says so. -/
def joeshIncoming (s : State) (p : Nat) (a : PeerAccess) : State :=
  let k := getPort s p
  let w := k.jwing.toNat
  let x : Ctx := ⟨w, k.jten.toNat⟩
  let refused := { s with peerReply := none }
  if !takesPeers s p then refused
  else
    match a with
    | .read ia n =>
      match wingBytes s w ia true false true n with
      | none => refused
      | some as =>
        let s := peerAcquire s x as
        let r := readBytes s as
        { r.2.2 with peerReply := if r.2.1 then none else some r.1 }
    | .write ia bs =>
      match wingBytes s w ia false true true bs.length with
      | none => refused
      | some as => writeBytes { s with peerReply := some [] } as bs
    | .atom op wide ia v cmp =>
      let n := if wide then 8 else 4
      match if ia % n == 0 then wingBytes s w ia true true true n else none with
      | none => refused
      | some as =>
        -- poisoned data is never returned as data (R312)
        if as.any (fun a => (poisonIn s ⟨.dev, a⟩ 1).isSome) then refused
        else peerStep (peerAcquire s x as) as (atomNew op wide v.toNat cmp.toNat)
    | .red op ia v ftz cnan sat =>
      match if ia % 4 == 0 then wingBytes s w ia true true true 4 else none with
      | none => refused
      | some as => peerStep s as (fun old => some (redStep op ftz cnan sat (BitVec.ofNat 32 old) v).toNat)
    | .message core tag src n ws =>
      if !(liveCluster s (clusterOf core) && (getWing s w).wclu.getLsbD (clusterOf core)) then refused
      else if !contextRuns s x then s
      else
        let r := deliverMsg s core x ⟨tag, sourceWord src (some p), n, ws⟩
        { r.2 with peerReply := some (leBytes 4 r.1.toNat) }

def execJoeshIncomingAccess (p : Nat) (a : PeerAccess) (s : State) : Out := .next (joeshIncoming s p a)

/-- `PEER_HOME_ACKNOWLEDGEMENT` (R180): the oldest write of a port performs and completes. -/
def peerAck (s : State) (p : Nat) : State :=
  match sget [] s.peerOut p with
  | [] => s
  | w :: ws =>
    let s := { s with peerOut := sset [] s.peerOut p ws }
    flagDone (if w.bytes.isEmpty then s else homeWrite s ⟨.peer p, w.a⟩ w.bytes) w.core w.slot w.age w.flag

def execPeerHomeAcknowledgement (p : Nat) (s : State) : Out := .next (peerAck s p)

/-! ### Uncorrectable errors (R313, R314) -/

/-- What a scan of translation tables finds for an address: a table that holds it, or a leaf that maps it, with the page's owner and
the address translated. -/
inductive Hit where
  | table
  | leaf (own va : Nat)
  deriving DecidableEq, Repr

/-- Scan tables of one stage for what they hold or map of an address; `rd` reads an entry. -/
def scanTables (stage2 : Bool) (rd : Nat → Nat) (a : Nat) : List (Nat × Nat) → Nat → Nat → Nat → List Hit
  | [], _, _, _ => []
  | (sh, nb) :: ls, lvl, tbl, base =>
    (if tbl ≤ a && decide (a < tbl + 8 * 2 ^ nb) then [Hit.table] else [])
      ++ (List.range (2 ^ nb)).flatMap (fun i =>
        let pte := rd (tbl + 8 * i)
        if !testBit pte 0 || pteBad stage2 sh lvl pte then []
        else
          let oa := pte / 2 ^ 12 % 2 ^ 44 * 2 ^ 12
          if testBit pte 1 then scanTables stage2 rd a ls (lvl + 1) oa (base + i * 2 ^ sh)
          else if (!stage2 || bitsOf pte 59 58 == 0) && decide (oa ≤ a) && decide (a < oa + 2 ^ sh) then
            [Hit.leaf (bitsOf pte 57 56) (base + i * 2 ^ sh + (a - oa))]
          else [])

/-- What the stage 2 of a wing says of a device address. -/
def stage2Hits (s : State) (w a : Nat) : List Hit :=
  let r := (getWing s w).s2root.toNat
  if r == 0 then [] else scanTables true (fun p => leNat (memRead s.mem p 8)) a xlLevels 0 r 0

/-- Whether the stage 1 of a context holds or maps an intermediate address. -/
def stage1Owns (s : State) (x : Ctx) (ia : Nat) : Bool :=
  let r := (getTenant s x).s1root.toNat
  let rd := fun p => match readStage1 s (getWing s x.wing) p with
    | .ok v => v
    | .error _ => 0
  r != 0 && !(scanTables false rd ia xlLevels 0 r 0).isEmpty

/-- Stop a wing (R314): every context is killed, `EN` cleared, `PDONE` set, with a record. -/
def wingStop (s : State) (w granule : Nat) : State :=
  let s := ((List.range Config.numTenants).filter (fun t => enabledCtx s ⟨w, t⟩)).foldl (fun s t => poisonKill s ⟨w, t⟩ granule) s
  let k := getWing s w
  let s := setWing s w { k with en := false, pdone := true, running := false, edge := none, preempt := false, disabling := false,
                                donated := none }
  (addRecord s w { FaultRec.blank 0x26 0 0 with addr := granule }).2

/-- A granule of device memory is poisoned; the loads that read it have bound. -/
def poisonGranule (s : State) (g : Nat) : State :=
  let s := bindEverywhere s ⟨.dev, g⟩ 32
  { s with poison := if s.poison.contains g then s.poison else g :: s.poison }

/-- An error that no consumer has met writes a record (R313). -/
def unmetError (s : State) (w g : Nat) : State :=
  let ch := choose s 2
  if ch.1 == 1 then (addRecord ch.2 w { FaultRec.blank 0x25 0 0 with addr := g }).2 else ch.2

/-- An only copy in memory is lost: it is poisoned, and confined by the owner of its page; `ways` is the context whose ways held it, for
a cached copy. (Log entry 59, DEDUCED, unsafe.) -/
def memoryError (s : State) (g : Nat) (ways : Option Ctx) : State :=
  let hits := (fkeys s.wings).flatMap (fun w => (stage2Hits s w g).map (fun h => (w, h)))
  if hits.isEmpty then deviceStop s
  else
    let wings := (hits.filter (fun h => match h.2 with | .table => true | .leaf own _ => own == 2)).map (·.1) |>.eraseDups
    let owned := hits.filterMap (fun h => match h.2 with | .leaf 1 ia => some (h.1, ia) | _ => none)
    let s := poisonGranule s g
    if !wings.isEmpty then wings.foldl (fun s w => wingStop s w g) s
    else if !owned.isEmpty then
      match ways with
      | some x => poisonKill s x g
      | none => owned.foldl (fun s p => ((List.range Config.numTenants).filter (fun t => stage1Owns s ⟨p.1, t⟩ p.2)).foldl
        (fun s t => poisonKill s ⟨p.1, t⟩ g) s) s
    else
      match hits with
      | h :: _ => unmetError s h.1 g
      | [] => s

/-- An error in a sector of a core-side slice: a clean copy is discarded; a dirty one is lost, and its granule with it. -/
def sectorError (s : State) (slice key : Nat) : State :=
  match fget (getCluster s slice).l2 key with
  | none => s
  | some x =>
    let l := sectorLoc (key / 256)
    let s := if x.dirty == 0 then s else bindEverywhere s l 32
    let k := getCluster s slice
    let s := setCluster s slice { k with l2 := ferase k.l2 key }
    if x.dirty == 0 then s
    else match l.tgt with
      | .dev => memoryError s l.a (some x.ctx)
      | _ => unmetError { s with hostBad := if s.hostBad.contains l.a then s.hostBad else l.a :: s.hostBad } x.ctx.wing l.a

/-- An error in a granule of a home slice: a clean copy is discarded, unless it is pinned and so fetched again at once. -/
def homeError (s : State) (g : Nat) : State :=
  if memRead s.mem g 32 == memRead s.dram g 32 then (if isPinned s (g / 128) then s else homeDrop s (g / 128))
  else memoryError s g ((s.slice.find? (fun h => h.line == g / 128)).map (·.ctx))

/-- `UNCORRECTABLE_ERROR` (R313). -/
def uncorrectable (s : State) (e : ErrorSite) : State :=
  match e with
  | .l1 c line => setCore s c (l1Drop (getCore s c) line)
  | .l2 n key => sectorError s n key
  | .home a => homeError s (a / 32 * 32)
  | .coreTlb c i => let q := getCore s c; setCore s c { q with tlb := q.tlb.eraseIdx i }
  | .clusterTlb n i => let k := getCluster s n; setCluster s n { k with tlb := k.tlb.eraseIdx i }
  | .memory a => memoryError s (a / 32 * 32) none
  | .scratch core block line =>
    let s := bindEverywhere s ⟨.scr core block, 128 * line⟩ 128
    match getBlock s core block with
    | some b => setBlock s core block { b with poison := if b.poison.contains (128 * line) then b.poison else 128 * line :: b.poison }
    | none => s
  | .ownedStore w t => poisonKill s ⟨w, t⟩ 0
  | .fabric => deviceStop s

def execUncorrectableError (e : ErrorSite) (s : State) : Out := .next (uncorrectable s e)

/-! ### Resets (R322, R325) -/

/-- The live units from a reset on: as the Milusk controller has settled, else as they were (R18, R20). -/
def fusesOf (s : State) : BitVec 96 × BitVec 256 := s.newFuses.getD (s.liveClu, s.liveChan)

/-- The state after a reset of the device: the fuses stand as the Milusk controller has settled them, and what is no part of the device
stays; links are trained anew. (Log entry 60, DEDUCED, unsafe.) -/
def deviceReset (s : State) (verified : Bool) : State :=
  { State.reset with
    turns := s.turns, choices := s.choices, freeCtr := s.freeCtr, clock := s.clock, liveClu := (fusesOf s).1, liveChan := (fusesOf s).2,
    stepping := s.stepping, hostMem := s.hostMem, hostBad := s.hostBad, peerMem := s.peerMem, peerBad := s.peerBad,
    peerRefused := s.peerRefused, peerMsgs := s.peerMsgs, msi := s.msi, booterr := !verified }

def execColdReset (verified : Bool) (s : State) : Out := .next (deviceReset s verified)

/-- A warm reset keeps the contents of device memory. -/
def execWarmReset (verified : Bool) (s : State) : Out :=
  .next { deviceReset s verified with mem := s.mem, dram := s.mem, poison := s.poison, correctable := s.correctable }

/-- Device lines whose bytes the home slices or DRAM list. -/
def listedLines (s : State) : List Nat := ((fkeys s.mem ++ fkeys s.dram).map (· / 128)).eraseDups

/-- Lines of a wing's channels leave the home slices without write-back: DRAM's bytes stand. -/
def dropWingLines (s : State) (w : Nat) : State :=
  ((listedLines s).filter (fun ln => ownsAddr s (getWing s w) (ln * 128))).foldl dropHomeLine s

/-- A context after a function-level reset: killed without record or count, its event vector cleared. -/
def flrContext (s : State) (x : Ctx) : State :=
  let s := killContext s x false
  setTenant s x { getTenant s x with events := 0 }

/-- `VF_FLR` (R325): the wing's cached lines go first, so that what its kills write stays. -/
def vfFlr (s : State) (w : Nat) : State :=
  let s := mapCores s (fun s c => let q := getCore s c; setCore s c { q with l1 := q.l1.filter (fun p => p.2.ctx.wing != w) })
  let s := mapClusters s (fun s n => let q := getCluster s n; setCluster s n { q with l2 := q.l2.filter (fun p => p.2.ctx.wing != w) })
  let s := dropWingLines s w
  let s := (List.range Config.numTenants).foldl (fun s t => flrContext s ⟨w, t⟩) s
  let k := getWing s w
  setWing s w { k with en := false, running := false, edge := none, preempt := false, disabling := false, donated := none,
                       faults := [], fqtail := 0, fqhead := 0 }

def execVfFlr (w : Nat) (s : State) : Out := .next (vfFlr s w)

end Sys2Proof.Machine
end

