-- ==== Sys2Proof/Machine/Scan.lean ====
section
/-!
DEFINITION. `SCAN` in its four forms (R229 to R231, R391, R392).
-/
namespace Sys2Proof.Machine

/-! ### Double-word arithmetic (R230) -/

/-- A double-word value with the flags raised so far. -/
structure Dw where
  hi : Nat
  lo : Nat
  fl : FFlags
  deriving DecidableEq, Repr

/-- Round to nearest even, without flushing. -/
def plainMode : FMode := ⟨.rne, false, false, false⟩

def dwRnd2 (f : FloatFmt → FMode → Nat → Nat → Nat × FFlags) (a b : Stg) : Stg := stg2 (f .f32 plainMode) a b

def dwAdd2 := dwRnd2 opAdd
def dwSub2 := dwRnd2 opSub
def dwMul2 := dwRnd2 opMul
def dwFma (a b c : Stg) : Stg := stg3 (opFma .f32 plainMode) a b c

def stgNeg (a : Stg) : Stg := ⟨(a.v + 2 ^ 31) % 2 ^ 32, a.fl⟩

def twoProd (x y : Stg) : Stg × Stg :=
  let p := dwMul2 x y
  (p, dwFma x y (stgNeg p))

def twoSum (x y : Stg) : Stg × Stg :=
  let s := dwAdd2 x y
  let z := dwSub2 s x
  (s, dwAdd2 (dwSub2 x (dwSub2 s z)) (dwSub2 y z))

def fastSum (x y : Stg) : Stg × Stg :=
  let s := dwAdd2 x y
  (s, dwSub2 y (dwSub2 s x))

def dwHi (a : Dw) : Stg := ⟨a.hi, flagNone⟩
def dwLo (a : Dw) : Stg := ⟨a.lo, flagNone⟩

/-- The flags of internal steps that count: `INV` and `OVF` (R392). -/
def dwFlags : FFlags := flagInv ||| flagOvf

def mkDw (p : Stg × Stg) (fl : FFlags) : Dw := ⟨p.1.v, p.2.v, (p.1.fl ||| p.2.fl ||| fl) &&& dwFlags⟩

def dwMul (x y : Dw) : Dw :=
  let p := twoProd (dwHi x) (dwHi y)
  let t := dwFma (dwHi x) (dwLo y) (dwMul2 (dwLo x) (dwHi y))
  mkDw (fastSum p.1 (dwAdd2 p.2 t)) 0

def dwAdd (x y : Dw) : Dw :=
  let a := twoSum (dwHi x) (dwHi y)
  let b := twoSum (dwLo x) (dwLo y)
  let c := fastSum a.1 (dwAdd2 a.2 b.1)
  mkDw (fastSum c.1 (dwAdd2 b.2 c.2)) 0

/-- `FTZO` and `CNAN` apply to a written word only (R392). -/
def dwWritten (md : FMode) (w : Nat) : Nat × FFlags :=
  match unpack .f32 w with
  | .nan .. => (if md.cnan then fmtCanon .f32 else w, flagNone)
  | .num n m _ => if md.ftzo && m != 0 && decide (m < 2 ^ 23) then (signBit .f32 n, flagUnf ||| flagInx) else (w, flagNone)
  | .inf _ => (w, flagNone)

/-! ### The recurrence -/

/-- What a lane holds between the steps: the segment mark, a, b and its flags. -/
structure ScanLane where
  f : Bool
  a : Dw
  b : Dw
  fl : FFlags
  deriving DecidableEq, Repr

/-- a · x and a · y + b in the plain form under a lane's mode, or in the compensated form. -/
def scanMul (k : Bool) (md : FMode) (a x : Dw) : Dw :=
  if k then dwMul a x else let r := opMul .f32 md a.hi x.hi; ⟨r.1, 0, r.2⟩

def scanFma (k : Bool) (md : FMode) (a x b : Dw) : Dw :=
  if k then
    let p := dwMul a x
    let s := dwAdd p b
    { s with fl := s.fl ||| p.fl }
  else let r := opFma .f32 md a.hi x.hi b.hi; ⟨r.1, 0, r.2⟩

/-- One step of the scan: lane l combines with lane l − d. -/
def scanLevel (k : Bool) (md : Nat → FMode) (xs : List (Option ScanLane)) (d : Nat) : List (Option ScanLane) :=
  (List.range 64).map (fun l =>
    match xs.getD l none with
    | none => none
    | some x =>
      if l < d || x.f then some x
      else
        match xs.getD (l - d) none with
        | none => some x
        | some y =>
          let a := scanMul k (md l) x.a y.a
          let b := scanFma k (md l) x.a y.b x.b
          some ⟨y.f, a, b, x.fl ||| a.fl ||| b.fl⟩)

/-- The h of a lane, from the scan and h_in. -/
def scanOut (k : Bool) (md : FMode) (x : ScanLane) (hin : Dw) : Dw :=
  let h := if x.f then x.b else scanFma k md x.a hin x.b
  if k then
    let a := dwWritten md h.hi
    let b := dwWritten md h.lo
    ⟨a.1, b.1, x.fl ||| h.fl ||| a.2 ||| b.2⟩
  else ⟨h.hi, 0, x.fl ||| (if x.f then 0 else h.fl)⟩

/-- The h of every active lane. -/
def scanAll (i : Iss) (k : Bool) (sa : Nat) (hin : Dw) : List (Option Dw) :=
  let xs := (List.range 64).map (fun l =>
    if hasLane i.e.lanes l then
      let f := (readLane i l (sa + 2)).getLsbD 0
      some ⟨f, ⟨if f then 0 else (readLane i l sa).toNat, 0, 0⟩, ⟨(readLane i l (sa + 1)).toNat, 0, 0⟩, 0⟩
    else none)
  let ys := [1, 2, 4, 8, 16, 32].foldl (scanLevel k (laneMode i)) xs
  (List.range 64).map (fun l => (ys.getD l none).map (fun x => scanOut k (laneMode i l) x hin))

/-- The highest lane of a set. -/
def highLane (m : LaneSet) : Nat := (lanesOf m).getLast?.getD 0

/-- Write one word to all 64 lanes of the names of a field. -/
def writeAll (s : State) (i : Iss) (f : Nat) (w : Word) : Iss :=
  let use := (getCore s i.core).seq
  let g := (namesOf i f).foldl (fun g n => setName g n ⟨.general (List.replicate 64 w), false, use⟩) i.g
  { i with g := g, cc := writeHelpers i (helperLanes i) f (fun _ => w) }

/-- The end of a scan, which marks its lanes where it is non-repeatable: `FPX`, then h, the carry-out, and what `after` does with the carry-out (R230, R231). -/
def scanEnd (s : State) (i : Iss) (k mark : Bool) (r : R3) (srcs rels : List Nat) (hin : Dw) (after : State → Dw → State) : Out :=
  let hs := scanAll i k r.sa.toNat hin
  let h := fun l => ((hs.getD l none).getD ⟨0, 0, 0⟩)
  let fl := fun l => (h l).fl
  let tl := fpxLanes i fl
  if tl != 0 then .next (trapWord s i causeFpx tl (orFlags tl fl).toNat 0)
  else
    let i := if mark then markNonRep (setFstat i fl) else setFstat i fl
    let d := r.d.toNat
    let out := h (highLane i.e.lanes)
    let val := fun (f : Nat) (w : Dw → Nat) => ownVals i f (fun l => bw (w (h l)))
    let hd : List Dest := if k then [⟨d, val d Dw.hi, .general⟩, ⟨d + 1, val (d + 1) Dw.lo, .general⟩] else [⟨d, val d Dw.hi, .general⟩]
    let j := writeBack s i srcs rels hd
    let j := if k then writeAll s (writeAll s j (d + 2) (bw out.hi)) (d + 3) (bw out.lo) else writeAll s j (d + 1) (bw out.hi)
    .next (withRoom s i (keepNames i (srcs ++ fieldsFrom d (if k then 4 else 2))) (commit s i j)
      (fun s => let s := after s out; match getGroup s i.core i.slot with
        | some g => advance s { j with g := g } 1
        | none => s))

/-- The `CARRY` of the issuing lane's stream as a double word, read as an acquire at `DEVICE` scope (R231); nothing while the acquire
cannot bind. -/
def carryRead (s : State) (i : Iss) (k : Bool) (a : Nat) (l : PLoc) (n : Nat) : Option Dw × State :=
  let r := acquireRead (flushTouched s i.core l n) i.core i.g.id.ctx (scopeAt .device l) l a n false
  (r.1.map (fun bs => ⟨leNat (bs.take 4), if k then leNat (bs.drop 4) else 0, 0⟩), r.2)

/-- The stream forms. The accesses at `CARRY` are those of the lowest active lane, which alone a trap of theirs names (R231, R276). -/
def scanStream (k : Bool) (r : R3) (s : State) : Out :=
  let srcs := fieldsFrom r.sa.toNat 3
  let ds := fieldsFrom r.d.toNat (if k then 4 else 2)
  runOp s srcs ds fun i =>
    match i.g.kind with
    | .window st _ =>
      if inHandler i.g then .next (illegal s i i.e.lanes)
      else
        let x := i.g.id.ctx
        let n := if k then 8 else 4
        match streamCarry s x st with
        | .error s => .next (holdIssue s)
        | .ok (a, reset) =>
        let lane := lowLane i.e.lanes
        let s := devTouch s x (streamAddr s x st + 0x60) 12
        let ld := checkLane s i.core i.g lane (kindAcq .flat) .flat a n
        let stc := checkLane ld.2 i.core i.g lane (kindRel .flat) .flat a n
        match askOf [(lane, ld.1), (lane, stc.1)] with
        | .trap c _ ad ix => .next (trapWord stc.2 i c (laneBit lane) ad ix)
        | .fault f _ l va low => .next (faultPark stc.2 i f (laneBit lane) l va low (match ld.1 with | .fault .. => 0 | _ => 1))
        | .stall => .next (holdIssue s)
        | .go =>
          match ld.1 with
          | .ok p =>
            let rd := carryRead stc.2 i k a p n
            match rd.1 with
            | none => .next (holdIssue rd.2)
            | some carry =>
              scanEnd rd.2 (refresh rd.2 i) k true r srcs (if r.lra then srcs else []) (if reset then ⟨0, 0, 0⟩ else carry) (fun s out =>
                let s := if reset then clearReset s x st else s
                let s := (releaseAt s i.core x .core (getCore s i.core).seq).1
                let bs := leBytes 4 out.hi ++ (if k then leBytes 4 out.lo else [])
                storeLane s i lane a stc.1 bs (fun e => { relEntry .device false e with flag := none }))
          | .absent ln => .next (parkAt stc.2 i i.e.lanes (.absent [ln]))
          | _ => .next (holdIssue stc.2)
    | _ => .next (illegal s i i.e.lanes)

/-- The forms that take h_in from names. -/
def scanNames (k : Bool) (r : R3) (s : State) : Out :=
  let cs := fieldsFrom r.sb.toNat (if k then 2 else 1)
  let as := fieldsFrom r.sa.toNat 3
  runOp s (as ++ cs) (fieldsFrom r.d.toNat (if k then 4 else 2)) fun i =>
    let l := lowLane i.e.lanes
    let hin : Dw := ⟨(readLane i l r.sb.toNat).toNat, if k then (readLane i l (r.sb.toNat + 1)).toNat else 0, 0⟩
    scanEnd s i k false r (as ++ cs) ((if r.lra then as else []) ++ (if r.lrb then cs else [])) hin (fun s _ => s)

def execScan (st k : Bool) (r : R3) (s : State) : Out := if st then scanStream k r s else scanNames k r s

end Sys2Proof.Machine
end

