-- ==== Sys2Proof/Machine/Streams.lean ====
section
/-!
DEFINITION. What a window engine does with a stream's records (R185 to R189, R198, R199, R201, R202, R205), and its other events
(R190, R194).
-/
namespace Sys2Proof.Machine

/-! ### The tail word (R185) -/

/-- The engine acquires the tail word: a value in range is taken, any other sets `TAILERR`. -/
def takeTail (s : State) (x : Ctx) (st : Nat) : State :=
  let s := payOwed s x st
  match getStream s x st with
  | none => s
  | some k =>
    if !k.armed || k.held.isSome || k.cfg.kind == kindNone || !serving s x then s
    else
      let r := devAcquire s x k.cfg.taila 4
      match streamRead r.1 x st k.cfg.taila 4 with
      | .error s => s
      | .ok bs =>
        let s := devTouch r.1 x k.cfg.taila 4
        let t := bw (leNat bs)
        if !r.2 then s else
        if 2 ^ k.cfg.ringlog < (t - k.head).toNat then statusBits s x st 0 0x08000000
        else setStream s x st { k with tail := t }

def execTailWriteSeen (w t st : Nat) (s : State) : Out := .next (takeTail s ⟨w, t⟩ st)

def execTailPoll (w t st : Nat) (s : State) : Out := .next (takeTail s ⟨w, t⟩ st)

/-! ### Taking a record (R185 to R187) -/

/-- The `PAUSED` bit of an armed stream, which only the engine changes (R3, R182). -/
def streamPaused (k : Stream) : Bool := k.status.getLsbD 30

/-- A record as the engine takes it. -/
structure Rec where
  /-- Its number, modulo 2^32. -/
  j : Word
  time : Nat
  key : Word
  kind : Nat
  bytes : List Byte
  deriving DecidableEq, Repr

def recOf (c : StreamCfg) (j : Word) (bs : List Byte) : Rec :=
  ⟨j, fieldAt bs 0 8, if c.keyoff == 0xFFFF then 0 else bw (fieldAt bs c.keyoff 4), fieldAt bs 12 1, bs⟩

/-! ### Windows that a record reaches (R188) -/

/-- Append a delivery to those that wait. -/
def addItem (s : State) (x : Ctx) (st : Nat) (i : Item) : State :=
  match getStream s x st with
  | none => s
  | some k => setStream s x st { k with items := k.items ++ [i] }

/-- The first 16 data bytes of a record as four words (R195). -/
def recordWords (r : Rec) : List Word := (List.range 4).map (fun j => bw (fieldAt r.bytes (16 + 4 * j) 4))

/-- The delivery of a record to a window. -/
def recordItem (r : Rec) (wid : Nat) (fresh : Bool) (data : Nat) (last : Bool) : Item :=
  { win := wid, entry := if fresh then 1 else 2, cause := r.j, vals := recordWords r, time := r.time,
    v6 := if data == 0 then 2 else 0, record := r.bytes, stamp := r.time, data := data, last := last, other := 0 }

def newWin (key : Word) (k start fin b : Nat) : Win :=
  { key := key, k := k, start := start, fin := min fin (2 ^ 64 - 1), b := b, place := .stash 0, data := 0, lastTime := 0, panes := 0,
    paneCnt := 0, touch := 0, given := 0, shut := false, trig := false, early := false, ended := false, closed := false }

/-- Windows k with kS ≤ x < kS + L, in ascending order. -/
def windowsAt (l st x : Nat) : List Nat :=
  let lo := if x < l then 0 else (x - l) / st + 1
  (List.range (x / st + 1 - lo)).map (lo + ·)

/-- The window k of a key that a record or pane reaches: an open one, or one that it opens; the flag says which. A window opens at
the first record or pane that belongs to it, and at no other. (Log entry 43, DEDUCED, unsafe.) -/
def reach (s : State) (x : Ctx) (st : Nat) (key : Word) (k : Nat) : Option (Nat × Bool) × State :=
  match getStream s x st with
  | none => (none, s)
  | some q =>
    match (winsOf q).find? (fun w => w.2.key == key && w.2.k == k && !w.2.shut) with
    | some w => (some (w.1, false), s)
    | none =>
      if q.seen.contains (key, k) then (none, s)
      else
        let s := setStream s x st { q with seen := (key, k) :: q.seen }
        let r := castOn s x st (newWin key k (k * q.cfg.wstep) (k * q.cfg.wstep + q.cfg.wlen) 0)
        (r.1.map (fun w => (w, true)), r.2)

/-- Deliver to each window of a list what it is to get. -/
def reachAll (x : Ctx) (st : Nat) (key : Word) (mk : Nat → Nat → Bool → Item) : List Nat → State → State
  | [], s => s
  | k :: ks, s =>
    let r := reach s x st key k
    reachAll x st key mk ks (match r.1 with
      | some w => addItem r.2 x st (mk k w.1 w.2)
      | none => r.2)

/-! ### Panes (R189) -/

def paneWidth (c : StreamCfg) : Nat := Nat.gcd c.wlen c.wstep

/-- The identity of a fold. -/
def foldIdentity (f : Nat) : Word :=
  if f == 2 then 0x7FFFFFFF else if f == 3 then 0x80000000 else if f == 4 then 0x7F800000 else if f == 5 then 0xFF800000 else 0

/-- A step of a fold. -/
def foldStep (f : Nat) (acc v : Word) : Word :=
  if f == 0 then acc + v
  else if f == 1 then atomWord .fadd acc v 0
  else if f == 2 then atomInt .min 32 acc v 0
  else if f == 3 then atomInt .max 32 acc v 0
  else if f == 4 then numMinMax false acc v
  else if f == 5 then numMinMax true acc v
  else acc + 1

/-- A pane closes: its entry is freed, and it is delivered to every window that covers it. -/
def closePane (s : State) (x : Ctx) (st e : Nat) (j : Word) : State :=
  match getStream s x st with
  | none => s
  | some q =>
    match fget q.dir e with
    | some (.pane key p acc n t) =>
      let s := setStream s x st { q with dir := ferase q.dir e }
      let w := paneWidth q.cfg
      let at' := p * w
      reachAll x st key (fun k wid fresh =>
        { win := wid, entry := if fresh then 1 else 3, cause := j, vals := [acc, 0, 0, 0], time := at', v6 := bw p, record := [],
          stamp := t, data := n, last := q.cfg.kind == kindCount && (p + 1) * w == k * q.cfg.wstep + q.cfg.wlen, other := 0 })
        (windowsAt q.cfg.wlen q.cfg.wstep at') s
    | _ => s

/-- The panes in progress with their entries, by ascending index; panes of one index in the order of their entries. (Log entry 87,
DESIGN CHOICE, unsafe.) -/
def panesOf (q : Stream) : List (Nat × Nat) :=
  sortBy (fun a b => decide (a.2 ≤ b.2)) (q.dir.filterMap (fun e => match e.2 with
    | .pane _ p _ _ _ => some (e.1, p)
    | _ => none))

def closePanes (x : Ctx) (st : Nat) (j : Word) (es : List (Nat × Nat)) (s : State) : State :=
  es.foldl (fun s e => closePane s x st e.1 j) s

/-! ### What a watermark or an end causes (R199, R201) -/

/-- Windows close in the order given. -/
def closeWindows (x : Ctx) (st : Nat) (j : Word) (f : Win → Win) (ws : List (Nat × Win)) (s : State) : State :=
  ws.foldl (fun s w => match getStream s x st with
    | none => s
    | some q =>
      match getWin q w.1 with
      | none => s
      | some v => setStream s x st (queueClose (setWin q w.1 (f v)) w.1 j)) s

/-- The panes that a watermark, or the end of the stream (`fin`), closes. -/
def panesDue (q : Stream) (fin : Bool) : List (Nat × Nat) :=
  if !q.cfg.pane then []
  else (panesOf q).filter (fun e => fin || decide ((e.2 + 1) * paneWidth q.cfg ≤ q.wmark))

/-- Once the panes have been delivered: a watermark closes the windows whose end it has reached; the end closes every window, where a close
already caused takes the flag, and ends the stream. -/
def closeDue (s : State) (x : Ctx) (st : Nat) (j : Word) (fin : Bool) : State :=
  match getStream s x st with
  | none => s
  | some q =>
    let s := setStream s x st { q with due := none }
    if !fin then
      closeWindows x st j (fun w => { w with trig := true })
        (byEnd ((winsOf q).filter (fun w => !w.2.shut && decide (w.2.fin ≤ q.wmark)))) s
    else
      let s := statusBits (closeWindows x st j (fun w => { w with ended := true }) (byEnd (winsOf q)) s) x st 0x80000000 0x20000000
      match getStream s x st with
      | some q => setStream s x st { q with armed := false }
      | none => s

/-- The next of the panes that are due closes, one at a time while its windows have nothing to deliver; then the windows close. The first
argument bounds the panes. -/
def nextDue (x : Ctx) (st : Nat) (j : Word) (fin : Bool) : Nat → State → State
  | 0, s => s
  | fuel + 1, s =>
    match getStream s x st with
    | none => s
    | some q =>
      if q.held.isSome || !q.items.isEmpty then s
      else
        match panesDue q fin with
        | [] => closeDue s x st j fin
        | e :: _ => nextDue x st j fin fuel (closePane s x st e.1 j)

/-- What a watermark or an end record causes: in an `ORDERED` stream pane by pane, each once the one before it has been delivered and has
committed; in any other all at once (R198, R199, R201). -/
def finishOrNext (s : State) (x : Ctx) (st : Nat) (j : Word) (fin : Bool) : State :=
  match getStream s x st with
  | none => s
  | some q =>
    if q.cfg.ordered then
      nextDue x st j fin ((panesDue q fin).length + 1) (setStream s x st { q with due := some (j, fin) })
    else closeDue (closePanes x st j (panesDue q fin) s) x st j fin

/-- A record whose processing has met a fault that may be replayed is not taken (R304): serving pauses, and of what was done only the
fault's record stays. -/
def backOut (s t : State) (x : Ctx) (st : Nat) : State :=
  let k := getWing t x.wing
  let s := setWing s x.wing { getWing s x.wing with faults := k.faults, faultCtr := k.faultCtr, fqlost := k.fqlost }
  match getStream s x st with
  | some q => setStream s x st { q with held := (getStream t x st).bind (·.held) }
  | none => s

/-- An `ORDERED` stream goes on with what a watermark or an end record still has to cause, once nothing is left of what it has caused
before (R198). -/
def proceed (s : State) (x : Ctx) (st : Nat) : State :=
  match getStream s x st with
  | none => s
  | some q =>
    match q.due with
    | none => s
    | some (j, fin) =>
      if q.held.isSome || !serving s x || !idleWindows s x st then s
      else
        let t := nextDue x st j fin ((panesDue q fin).length + 1) s
        if streamHeld t x st then backOut s t x st else t

/-- The next record of a stream is taken if it is of a kind that `ok` names; `act` processes it, in the state in which it counts
as consumed. An `ORDERED` stream, and a reset, wait until nothing of an earlier record is left (R187, R198). -/
def takeRecord (s : State) (x : Ctx) (st : Nat) (ok : Nat → Bool) (wait : Bool) (act : State → Rec → State) : State :=
  let s := proceed (payOwed s x st) x st
  match getStream s x st with
  | none => s
  | some k =>
    if !k.armed || k.held.isSome || k.cfg.kind == kindNone || k.next == k.tail || !serving s x || streamPaused k
      || ((wait || k.cfg.ordered) && !quiesced s x st) then s
    else
      match streamRead s x st (k.cfg.ring + k.next.toNat % 2 ^ k.cfg.ringlog * k.cfg.rsize) k.cfg.rsize with
      | .error s => s
      | .ok bs =>
        let r := recOf k.cfg k.next bs
        if !ok r.kind then s
        else
          let s := devTouch s x (k.cfg.ring + k.next.toNat % 2 ^ k.cfg.ringlog * k.cfg.rsize) k.cfg.rsize
          let t := act (setStream s x st { k with next := k.next + 1, taken := k.taken + 1 }) r
          if streamHeld t x st then backOut s t x st else advanceHead t x st

/-- Fold a data record at a position or time into its key's pane. -/
def foldRecord (s : State) (x : Ctx) (st : Nat) (r : Rec) (at' : Nat) : State :=
  match getStream s x st with
  | none => s
  | some q =>
    let p := at' / paneWidth q.cfg
    let v := bw (fieldAt r.bytes q.cfg.foldoff 4)
    let found := q.dir.find? (fun e => match e.2 with
      | .pane k i _ _ _ => k == r.key && i == p
      | _ => false)
    let e : Option (Nat × Word × Nat) := match found with
      | some (i, .pane _ _ acc n _) => some (i, acc, n)
      | _ => (freeEntry q).map (fun i => (i, foldIdentity q.cfg.fold, 0))
    match e with
    | none => dropDir s x st
    | some (i, acc, n) =>
      let s := setStream s x st { q with dir := fset q.dir i (.pane r.key p (foldStep q.cfg.fold acc v) (n + 1) r.time) }
      if q.cfg.kind == kindCount && n + 1 == paneWidth q.cfg then closePane s x st i r.j else s

/-! ### Data records -/

/-- A record at a position or time goes to its windows, or is folded. -/
def assignRecord (s : State) (x : Ctx) (st : Nat) (c : StreamCfg) (r : Rec) (at' : Nat) : State :=
  if c.pane then foldRecord s x st r at'
  else
    reachAll x st r.key (fun k wid fresh => recordItem r wid fresh 1
      (c.kind == kindCount && at' + 1 == k * c.wstep + c.wlen)) (windowsAt c.wlen c.wstep at') s

/-- A record of a `COUNT` stream: its position among the data records of its key. -/
def countRecord (s : State) (x : Ctx) (st : Nat) (q : Stream) (r : Rec) : State :=
  let found := q.dir.find? (fun e => match e.2 with
    | .key k _ => k == r.key
    | _ => false)
  let e : Option (Nat × Nat) := match found with
    | some (i, .key _ n) => some (i, n)
    | _ => (freeEntry q).map (fun i => (i, 0))
  match e with
  | none => dropDir s x st
  | some (i, n) => assignRecord (setStream s x st { q with dir := fset q.dir i (.key r.key (n + 1)) }) x st q.cfg r n

/-- A record of a `GAP` stream: it opens a session, joins one, or grafts two (R188, R205). -/
def gapRecord (s : State) (x : Ctx) (st : Nat) (q : Stream) (r : Rec) : State :=
  let g := q.cfg.wgap
  let near := (winsOf q).filter (fun w => w.2.key == r.key && !w.2.shut && decide (w.2.start < r.time + g) && decide (r.time < w.2.b + g))
  match sortBy (fun a b => decide (a.2.start ≤ b.2.start)) near with
  | [] =>
    let c := castOn s x st (newWin r.key 0 r.time (r.time + g) r.time)
    match c.1 with
    | some wid => addItem c.2 x st (recordItem r wid true 1 false)
    | none => c.2
  | [w] =>
    let b := max w.2.b r.time
    let q := setWin q w.1 { w.2 with start := min w.2.start r.time, b := b, fin := min (b + g) (2 ^ 64 - 1) }
    addItem (setStream s x st q) x st (recordItem r w.1 false 1 false)
  | w :: y :: _ =>
    let q := setWin (setWin q w.1 { w.2 with b := y.2.b, fin := y.2.fin }) y.1 { y.2 with shut := true }
    let s := addItem (setStream s x st q) x st
      { win := w.1, entry := 5, cause := r.j, vals := [0, 0, 0, 0], time := r.time, v6 := 0, record := [], stamp := 0, data := 0,
        last := false, other := y.1 }
    addItem s x st (recordItem r w.1 false 1 false)

/-- A data record (R187, R188). -/
def dataRecord (x : Ctx) (st : Nat) (s : State) (r : Rec) : State :=
  match getStream s x st with
  | none => s
  | some q =>
    if q.cfg.kind != kindCount && decide (r.time < q.wmark) then setStream s x st { q with late := bump q.late }
    else if q.cfg.kind == kindCount then countRecord s x st q r
    else if q.cfg.kind == kindTime then assignRecord s x st q.cfg r r.time
    else gapRecord s x st q r

def execDataRecord (w t st : Nat) (s : State) : Out := .next (takeRecord s ⟨w, t⟩ st (· == 0) false (dataRecord ⟨w, t⟩ st))

/-! ### Watermarks, resets and the end (R187, R199, R201) -/

def watermarkRecord (x : Ctx) (st : Nat) (s : State) (r : Rec) : State :=
  match getStream s x st with
  | none => s
  | some q =>
    if r.time ≤ q.wmark then s
    else
      let s := setStream s x st { q with wmark := r.time }
      if q.cfg.kind == kindCount then s else finishOrNext s x st r.j false

def execWatermarkRecord (w t st : Nat) (s : State) : Out :=
  .next (takeRecord s ⟨w, t⟩ st (· == 1) false (watermarkRecord ⟨w, t⟩ st))

/-- A reset: `CRESET` is set, and in `RECORD` mode the record goes to every open window of its key. -/
def resetRecord (x : Ctx) (st : Nat) (s : State) (r : Rec) : State :=
  let s := stateOf (entryEdit s x st 0x68 0 0x80000000)
  match getStream s x st with
  | none => s
  | some q =>
    if q.cfg.pane then s
    else ((winsOf q).filter (fun w => w.2.key == r.key && !w.2.shut)).foldl (fun s w => addItem s x st (recordItem r w.1 false 0 false)) s

def execResetRecord (w t st : Nat) (s : State) : Out := .next (takeRecord s ⟨w, t⟩ st (· == 2) true (resetRecord ⟨w, t⟩ st))

/-- The end of a stream. -/
def endRecord (x : Ctx) (st : Nat) (s : State) (r : Rec) : State := finishOrNext s x st r.j true

def execEndRecord (w t st : Nat) (s : State) : Out := .next (takeRecord s ⟨w, t⟩ st (· == 3) false (endRecord ⟨w, t⟩ st))

def badRecord (x : Ctx) (st : Nat) (s : State) (_r : Rec) : State :=
  match getStream s x st with
  | none => s
  | some q => setStream s x st { q with badkind := bump q.badkind }

def execReservedKindRecord (w t st : Nat) (s : State) : Out :=
  .next (takeRecord s ⟨w, t⟩ st (fun k => decide (4 ≤ k)) false (badRecord ⟨w, t⟩ st))

/-! ### The other events -/

/-- `IDLE_STASH` (R202). -/
def idleStash (s : State) (x : Ctx) (st wid : Nat) : State :=
  match getStream s x st with
  | none => s
  | some q =>
    match getWin q wid with
    | none => s
    | some w =>
      if q.cfg.idle == 0 || decide (q.taken < w.touch + q.cfg.idle) || !serving s x || q.held.isSome
        || q.items.any (fun i => i.win == wid || (i.entry == 5 && i.other == wid)) then s
      else
        stateOf (stashWindow s x st wid)

def execIdleStash (w t st win : Nat) (s : State) : Out := .next (idleStash s ⟨w, t⟩ st win)

/-- `DELIVERY` (R194): what a record still has to cause is caused first where that is due. -/
def execDelivery (w t st i : Nat) (s : State) : Out := .next (delivery (proceed (payOwed s ⟨w, t⟩ st) ⟨w, t⟩ st) ⟨w, t⟩ st i)

def execGraft (w t st i : Nat) (s : State) : Out := .next (graft (proceed (payOwed s ⟨w, t⟩ st) ⟨w, t⟩ st) ⟨w, t⟩ st i)

/-- `DIRECTORY_WRITEBACK` (R190). -/
def execDirectoryWriteback (w t st : Nat) (s : State) : Out :=
  .next (match getStream s ⟨w, t⟩ st with
    | some q => if q.held.isSome then s else writeHeader (payOwed s ⟨w, t⟩ st) ⟨w, t⟩ st
    | none => s)

end Sys2Proof.Machine
end

