-- ==== Sys2Proof/Machine/WindowOps.lean ====
section
/-!
DEFINITION. The window instructions (R207 to R210, R410, R411), and the ends of lanes: `EXIT` (R340), `BAR` (R332) and the returns
from a handler (R285, R386).
-/
namespace Sys2Proof.Machine

/-! ### BAR, EXIT, RFT -/

/-- `BAR`: the lanes release at `CORE` and park past the clause; the barrier opens where all have arrived. -/
def execBar (s : State) : Out :=
  runOutside s [] [] fun i =>
    let s := (releaseAt s i.core i.g.id.ctx .core (getCore s i.core).seq).1
    let s := departWith (countIssue s i.core) (markNonRep (refresh s i)) [(afterClause i.cc, i.e.lanes, .bar)] false
    .next (barrierCheck s i.core i.g.id.blockKey)

/-- `EXIT` (R340): the lanes end. -/
def execExit (s : State) : Out :=
  runOutside s [] [] fun i => .next (exitLanes (countIssue (putIss s i) i.core) i.core i.slot i.e.lanes)

/-- A handler return outside a handler is illegal (R285). -/
def runHandler (s : State) (srcs : List Nat) (body : Iss → Out) : Out :=
  runOp s srcs [] fun i => if inHandler i.g then body i else .next (illegal s i i.e.lanes)

/-- `RFT` in `RESTART` mode: after a header trap at `TPC`, else each lane at its own region's header, where it begins a region. -/
def execRftRestart (mute stp : Bool) (s : State) : Out :=
  runHandler s [] fun i =>
    let hdr := match i.g.handler with
      | some h => h.hdrTrap
      | none => false
    let t := fun l => if hdr then i.g.traps.pc else (laneSt i.g l).rgnPc
    .next (returnLanes (countIssue s i.core) i (byTarget i.e.lanes t) mute stp (!hdr))

/-- `RFT.GOTO`: the target of the lowest lane, whose bits above a PC's are not looked at (R386; log entry 90, DEDUCED, unsafe). -/
def execRftGoto (mute stp : Bool) (sa : Reg) (s : State) : Out :=
  runHandler s [sa.toNat, sa.toNat + 1] fun i =>
    let a := (readPair i (lowLane i.e.lanes) sa.toNat).toNat
    if a % 4 != 0 then .next (illegal s i i.e.lanes)
    else .next (returnLanes (countIssue s i.core) (touchFields s i [sa.toNat, sa.toNat + 1]) [(BitVec.ofNat 56 a, i.e.lanes)] mute stp false)

/-- `RFT.END`: the lanes exit, and the handler ends with its last lane. -/
def execRftEnd (s : State) : Out :=
  runHandler s [] fun i =>
    let g := { i.g with handler := i.g.handler.map (fun h => { h with returned := h.returned ||| i.e.lanes }) }
    let s := exitLanes (countIssue (putIss s { i with g := g }) i.core) i.core i.slot i.e.lanes
    .next (handlerEnd s i.core i.slot)

/-! ### WSUSP and WCLOSE -/

/-- The stream of a window group. -/
def groupStream (g : Group) : Option Nat :=
  match g.kind with
  | .window st _ => some st
  | _ => none

/-- Lanes that execute their window's close entry. -/
def closeLanes (g : Group) (m : LaneSet) : LaneSet :=
  laneSetOf (fun l => hasLane m l && (match laneWindow g l with | some w => w.entry == 4 | none => false))

/-- `WSUSP` (R196, R200): each lane commits its delivery and rests, after a release at `DEVICE`; at a close entry it ends. -/
def execWsusp (s : State) : Out :=
  runOutside s [] [] fun i =>
    match groupStream i.g with
    | none => .next (illegal s i i.e.lanes)
    | some st =>
      let r := releaseAt s i.core i.g.id.ctx .device (getCore s i.core).seq
      if !r.2 then .next (holdIssue r.1)
      else
        let x := i.g.id.ctx
        let ends := closeLanes i.g i.e.lanes
        let rest := i.e.lanes &&& ~~~ends
        let s := countIssue (putIss r.1 (refresh r.1 i)) i.core
        let s := match getGroup s i.core i.slot with
          | some g => setGroup s i.core i.slot (placeEntries (dropLanes g rest)
              ((lanesOf rest).map (fun l => { restingEntry l with pc := i.e.pc, pri := i.e.pri })))
          | none => s
        let s := (lanesOf rest).foldl (fun s l => commitLane s x st i.core i.slot l) s
        let s := if ends == 0 then s else exitLanes s i.core i.slot ends
        .next (advanceHead (parkIdle s i.core i.slot) x st)

/-- `WCLOSE` (R207, R411): the lanes' windows leave the end order, and their closes are queued. -/
def execWclose (s : State) : Out :=
  runOutside s [] [] fun i =>
    match groupStream i.g with
    | none => .next (illegal s i i.e.lanes)
    | some st =>
      finishWith s i [] [] [] 1 (fun s => (lanesOf i.e.lanes).foldl (fun s l =>
        match getStream s i.g.id.ctx st, laneWindow i.g l with
        | some k, some v =>
          match getWin k v.win with
          | some w =>
            if v.entry == 4 || w.trig || w.closed then s
            else setStream s i.g.id.ctx st (queueClose (setWin k v.win { w with early := true }) v.win v.cause)
          | none => s
        | _, _ => s) s)

/-! ### WINFO and WPANE (R209) -/

/-- Write a value of each lane's window. -/
def windowValue (s : State) (d : Reg) (f : Stream → Win → LaneWin → Nat → Nat) : Out :=
  runOp s [] [d.toNat] fun i =>
    match groupStream i.g with
    | none => .next (illegal s i i.e.lanes)
    | some st =>
      let v := fun (l : Nat) => match getStream s i.g.id.ctx st, laneWindow i.g l with
        | some k, some y => match getWin k y.win with
          | some w => bw (f k w y l)
          | none => 0
        | _, _ => 0
      let same := (lanesOf i.e.lanes).all (fun l => v l == v (lowLane i.e.lanes))
      finish s i [] [] [⟨d.toNat, laneVals i v, if same then .uniform else .general⟩] 1

def execWinfo (sel : BitVec 3) (d : Reg) (s : State) : Out :=
  windowValue s d fun _ w _ l =>
    match sel.toNat with
    | 0 => w.start
    | 1 => w.start / 2 ^ 32
    | 2 => w.fin
    | 3 => w.fin / 2 ^ 32
    | 4 => w.key.toNat
    | 5 => w.data
    | 6 => 1024 * l
    | _ => w.lastTime

def execWpane (sel : BitVec 2) (d : Reg) (s : State) : Out :=
  windowValue s d fun k w y _ =>
    if !k.cfg.pane then 0
    else
      let p := paneWidth k.cfg
      match sel.toNat with
      | 0 => w.start / p
      | 1 => (w.start + k.cfg.wlen) / p - 1
      | 2 => w.panes
      | _ => if y.entry == 1 || y.entry == 3 then w.paneCnt else 0

/-! ### WEMIT (R208, R411) -/

/-- The output stream's configuration: as armed, or as its entry holds it; a failed read is one of the emitting stream (R304). -/
def outConfig (s : State) (x : Ctx) (st out : Nat) : Except State StreamCfg :=
  match (getStream s x out).filter (·.armed) with
  | some k => .ok k.cfg
  | none => match streamRead s x st (streamAddr s x out) 128 with
    | .ok bs => .ok (streamCfg bs)
    | .error s => .error s

/-- `HEAD` of the output stream: the engine's while it serves the ring, else as its consumer has written it (R182). -/
def outHead (s : State) (x : Ctx) (st out : Nat) : Except State Word :=
  match (getStream s x out).filter (fun k => k.armed && k.cfg.kind != kindNone) with
  | some k => .ok k.head
  | none => match streamRead s x st (streamAddr s x out + 0x78) 4 with
    | .ok bs => .ok (bw (leNat bs))
    | .error s => .error s

/-- A read of the output stream's entry in memory, where its engine does not serve it. -/
def outTouch (s : State) (x : Ctx) (out off n : Nat) (own : Stream → Bool) : State :=
  match (getStream s x out).filter own with
  | some _ => s
  | none => devTouch s x (streamAddr s x out + off) n

/-- Append the record of one lane. The state where the ring is full, or an access failed. -/
def emitLane (s : State) (x : Ctx) (st out : Nat) (c : StreamCfg) (core key a : Nat) : Except State State :=
  match streamRead s x st c.taila 4, outHead s x st out with
  | .error s, _ => .error s
  | .ok _, .error s => .error s
  | .ok tb, .ok head =>
    let t := bw (leNat tb)
    if 2 ^ c.ringlog ≤ (t - head).toNat then .error s
    else
      let src : PLoc := ⟨.scr core key, a⟩
      match poisonIn s src c.rsize with
      | some g => .error (poisonKill s x g)
      | none =>
        let s := outTouch (devTouch s x c.taila 4) x out 0x78 4 (fun k => k.armed && k.cfg.kind != kindNone)
        match streamWrite s x st (c.ring + t.toNat % 2 ^ c.ringlog * c.rsize) (homeRead s src c.rsize) with
        | .error s => .error s
        | .ok s => streamWrite s x st c.taila (leBytes 4 (t + 1).toNat)

/-- Append the records of lanes in ascending order while the ring has room; the lanes left. (Log entry 48, DEDUCED, unsafe.) -/
def emitLanes (x : Ctx) (st out : Nat) (c : StreamCfg) (core key : Nat) (addr : Nat → Nat) : List Nat → State → List Nat × State
  | [], s => ([], s)
  | l :: ls, s =>
    match emitLane s x st out c core key (addr l) with
    | .error s => (l :: ls, s)
    | .ok s => emitLanes x st out c core key addr ls s

def execWemit (sa : Reg) (s : State) : Out :=
  runOp s [sa.toNat] [] fun i =>
    match groupStream i.g with
    | none => .next (illegal s i i.e.lanes)
    | some st =>
      let x := i.g.id.ctx
      let addr := fun l => (readLane i l sa.toNat).toNat
      let left := if (i.g.wemit &&& i.e.lanes) == 0 then i.e.lanes else i.g.wemit &&& i.e.lanes
      let mis := laneSetOf (fun l => hasLane left l && addr l % 16 != 0)
      if mis != 0 then .next (trapWord s i causeMisalign mis (addr (lowLane mis)) 0)
      else
        match getStream s x st, getBlock s i.core i.g.id.blockKey with
        | some k, some b =>
          if !k.cfg.outv then .next (trapWord s i causePerm i.e.lanes i.e.pc.toNat 0)
          else
            match if streamHeld s x st then .error s else outConfig s x st k.cfg.out with
            | .error s => .next (holdIssue s)
            | .ok c =>
              let far := laneSetOf (fun l => hasLane left l && decide (openScratch b < addr l + c.rsize))
              if far != 0 then .next (trapWord s i causePerm far (addr (lowLane far)) 0)
              else
                let r := releaseAt (outTouch s x k.cfg.out 0 128 (·.armed)) i.core x .system (getCore s i.core).seq
                if !r.2 then .next (holdIssue r.1)
                else
                  let i := refresh r.1 i
                  let e := emitLanes x st k.cfg.out c i.core i.g.id.blockKey addr (lanesOf left) r.1
                  let rest := laneSetOfList e.1
                  if (getGroup e.2 i.core i.slot).isNone then .next e.2
                  else if rest == 0 then
                    finish e.2 (markNonRep { i with g := { i.g with wemit := 0 } }) [sa.toNat] [] [] 1
                  else if rest == left && i.g.wemit == 0 then .next (holdIssue e.2)
                  else .next (putIss e.2 (markNonRep { i with g := { i.g with wemit := rest } }))
        | _, _ => .next (illegal s i i.e.lanes)

/-- `WEMIT_SLOT_RESUME` (R208): a `WEMIT` that has appended some of its records goes on with the lanes left. -/
def execWemitSlotResume (core slot : Nat) (s : State) : Out :=
  let back := fun (t : State) => { t with focusCore := s.focusCore, focusSlot := s.focusSlot }
  let s := { s with focusCore := core, focusSlot := slot }
  match issuer s with
  | none => .next (back s)
  | some i =>
    if i.g.wemit == 0 || i.g.gpark != .none || i.g.halt != .run || !slotRuns s i.g.id.ctx then .next (back s)
    else
      match decodeWord (wordAt s i) (some 0) with
      | .ok (.wemit sa) =>
        match execWemit sa s with
        | .next t => .next (back t)
        | o => o
      | _ => .next (back s)

/-! ### STRCTL (R210) -/

/-- The entries of lanes' streams are read before an operation (R304): whether a record holds one of them, and the lanes whose entry
could be read. -/
def entryChecks (x : Ctx) (ix : Nat → Nat) : List Nat → State → State × Bool × List Nat
  | [], s => (s, false, [])
  | l :: ls, s =>
    if streamHeld s x (ix l) then (s, true, [])
    else
      match entryRead s x (ix l) 0 128 with
      | .ok _ => let r := entryChecks x ix ls (devTouch s x (streamAddr s x (ix l)) 128); (r.1, r.2.1, l :: r.2.2)
      | .error t => if streamHeld t x (ix l) then (t, true, []) else entryChecks x ix ls t

/-- The stream index of every lane is checked; then, after a release at `DEVICE`, the operation is carried out on each lane's
stream in ascending order. -/
def strctl (op : Nat) (sa : Reg) (sb : Option Reg) (s : State) : Out :=
  let srcs := sa.toNat :: (match sb with | some b => [b.toNat, b.toNat + 1] | none => [])
  runOp s srcs [] fun i =>
    let x := i.g.id.ctx
    let strn := match (getTenant s x).block with
      | some b => b.strn
      | none => 0
    let ix := fun l => (readLane i l sa.toNat).toNat
    let bad := laneSetOf (fun l => hasLane i.e.lanes l && (decide (16383 < ix l) || decide (strn ≤ ix l)))
    if bad != 0 then .next (trapWord s i causePerm bad (ix (lowLane bad)) 0)
    else
      let r := releaseAt s i.core x .device (getCore s i.core).seq
      if !r.2 then .next (holdIssue r.1)
      else
        let v := fun l => match sb with
          | some b => readPair i l b.toNat
          | none => 0
        let c := entryChecks x ix (lanesOf i.e.lanes) r.1
        if c.2.1 then .next (holdIssue c.1)
        else
          finishWith c.1 (markNonRep (refresh c.1 i)) srcs [] [] 1 (fun s =>
            c.2.2.foldl (fun s l => streamControl s x (ix l) op (v l)) s)

def execStrctlArm (sa : Reg) (s : State) : Out := strctl 0 sa none s

def execStrctlPause (sa : Reg) (s : State) : Out := strctl 1 sa none s

def execStrctlResume (sa : Reg) (s : State) : Out := strctl 2 sa none s

def execStrctlSetcarry (sb sa : Reg) (s : State) : Out := strctl 3 sa (some sb) s

def execStrctlClrreset (sa : Reg) (s : State) : Out := strctl 4 sa none s

end Sys2Proof.Machine
end

