-- ==== Sys2Proof/Machine/Sides.lean ====
section
/-!
DEFINITION. Which group of a core issues (R40): whether a group is ready, or held at a word (R50, R83, R134, R171, R216), the change of a
side from one group to another, and the idle tenant (R263).
-/
namespace Sys2Proof.Machine

/-! ### Held at a word -/

/-- The instructions that may be held at their word for more than a name, by what they do. -/
def holdable : Instr → Option (State → Out)
  | .call frame off => some (execCall frame off)
  | .ld w ep lu m => some (execLd w ep lu m)
  | .st w ep lu m => some (execSt w ep lu m)
  | .lda wide scp m => some (execLda wide scp m)
  | .stl wide scp m => some (execStl wide scp m)
  | .atom op sb sa d => some (execAtom op sb sa d)
  | .atom64 op sb sa d => some (execAtom64 op sb sa d)
  | .red op scp sat cnan ftz sb sa => some (execRed op scp sat cnan ftz sb sa)
  | .fence scp => some (execFence scp)
  | .fenceUnpin scp sb sa => some (execFenceUnpin scp sb sa)
  | .qpop q d => some (execQpop q d)
  | .pres m => some (execPres m)
  | .copy sa => some (execCopy sa)
  | .copyQueue q sa => some (execCopyQueue q sa)
  | .mma m => some (execMma m)
  | .tnew t => some (execTnew t)
  | .tld scaled sb sa => some (execTld scaled sb sa)
  | .tst f free t sb sa => some (execTst f free t sb sa)
  | .gate p t sa => some (execGate p t sa)
  | .scan st k r => some (execScan st k r)
  | .scale k sa => some (execScale k sa)
  | .gbsign k sa => some (execGbsign k sa)
  | .gbsignBlk k sa => some (execGbsignBlk k sa)
  | .wsusp => some execWsusp
  | .wclose => some execWclose
  | .wemit sa => some (execWemit sa)
  | .strctlArm sa => some (execStrctlArm sa)
  | .strctlPause sa => some (execStrctlPause sa)
  | .strctlResume sa => some (execStrctlResume sa)
  | .strctlSetcarry sb sa => some (execStrctlSetcarry sb sa)
  | .strctlClrreset sa => some (execStrctlClrreset sa)
  | .send sb sa d => some (execSend sb sa d)
  | .rpost sa d => some (execRpost sa d)
  | .fwd sa => some (execFwd sa)
  | .frecv d => some (execFrecv d)
  | .launch n sa => some (execLaunch n sa)
  | .evsigSet sa => some (execEvsigSet sa)
  | .evsigClr sa => some (execEvsigClr sa)
  | .svc n sa d => some (execSvc n sa d)
  | _ => none

/-- An issue of an entry has come to nothing: the entry stands where it stood, and neither a request nor a record has been made. -/
def cameToNothing (s t : State) (i : Iss) : Bool :=
  let k := getCluster s (clusterOf i.core)
  let n := getCluster t (clusterOf i.core)
  (getCore t i.core).seq == (getCore s i.core).seq && n.tileReqs == k.tileReqs && n.rtReqs == k.rtReqs && t.wings == s.wings
    && (match getGroup t i.core i.slot with
      | none => false
      | some h => h.id.age == i.g.id.age && h.gpark == .none && h.halt == .run && inHandler h == inHandler i.g
          && (allEntries h).any (fun e => e.park == .none && e.lanes == i.e.lanes && (e.pc == i.e.pc || (e.pc == i.cc.hdr && e.clause.isNone))))

/-- The issuing entry is held at its word, an instruction (R50): for a name that awaits a result (R83), or for what the instruction
itself waits for. -/
def heldAt (s : State) (i : Iss) (ins : Instr) : Bool :=
  match holdable ins with
  | some f => (match f s with
    | .next t => cameToNothing s t i
    | _ => false)
  | none => interlocked s i (opFields ins)

/-! ### Ready groups (R40) -/

/-- The entry that a group would select may begin its clause: no flag that the header waits for is busy, and a token is there where the
clause needs one (R32, R46). -/
def mayBegin (s : State) (c k : Nat) (g : Group) : Bool :=
  match selectEntry (pickable s c g) with
  | none => false
  | some e => e.clause.isSome || (match peekWord s c g.id.ctx e.pc with
    | .word w => !waitBusy g w && (!atMemory s c g e || g.token || tokenFree s c k g)
    | .fail _ => true)

/-- Whether the group of a slot, at the focus, is ready: it may begin a clause, and is not held at the word that it comes to. The first
argument bounds the entries looked at. -/
def readyFrom : Nat → State → Nat → Nat → Bool
  | 0, _, _, _ => true
  | fuel + 1, s, c, k =>
    match getGroup s c k with
    | none => false
    | some g =>
      if g.gpark != .none || g.halt != .run || !slotRuns s g.id.ctx then false
      else
        match issuer s with
        | none =>
          mayBegin s c k g &&
            (let t := pick s c k
             match (getGroup t c k).bind (·.active) with
             | none => true
             | some _ => readyFrom fuel t c k)
        | some i =>
          if meets i then readyFrom fuel (joinActive s i) c k
          else if !keepsPlace s i then readyFrom fuel (holdWord s i) c k
          else
            match fetchInstr s i with
            | .done _ => true
            | .ins ins t => (match issuer t with
              | some j => !heldAt t j ins
              | none => true)

/-- A group is ready (R40): its selected entry's clause may issue, with the token that this needs (R46), and it is neither parked nor
held at a word (R50, R83). (Log entry 32, DESIGN CHOICE, safe.) -/
def groupReady (s : State) (c k : Nat) : Bool := readyFrom 4 { s with focusCore := c, focusSlot := k } c k

/-! ### Sides (R40) -/

/-- When a ready group began to wait: as noted when time last passed, or now. -/
def waitsSince (s : State) (g : Group) : Nat := if g.waits then g.readyAt else s.clock

/-- The group of those given that has waited longest; ties go to the older. -/
def longestWaiting (s : State) (gs : List (Nat × Group)) : Option (Nat × Group) :=
  gs.foldl (fun b p => match b with
    | none => some p
    | some r =>
      if waitsSince s p.2 < waitsSince s r.2 || (waitsSince s p.2 == waitsSince s r.2 && decide (p.2.id.age < r.2.id.age)) then some p
      else b) none

/-- The groups of a side beside the one that it issues from. -/
def sideOthers (q : Core) (side : Bool) : List (Nat × Group) :=
  q.groups.filter (fun p => ofSide side p.1 && some p.1 != sideSlot q side)

/-- The group that a side issues from is ready. -/
def sideReady (s : State) (c : Nat) (side : Bool) : Bool :=
  match sideSlot (getCore s c) side with
  | some j => groupReady s c j
  | none => false

/-- The group that a side changes to: where the group it issues from is not ready, or another ready one has waited 32 cycles, the ready
one that has waited longest. -/
def sideTurn (s : State) (c : Nat) (side : Bool) : Option Nat :=
  let others := sideOthers (getCore s c) side
  if others.isEmpty then none
  else if !sideReady s c side || others.any (fun p => decide (waitsSince s p.2 + 32 ≤ s.clock) && groupReady s c p.1) then
    (longestWaiting s (others.filter (fun p => groupReady s c p.1))).map (·.1)
  else none

/-- `GROUP_SWITCH` (R40). -/
def groupSwitch (s : State) (c : Nat) (side : Bool) : State :=
  match sideTurn s c side with
  | none => s
  | some k => takeSide s c k

def execGroupSwitch (core : Nat) (side : Bool) (s : State) : Out := .next (groupSwitch s core side)

/-- The slot that a side has for its next issue: the one it changes to, or the one it issues from. -/
def sideNext (s : State) (c : Nat) (side : Bool) : Option Nat := (sideTurn s c side).or (sideSlot (getCore s c) side)

/-- A slot may issue: its side has it for the next issue. The access processor has no side. -/
def mayIssue (s : State) (c k : Nat) : Bool := decide (64 ≤ k) || sideNext s c (decide (32 ≤ k)) == some k

/-- The focus as its side has it: on the slot of the next issue. -/
def focusTurn (s : State) : State :=
  if 64 ≤ s.focusSlot then s
  else
    match sideNext s s.focusCore (decide (32 ≤ s.focusSlot)) with
    | some k => if k == s.focusSlot && sideSlot (getCore s s.focusCore) (decide (32 ≤ s.focusSlot)) == some k then s else takeSide s s.focusCore k
    | none => s

/-- Before time passes, every group that has become ready begins to wait, and the count of one that is not ready is cleared. -/
def noteWaits (s : State) (c : Nat) : State :=
  (getCore s c).groups.foldl (fun s p =>
    let r := groupReady s c p.1
    if r == p.2.waits then s
    else setGroup s c p.1 { p.2 with waits := r, readyAt := if r then s.clock else p.2.readyAt }) s

/-! ### The idle tenant (R263) -/

/-- A group waits for the cloakroom engine: for its fill, or for room (R66, R67). -/
def awaitsCloak (g : Group) : Bool :=
  match g.gpark with
  | .fill _ | .pool => true
  | _ => false

/-- Engine operations or memory requests of a context are outstanding, or window-engine work of it is queued: records and deliveries of
its streams, of one that has ended too. -/
def requestsLeft (s : State) (x : Ctx) : Bool :=
  s.cores.any (fun c => c.2.sb.any (fun e => e.ctx == x) || c.2.loads.any (fun o => o.ctx == x) || c.2.sends.any (fun o => o.ctx == x)
      || c.2.comb.any (fun e => e.ctx == x) || c.2.groups.any (fun p => p.2.id.ctx == x && awaitsCloak p.2)) || peerPending s x
    || s.clusters.any (fun k => k.2.queue.any (fun o => o.ctx == x) || k.2.resv.any (fun o => o.ctx == x))
    || (getTenant s x).streams.any (fun k => !k.2.items.isEmpty || k.2.due.isSome || (k.2.armed && k.2.next != k.2.tail))

/-- A tenant is idle. -/
def tenantIdle (s : State) (x : Ctx) : Bool :=
  s.cores.all (fun c => c.2.groups.all (fun p => p.2.id.ctx != x || !groupReady s c.1 p.1)) && !launchWork s x && !requestsLeft s x

/-- `IDLE_DONATION`: an idle tenant gives the rest of its row away, once. -/
def idleDonation (s : State) (w : Nat) : State :=
  let k := getWing s w
  if k.running && k.edge.isNone && k.donated.isNone && rowDonates k.curRow && tenantIdle s (curCtx s w) then
    let k := takeRows k [rowDrow k.curRow]
    setWing s w { k with edge := some (edgeFor s k (some (rowDrow k.curRow)) (some k.row.toNat)) }
  else s

def execIdleDonation (w : Nat) (s : State) : Out := .next (idleDonation s w)

end Sys2Proof.Machine
end

