-- ==== Sys2Proof/Machine/Dispatch.lean ====
section
/-!
DEFINITION. The dispatcher: one arm per instruction or event, each a direct call of its meaning.
-/
namespace Sys2Proof.Machine

def exec (i : Instr) (s : State) : Host.Outcome State Fault Refusal :=
  match i with
  | .bra off => Sys2Proof.Machine.execBra off s
  | .brc lrc c off => Sys2Proof.Machine.execBrc lrc c off s
  | .brz lrc c off => Sys2Proof.Machine.execBrz lrc c off s
  | .call frame off => Sys2Proof.Machine.execCall frame off s
  | .ret => Sys2Proof.Machine.execRet s
  | .jmpr sa => Sys2Proof.Machine.execJmpr sa s
  | .exit => Sys2Proof.Machine.execExit s
  | .yield => Sys2Proof.Machine.execYield s
  | .wbase n => Sys2Proof.Machine.execWbase n s
  | .mjoin k => Sys2Proof.Machine.execMjoin k s
  | .mleave k => Sys2Proof.Machine.execMleave k s
  | .mwait k => Sys2Proof.Machine.execMwait k s
  | .mreadEnr k d => Sys2Proof.Machine.execMreadEnr k d s
  | .mreadArr k d => Sys2Proof.Machine.execMreadArr k d s
  | .vote op r => Sys2Proof.Machine.execVote op r s
  | .bar => Sys2Proof.Machine.execBar s
  | .iadd m r => Sys2Proof.Machine.execIadd m r s
  | .isub m r => Sys2Proof.Machine.execIsub m r s
  | .imul m r => Sys2Proof.Machine.execImul m r s
  | .imad r => Sys2Proof.Machine.execImad r s
  | .imin u r => Sys2Proof.Machine.execImin u r s
  | .imax u r => Sys2Proof.Machine.execImax u r s
  | .iand r => Sys2Proof.Machine.execIand r s
  | .ior r => Sys2Proof.Machine.execIor r s
  | .ixor r => Sys2Proof.Machine.execIxor r s
  | .ishl r => Sys2Proof.Machine.execIshl r s
  | .ishr sg r => Sys2Proof.Machine.execIshr sg r s
  | .popc r => Sys2Proof.Machine.execPopc r s
  | .clz r => Sys2Proof.Machine.execClz r s
  | .bfe sg r => Sys2Proof.Machine.execBfe sg r s
  | .bfi r => Sys2Proof.Machine.execBfi r s
  | .icmp c r => Sys2Proof.Machine.execIcmp c r s
  | .icmpu c r => Sys2Proof.Machine.execIcmpu c r s
  | .sel r => Sys2Proof.Machine.execSel r s
  | .iaddi imm r => Sys2Proof.Machine.execIaddi imm r s
  | .iandi imm r => Sys2Proof.Machine.execIandi imm r s
  | .ishli n r => Sys2Proof.Machine.execIshli n r s
  | .ishri n r => Sys2Proof.Machine.execIshri n r s
  | .isari n r => Sys2Proof.Machine.execIsari n r s
  | .fadd r => Sys2Proof.Machine.execFadd r s
  | .fsub r => Sys2Proof.Machine.execFsub r s
  | .fmul r => Sys2Proof.Machine.execFmul r s
  | .ffma r => Sys2Proof.Machine.execFfma r s
  | .fmin nan r => Sys2Proof.Machine.execFmin nan r s
  | .fmax nan r => Sys2Proof.Machine.execFmax nan r s
  | .fcmp c r => Sys2Proof.Machine.execFcmp c r s
  | .fsgn o r => Sys2Proof.Machine.execFsgn o r s
  | .frcp r => Sys2Proof.Machine.execFrcp r s
  | .frsq r => Sys2Proof.Machine.execFrsq r s
  | .fexp2 r => Sys2Proof.Machine.execFexp2 r s
  | .flog2 r => Sys2Proof.Machine.execFlog2 r s
  | .ftanh r => Sys2Proof.Machine.execFtanh r s
  | .fsig r => Sys2Proof.Machine.execFsig r s
  | .fcvt src dst r => Sys2Proof.Machine.execFcvt src dst r s
  | .i2f u r => Sys2Proof.Machine.execI2f u r s
  | .f2i z u r => Sys2Proof.Machine.execF2i z u r s
  | .hadd2 f r => Sys2Proof.Machine.execHadd2 f r s
  | .hmul2 f r => Sys2Proof.Machine.execHmul2 f r s
  | .hfma2 f r => Sys2Proof.Machine.execHfma2 f r s
  | .mov r => Sys2Proof.Machine.execMov r s
  | .movi imm d => Sys2Proof.Machine.execMovi imm d s
  | .movl lit d => Sys2Proof.Machine.execMovl lit d s
  | .shfl o r => Sys2Proof.Machine.execShfl o r s
  | .qswz p r => Sys2Proof.Machine.execQswz p r s
  | .rdlane r => Sys2Proof.Machine.execRdlane r s
  | .rdlaneImm k r => Sys2Proof.Machine.execRdlaneImm k r s
  | .scanl o r => Sys2Proof.Machine.execScanl o r s
  | .redl o r => Sys2Proof.Machine.execRedl o r s
  | .shape r => Sys2Proof.Machine.execShape r s
  | .expand d => Sys2Proof.Machine.execExpand d s
  | .sread x d => Sys2Proof.Machine.execSread x d s
  | .swrite x sa => Sys2Proof.Machine.execSwrite x sa s
  | .ld w ep lu m => Sys2Proof.Machine.execLd w ep lu m s
  | .st w ep lu m => Sys2Proof.Machine.execSt w ep lu m s
  | .lda wide scp m => Sys2Proof.Machine.execLda wide scp m s
  | .stl wide scp m => Sys2Proof.Machine.execStl wide scp m s
  | .atom op sb sa d => Sys2Proof.Machine.execAtom op sb sa d s
  | .atom64 op sb sa d => Sys2Proof.Machine.execAtom64 op sb sa d s
  | .red op scp sat cnan ftz sb sa => Sys2Proof.Machine.execRed op scp sat cnan ftz sb sa s
  | .fence scp => Sys2Proof.Machine.execFence scp s
  | .fenceUnpin scp sb sa => Sys2Proof.Machine.execFenceUnpin scp sb sa s
  | .qpop q d => Sys2Proof.Machine.execQpop q d s
  | .pres m => Sys2Proof.Machine.execPres m s
  | .copy sa => Sys2Proof.Machine.execCopy sa s
  | .copyQueue q sa => Sys2Proof.Machine.execCopyQueue q sa s
  | .mma m => Sys2Proof.Machine.execMma m s
  | .tnew t => Sys2Proof.Machine.execTnew t s
  | .tld scaled sb sa => Sys2Proof.Machine.execTld scaled sb sa s
  | .tst f free t sb sa => Sys2Proof.Machine.execTst f free t sb sa s
  | .gate p t sa => Sys2Proof.Machine.execGate p t sa s
  | .scan st k r => Sys2Proof.Machine.execScan st k r s
  | .scale k sa => Sys2Proof.Machine.execScale k sa s
  | .gbsign k sa => Sys2Proof.Machine.execGbsign k sa s
  | .gbsignBlk k sa => Sys2Proof.Machine.execGbsignBlk k sa s
  | .wsusp => Sys2Proof.Machine.execWsusp s
  | .wclose => Sys2Proof.Machine.execWclose s
  | .wemit sa => Sys2Proof.Machine.execWemit sa s
  | .wpane sel d => Sys2Proof.Machine.execWpane sel d s
  | .winfo sel d => Sys2Proof.Machine.execWinfo sel d s
  | .strctlArm sa => Sys2Proof.Machine.execStrctlArm sa s
  | .strctlPause sa => Sys2Proof.Machine.execStrctlPause sa s
  | .strctlResume sa => Sys2Proof.Machine.execStrctlResume sa s
  | .strctlSetcarry sb sa => Sys2Proof.Machine.execStrctlSetcarry sb sa s
  | .strctlClrreset sa => Sys2Proof.Machine.execStrctlClrreset sa s
  | .send sb sa d => Sys2Proof.Machine.execSend sb sa d s
  | .rpost sa d => Sys2Proof.Machine.execRpost sa d s
  | .fwd sa => Sys2Proof.Machine.execFwd sa s
  | .frecv d => Sys2Proof.Machine.execFrecv d s
  | .launch n sa => Sys2Proof.Machine.execLaunch n sa s
  | .evsigSet sa => Sys2Proof.Machine.execEvsigSet sa s
  | .evsigClr sa => Sys2Proof.Machine.execEvsigClr sa s
  | .svc n sa d => Sys2Proof.Machine.execSvc n sa d s
  | .rftRestart mute stp => Sys2Proof.Machine.execRftRestart mute stp s
  | .rftGoto mute stp sa => Sys2Proof.Machine.execRftGoto mute stp sa s
  | .rftEnd => Sys2Proof.Machine.execRftEnd s
  | .pick core slot => Sys2Proof.Machine.execPick core slot s
  | .groupSwitch core side => Sys2Proof.Machine.execGroupSwitch core side s
  | .localityInterval core => Sys2Proof.Machine.execLocalityInterval core s
  | .tokenIdleRelease core slot => Sys2Proof.Machine.execTokenIdleRelease core slot s
  | .tokenHoldRelease core slot => Sys2Proof.Machine.execTokenHoldRelease core slot s
  | .loadReturn core n => Sys2Proof.Machine.execLoadReturn core n s
  | .cloakFillComplete core slot => Sys2Proof.Machine.execCloakFillComplete core slot s
  | .trapEntry core => Sys2Proof.Machine.execTrapEntry core s
  | .storeBufferDrain core n => Sys2Proof.Machine.execStoreBufferDrain core n s
  | .l2WriteBack cluster sector => Sys2Proof.Machine.execL2WriteBack cluster sector s
  | .combineAgeFlush core => Sys2Proof.Machine.execCombineAgeFlush core s
  | .refresh bank waited => Sys2Proof.Machine.execRefresh bank waited s
  | .forcedRefresh pc waited => Sys2Proof.Machine.execForcedRefresh pc waited s
  | .patrolScrub granule corrected intervened => Sys2Proof.Machine.execPatrolScrub granule corrected intervened s
  | .refwaitRead channel => Sys2Proof.Machine.execRefwaitRead channel s
  | .thrlossRead w t => Sys2Proof.Machine.execThrlossRead w t s
  | .linePresent core block line => Sys2Proof.Machine.execLinePresent core block line s
  | .engineQueueStart cluster n => Sys2Proof.Machine.execEngineQueueStart cluster n s
  | .reservationEnter cluster => Sys2Proof.Machine.execReservationEnter cluster s
  | .engineGrant cluster n => Sys2Proof.Machine.execEngineGrant cluster n s
  | .engineOpComplete cluster n => Sys2Proof.Machine.execEngineOpComplete cluster n s
  | .tileAllocate cluster => Sys2Proof.Machine.execTileAllocate cluster s
  | .copyProgress cluster n rows => Sys2Proof.Machine.execCopyProgress cluster n rows s
  | .fwdArrival core => Sys2Proof.Machine.execFwdArrival core s
  | .messageArrival core n => Sys2Proof.Machine.execMessageArrival core n s
  | .sendComplete core n => Sys2Proof.Machine.execSendComplete core n s
  | .tailWriteSeen w t st => Sys2Proof.Machine.execTailWriteSeen w t st s
  | .tailPoll w t st => Sys2Proof.Machine.execTailPoll w t st s
  | .dataRecord w t st => Sys2Proof.Machine.execDataRecord w t st s
  | .watermarkRecord w t st => Sys2Proof.Machine.execWatermarkRecord w t st s
  | .resetRecord w t st => Sys2Proof.Machine.execResetRecord w t st s
  | .endRecord w t st => Sys2Proof.Machine.execEndRecord w t st s
  | .reservedKindRecord w t st => Sys2Proof.Machine.execReservedKindRecord w t st s
  | .idleStash w t st win => Sys2Proof.Machine.execIdleStash w t st win s
  | .delivery w t st n => Sys2Proof.Machine.execDelivery w t st n s
  | .graft w t st n => Sys2Proof.Machine.execGraft w t st n s
  | .wemitSlotResume core slot => Sys2Proof.Machine.execWemitSlotResume core slot s
  | .directoryWriteback w t st => Sys2Proof.Machine.execDirectoryWriteback w t st s
  | .qtailWriteSeen w t q => Sys2Proof.Machine.execQtailWriteSeen w t q s
  | .qtailPoll w t q => Sys2Proof.Machine.execQtailPoll w t q s
  | .launchStart w t q => Sys2Proof.Machine.execLaunchStart w t q s
  | .gangPlace w => Sys2Proof.Machine.execGangPlace w s
  | .launchComplete w t n => Sys2Proof.Machine.execLaunchComplete w t n s
  | .slotRowEnd w => Sys2Proof.Machine.execSlotRowEnd w s
  | .groupHalt core slot => Sys2Proof.Machine.execGroupHalt core slot s
  | .grace1Expiry w => Sys2Proof.Machine.execGrace1Expiry w s
  | .grace2Expiry w => Sys2Proof.Machine.execGrace2Expiry w s
  | .edgeCommit w => Sys2Proof.Machine.execEdgeCommit w s
  | .idleDonation w => Sys2Proof.Machine.execIdleDonation w s
  | .preemptTimeout w => Sys2Proof.Machine.execPreemptTimeout w s
  | .wingEnable w => Sys2Proof.Machine.execWingEnable w s
  | .wingDisable w => Sys2Proof.Machine.execWingDisable w s
  | .wingPreempt w => Sys2Proof.Machine.execWingPreempt w s
  | .slotRowWrite w row v => Sys2Proof.Machine.execSlotRowWrite w row v s
  | .contextRegWrite w t v => Sys2Proof.Machine.execContextRegWrite w t v s
  | .wingBitmapWrite w off v => Sys2Proof.Machine.execWingBitmapWrite w off v s
  | .grace1Write w v => Sys2Proof.Machine.execGrace1Write w v s
  | .grace2Write w v => Sys2Proof.Machine.execGrace2Write w v s
  | .xinvPage w t => Sys2Proof.Machine.execXinvPage w t s
  | .xinvTenant w t => Sys2Proof.Machine.execXinvTenant w t s
  | .xinvWing w t => Sys2Proof.Machine.execXinvWing w t s
  | .xinvComplete w => Sys2Proof.Machine.execXinvComplete w s
  | .fqReplay w => Sys2Proof.Machine.execFqReplay w s
  | .fqFail w => Sys2Proof.Machine.execFqFail w s
  | .walkComplete core n => Sys2Proof.Machine.execWalkComplete core n s
  | .faultRecordWrite w => Sys2Proof.Machine.execFaultRecordWrite w s
  | .svcRecordWrite core slot => Sys2Proof.Machine.execSvcRecordWrite core slot s
  | .svcReply core slot => Sys2Proof.Machine.execSvcReply core slot s
  | .svcRefused core slot => Sys2Proof.Machine.execSvcRefused core slot s
  | .notifyClear w v => Sys2Proof.Machine.execNotifyClear w v s
  | .evsWrite w t k v => Sys2Proof.Machine.execEvsWrite w t k v s
  | .evcWrite w t k v => Sys2Proof.Machine.execEvcWrite w t k v s
  | .stropArm w t ix => Sys2Proof.Machine.execStropArm w t ix s
  | .stropPause w t ix => Sys2Proof.Machine.execStropPause w t ix s
  | .stropResume w t ix => Sys2Proof.Machine.execStropResume w t ix s
  | .attestReport view => Sys2Proof.Machine.execAttestReport view s
  | .attestCert view => Sys2Proof.Machine.execAttestCert view s
  | .attestDone view ok => Sys2Proof.Machine.execAttestDone view ok s
  | .registerWrite r v => Sys2Proof.Machine.execRegisterWrite r v s
  | .throttleStep power temp raise => Sys2Proof.Machine.execThrottleStep power temp raise s
  | .overtempStop => Sys2Proof.Machine.execOvertempStop s
  | .uncorrectableError e => Sys2Proof.Machine.execUncorrectableError e s
  | .coldReset verified => Sys2Proof.Machine.execColdReset verified s
  | .warmReset verified => Sys2Proof.Machine.execWarmReset verified s
  | .vfFlr w => Sys2Proof.Machine.execVfFlr w s
  | .joeshLinkTrain p up => Sys2Proof.Machine.execJoeshLinkTrain p up s
  | .joeshFlitError p => Sys2Proof.Machine.execJoeshFlitError p s
  | .joeshIncomingAccess p a => Sys2Proof.Machine.execJoeshIncomingAccess p a s
  | .hostWrite sp a bs => Sys2Proof.Machine.execHostWrite sp a bs s
  | .hostRead sp a n => Sys2Proof.Machine.execHostRead sp a n s
  | .peerHomeAcknowledgement p => Sys2Proof.Machine.execPeerHomeAcknowledgement p s

end Sys2Proof.Machine
end

