-- ==== Sys2Proof/Machine/Place.lean ====
section
/-!
DEFINITION. Placing one instruction where the machine fetches next, for `State.withFetchWord`: a resident group in the middle of
a clause, with its code mapped.
-/
namespace Sys2Proof.Machine

/-- Where the placed clause's header lies: flat address, and its place in device memory. -/
def placeVa : Nat := 0x10000

/-- The header of the placed clause: `SETA` f0, `SETB` f1, `LEN` 15. -/
def placeHeader : Word := 0x00001F00

/-- The translation of the placed code's page. -/
def placeTlb : TlbEntry :=
  { ctx := ⟨0, 0⟩, va := placeVa, log := 16, log1 := 16, loc := ⟨.dev, 0⟩, r := true, w := true, x := true, sup := false, own := 0 }

/-- The clause in which the placed instruction stands as the first word. -/
def placeClause : ClauseCtx :=
  { hdr := BitVec.ofNat 56 placeVa, word := placeHeader, begun := true, resumed := false, swz := false, hvals := [],
    lastQ := BitVec.ofNat 56 placeVa, unseen := false, bad := false }

def placeEntry : Entry :=
  { pc := BitVec.ofNat 56 (placeVa + 4), pri := 0, lanes := allLanes, park := .none, pass := 0, mark := false, fail := none,
    clause := some placeClause }

/-- A group as R254 starts one, its first entry in the placed clause. -/
def placeGroup : Group :=
  { kind := .compute,
    id := { ctx := ⟨0, 0⟩, launch := 0, launchId := 0, gang := 0, block := 0, group := 0, blockKey := 0, minRegs := 8, cloak := 0,
            age := 0 },
    live := allLanes, lanes := (List.range 64).map (fun l => (l, LaneSt.start (BitVec.ofNat 56 placeVa))), names := [], tags := [],
    frontier := [], active := some placeEntry, markers := [], flags := [], scales := [], tiles := [], rgnCnt := 0,
    gpark := .none, handler := none, traps := TrapRegs.zero, pendTrap := none, svc := none, halt := .run, readyAt := 0,
    waits := false, token := false, tokenSince := 0, tokenLast := 0, wemit := 0, ovfq := [] }

/-- Store the header and the instruction's words, and put the group at the focus of issue, the one group of its side (R40). -/
def placeWord (s : State) (nbits w : Nat) : State :=
  let v := w % 2 ^ nbits
  let bs := leBytes 4 placeHeader.toNat ++ leBytes 4 v ++ leBytes 4 (v / 2 ^ 32)
  let q := getCore s 0
  let s := setCore s 0 { q with groups := fset (q.groups.filter (fun p => decide (32 ≤ p.1))) 0 placeGroup, side0 := some 0, code := [], tlb := placeTlb :: q.tlb }
  { s with turns := [], focusCore := 0, focusSlot := 0, stopped := false, mem := memWrite s.mem 0 bs,
           poison := s.poison.filter (· != 0) }

end Sys2Proof.Machine
end

