-- ==== Sys2Proof/Machine/Turns.lean ====
section
/-!
DEFINITION. The turns of the agenda that are not rows of the opcode table: time passing (R16, R267), and copies that caches
drop or write back on their own (R128 to R131).
-/
namespace Sys2Proof.Machine

/-- The wing that owns a cluster (R256). -/
def wingOfCluster (s : State) (n : Nat) : Option Nat :=
  (List.range Config.numWings).find? (fun w => (getWing s w).wclu.getLsbD n)

/-- Cycles of a core: `CORECYC` counts those delivered, the running tenant's `THRLOSS` those withheld. -/
def coreCycles (s : State) (c given withheld : Nat) : State :=
  let q := getCore s c
  let s := setCore s c { q with corecyc := q.corecyc + bw given }
  match wingOfCluster s (clusterOf c) with
  | none => s
  | some w =>
    let k := getWing s w
    if k.running then
      let x : Ctx := ⟨w, k.curt.toNat⟩
      let t := getTenant s x
      setTenant s x { t with thrloss := t.thrloss + BitVec.ofNat 64 withheld }
    else s

/-- A core's L1 drops a line of its own accord. -/
def l1Evict (s : State) (c line : Nat) : State := setCore s c (l1Drop (getCore s c) line)

/-- A core-side slice drops a sector of its own accord, whoever's it is. -/
def l2Evict (s : State) (n sector : Nat) : State :=
  ((getCluster s n).l2.filter (fun p => p.1 / 256 == sector)).foldl (fun s p => evictSector s n p.1) s

/-- A home slice writes a line back and drops it, unless it is pinned (R132). -/
def homeEvict (s : State) (line : Nat) : State := if isPinned s line || !inSlice s line then s else homeDrop s line

/-- Data of the host or of a peer is marked as poisoned (R312): the loads that read it have bound. -/
def farPoison (s : State) (l : PLoc) : State :=
  let g := l.a / 32 * 32
  let add := fun (xs : List Nat) => if xs.contains g then xs else g :: xs
  let s := bindEverywhere s ⟨l.tgt, g⟩ 32
  match l.tgt with
  | .host => { s with hostBad := add s.hostBad }
  | .peer p => { s with peerBad := sset [] s.peerBad p (add (sget [] s.peerBad p)) }
  | _ => s

/-- A peer refuses accesses to 64 KiB of what lies behind a port, or accepts them again (R321). -/
def peerRefuse (s : State) (p page : Nat) (refuse : Bool) : State :=
  let xs := (sget [] s.peerRefused p).filter (· != page)
  { s with peerRefused := sset [] s.peerRefused p (if refuse then page :: xs else xs) }

/-- The effect of a turn that is neither an event nor an issue. -/
def turnEffect (t : Turn) (s : State) : State :=
  match t with
  | .tick n => let s := (fkeys s.cores).foldl noteWaits s; { s with clock := s.clock + n }
  | .cycles c given withheld => coreCycles s c given withheld
  | .l1Evict c line => l1Evict s c line
  | .l2Evict n sector => l2Evict s n sector
  | .codeDrop c => dropCode s c
  | .homeEvict line => homeEvict s line
  | .dramError g intervened => { s with correctable := fset s.correctable (g / 32 * 32) intervened }
  | .farPoison l => farPoison s l
  | .peerRefuse p page refuse => peerRefuse s p page refuse
  | .micro die n => { s with micros := sset 0 s.micros die (sget 0 s.micros die + n) }
  | .fuses clu chan => { s with newFuses := some (clu, chan) }
  | .event _ | .issue .. => s

end Sys2Proof.Machine
end

