-- ==== Sys2Proof/Machine/Step.lean ====
section
/-!
DEFINITION. One step of the device: the next turn of the agenda, or, with none listed, the issue of the side at the focus.
-/
namespace Sys2Proof.Machine

/-- The slot at the focus issues: a pick at a clause boundary, its next word within a clause. -/
def issueStep (s : State) : Out :=
  match nextInstr s with
  | .ins i s => exec i s
  | .done s => .next s

/-- One step. A turn that names a code word does nothing: code words come from memory; nor does one that names a slot which may not
issue (R40). With no turn listed the side of the focus issues. (Log entry 32, DESIGN CHOICE, safe.) -/
def step (s : State) : Host.Outcome State Fault Refusal :=
  match s.turns with
  | [] => issueStep (focusTurn s)
  | .event i :: ts => if i.isCode then .next { s with turns := ts } else exec i { s with turns := ts }
  | .issue c k :: ts =>
    let s := { s with turns := ts }
    if mayIssue s c k then issueStep (takeSide s c k) else .next s
  | t :: ts => .next (turnEffect t { s with turns := ts })

/-- The state with an instruction placed where the next step fetches (log entry 17, DESIGN CHOICE, safe). -/
def State.withFetchWord (s : State) (nbits w : Nat) : State := placeWord s nbits w

end Sys2Proof.Machine
end

