-- ==== Sys2Proof/Safety.lean ====
section
/-!
DEFINITION. The terms in which statements are made: runs; when an instruction of the issuing entry executes, and what it leaves
unchanged.
-/
namespace Sys2Proof.Machine

/-- A state that steps lead to. -/
inductive Reaches : State → State → Prop where
  | refl (s : State) : Reaches s s
  | tail {s t u : State} : Reaches s t → step t = .next u → Reaches s u

/-- A step that answers a next state. -/
def Runs (s : State) : Prop := ∃ t, step s = .next t

/-! ### When an instruction executes -/

/-- The entry that issues, as the first word of its clause leaves it (R31, R84). -/
abbrev Issues (s : State) (i : Iss) : Prop := (issuer s).map (beginClause s) = some i ∧ i.e.lanes ≠ 0

/-- The entry that issues executes an instruction whose names are `names`, of which it reads `reads` and writes `writes`: every
field names a name (R52), none awaits a result (R83, R236), and no name that is needed lies in the cloakroom (R67). -/
abbrev Ready (s : State) (i : Iss) (names reads writes : List Nat) : Prop :=
  Issues s i ∧ badLanes i names = 0 ∧ interlocked s i names = false ∧ receiveWait s i names = none ∧ toFill i reads writes = []

/-- The pools hold a scalar pair and a vector slot more for every destination name (R63, R66). -/
abbrev HasRoom (s : State) (i : Iss) (dsts : List Nat) : Prop :=
  let u := usedSlots (getCore s i.core) i.g.id.ctx
  let room := poolRoom (splitWing s i.g.id.ctx.wing)
  let n := (keepNames i dsts).length
  u.1 + 2 * n ≤ room.1 ∧ u.2 + n ≤ room.2

/-- In access-processor code every source is uniform, so that no result is general (R137). -/
abbrev ApUniform (i : Iss) (srcs : List Nat) : Prop :=
  isAp i.g = true → fullMask i = true ∧ ∀ f ∈ srcs, isUniform (fieldVal i f) = true

/-! ### What a group holds -/

/-- The word that a field names in a lane (R52, R55). -/
def fieldWord (g : Group) (l f : Nat) : Word :=
  match nameIx g l f with
  | some n => shapedAt (getName g n).val l
  | none => 0

/-- The word that a field names in a lane of the clause (R26): an active lane's own; a helper lane's copy where the clause has written
one, else its own, and zero in a lane that has exited. -/
def laneWord (i : Iss) (l f : Nat) : Word :=
  if hasLane i.e.lanes l = true then fieldWord i.g l f
  else
    match nameIx i.g l f with
    | none => 0
    | some n => (fget (sget [] i.cc.hvals n) l).getD (if hasLane i.g.live l = true then shapedAt (getName i.g n).val l else 0)

/-- While the clause goes on, the helper lanes' copies of a destination hold the values given (R26, R413). -/
def CopiesHold (i : Iss) (t : State) (d : Nat) (val : Nat → Word) : Prop :=
  ∀ g e cc, getGroup t i.core i.slot = some g → g.active = some e → e.clause = some cc →
    ∀ l < 64, hasLane (helperLanes i) l = true → ∀ n, nameIx i.g l d = some n → fget (sget [] cc.hvals n) l = some (val l)

/-- The active lanes read the values given from the fields given. -/
def LanesHold (i : Iss) (g : Group) (dsts : List Nat) (val : Nat → Nat → Word) : Prop :=
  ∀ d ∈ dsts, ∀ l < 64, hasLane i.e.lanes l = true → fieldWord g l d = val d l

/-- The shape code of a result of the standard rows of R56. -/
def stdCode (i : Iss) (srcs : List Nat) : Nat := if srcs.all (fun f => isUniform (fieldVal i f)) then 1 else 3

/-- The shape code of an affine value with a stride: uniform where that is zero (R56). -/
def strideCode (stride : Word) : Nat := if stride = 0 then 1 else 2

/-- The shape code of a sum or difference (R56): affine sources keep their strides. -/
def addCode (sub : Bool) (a b : Shaped) : Nat :=
  match affineOf a, affineOf b with
  | some (_, p), some (_, q) => strideCode (if sub then p - q else p + q)
  | _, _ => 3

/-- The shape code of a product: an affine source times a uniform one keeps a stride (R56). -/
def mulCode (a b : Shaped) : Nat :=
  match mulAffine a b with
  | some (_, p) => strideCode p
  | none => 3

/-- The shape code of a product with an addend (R56). -/
def madCode (a b c : Shaped) : Nat :=
  if isUniform a && isUniform b && !isUniform c then 3
  else match mulAffine a b, affineOf c with
    | some (_, p), some (_, q) => strideCode (p + q)
    | _, _ => 3

/-- The shape code of a left shift: an affine source keeps its shifted stride under a uniform count (R56, R361). -/
def shlCode (a : Shaped) (count : Option Word) : Nat :=
  match affineOf a, count with
  | some (_, p), some c => if c.toNat < 32 then strideCode (p <<< c.toNat) else 1
  | _, _ => 3

/-- The names that the fields given name have the shapes given under a full mask, and are general under a partial one (R56, R57). -/
def ShapesAre (i : Iss) (g : Group) (dsts : List Nat) (code : Nat → Nat) : Prop :=
  ∀ d ∈ dsts, ∀ n ∈ namesOf i d, shapeCode (getName g n).val = if fullMask i = true then code d else 3

/-- Names that await a result show the shapes that they had before, after the word's last reads (R59, R60). -/
def ShowsOldShapes (i : Iss) (g : Group) (rels dsts : List Nat) : Prop :=
  ∀ n ∈ keepNames i dsts,
    (n ∉ keepNames i rels ∨ fullMask i = false → shapeCode (shownVal g n) = shapeCode (shownVal i.g n)) ∧
    (n ∈ keepNames i rels → fullMask i = true → fget i.g.tags n = none → shapeCode (shownVal g n) = 0)

/-- Every name that no destination field names holds what it held; one marked as last read is free under a full mask (R60). -/
def OtherNamesKept (i : Iss) (g : Group) (rels dsts : List Nat) : Prop :=
  ∀ n, n ∉ keepNames i dsts →
    (n ∈ keepNames i rels → fullMask i = true → (getName g n).val = .unalloc) ∧
    (n ∉ keepNames i rels ∨ fullMask i = false →
      (getName g n).val = (getName i.g n).val ∧ (getName g n).spilled = (getName i.g n).spilled)

/-- Everything of a group but its names, its entries and its lanes' state is as it was. -/
def GroupKept (a b : Group) : Prop :=
  { b with names := a.names, handler := a.handler, frontier := a.frontier, active := a.active, lanes := a.lanes } = a ∧
  b.handler.map (fun h => { h with names := [] }) = a.handler.map (fun h => { h with names := [] })

/-- Every lane's state is as it was, but for the exceptions that its result has added to `FSTAT` (R107). -/
def LanesKept (i : Iss) (g : Group) (fl : Nat → FFlags) : Prop :=
  ∀ l, laneSt g l = if l < 64 ∧ hasLane i.e.lanes l = true
    then { laneSt i.g l with fstat := (laneSt i.g l).fstat ||| (fl l).setWidth 32 } else laneSt i.g l

/-- Every active lane's state is changed as given, and every other lane's is as it was. -/
def LanesAre (i : Iss) (g : Group) (f : Nat → LaneSt → LaneSt) : Prop :=
  ∀ l, laneSt g l = if l < 64 ∧ hasLane i.e.lanes l = true then f l (laneSt i.g l) else laneSt i.g l

/-- The entry has gone on by `n` words: within its clause, or to the word after it (R27, R74). -/
def WentOn (i : Iss) (g : Group) (n : Nat) : Prop :=
  let pc := i.e.pc + BitVec.ofNat 56 (4 * n)
  if (lastWord i.cc - i.cc.hdr).toNat < (pc - i.cc.hdr).toNat then
    g.active = none ∧ ∃ e ∈ g.frontier, e.pc = afterClause i.cc ∧ i.e.lanes &&& ~~~e.lanes = 0
  else ∃ e, g.active = some e ∧ e.pc = pc ∧ e.lanes = i.e.lanes

/-- Nothing of the device changes but one group and the issue count of its core: every memory, register, cache, queue and other
group is as it was. -/
def OnlyGroup (s t : State) (c k : Nat) : Prop :=
  { t with cores := s.cores } = s ∧
  (∀ d, d ≠ c → getCore t d = getCore s d) ∧
  { getCore t c with groups := (getCore s c).groups, seq := (getCore s c).seq } = getCore s c ∧
  ∀ j, j ≠ k → getGroup t c j = getGroup s c j

/-- The issuing group alone has changed, in the way given, and the cloakroom's maps follow its names: a name written or released while
it lay in the cloakroom no longer has its bit there (R65, R67). -/
def LeavesNames (s : State) (i : Iss) (t : State) (P : Group → Prop) : Prop :=
  ∃ g, getGroup t i.core i.slot = some g ∧ OnlyGroup (clearMaps s i.g g) t i.core i.slot ∧ P g

/-- What an instruction on names leaves: its results in the destination fields with their shapes, the exceptions in `FSTAT`, the
entry `n` words on, and all else as it was. -/
def WritesNames (s : State) (i : Iss) (t : State) (rels dsts : List Nat) (val : Nat → Nat → Word) (code : Nat → Nat)
    (fl : Nat → FFlags) (n : Nat) : Prop :=
  LeavesNames s i t fun g => LanesHold i g dsts val ∧ ShapesAre i g dsts code ∧ OtherNamesKept i g rels dsts ∧ GroupKept i.g g ∧
    LanesKept i g fl ∧ WentOn i g n

/-- An instruction of one result per lane, with exceptions none of which is enabled as a trap: wherever it is ready and there is
room, it completes with that result in every active lane. -/
def YieldsFlags (ins : Instr) (srcs rels : List Nat) (d : Nat) (f : Iss → Nat → Word × FFlags) : Prop :=
  ∀ s i, Ready s i (srcs ++ [d]) srcs [d] → HasRoom s i [d] → isAp i.g = false →
    (∀ l < 64, hasLane i.e.lanes l = true → (f i l).2 &&& trapEnables (laneSt i.g l).fmode = 0) →
    ∃ t, exec ins s = .next t ∧ WritesNames s i t rels [d] (fun _ l => (f i l).1)
      (fun _ => if sameMode i then stdCode i srcs else 3) (fun l => (f i l).2) 1

/-- The same instruction where some active lane's exception is enabled as a trap: it traps `FPX` with the lanes that raised one and, in
the address, their exceptions together, and has no other effect (R108). -/
def TrapsFpx (ins : Instr) (srcs : List Nat) (d : Nat) (fl : Iss → Nat → FFlags) : Prop :=
  ∀ s i, Ready s i (srcs ++ [d]) srcs [d] → isAp i.g = false →
    (∃ l < 64, hasLane i.e.lanes l = true ∧ fl i l &&& trapEnables (laneSt i.g l).fmode ≠ 0) →
    ∃ m : LaneSet, ∃ q : Nat, exec ins s = .next (trapWord s i causeFpx m q 0) ∧
      (∀ l < 64, hasLane m l = true ↔ hasLane i.e.lanes l = true ∧ fl i l &&& trapEnables (laneSt i.g l).fmode ≠ 0) ∧
      ∀ k < 5, q.testBit k = true ↔ ∃ l < 64, hasLane m l = true ∧ (fl i l).getLsbD k = true

/-- The same for an instruction without exceptions, whose result in a lane depends on the words its sources name there; `code` is
the shape code of its result under a full mask. -/
def YieldsAs (code : Iss → Nat) (ins : Instr) (srcs rels : List Nat) (d : Nat) (f : (Nat → Word) → Word) : Prop :=
  ∀ s i, Ready s i (srcs ++ [d]) srcs [d] → HasRoom s i [d] → ApUniform i srcs →
    ∃ t, exec ins s = .next t ∧ WritesNames s i t rels [d] (fun _ l => f (fieldWord i.g l)) (fun _ => code i) (fun _ => 0) 1

/-- The same where the result's shape is that of the standard rows of R56. -/
def Yields (ins : Instr) (srcs rels : List Nat) (d : Nat) (f : (Nat → Word) → Word) : Prop :=
  YieldsAs (fun i => stdCode i srcs) ins srcs rels d f

/-! ### Leaving a clause, and memory -/

/-- The 64-bit value that a field and the next one name in a lane (R115). -/
def fieldPair (g : Group) (l f : Nat) : DWord := fieldWord g l (f + 1) ++ fieldWord g l f

/-- Every active lane has left its clause: it stands, not parked, in an entry at the address given for it (R27, R29). -/
def WentTo (i : Iss) (g : Group) (target : Nat → Pc) : Prop :=
  g.active = none ∧ ∀ l < 64, hasLane i.e.lanes l = true →
    ∃ e ∈ g.frontier, e.pc = target l ∧ hasLane e.lanes l = true ∧ e.park = .none

/-- The issuing group alone has changed, in the way given. -/
def Leaves (s : State) (i : Iss) (t : State) (P : Group → Prop) : Prop :=
  OnlyGroup s t i.core i.slot ∧ ∃ g, getGroup t i.core i.slot = some g ∧ P g

/-- An instruction that leaves its clause for the targets given and writes nothing but the releases of its last reads. -/
def Branches (s : State) (i : Iss) (t : State) (rels : List Nat) (target : Nat → Pc) : Prop :=
  Leaves s i t fun g => OtherNamesKept i g rels [] ∧ GroupKept i.g g ∧ LanesKept i g (fun _ => 0) ∧ WentTo i g target

/-- The memories are as they were, but for the cloakroom's maps, which follow the names of the issuing group (R65). -/
def MemKept (s : State) (i : Iss) (t : State) : Prop :=
  ∃ g, getGroup t i.core i.slot = some g ∧ t.mem = (clearMaps s i.g g).mem ∧ t.hostMem = (clearMaps s i.g g).hostMem ∧
    t.peerMem = (clearMaps s i.g g).peerMem

/-- Nothing of a core is outstanding on the memory path: its buffers are empty, no slice holds newer bytes than the homes, and no
write is on its way to a peer. A release then waits for nothing (R162). -/
def Quiet (s : State) (c : Nat) : Prop :=
  (getCore s c).sb = [] ∧ (getCore s c).comb = [] ∧ (getCore s c).loads = [] ∧ s.peerOut = [] ∧
  ∀ n, ∀ p ∈ (getCluster s n).l2, p.2.dirty = 0

/-- Every active lane's access of `n` bytes, its address at the field given, passes all checks and leads to the place given, with
the translation at hand (R365, R400). -/
def Passes (s : State) (i : Iss) (k : AccKind) (spc : Space) (a n : Nat) (place : Nat → PLoc) : Prop :=
  ∀ l < 64, hasLane i.e.lanes l = true → checkLane s i.core i.g l k spc (addrVal i spc l a) n = (.ok (place l), s)

/-- The outcome of all checks of every active lane's access of `n` bytes is as given, with the translation at hand and in no block that
has ended. -/
def Checks (s : State) (i : Iss) (k : AccKind) (spc : Space) (a n : Nat) (chk : Nat → LaneChk) : Prop :=
  ∀ l < 64, hasLane i.e.lanes l = true →
    checkLane s i.core i.g l k spc (addrVal i spc l a) n = (chk l, s) ∧ usesGone (chk l) = false

/-- An instruction that accesses memory takes the trap of the lowest cause that a check of some lane gives, with the lanes that gave it
and the address of the lowest of them, and nothing else happens (R276). -/
def TrapsAtAccess (ins : Instr) (names reads writes : List Nat) (k : AccKind) (spc : Space) (a n : Nat) : Prop :=
  ∀ s i chk, Ready s i names reads writes → isAp i.g = false → Checks s i k spc a n chk →
    ∀ l < 64, hasLane i.e.lanes l = true → ∀ c ad ix, chk l = .trap c ad ix → c ≠ causeXlate →
      (∀ j < 64, hasLane i.e.lanes j = true → ∀ d, chkCause (chk j) = some d → c ≤ d) →
      (∀ j < l, hasLane i.e.lanes j = true → chkCause (chk j) ≠ some c) →
      ∃ m : LaneSet, exec ins s = .next (trapWord s i c m ad ix) ∧
        ∀ j < 64, hasLane m j = true ↔ hasLane i.e.lanes j = true ∧ chkCause (chk j) = some c

/-- A translation that fails at the only active lane's access: a replayable fault parks the group at the word with its record, and
another, or one without a queue for it, traps `XLATE` (R304). `u` is the state that the walk has left. -/
def FaultsAtAccess (ins : Instr) (names reads writes : List Nat) (k : AccKind) (spc : Space) (a n acc : Nat) : Prop :=
  ∀ s u i l f va, Ready s i names reads writes → isAp i.g = false → l < 64 → i.e.lanes = laneBit l →
    checkLane s i.core i.g l k spc (addrVal i spc l a) n = (.fault f va, u) →
    let r := addRecord u i.g.id.ctx.wing (xlRecord (groupRecord 0x10 0 i.core i.g l va acc) f)
    (∀ id, f.replay = true → r.1 = some id → exec ins s = .next (parkGroup r.2 i (.fault id i.e.lanes))) ∧
    (f.replay = false ∨ r.1 = none → exec ins s = .next (trapWord r.2 i causeXlate i.e.lanes va 0))

/-- All memories and what belongs to them are as they were: of the device only the cores have changed. -/
def OnlyCores (s t : State) : Prop := { t with cores := s.cores } = s

/-- The bytes that `n` bytes of consecutive names hold in a lane, lowest name first (R116). -/
def fieldBytes (g : Group) (l f n : Nat) : List Byte :=
  ((fieldsFrom f (wordsFor n)).flatMap (fun k => leBytes 4 (fieldWord g l k).toNat)).take n

/-- The entry that issues executes an instruction that acts once, with the operands of the lowest lane (R211). -/
abbrev ReadyLow (s : State) (i : Iss) (fs : List Nat) : Prop :=
  let one : Iss := { i with e := { i.e with lanes := laneBit (lowLane i.e.lanes) } }
  Issues s i ∧ badLanes one fs = 0 ∧ interlocked s one fs = false ∧ receiveWait s one fs = none ∧ toFill one fs [] = []

/-- The word and the pair that a field names in the lowest lane. -/
abbrev lowWord (i : Iss) (f : Nat) : Word := fieldWord i.g (lowLane i.e.lanes) f

abbrev lowPair (i : Iss) (f : Nat) : DWord := fieldPair i.g (lowLane i.e.lanes) f

/-- What an engine instruction leaves of its group: the lanes have executed a non-repeatable instruction, the clause's first flag
counts the operation, no name has changed its value, and the entry has gone on. -/
def Posted1 (i : Iss) (t : State) : Prop :=
  ∃ g, getGroup t i.core i.slot = some g ∧ LanesAre i g (fun _ x => { x with nonRep := true }) ∧ OtherNamesKept i g [] [] ∧
    WentOn i g 1 ∧ ∀ f, flagA i.cc = some f → flagCount g f = flagCount i.g f + 1

/-- A word of a stream's entry takes whatever is written to it (R182). -/
def EntryTakes (s : State) (x : Ctx) (st off : Nat) : Prop :=
  ∀ v : Word, ∃ u, devWrite s x (streamAddr s x st + off) (leBytes 4 v.toNat) = .ok u

/-- A `WEMIT` of the issuing entry can append the records of all its lanes, or of those of them that an earlier start left: they lie
aligned in the scratchpad, and the ring takes each of them, which leads to the state given (R208, R411). -/
def EmitsAll (s : State) (i : Iss) (sa : Reg) (u : State) : Prop :=
  ∃ st num k b c, i.g.kind = .window st num ∧ getStream s i.g.id.ctx st = some k ∧ getBlock s i.core i.g.id.blockKey = some b ∧
    k.cfg.outv = true ∧ outConfig s i.g.id.ctx st k.cfg.out = .ok c ∧ k.held = none ∧
    let a := fun l => (fieldWord i.g l sa.toNat).toNat
    let left := if i.g.wemit &&& i.e.lanes = 0 then i.e.lanes else i.g.wemit &&& i.e.lanes
    (∀ l < 64, hasLane left l = true → a l % 16 = 0 ∧ a l + c.rsize ≤ openScratch b) ∧
    emitLanes i.g.id.ctx st k.cfg.out c i.core i.g.id.blockKey a (lanesOf left) s = ([], u)

/-- The bytes at an address of a context lie in one page of device memory, which may be written, and stand from `p` on. -/
def WritableAt (s : State) (x : Ctx) (va n p : Nat) : Prop :=
  noFlat va = false ∧ va % 4096 + n ≤ 4096 ∧ ∃ e, walk s x va = .ok e ∧ e.w = true ∧ placeOf e va = ⟨.dev, p⟩

/-- What a `WEMIT` leaves that has appended all its records, `u` being the state they lead to: no lane is left over, no name has
changed its value, and the entry has gone on. -/
def EmittedAll (i : Iss) (u t : State) : Prop :=
  ∃ g, getGroup t i.core i.slot = some g ∧ g.wemit = 0 ∧ OtherNamesKept i g [] [] ∧
    LanesAre i g (fun _ x => { x with nonRep := true }) ∧ WentOn i g 1 ∧ MemKept u i t

/-! ### Translation tables (R297, R298) -/

/-- The lowest index bit of a level. -/
def lvlShift (n : Nat) : Nat := [48, 39, 30, 21, 16, 12].getD n 0

/-- The address of the entry that an address selects in a table of the level given. -/
def entryOf (va n tbl : Nat) : Nat := tbl + 8 * (va / 2 ^ lvlShift n % 2 ^ [8, 9, 9, 9, 5, 4].getD n 0)

/-- `OA` of a table entry. -/
def outAddr (e : Nat) : Nat := e / 2 ^ 12 % 2 ^ 44 * 2 ^ 12

/-- A valid entry keeps the limits of its level and stage: what is reserved is zero, levels 0 and 1 hold table entries and level 5 leaves
alone, a page's address is aligned to its size, and a target, a port and an owner stand in stage-2 leaves alone. -/
def EntryFits (stage2 : Bool) (n e : Nat) : Prop :=
  e / 2 ^ 63 % 2 = 0 ∧ e / 2 ^ 8 % 16 = 0 ∧ e / 2 ^ 6 % 2 = 0 ∧
  let port := e / 2 ^ 60 % 8
  let tgt := e / 2 ^ 58 % 4
  let own := e / 2 ^ 56 % 4
  let plain := port = 0 ∧ tgt = 0 ∧ own = 0
  if e / 2 % 2 = 1 then n ≤ 4 ∧ plain
  else 2 ≤ n ∧ outAddr e % 2 ^ lvlShift n = 0 ∧
    (if stage2 = true then tgt ≠ 3 ∧ own ≠ 3 ∧ (port ≠ 0 → tgt = 2) ∧ (own ≠ 0 → tgt = 0) else plain)

/-- Table entries lead from a root to the entry of level `n`: the tables on the way. -/
def LeadsTo (stage2 : Bool) (rd : Nat → Except XlFault Nat) (root va n : Nat) (tbls : Nat → Nat) : Prop :=
  tbls 0 = root ∧ n ≤ 5 ∧ ∀ j < n, ∃ e, rd (entryOf va j (tbls j)) = .ok e ∧ e % 2 = 1 ∧ e / 2 % 2 = 1 ∧ EntryFits stage2 j e ∧
    tbls (j + 1) = outAddr e

/-- A place in the reservation table is free and nothing waits for it. -/
def SeatFree (s : State) (n : Nat) : Prop :=
  (getCluster s n).rtReqs = [] ∧ (getCluster s n).resv.length + (getCluster s n).rtGrants.length < Config.reservationEntries

/-! ### Floating-point values (R102, R103, R107)

The number that a bit pattern stands for, and the exact value rounded once: in rationals, without the arithmetic of the machine. -/

/-- The sign of a bit pattern. -/
def signOf (f : FloatFmt) (b : Nat) : Bool := b / 2 ^ (fmtWidth f - 1) % 2 == 1

/-- The bits below the sign, with a subnormal as zero under `FTZI` (R107). -/
def magOf (f : FloatFmt) (ftzi : Bool) (b : Nat) : Nat :=
  let m := b % 2 ^ (fmtWidth f - 1)
  if ftzi && decide (m < 2 ^ fmtFracBits f) then 0 else m

/-- The patterns that are NaN: of E4M3 `S.1111.111` alone, of E2M1 none (R102). -/
def isNanBits (f : FloatFmt) (b : Nat) : Bool :=
  if fmtSpecials f then decide (fmtInfBits f < magOf f false b) else f == .e4m3 && magOf f false b == 0x7F

def isInfBits (f : FloatFmt) (b : Nat) : Bool := fmtSpecials f && magOf f false b == fmtInfBits f

/-- A NaN whose quiet bit is clear; the NaN of E4M3 has none and counts as quiet (R103). -/
def isSnanBits (f : FloatFmt) (b : Nat) : Bool :=
  isNanBits f b && f != .e4m3 && magOf f false b / 2 ^ (fmtFracBits f - 1) % 2 == 0

/-- The magnitude that the bits below a sign stand for (R102), as if the exponent went on beyond the largest finite value. -/
def magVal (f : FloatFmt) (mag : Nat) : ℚ :=
  let ex := mag / 2 ^ fmtFracBits f
  let frac : ℚ := (mag % 2 ^ fmtFracBits f : Nat) / 2 ^ fmtFracBits f
  if ex = 0 then frac * 2 ^ (1 - (fmtBias f : Int)) else (1 + frac) * 2 ^ ((ex : Int) - fmtBias f)

/-- The finite number of a pattern. -/
def numVal (f : FloatFmt) (ftzi : Bool) (b : Nat) : ℚ :=
  if signOf f b then -magVal f (magOf f ftzi b) else magVal f (magOf f ftzi b)

/-- A rounding mode that takes a value of the sign given towards zero (R105). -/
def towardsZero (rm : Rm) (neg : Bool) : Bool := rm == .rz || (rm == .ru && neg) || (rm == .rd && !neg)

/-- The positive value `x` of a sign rounds to the magnitude `mag`, the exponent unbounded above: to the nearest, a tie to the even
one; or to the next towards zero, or away from it. -/
def RoundsTo (f : FloatFmt) (rm : Rm) (neg : Bool) (x : ℚ) (mag : Nat) : Prop :=
  if rm = .rne then
    (2 * x ≤ magVal f mag + magVal f (mag + 1) ∧ (2 * x = magVal f mag + magVal f (mag + 1) → mag % 2 = 0)) ∧
    (mag ≠ 0 → magVal f (mag - 1) + magVal f mag ≤ 2 * x ∧ (magVal f (mag - 1) + magVal f mag = 2 * x → mag % 2 = 0))
  else if towardsZero rm neg = true then magVal f mag ≤ x ∧ x < magVal f (mag + 1)
  else mag ≠ 0 ∧ magVal f (mag - 1) < x ∧ x ≤ magVal f mag

/-- Tininess after rounding (R107): rounded with an exponent unbounded below as well, `x` stays under the smallest normal number. The
numbers next below that one are then half the smallest subnormal apart. -/
def TinyRounded (f : FloatFmt) (rm : Rm) (neg : Bool) (x : ℚ) : Prop :=
  let least := magVal f (2 ^ fmtFracBits f)
  let gap := magVal f 1 / 2
  if rm = .rne then x < least - gap / 2 else if towardsZero rm neg = true then x < least else x ≤ least - gap

/-- A result and its flags are the exact value of a sign and the magnitude `x` rounded once (R103, R107): a tiny one is a zero under
`FTZO`, and one beyond the largest finite number an infinity where the format has one and the mode does not take it towards zero. -/
def RoundedOnce (f : FloatFmt) (md : FMode) (neg : Bool) (x : ℚ) (r : Nat × FFlags) : Prop :=
  ∃ mag, RoundsTo f md.rm neg x mag ∧
    (TinyRounded f md.rm neg x → md.ftzo = true → r = (signBit f neg, flagUnf ||| flagInx)) ∧
    (¬(TinyRounded f md.rm neg x ∧ md.ftzo = true) →
      (mag ≤ fmtMaxBits f → r.1 = signBit f neg + mag ∧
        (r.2 = flagNone ∧ magVal f mag = x ∨ magVal f mag ≠ x ∧
          (TinyRounded f md.rm neg x ∧ r.2 = flagUnf ||| flagInx ∨ ¬TinyRounded f md.rm neg x ∧ r.2 = flagInx))) ∧
      (fmtMaxBits f < mag → r.2 = flagOvf ||| flagInx ∧
        r.1 = signBit f neg + (if fmtSpecials f = true ∧ towardsZero md.rm neg = false then fmtInfBits f else fmtMaxBits f)))

/-- The exact value rounded once; an exact zero has the sign given. -/
def RoundedSigned (f : FloatFmt) (md : FMode) (zeroNeg : Bool) (v : ℚ) (r : Nat × FFlags) : Prop :=
  (v = 0 → r = (signBit f zeroNeg, flagNone)) ∧ (v ≠ 0 → RoundedOnce f md (decide (v < 0)) |v| r)

/-- A NaN operand or an invalid operation decides the result (R107, R344). -/
def NanDecides (f : FloatFmt) (md : FMode) (invalid : Bool) (ops : List Nat) (r : Nat × FFlags) : Prop :=
  (ops.any (isSnanBits f) = true ∨ invalid = true → r = (fmtCanon f, flagInv)) ∧
  (ops.any (isSnanBits f) = false → invalid = false → ∀ b, ops.find? (isNanBits f) = some b →
    r = (if md.cnan then fmtCanon f else b % 2 ^ fmtWidth f, flagNone))

/-- No operand is a NaN and the operation is not invalid. -/
def NoNan (f : FloatFmt) (invalid : Bool) (ops : List Nat) : Prop := ops.any (isNanBits f) = false ∧ invalid = false

/-- An operand that is a zero, as one flushed by `FTZI` is. -/
def isZeroBits (f : FloatFmt) (md : FMode) (b : Nat) : Bool := magOf f md.ftzi b == 0

/-- 0 × ∞. -/
def zeroByInf (f : FloatFmt) (md : FMode) (a b : Nat) : Bool :=
  isInfBits f a && isZeroBits f md b || isInfBits f b && isZeroBits f md a

/-- The sum of `a` and `b`, the second with the sign given (R344). -/
def SumRounded (f : FloatFmt) (md : FMode) (a b : Nat) (bneg : Bool) (r : Nat × FFlags) : Prop :=
  let invalid := isInfBits f a && isInfBits f b && signOf f a != bneg
  NanDecides f md invalid [a, b] r ∧
  (NoNan f invalid [a, b] →
    (isInfBits f a = true → r = (signBit f (signOf f a) + fmtInfBits f, flagNone)) ∧
    (isInfBits f b = true → r = (signBit f bneg + fmtInfBits f, flagNone)) ∧
    (isInfBits f a = false → isInfBits f b = false →
      RoundedSigned f md (if signOf f a = bneg then bneg else md.rm == .rd)
        (numVal f md.ftzi a + (if bneg then -magVal f (magOf f md.ftzi b) else magVal f (magOf f md.ftzi b))) r))

/-- The product of `a` and `b` (R344). -/
def ProductRounded (f : FloatFmt) (md : FMode) (a b : Nat) (r : Nat × FFlags) : Prop :=
  let neg := signOf f a != signOf f b
  NanDecides f md (zeroByInf f md a b) [a, b] r ∧
  (NoNan f (zeroByInf f md a b) [a, b] →
    ((isInfBits f a || isInfBits f b) = true → r = (signBit f neg + fmtInfBits f, flagNone)) ∧
    ((isInfBits f a || isInfBits f b) = false → RoundedSigned f md neg (numVal f md.ftzi a * numVal f md.ftzi b) r))

/-- The product of `a` and `b` with `c` added, rounded once (R344). -/
def FusedRounded (f : FloatFmt) (md : FMode) (a b c : Nat) (r : Nat × FFlags) : Prop :=
  let neg := signOf f a != signOf f b
  let inf := isInfBits f a || isInfBits f b
  NanDecides f md (zeroByInf f md a b) [a, b, c] r ∧
  (NoNan f (zeroByInf f md a b) [a, b, c] →
    (inf = true → isInfBits f c = true → neg ≠ signOf f c → r = (fmtCanon f, flagInv)) ∧
    (inf = true → isInfBits f c = false ∨ neg = signOf f c → r = (signBit f neg + fmtInfBits f, flagNone)) ∧
    (inf = false → isInfBits f c = true → r = (signBit f (signOf f c) + fmtInfBits f, flagNone)) ∧
    (inf = false → isInfBits f c = false →
      RoundedSigned f md (if neg = signOf f c then neg else md.rm == .rd)
        (numVal f md.ftzi a * numVal f md.ftzi b + numVal f md.ftzi c) r))

/-- The order of data that are not NaN: by value, an infinity beyond every number, and -0 below +0 where `zeros` says so. -/
def orderKey (f : FloatFmt) (ftzi zeros : Bool) (b : Nat) : Int :=
  if signOf f b then -(magOf f ftzi b : Int) - (if zeros then 1 else 0) else magOf f ftzi b

/-- An operand after `FTZI`, as bits. -/
def flushedBits (f : FloatFmt) (ftzi : Bool) (b : Nat) : Nat := signBit f (signOf f b) + magOf f ftzi b

/-- A rational rounded to an integer (R105). -/
def RoundsToInt (rm : Rm) (x : ℚ) (y : Int) : Prop :=
  match rm with
  | .rne => |2 * (x - y)| ≤ 1 ∧ (|2 * (x - y)| = 1 → y % 2 = 0)
  | .rz => |(y : ℚ)| ≤ |x| ∧ |x| < |(y : ℚ)| + 1 ∧ 0 ≤ x * y
  | .ru => (y : ℚ) - 1 < x ∧ x ≤ y
  | .rd => (y : ℚ) ≤ x ∧ x < y + 1

/-! ### The memories -/

/-- The memories of the device and of its surroundings are in canonical form. -/
def MemoriesWf (s : State) : Prop :=
  Memory.wf s.mem = true ∧ Memory.wf s.dram = true ∧ Memory.wf s.hostMem = true ∧ ∀ p, Memory.wf (sget [] s.peerMem p) = true

end Sys2Proof.Machine
end

