-- ==== Sys2Proof/Certificates/Slice0/Obligations.lean ====
section
/-!
DEFINITION. The statements, from the numbered rules of spec/. The terms they share stand in Sys2Proof/Safety.lean.
-/

open Sys2Proof Sys2Proof.Machine

/-! ### Encoding -/

/-- O1. Decoding what the encoder writes gives the instruction back, with every operand at every value its encoding admits, and
leaves the bytes after it. -/
def Obligations.DecodeOfEncodeIsTheInstruction : Prop :=
  ∀ i : Instr, i.isCode = true → i.wf = true → ∀ rest : List Byte, decode (encodeBytes i ++ rest) = .ok (i, rest)

/-- O2. Whatever the decoder accepts is a well-formed code word, and encoding it gives the word back: every word has one meaning,
and every bit of it is either a field of the instruction or reserved (R95). -/
def Obligations.EveryDecodedWordHasOneEncoding : Prop :=
  ∀ (w : Word) (lit : Option Word) (i : Instr), decodeWord w lit = .ok i →
    i.isCode = true ∧ i.wf = true ∧ (encode i).head? = some w ∧ (encode i).length = i.words

/-- O3. Words written out from the spec's encodings, one of each format, decode to the instructions they stand for. -/
def Obligations.SampleWordsDecode : Prop :=
  -- MOVL v10, 0x1000 (R88)
  decodeWord 0xA400000A (some 0x1000) = .ok (.movl 0x1000 10) ∧
  -- TNEW a2 (R217)
  decodeWord 0xE4000002 none = .ok (.tnew 2) ∧
  -- IADD.SAT v3, v1^, v2: OP 0x10, MOD 1, LRA 1, SB 2, SA 1, D 3 (R86)
  decodeWord (BitVec.ofNat 32 (0x10 * 2 ^ 25 + 1 * 2 ^ 23 + 1 * 2 ^ 21 + 2 * 2 ^ 14 + 1 * 2 ^ 7 + 3)) none =
    .ok (.iadd .sat ⟨false, true, 2, 1, 3⟩) ∧
  -- BRC v5, -2: OP 0x02, C 5, a word offset of −2 in 17 bits (R91)
  decodeWord (BitVec.ofNat 32 (0x02 * 2 ^ 25 + 5 * 2 ^ 17 + (2 ^ 17 - 2))) none = .ok (.brc false 5 (BitVec.ofInt 17 (-2))) ∧
  -- LD.4 v6, [v4] in the local scratchpad: OP 0x60, W 2, SPC 1 (R89)
  decodeWord (BitVec.ofNat 32 (0x60 * 2 ^ 25 + 2 * 2 ^ 22 + 1 * 2 ^ 14 + 4 * 2 ^ 7 + 6)) none =
    .ok (.ld .b4 0 false ⟨false, .loc, 4, 6⟩) ∧
  -- a reserved MOD of IADD, and a reserved bit of RET (R95)
  decodeWord (BitVec.ofNat 32 (0x10 * 2 ^ 25 + 3 * 2 ^ 23)) none = .error .reservedValue ∧
  decodeWord (BitVec.ofNat 32 (0x05 * 2 ^ 25 + 1)) none = .error .reservedField

/-- O4. The header fields: what the encoder of headers writes is read back, and a word that is read as a header is what the encoder
writes (R79). -/
def Obligations.HeadersRoundTrip : Prop :=
  (∀ h : Header, h.len ≠ 0 → (∀ k, h.seta = some k → k.toNat < 12) → (∀ k, h.setb = some k → k.toNat < 12) →
    decodeHeader (encodeHeader h) = some h) ∧
  ∀ w h, decodeHeader w = some h → encodeHeader h = w

/-- O5. The reserved combinations of `LD`, `ST`, `LDA`, `STL`, `PRES`, `MMA` and `RED` are illegal at decode (R364, R368, R373, R377,
R381, R402): of the fields of the word, of the two operand types of `MMA` (R212), and of an `MMA` with the header of its clause, where the
clause's decode ends at that word. -/
def Obligations.ReservedCombinationsAreIllegal : Prop :=
  -- LD and ST: a width of 5 to 7, a space of 4 to 15, a hint outside flat space, EP 3 with LU
  (∀ w : Word, fld w.toNat 25 7 = 0x60 ∨ fld w.toNat 25 7 = 0x61 →
    (5 ≤ fld w.toNat 22 3 ∨ 4 ≤ fld w.toNat 14 4 ∨
      (fld w.toNat 20 2 ≠ 0 ∨ fld w.toNat 19 1 = 1) ∧ fld w.toNat 14 4 ≠ 0 ∨
      fld w.toNat 20 2 = 3 ∧ fld w.toNat 19 1 = 1) →
    ∀ lit i, decodeWord w lit ≠ .ok i) ∧
  -- LDA and STL: a width other than 2 and 3, a scope of 5 to 7, a space of 4 to 15
  (∀ w : Word, fld w.toNat 25 7 = 0x62 ∨ fld w.toNat 25 7 = 0x63 →
    (fld w.toNat 22 3 ≠ 2 ∧ fld w.toNat 22 3 ≠ 3 ∨ 5 ≤ fld w.toNat 19 3 ∨ 4 ≤ fld w.toNat 14 4) →
    ∀ lit i, decodeWord w lit ≠ .ok i) ∧
  -- PRES: a width, scope or hint other than zero, a space of 4 to 15
  (∀ w : Word, fld w.toNat 25 7 = 0x69 → (fld w.toNat 19 6 ≠ 0 ∨ 4 ≤ fld w.toNat 14 4) → ∀ lit i, decodeWord w lit ≠ .ok i) ∧
  -- MMA: a type code of 5 to 7, SB[0], D[4:3] without D[6], D[5] without SA[0]
  (∀ w : Word, fld w.toNat 25 7 = 0x71 →
    (5 ≤ fld w.toNat 8 3 ∨ 5 ≤ fld w.toNat 15 3 ∨ fld w.toNat 14 1 = 1 ∨ fld w.toNat 3 2 ≠ 0 ∧ fld w.toNat 6 1 = 0 ∨
      fld w.toNat 5 1 = 1 ∧ fld w.toNat 7 1 = 0) →
    ∀ lit i, decodeWord w lit ≠ .ok i) ∧
  -- MMA: a pair of types other than the FP8 types in any mixture and a type with itself
  (∀ w : Word, fld w.toNat 25 7 = 0x71 →
    ¬((fld w.toNat 8 3 ≤ 1 ∧ fld w.toNat 15 3 ≤ 1) ∨ fld w.toNat 8 3 = fld w.toNat 15 3) →
    ∀ lit i, decodeWord w lit ≠ .ok i) ∧
  -- MMA in a clause whose SETA is 0xF, wherever it stands there
  (∀ ap h n pc w ws m, h.seta = none → (∀ lit, decodeWord w lit = .ok (.mma m)) →
    decodeClause ap h (n + 1) pc (some w :: ws) = .error (pc, w)) ∧
  -- RED: AOP 8, 9 and 13 to 15, D[3], a scope of 5 to 7, a control bit with an integer AOP
  ∀ w : Word, fld w.toNat 25 7 = 0x66 →
    (fld w.toNat 21 4 = 8 ∨ fld w.toNat 21 4 = 9 ∨ 13 ≤ fld w.toNat 21 4 ∨ fld w.toNat 3 1 = 1 ∨ 5 ≤ fld w.toNat 4 3 ∨
      fld w.toNat 0 3 ≠ 0 ∧ fld w.toNat 21 4 ≤ 7) →
    ∀ lit i, decodeWord w lit ≠ .ok i

/-! ### Steps -/

/-- O6. A step runs the decoded instruction. With no turn listed and a clause in progress at the focus, the word that stands at the
entry's program counter is fetched, and the step is `exec` of the instruction it decodes to, in the state that the fetch leaves (a
translation may have entered a cache, and the core keeps the word); a literal word is fetched with a two-word instruction. The entry
keeps its place unless another ranks above it before its clause has begun (R32), and first merges with an entry that has come to stand
where it does (R29); a word that the decode of the clause could not fetch is looked at again, and must be legal where it stands (R28,
R26). A turn that names a slot which may issue takes up its group first, a turn that names an event executes that event, and at a
clause boundary the slot picks. The focus is on the slot that its side issues from: where the side changes to another group (R40; the
model's choice of when is log entry 32), the step is that of the state in which it has. What is fetched is what the core keeps, else
what its home holds (the model's choice of when the core drops a word is log entry 15). -/
def Obligations.StepRunsTheDecodedInstruction : Prop :=
  (∀ s i w ins, s.turns = [] → s.stopped = false → focusTurn s = s → issuer s = some i → i.g.gpark = .none → i.g.halt = .run →
    meets i = false → keepsPlace s i = true →
    let v := seeClause s i
    let f := fetchWord v.1 v.2.core v.2.g.id.ctx v.2.e.pc
    f.1 = .word w → decodeWord w (some 0) = .ok ins → legalWord v.2 ins = true → ins.words = 1 → step s = exec ins f.2) ∧
  (∀ s i w l ins, s.turns = [] → s.stopped = false → focusTurn s = s → issuer s = some i → i.g.gpark = .none → i.g.halt = .run →
    meets i = false → keepsPlace s i = true →
    let v := seeClause s i
    let f := fetchWord v.1 v.2.core v.2.g.id.ctx v.2.e.pc
    let q := fetchWord f.2 v.2.core v.2.g.id.ctx (v.2.e.pc + 4)
    f.1 = .word w → decodeWord w (some l) = .ok ins → legalWord v.2 ins = true → ins.words = 2 → q.1 = .word l →
    step s = exec ins q.2) ∧
  -- the clause is looked at again only where its decode has missed a word; a word that the decode has seen is legal where it stands
  (∀ s i ins, i.cc.unseen = false → seeClause s i = (s, i) ∧ legalWord i ins = true) ∧
  -- looking again changes no more than which lanes help
  (∀ s i, (seeClause s i).2.e.pc = i.e.pc ∧ (seeClause s i).2.e.lanes = i.e.lanes ∧ (seeClause s i).2.cc.hdr = i.cc.hdr ∧
    (seeClause s i).2.cc.word = i.cc.word ∧ OnlyGroup s (seeClause s i).1 i.core i.slot) ∧
  -- an entry that has begun its clause keeps its place, and one that has not does where none is eligible before it
  (∀ s i, i.cc.begun = true ∨ selectEntry (pickable s i.core i.g) = none → keepsPlace s i = true) ∧
  -- an entry that meets another merges with it before it issues
  (∀ s i, s.turns = [] → s.stopped = false → focusTurn s = s → issuer s = some i → i.g.gpark = .none → i.g.halt = .run →
    meets i = true → step s = .next (joinActive s i)) ∧
  -- the focus: of the access processor, and of a side: where it has no group to issue, where it goes on with the one at the focus, and where it goes over to another
  (∀ s, 64 ≤ s.focusSlot → focusTurn s = s) ∧
  (∀ s, s.focusSlot < 64 →
    let side := decide (32 ≤ s.focusSlot)
    let next := (sideTurn s s.focusCore side).or (sideSlot (getCore s s.focusCore) side)
    (next = none → focusTurn s = s) ∧
    (next = some s.focusSlot → sideSlot (getCore s s.focusCore) side = some s.focusSlot → focusTurn s = s) ∧
    ∀ k, next = some k → k ≠ s.focusSlot ∨ sideSlot (getCore s s.focusCore) side ≠ some k → focusTurn s = takeSide s s.focusCore k) ∧
  (∀ s, s.turns = [] → focusTurn (focusTurn s) = focusTurn s → step s = step (focusTurn s)) ∧
  -- the bytes fetched are those of memory, lowest address first, where the core keeps no word of the place
  (∀ s c x (pc : Pc) e, apertureAddr pc.toNat = false → tlbLookup s c x pc.toNat = some e → rightsOk e rightsFetch = true →
    peerDown s (placeOf e pc.toNat) = false →
    (∀ w, fget (getCore s c).code (locKey (placeOf e pc.toNat)) = some w → (fetchWord s c x pc).1 = .word w) ∧
    (fget (getCore s c).code (locKey (placeOf e pc.toNat)) = none → poisonIn s (placeOf e pc.toNat) 4 = none →
      (fetchWord s c x pc).1 = .word (BitVec.ofNat 32 (leNat (homeRead s (placeOf e pc.toNat) 4))))) ∧
  (∀ s g, s.turns = [] → s.stopped = false → focusTurn s = s → getGroup s s.focusCore s.focusSlot = some g → g.gpark = .none →
    g.halt = .run → g.active = none → step s = exec (.pick s.focusCore s.focusSlot) s) ∧
  (∀ s g c k ts, s.turns = .issue c k :: ts → s.stopped = false → getGroup s c k = some g → g.gpark = .none → g.halt = .run →
    g.active = none →
    step s = if mayIssue { s with turns := ts } c k then exec (.pick c k) (takeSide { s with turns := ts } c k)
      else .next { s with turns := ts }) ∧
  ∀ s i ts, s.turns = .event i :: ts → i.isCode = false → step s = exec i { s with turns := ts }

/-! ### Integer instructions -/

/-- O7. R357: sums, differences and products in each lane, wrapped, clamped or high, with the shapes of R56; the reserved `MOD` values
are illegal. That `IMAD` of two uniform factors and an affine addend gives a general result (`madCode`) is the model's reading of R56
(log entry 22, DEDUCED). -/
def Obligations.IntegerArithmeticResults : Prop :=
  (∀ r : R3, YieldsAs (fun i => addCode false (fieldVal i r.sa.toNat) (fieldVal i r.sb.toNat)) (.iadd .wrap r) (srcs3 r) (rels3 r)
    r.d.toNat (fun v => v r.sa.toNat + v r.sb.toNat)) ∧
  (∀ r : R3, Yields (.iadd .sat r) (srcs3 r) (rels3 r) r.d.toNat (fun v =>
    BitVec.ofInt 32 (max (-2 ^ 31) (min (2 ^ 31 - 1) ((v r.sa.toNat).toInt + (v r.sb.toNat).toInt))))) ∧
  (∀ r : R3, Yields (.iadd .satu r) (srcs3 r) (rels3 r) r.d.toNat (fun v =>
    BitVec.ofNat 32 (min (2 ^ 32 - 1) ((v r.sa.toNat).toNat + (v r.sb.toNat).toNat)))) ∧
  (∀ r : R3, YieldsAs (fun i => addCode true (fieldVal i r.sa.toNat) (fieldVal i r.sb.toNat)) (.isub .wrap r) (srcs3 r) (rels3 r)
    r.d.toNat (fun v => v r.sa.toNat - v r.sb.toNat)) ∧
  (∀ r : R3, Yields (.isub .sat r) (srcs3 r) (rels3 r) r.d.toNat (fun v =>
    BitVec.ofInt 32 (max (-2 ^ 31) (min (2 ^ 31 - 1) ((v r.sa.toNat).toInt - (v r.sb.toNat).toInt))))) ∧
  (∀ r : R3, Yields (.isub .satu r) (srcs3 r) (rels3 r) r.d.toNat (fun v =>
    BitVec.ofNat 32 ((v r.sa.toNat).toNat - (v r.sb.toNat).toNat))) ∧
  (∀ r : R3, YieldsAs (fun i => mulCode (fieldVal i r.sa.toNat) (fieldVal i r.sb.toNat)) (.imul .lo r) (srcs3 r) (rels3 r)
    r.d.toNat (fun v => v r.sa.toNat * v r.sb.toNat)) ∧
  (∀ r : R3, Yields (.imul .hi r) (srcs3 r) (rels3 r) r.d.toNat (fun v =>
    BitVec.ofInt 32 ((v r.sa.toNat).toInt * (v r.sb.toNat).toInt / 2 ^ 32))) ∧
  (∀ r : R3, Yields (.imul .hiu r) (srcs3 r) (rels3 r) r.d.toNat (fun v =>
    BitVec.ofNat 32 ((v r.sa.toNat).toNat * (v r.sb.toNat).toNat / 2 ^ 32))) ∧
  (∀ r : R3, YieldsAs (fun i => madCode (fieldVal i r.sa.toNat) (fieldVal i r.sb.toNat) (fieldVal i r.d.toNat)) (.imad r)
    (srcs3 r ++ [r.d.toNat]) (rels3 r) r.d.toNat (fun v => v r.sa.toNat * v r.sb.toNat + v r.d.toNat)) ∧
  (∀ (imm : BitVec 10) (r : R2), YieldsAs (fun i => addCode false (fieldVal i r.sa.toNat) (.uniform (imm.signExtend 32)))
    (.iaddi imm r) [r.sa.toNat] (rels2 r) r.d.toNat (fun v => v r.sa.toNat + imm.signExtend 32)) ∧
  ∀ w : Word, (fld w.toNat 25 7 = 0x10 ∨ fld w.toNat 25 7 = 0x11 ∨ fld w.toNat 25 7 = 0x12) ∧ fld w.toNat 23 2 = 3 ∨
    fld w.toNat 25 7 = 0x13 ∧ fld w.toNat 23 2 ≠ 0 → ∀ lit i, decodeWord w lit ≠ .ok i

/-- O8. R361: shifts by the full 32-bit count, never taken modulo 32; a left shift of an affine value by a uniform count keeps a
stride. -/
def Obligations.ShiftsUseTheFullCount : Prop :=
  (∀ r : R3, YieldsAs (fun i => shlCode (fieldVal i r.sa.toNat) (uniformVal (fieldVal i r.sb.toNat))) (.ishl r) (srcs3 r) (rels3 r)
    r.d.toNat (fun v => if 32 ≤ (v r.sb.toNat).toNat then 0 else v r.sa.toNat <<< (v r.sb.toNat).toNat)) ∧
  (∀ r : R3, Yields (.ishr false r) (srcs3 r) (rels3 r) r.d.toNat (fun v =>
    if 32 ≤ (v r.sb.toNat).toNat then 0 else v r.sa.toNat >>> (v r.sb.toNat).toNat)) ∧
  (∀ r : R3, Yields (.ishr true r) (srcs3 r) (rels3 r) r.d.toNat (fun v =>
    if 32 ≤ (v r.sb.toNat).toNat then (if (v r.sa.toNat).msb then 0xFFFFFFFF else 0)
    else (v r.sa.toNat).sshiftRight (v r.sb.toNat).toNat)) ∧
  (∀ (n : BitVec 5) (r : R2), YieldsAs (fun i => shlCode (fieldVal i r.sa.toNat) (some (n.setWidth 32))) (.ishli n r) [r.sa.toNat]
    (rels2 r) r.d.toNat (fun v => v r.sa.toNat <<< n.toNat)) ∧
  (∀ (n : BitVec 5) (r : R2), Yields (.ishri n r) [r.sa.toNat] (rels2 r) r.d.toNat (fun v => v r.sa.toNat >>> n.toNat)) ∧
  ∀ (n : BitVec 5) (r : R2), Yields (.isari n r) [r.sa.toNat] (rels2 r) r.d.toNat (fun v => (v r.sa.toNat).sshiftRight n.toNat)

/-- O9. R358: AND, OR and exclusive OR of two words, and AND with an immediate, in each lane; the reserved `MOD` values are illegal. -/
def Obligations.BitwiseResults : Prop :=
  (∀ r : R3, Yields (.iand r) (srcs3 r) (rels3 r) r.d.toNat (fun v => v r.sa.toNat &&& v r.sb.toNat)) ∧
  (∀ r : R3, Yields (.ior r) (srcs3 r) (rels3 r) r.d.toNat (fun v => v r.sa.toNat ||| v r.sb.toNat)) ∧
  (∀ r : R3, Yields (.ixor r) (srcs3 r) (rels3 r) r.d.toNat (fun v => v r.sa.toNat ^^^ v r.sb.toNat)) ∧
  (∀ (imm : BitVec 10) (r : R2), Yields (.iandi imm r) [r.sa.toNat] (rels2 r) r.d.toNat
    (fun v => v r.sa.toNat &&& imm.setWidth 32)) ∧
  -- MOD 1 to 3 are reserved
  ∀ w : Word, fld w.toNat 25 7 = 0x16 ∨ fld w.toNat 25 7 = 0x17 ∨ fld w.toNat 25 7 = 0x18 → fld w.toNat 23 2 ≠ 0 →
    ∀ lit i, decodeWord w lit ≠ .ok i

/-- O10. R359, R360: comparisons as int32 and uint32 give 1 or 0, and the smaller and the larger of two words. -/
def Obligations.ComparisonAndExtremaResults : Prop :=
  (∀ r : R3, Yields (.icmp .eq r) (srcs3 r) (rels3 r) r.d.toNat (fun v => if v r.sa.toNat = v r.sb.toNat then 1 else 0)) ∧
  (∀ r : R3, Yields (.icmp .ne r) (srcs3 r) (rels3 r) r.d.toNat (fun v => if v r.sa.toNat = v r.sb.toNat then 0 else 1)) ∧
  (∀ r : R3, Yields (.icmp .lt r) (srcs3 r) (rels3 r) r.d.toNat
    (fun v => if (v r.sa.toNat).toInt < (v r.sb.toNat).toInt then 1 else 0)) ∧
  (∀ r : R3, Yields (.icmp .le r) (srcs3 r) (rels3 r) r.d.toNat
    (fun v => if (v r.sa.toNat).toInt ≤ (v r.sb.toNat).toInt then 1 else 0)) ∧
  (∀ r : R3, Yields (.icmpu .eq r) (srcs3 r) (rels3 r) r.d.toNat (fun v => if v r.sa.toNat = v r.sb.toNat then 1 else 0)) ∧
  (∀ r : R3, Yields (.icmpu .ne r) (srcs3 r) (rels3 r) r.d.toNat (fun v => if v r.sa.toNat = v r.sb.toNat then 0 else 1)) ∧
  (∀ r : R3, Yields (.icmpu .lt r) (srcs3 r) (rels3 r) r.d.toNat
    (fun v => if (v r.sa.toNat).toNat < (v r.sb.toNat).toNat then 1 else 0)) ∧
  (∀ r : R3, Yields (.icmpu .le r) (srcs3 r) (rels3 r) r.d.toNat
    (fun v => if (v r.sa.toNat).toNat ≤ (v r.sb.toNat).toNat then 1 else 0)) ∧
  (∀ r : R3, Yields (.imin false r) (srcs3 r) (rels3 r) r.d.toNat
    (fun v => BitVec.ofInt 32 (min (v r.sa.toNat).toInt (v r.sb.toNat).toInt))) ∧
  (∀ r : R3, Yields (.imin true r) (srcs3 r) (rels3 r) r.d.toNat
    (fun v => BitVec.ofNat 32 (min (v r.sa.toNat).toNat (v r.sb.toNat).toNat))) ∧
  (∀ r : R3, Yields (.imax false r) (srcs3 r) (rels3 r) r.d.toNat
    (fun v => BitVec.ofInt 32 (max (v r.sa.toNat).toInt (v r.sb.toNat).toInt))) ∧
  ∀ r : R3, Yields (.imax true r) (srcs3 r) (rels3 r) r.d.toNat
    (fun v => BitVec.ofNat 32 (max (v r.sa.toNat).toNat (v r.sb.toNat).toNat))

/-- O11. R333, R336, R394: bit counts, bit fields with a length clamped at bit 31, and the choice between two consecutive names. -/
def Obligations.BitFieldAndSelectResults : Prop :=
  -- the number of set bits, and of zero bits above the highest set bit
  (∀ r : R2, Yields (.popc r) [r.sa.toNat] (rels2 r) r.d.toNat
    (fun v => BitVec.ofNat 32 ((List.range 32).filter (fun k => (v r.sa.toNat).getLsbD k)).length)) ∧
  (∀ r : R2, Yields (.clz r) [r.sa.toNat] (rels2 r) r.d.toNat
    (fun v => BitVec.ofNat 32 ((List.range 32).filter (fun k => v r.sa.toNat >>> k == 0)).length)) ∧
  -- BFE and BFI: position p in bits [4:0] of SB, length in bits [13:8], clamped at bit 31
  (∀ r : R3, Yields (.bfe false r) (srcs3 r) (rels3 r) r.d.toNat (fun v =>
    let p := (v r.sb.toNat).toNat % 32
    let n := min ((v r.sb.toNat).toNat / 256 % 64) (32 - p)
    BitVec.ofNat 32 ((v r.sa.toNat).toNat / 2 ^ p % 2 ^ n))) ∧
  (∀ r : R3, Yields (.bfe true r) (srcs3 r) (rels3 r) r.d.toNat (fun v =>
    let p := (v r.sb.toNat).toNat % 32
    let n := min ((v r.sb.toNat).toNat / 256 % 64) (32 - p)
    if n = 0 then 0 else (BitVec.ofNat n ((v r.sa.toNat).toNat / 2 ^ p)).signExtend 32)) ∧
  (∀ r : R3, Yields (.bfi r) (srcs3 r ++ [r.d.toNat]) (rels3 r) r.d.toNat (fun v =>
    let p := (v r.sb.toNat).toNat % 32
    let n := min ((v r.sb.toNat).toNat / 256 % 64) (32 - p)
    let m : Word := if n = 0 then 0 else (0xFFFFFFFF >>> (32 - n)) <<< p
    (v r.d.toNat &&& ~~~m) ||| ((v r.sa.toNat <<< p) &&& m))) ∧
  (∀ r : R3, Yields (.sel r) [r.sa.toNat, r.sa.toNat + 1, r.sb.toNat]
    ((if r.lra then [r.sa.toNat, r.sa.toNat + 1] else []) ++ (if r.lrb then [r.sb.toNat] else [])) r.d.toNat
    (fun v => if v r.sb.toNat ≠ 0 then v r.sa.toNat else v (r.sa.toNat + 1))) ∧
  -- the reserved fields
  ∀ w : Word, fld w.toNat 25 7 = 0x1D ∧ 2 ≤ fld w.toNat 23 2 ∨ (fld w.toNat 25 7 = 0x1E ∨ fld w.toNat 25 7 = 0x21) ∧ fld w.toNat 23 2 ≠ 0 ∨
    (fld w.toNat 25 7 = 0x1B ∨ fld w.toNat 25 7 = 0x1C) ∧ (fld w.toNat 23 2 ≠ 0 ∨ fld w.toNat 14 7 ≠ 0 ∨ fld w.toNat 22 1 ≠ 0) →
    ∀ lit i, decodeWord w lit ≠ .ok i

/-! ### Floating point -/

/-- O12. R344, R345: sums, differences, products, fused products, extrema and comparisons in each lane's own mode, with their
exceptions added to that lane's `FSTAT`, wherever no exception is enabled as a trap. -/
def Obligations.FloatArithmeticResults : Prop :=
  (∀ r : R3, YieldsFlags (.fadd r) (srcs3 r) (rels3 r) r.d.toNat (fun i l =>
    let x := opAdd .f32 (laneMode i l) (fieldWord i.g l r.sa.toNat).toNat (fieldWord i.g l r.sb.toNat).toNat
    (BitVec.ofNat 32 x.1, x.2))) ∧
  (∀ r : R3, YieldsFlags (.fsub r) (srcs3 r) (rels3 r) r.d.toNat (fun i l =>
    let x := opSub .f32 (laneMode i l) (fieldWord i.g l r.sa.toNat).toNat (fieldWord i.g l r.sb.toNat).toNat
    (BitVec.ofNat 32 x.1, x.2))) ∧
  (∀ r : R3, YieldsFlags (.fmul r) (srcs3 r) (rels3 r) r.d.toNat (fun i l =>
    let x := opMul .f32 (laneMode i l) (fieldWord i.g l r.sa.toNat).toNat (fieldWord i.g l r.sb.toNat).toNat
    (BitVec.ofNat 32 x.1, x.2))) ∧
  (∀ r : R3, YieldsFlags (.ffma r) (srcs3 r ++ [r.d.toNat]) (rels3 r) r.d.toNat (fun i l =>
    let x := opFma .f32 (laneMode i l) (fieldWord i.g l r.sa.toNat).toNat (fieldWord i.g l r.sb.toNat).toNat
      (fieldWord i.g l r.d.toNat).toNat
    (BitVec.ofNat 32 x.1, x.2))) ∧
  (∀ (nan : Bool) (r : R3), YieldsFlags (.fmin nan r) (srcs3 r) (rels3 r) r.d.toNat (fun i l =>
    let x := opMinMax .f32 (laneMode i l) false nan (fieldWord i.g l r.sa.toNat).toNat (fieldWord i.g l r.sb.toNat).toNat
    (BitVec.ofNat 32 x.1, x.2))) ∧
  (∀ (nan : Bool) (r : R3), YieldsFlags (.fmax nan r) (srcs3 r) (rels3 r) r.d.toNat (fun i l =>
    let x := opMinMax .f32 (laneMode i l) true nan (fieldWord i.g l r.sa.toNat).toNat (fieldWord i.g l r.sb.toNat).toNat
    (BitVec.ofNat 32 x.1, x.2))) ∧
  ∀ (c : FloatCmp) (r : R3), YieldsFlags (.fcmp c r) (srcs3 r) (rels3 r) r.d.toNat (fun i l =>
    let x := opFcmp (laneMode i l) c (fieldWord i.g l r.sa.toNat).toNat (fieldWord i.g l r.sb.toNat).toNat
    (if x.1 then 1 else 0, x.2))

/-- O13. R102, R103, R107: the operations that O12, O14 and O15 name give the exact value rounded once. A sum, a difference, a product
and a fused product of finite operands are the rational value of R102, rounded by `FMODE`, tiny results and overflows as R107 and R103
have them; a NaN operand, an invalid operation and an infinity decide as R344 says. The extrema and the comparisons order the data
themselves (R344, R345); a conversion rounds once into its format, or keeps a NaN or an infinity as the table of R103 has it; `F2I` and
`I2F` (R343). `FSGN` takes bits [30:0] of `SA` and the sign that its form gives, on bits alone; it sets no flag, reads no mode and never
traps (R350). The NaN that a conversion to E4M3 gives under `CNAN` is the model's choice (log entry 80). -/
def Obligations.FloatOperationsRoundTheExactValueOnce : Prop :=
  -- addition, subtraction, multiplication and the fused product, in a format with infinities
  (∀ f md a b, fmtSpecials f = true → SumRounded f md a b (signOf f b) (opAdd f md a b)) ∧
  (∀ f md a b, fmtSpecials f = true → SumRounded f md a b (!signOf f b) (opSub f md a b)) ∧
  (∀ f md a b, fmtSpecials f = true → ProductRounded f md a b (opMul f md a b)) ∧
  (∀ f md a b c, fmtSpecials f = true → FusedRounded f md a b c (opFma f md a b c)) ∧
  -- the extrema: the NaN forms, and the number forms, which take the other operand of a NaN
  (∀ f md isMax a b, fmtSpecials f = true → NanDecides f md false [a, b] (opMinMax f md isMax true a b)) ∧
  (∀ f md isMax a b, fmtSpecials f = true →
    let r := opMinMax f md isMax false a b
    r.2 = (if isSnanBits f a || isSnanBits f b then flagInv else flagNone) ∧
    (isNanBits f a = true → r.1 = if isNanBits f b then fmtCanon f else flushedBits f md.ftzi b) ∧
    (isNanBits f a = false → isNanBits f b = true → r.1 = flushedBits f md.ftzi a)) ∧
  (∀ f md isMax nanForm a b, fmtSpecials f = true → NoNan f false [a, b] →
    opMinMax f md isMax nanForm a b =
      (if decide (orderKey f md.ftzi true a ≤ orderKey f md.ftzi true b) != isMax then flushedBits f md.ftzi a
        else flushedBits f md.ftzi b, flagNone)) ∧
  -- the comparisons
  (∀ md c a b,
    let nan := isNanBits .f32 a || isNanBits .f32 b
    let snan := isSnanBits .f32 a || isSnanBits .f32 b
    let x := orderKey .f32 md.ftzi false a
    let y := orderKey .f32 md.ftzi false b
    ((opFcmp md c a b).1 = true ↔ match c with
      | .eq => nan = false ∧ x = y
      | .lt => nan = false ∧ x < y
      | .le => nan = false ∧ x ≤ y
      | .un => nan = true) ∧
    (opFcmp md c a b).2 = if (if c == .lt || c == .le then nan else snan) then flagInv else flagNone) ∧
  -- conversions between formats
  (∀ md src dst b,
    let r := opConvert md src dst b
    let neg := signOf src b
    (isNanBits src b = true → dst = .e2m1 → r = (0, flagInv)) ∧
    (isNanBits src b = true → dst ≠ .e2m1 →
      r.2 = (if isSnanBits src b then flagInv else flagNone) ∧
      (md.cnan = true → r.1 = fmtCanon dst) ∧
      (md.cnan = false → dst = .e4m3 → r.1 = signBit dst neg + 0x7F) ∧
      (md.cnan = false → dst ≠ .e4m3 →
        let frac := b % 2 ^ fmtFracBits src * 2 ^ fmtFracBits dst / 2 ^ fmtFracBits src
        r.1 = signBit dst neg + fmtInfBits dst + (frac ||| 2 ^ (fmtFracBits dst - 1)))) ∧
    (isInfBits src b = true →
      r = if fmtSpecials dst then (signBit dst neg + fmtInfBits dst, flagNone) else (signBit dst neg + fmtMaxBits dst, flagInv)) ∧
    (isNanBits src b = false → isInfBits src b = false → RoundedSigned dst md neg (numVal src md.ftzi b) r)) ∧
  -- integers to floating point, and back
  (∀ md (uns : Bool) (w : Word), RoundedSigned .f32 md false (if uns then (w.toNat : ℚ) else (w.toInt : ℚ)) (opI2f md uns w)) ∧
  (∀ md trunc (uns : Bool) b,
    let r := opF2i md trunc uns b
    let lo : Int := if uns then 0 else -2 ^ 31
    let hi : Int := if uns then 2 ^ 32 - 1 else 2 ^ 31 - 1
    (isNanBits .f32 b = true → r = (0, flagInv)) ∧
    (isInfBits .f32 b = true → r = (BitVec.ofInt 32 (if signOf .f32 b then lo else hi), flagInv)) ∧
    (isNanBits .f32 b = false → isInfBits .f32 b = false →
      let x := numVal .f32 md.ftzi b
      ∃ y, RoundsToInt (if trunc then .rz else md.rm) x y ∧
        (y < lo → r = (BitVec.ofInt 32 lo, flagInv)) ∧ (hi < y → r = (BitVec.ofInt 32 hi, flagInv)) ∧
        (lo ≤ y → y ≤ hi → r.1 = BitVec.ofInt 32 y ∧ (r.2 = flagNone ∧ (y : ℚ) = x ∨ r.2 = flagInx ∧ (y : ℚ) ≠ x)))) ∧
  -- FSGN
  (∀ r : R3, Yields (.fsgn .copy r) (srcs3 r) (rels3 r) r.d.toNat
    (fun v => (v r.sa.toNat &&& 0x7FFFFFFF) ||| (v r.sb.toNat &&& 0x80000000))) ∧
  (∀ r : R3, Yields (.fsgn .neg r) (srcs3 r) (rels3 r) r.d.toNat
    (fun v => (v r.sa.toNat &&& 0x7FFFFFFF) ||| (~~~v r.sb.toNat &&& 0x80000000))) ∧
  ∀ r : R3, Yields (.fsgn .xor r) (srcs3 r) (rels3 r) r.d.toNat
    (fun v => (v r.sa.toNat &&& 0x7FFFFFFF) ||| ((v r.sa.toNat ^^^ v r.sb.toNat) &&& 0x80000000))

/-- O14. R348, R343: the transcendentals and the conversions in each lane's own mode. The bits of a transcendental result are the
model's free value within the bounds of R110 (log entry 11); the statement holds for every value of it. -/
def Obligations.TranscendentalAndConversionResults : Prop :=
  (∀ r : R2, YieldsFlags (.frcp r) [r.sa.toNat] (rels2 r) r.d.toNat (fun i l =>
    let x := opTrans .rcp (laneMode i l) (fieldWord i.g l r.sa.toNat)
    (BitVec.ofNat 32 x.1, x.2))) ∧
  (∀ r : R2, YieldsFlags (.frsq r) [r.sa.toNat] (rels2 r) r.d.toNat (fun i l =>
    let x := opTrans .rsq (laneMode i l) (fieldWord i.g l r.sa.toNat)
    (BitVec.ofNat 32 x.1, x.2))) ∧
  (∀ r : R2, YieldsFlags (.fexp2 r) [r.sa.toNat] (rels2 r) r.d.toNat (fun i l =>
    let x := opTrans .exp2 (laneMode i l) (fieldWord i.g l r.sa.toNat)
    (BitVec.ofNat 32 x.1, x.2))) ∧
  (∀ r : R2, YieldsFlags (.flog2 r) [r.sa.toNat] (rels2 r) r.d.toNat (fun i l =>
    let x := opTrans .log2 (laneMode i l) (fieldWord i.g l r.sa.toNat)
    (BitVec.ofNat 32 x.1, x.2))) ∧
  (∀ r : R2, YieldsFlags (.ftanh r) [r.sa.toNat] (rels2 r) r.d.toNat (fun i l =>
    let x := opTrans .tanh (laneMode i l) (fieldWord i.g l r.sa.toNat)
    (BitVec.ofNat 32 x.1, x.2))) ∧
  (∀ r : R2, YieldsFlags (.fsig r) [r.sa.toNat] (rels2 r) r.d.toNat (fun i l =>
    let x := opTrans .sig (laneMode i l) (fieldWord i.g l r.sa.toNat)
    (BitVec.ofNat 32 x.1, x.2))) ∧
  (∀ (a b : FloatFmt) (r : R2), YieldsFlags (.fcvt a b r) [r.sa.toNat] (rels2 r) r.d.toNat (fun i l =>
    let x := opConvert (laneMode i l) a b ((fieldWord i.g l r.sa.toNat).toNat % 2 ^ fmtWidth a)
    (BitVec.ofNat 32 x.1, x.2))) ∧
  (∀ (u : Bool) (r : R2), YieldsFlags (.i2f u r) [r.sa.toNat] (rels2 r) r.d.toNat (fun i l =>
    let x := opI2f (laneMode i l) u (fieldWord i.g l r.sa.toNat)
    (BitVec.ofNat 32 x.1, x.2))) ∧
  ∀ (z u : Bool) (r : R2), YieldsFlags (.f2i z u r) [r.sa.toNat] (rels2 r) r.d.toNat (fun i l =>
    opF2i (laneMode i l) z u (fieldWord i.g l r.sa.toNat).toNat)

/-- O15. R356: the packed instructions work on each half of the words on its own, and a lane's flags are the union of both halves'. -/
def Obligations.PackedHalfResults : Prop :=
  let halves := fun (op : Nat → Nat → Nat → Nat × FFlags) (a b c : Word) =>
    let lo := op (a.toNat % 2 ^ 16) (b.toNat % 2 ^ 16) (c.toNat % 2 ^ 16)
    let hi := op (a.toNat / 2 ^ 16) (b.toNat / 2 ^ 16) (c.toNat / 2 ^ 16)
    (BitVec.ofNat 32 (lo.1 % 2 ^ 16 + hi.1 * 2 ^ 16), lo.2 ||| hi.2)
  (∀ (f : HalfFmt) (r : R3), YieldsFlags (.hadd2 f r) (srcs3 r) (rels3 r) r.d.toNat (fun i l =>
    halves (fun x y _ => opAdd (halfFmt f) (laneMode i l) x y) (fieldWord i.g l r.sa.toNat) (fieldWord i.g l r.sb.toNat) 0)) ∧
  (∀ (f : HalfFmt) (r : R3), YieldsFlags (.hmul2 f r) (srcs3 r) (rels3 r) r.d.toNat (fun i l =>
    halves (fun x y _ => opMul (halfFmt f) (laneMode i l) x y) (fieldWord i.g l r.sa.toNat) (fieldWord i.g l r.sb.toNat) 0)) ∧
  ∀ (f : HalfFmt) (r : R3), YieldsFlags (.hfma2 f r) (srcs3 r ++ [r.d.toNat]) (rels3 r) r.d.toNat (fun i l =>
    halves (fun x y z => opFma (halfFmt f) (laneMode i l) x y z) (fieldWord i.g l r.sa.toNat) (fieldWord i.g l r.sb.toNat)
      (fieldWord i.g l r.d.toNat))

/-- O16. R108: where an exception of some active lane is enabled as a trap, a floating-point instruction traps `FPX` with the lanes
that raised one, and writes neither its result nor `FSTAT`: the state is that of the trap alone. In `REDL` the exceptions are those of
all nodes of the tree, in every active lane; in `SCANL` those of each lane's own combinations, as O19 has them (log entry 78). -/
def Obligations.EnabledExceptionTrapsBeforeTheResult : Prop :=
  let w := fun (i : Iss) (l : Nat) (f : Reg) => (fieldWord i.g l f.toNat).toNat
  let md := laneMode
  -- arithmetic
  (∀ r : R3, TrapsFpx (.fadd r) (srcs3 r) r.d.toNat (fun i l => (opAdd .f32 (md i l) (w i l r.sa) (w i l r.sb)).2)) ∧
  (∀ r : R3, TrapsFpx (.fsub r) (srcs3 r) r.d.toNat (fun i l => (opSub .f32 (md i l) (w i l r.sa) (w i l r.sb)).2)) ∧
  (∀ r : R3, TrapsFpx (.fmul r) (srcs3 r) r.d.toNat (fun i l => (opMul .f32 (md i l) (w i l r.sa) (w i l r.sb)).2)) ∧
  (∀ r : R3, TrapsFpx (.ffma r) (srcs3 r ++ [r.d.toNat]) r.d.toNat
    (fun i l => (opFma .f32 (md i l) (w i l r.sa) (w i l r.sb) (w i l r.d)).2)) ∧
  (∀ (nan : Bool) (r : R3), TrapsFpx (.fmin nan r) (srcs3 r) r.d.toNat
    (fun i l => (opMinMax .f32 (md i l) false nan (w i l r.sa) (w i l r.sb)).2)) ∧
  (∀ (nan : Bool) (r : R3), TrapsFpx (.fmax nan r) (srcs3 r) r.d.toNat
    (fun i l => (opMinMax .f32 (md i l) true nan (w i l r.sa) (w i l r.sb)).2)) ∧
  (∀ (c : FloatCmp) (r : R3), TrapsFpx (.fcmp c r) (srcs3 r) r.d.toNat (fun i l => (opFcmp (md i l) c (w i l r.sa) (w i l r.sb)).2)) ∧
  -- transcendentals
  (∀ p : (R2 → Instr) × TransFn, p ∈ [(Instr.frcp, TransFn.rcp), (.frsq, .rsq), (.fexp2, .exp2), (.flog2, .log2), (.ftanh, .tanh), (.fsig, .sig)] →
    ∀ r : R2, TrapsFpx (p.1 r) [r.sa.toNat] r.d.toNat (fun i l => (opTrans p.2 (md i l) (fieldWord i.g l r.sa.toNat)).2)) ∧
  -- conversions
  (∀ (a b : FloatFmt) (r : R2), TrapsFpx (.fcvt a b r) [r.sa.toNat] r.d.toNat
    (fun i l => (opConvert (md i l) a b (w i l r.sa % 2 ^ fmtWidth a)).2)) ∧
  (∀ (u : Bool) (r : R2), TrapsFpx (.i2f u r) [r.sa.toNat] r.d.toNat (fun i l => (opI2f (md i l) u (fieldWord i.g l r.sa.toNat)).2)) ∧
  (∀ (z u : Bool) (r : R2), TrapsFpx (.f2i z u r) [r.sa.toNat] r.d.toNat (fun i l => (opF2i (md i l) z u (w i l r.sa)).2)) ∧
  -- packed halves: a lane's exceptions are those of both
  (∀ (f : HalfFmt) (r : R3), TrapsFpx (.hadd2 f r) (srcs3 r) r.d.toNat (fun i l =>
    (opAdd (halfFmt f) (md i l) (w i l r.sa % 2 ^ 16) (w i l r.sb % 2 ^ 16)).2 |||
      (opAdd (halfFmt f) (md i l) (w i l r.sa / 2 ^ 16) (w i l r.sb / 2 ^ 16)).2)) ∧
  (∀ (f : HalfFmt) (r : R3), TrapsFpx (.hmul2 f r) (srcs3 r) r.d.toNat (fun i l =>
    (opMul (halfFmt f) (md i l) (w i l r.sa % 2 ^ 16) (w i l r.sb % 2 ^ 16)).2 |||
      (opMul (halfFmt f) (md i l) (w i l r.sa / 2 ^ 16) (w i l r.sb / 2 ^ 16)).2)) ∧
  (∀ (f : HalfFmt) (r : R3), TrapsFpx (.hfma2 f r) (srcs3 r ++ [r.d.toNat]) r.d.toNat (fun i l =>
    (opFma (halfFmt f) (md i l) (w i l r.sa % 2 ^ 16) (w i l r.sb % 2 ^ 16) (w i l r.d % 2 ^ 16)).2 |||
      (opFma (halfFmt f) (md i l) (w i l r.sa / 2 ^ 16) (w i l r.sb / 2 ^ 16) (w i l r.d / 2 ^ 16)).2)) ∧
  -- reductions and scans
  ∀ (o : LaneOp) (r : R2), o = .fadd ∨ o = .fmax →
    let xs := fun (i : Iss) => (List.range 64).map (fun l =>
      if hasLane i.e.lanes l then some (fieldWord i.g l r.sa.toNat, flagNone) else none)
    TrapsFpx (.redl o r) [r.sa.toNat] r.d.toNat (fun i _ => (treeReduce o (laneMode i (lowLane i.e.lanes)) (xs i)).2) ∧
    TrapsFpx (.scanl o r) [r.sa.toNat] r.d.toNat (fun i l =>
      ((([1, 2, 4, 8, 16, 32].foldl (scanStep o (laneMode i)) (xs i)).getD l none).getD (0, flagNone)).2)

/-! ### Moves, exchanges, reductions, votes, special registers -/

/-- O17. R375, R376, R88: moves. `MOV` keeps the source's shape under a full mask, an unallocated one among them; a source marked as
last read is released before `D` is written; `MOVI` writes its sign-extended immediate and `MOVL` its literal, two words long. -/
def Obligations.MovesWriteTheirSource : Prop :=
  (∀ r : R2, YieldsAs (fun i => match fieldVal i r.sa.toNat with
      | .affine _ st => strideCode st
      | v => shapeCode v) (.mov r) [r.sa.toNat] (rels2 r) r.d.toNat (fun v => v r.sa.toNat)) ∧
  (∀ (imm : BitVec 10) (d : Reg), Yields (.movi imm d) [] [] d.toNat (fun _ => imm.signExtend 32)) ∧
  ∀ (lit : Word) (d : Reg) s i, Ready s i [d.toNat] [] [d.toNat] → HasRoom s i [d.toNat] → ApUniform i [] →
    ∃ t, exec (.movl lit d) s = .next t ∧ WritesNames s i t [] [d.toNat] (fun _ _ => lit) (fun _ => 1) (fun _ => 0) 2

/-- O18. R379, R380, R397 with R26, R413: exchanges between lanes. All lanes read before any lane writes; a partner that is active gives
its value, a helper lane its copy or its own, one that has exited 0, and the shapes are those the rules give. In `QSWZ` and `SHFL` the
helper lanes compute the same exchange into their copies. -/
def Obligations.LaneExchangeResults : Prop :=
  (∀ (q : QuadPat) (r : R2) s i, Ready s i [r.sa.toNat, r.d.toNat] [r.sa.toNat] [r.d.toNat] → HasRoom s i [r.d.toNat] →
    isAp i.g = false →
    let p := fun l => match q with
      | .x1 => l ^^^ 1 | .x2 => l ^^^ 2 | .x3 => l ^^^ 3
      | .bc k => l / 4 * 4 + k.toNat
    ∃ t, ∃ val : Nat → Word, exec (.qswz q r) s = .next t ∧
      WritesNames s i t (rels2 r) [r.d.toNat] (fun _ l => val l)
        (fun _ => if (lanesOf i.e.lanes).any (fun l => !hasLane i.g.live (p l)) then 3 else stdCode i [r.sa.toNat]) (fun _ => 0) 1 ∧
      CopiesHold i t r.d.toNat val ∧
      ∀ l < 64, hasLane i.e.lanes l = true ∨ hasLane (helperLanes i) l = true →
        (hasLane i.g.live (p l) = true → hasLane i.e.lanes (p l) = true ∨ hasLane (quadLanes i) (p l) = true →
          val l = laneWord i (p l) r.sa.toNat) ∧
        (hasLane i.g.live (p l) = false → val l = 0)) ∧
  (∀ (o : ShflOp) (r : R3) s i, Ready s i (srcs3 r ++ [r.d.toNat]) (srcs3 r) [r.d.toNat] → HasRoom s i [r.d.toNat] →
    isAp i.g = false →
    let p := fun l =>
      let d := (laneWord i l r.sb.toNat).toNat % 64
      match o with
      | .idx => d
      | .up => if d ≤ l then l - d else l
      | .down => if l + d < 64 then l + d else l
      | .xor => l ^^^ d
    ∃ t, ∃ val : Nat → Word, exec (.shfl o r) s = .next t ∧
      WritesNames s i t (rels3 r) [r.d.toNat] (fun _ l => val l)
        (fun _ => if (lanesOf i.e.lanes).any (fun l => !hasLane i.g.live (p l)) then 3 else stdCode i (srcs3 r)) (fun _ => 0) 1 ∧
      CopiesHold i t r.d.toNat val ∧
      ∀ l < 64, hasLane i.e.lanes l = true ∨ hasLane (helperLanes i) l = true →
        (hasLane i.g.live (p l) = true → hasLane i.e.lanes (p l) = true ∨ hasLane (quadLanes i) (p l) = true →
          val l = laneWord i (p l) r.sa.toNat) ∧
        -- a live lane outside the entry and its quads
        (hasLane i.g.live (p l) = true → hasLane i.e.lanes (p l) = false → hasLane (quadLanes i) (p l) = false →
          laneView i.g (p l) = laneView i.g l → val l = fieldWord i.g (p l) r.sa.toNat) ∧
        (hasLane i.g.live (p l) = false → val l = 0)) ∧
  -- RDLANE: lane s of the source, s from the lowest active lane, or the immediate; uniform under a full mask
  (∀ (r : R3) s i, Ready s i (srcs3 r ++ [r.d.toNat]) (srcs3 r) [r.d.toNat] → HasRoom s i [r.d.toNat] → isAp i.g = false →
    let k := (fieldWord i.g (lowLane i.e.lanes) r.sb.toNat).toNat % 64
    ∃ t, ∃ val : Nat → Word, exec (.rdlane r) s = .next t ∧
      WritesNames s i t (rels3 r) [r.d.toNat] (fun _ l => val l) (fun _ => 1) (fun _ => 0) 1 ∧
      ∀ l < 64, hasLane i.e.lanes l = true → hasLane i.e.lanes k = true ∨ laneView i.g k = laneView i.g l →
        val l = fieldWord i.g k r.sa.toNat) ∧
  ∀ (k : BitVec 6) (r : R2) s i, Ready s i [r.sa.toNat, r.d.toNat] [r.sa.toNat] [r.d.toNat] → HasRoom s i [r.d.toNat] →
    isAp i.g = false →
    ∃ t, ∃ val : Nat → Word, exec (.rdlaneImm k r) s = .next t ∧
      WritesNames s i t (rels2 r) [r.d.toNat] (fun _ l => val l) (fun _ => 1) (fun _ => 0) 1 ∧
      ∀ l < 64, hasLane i.e.lanes l = true → hasLane i.e.lanes k.toNat = true ∨ laneView i.g k.toNat = laneView i.g l →
        val l = fieldWord i.g k.toNat r.sa.toNat

/-- O19. R384, R393: reductions and scans over the active lanes. The integer forms give the sum and the maximum; the floating-point
forms give the tree of R114, with their exceptions in `FSTAT`; `FMAX` takes its inputs by `FTZI` as every operation does (R107). In a scan a
lane outside `ACTIVE` that has taken up a value combines under its own `FMODE`, and its flags are dropped: the model's choice (log entry
78, DESIGN CHOICE). -/
def Obligations.ReductionsAndScans : Prop :=
  (∀ (r : R2) s i, Ready s i [r.sa.toNat, r.d.toNat] [r.sa.toNat] [r.d.toNat] → HasRoom s i [r.d.toNat] → isAp i.g = false →
    let xs := fun (k : Nat) => ((lanesOf i.e.lanes).filter (· ≤ k)).map (fun l => fieldWord i.g l r.sa.toNat)
    -- REDL.IADD and REDL.IMAX
    (∃ t, exec (.redl .iadd r) s = .next t ∧
      WritesNames s i t (rels2 r) [r.d.toNat] (fun _ _ => (xs 63).sum) (fun _ => 1) (fun _ => 0) 1) ∧
    (∃ t m, exec (.redl .imax r) s = .next t ∧ m ∈ xs 63 ∧ (∀ x ∈ xs 63, x.toInt ≤ m.toInt) ∧
      WritesNames s i t (rels2 r) [r.d.toNat] (fun _ _ => m) (fun _ => 1) (fun _ => 0) 1) ∧
    -- SCANL.IADD and SCANL.IMAX
    (∃ t, exec (.scanl .iadd r) s = .next t ∧
      WritesNames s i t (rels2 r) [r.d.toNat] (fun _ l => (xs l).sum) (fun _ => 3) (fun _ => 0) 1) ∧
    ∃ t, ∃ m : Nat → Word, exec (.scanl .imax r) s = .next t ∧
      (∀ l < 64, hasLane i.e.lanes l = true → m l ∈ xs l ∧ ∀ x ∈ xs l, x.toInt ≤ (m l).toInt) ∧
      WritesNames s i t (rels2 r) [r.d.toNat] (fun _ l => m l) (fun _ => 3) (fun _ => 0) 1) ∧
  -- the floating-point reductions: one value, and the union of all nodes' flags, to every active lane
  ∀ (o : LaneOp) (r : R2) s i, o = .fadd ∨ o = .fmax →
    Ready s i [r.sa.toNat, r.d.toNat] [r.sa.toNat] [r.d.toNat] → HasRoom s i [r.d.toNat] → isAp i.g = false →
    let xs := (List.range 64).map (fun l =>
      if hasLane i.e.lanes l then some (fieldWord i.g l r.sa.toNat, flagNone) else none)
    let v := treeReduce o (laneMode i (lowLane i.e.lanes)) xs
    let ys := [1, 2, 4, 8, 16, 32].foldl (scanStep o (laneMode i)) xs
    let w := fun l => (ys.getD l none).getD (0, flagNone)
    ((∀ l < 64, hasLane i.e.lanes l = true → v.2 &&& trapEnables (laneSt i.g l).fmode = 0) →
      ∃ t, exec (.redl o r) s = .next t ∧
        WritesNames s i t (rels2 r) [r.d.toNat] (fun _ _ => v.1) (fun _ => 1) (fun _ => v.2) 1) ∧
    ((∀ l < 64, hasLane i.e.lanes l = true → (w l).2 &&& trapEnables (laneSt i.g l).fmode = 0) →
      ∃ t, exec (.scanl o r) s = .next t ∧
        WritesNames s i t (rels2 r) [r.d.toNat] (fun _ l => (w l).1) (fun _ => 3) (fun l => (w l).2) 1)

/-- O20. R408: votes over the active lanes; uniform under a full mask whatever the source's shape. -/
def Obligations.VoteResults : Prop :=
  ∀ (r : R2) s i, isAp i.g = false →
    let c := fun l => fieldWord i.g l r.sa.toNat ≠ 0
    (Ready s i [r.sa.toNat, r.d.toNat] [r.sa.toNat] [r.d.toNat] → HasRoom s i [r.d.toNat] →
      (∃ t x, exec (.vote .any r) s = .next t ∧ (x = 1 ∨ x = 0) ∧ (x = 1 ↔ ∃ l < 64, hasLane i.e.lanes l = true ∧ c l) ∧
        WritesNames s i t (rels2 r) [r.d.toNat] (fun _ _ => x) (fun _ => 1) (fun _ => 0) 1) ∧
      (∃ t x, exec (.vote .all r) s = .next t ∧ (x = 1 ∨ x = 0) ∧ (x = 1 ↔ ∀ l < 64, hasLane i.e.lanes l = true → c l) ∧
        WritesNames s i t (rels2 r) [r.d.toNat] (fun _ _ => x) (fun _ => 1) (fun _ => 0) 1) ∧
      ∃ t x, exec (.vote .eq r) s = .next t ∧ (x = 1 ∨ x = 0) ∧
        (x = 1 ↔ ∀ l < 64, ∀ m < 64, hasLane i.e.lanes l = true → hasLane i.e.lanes m = true →
          fieldWord i.g l r.sa.toNat = fieldWord i.g m r.sa.toNat) ∧
        WritesNames s i t (rels2 r) [r.d.toNat] (fun _ _ => x) (fun _ => 1) (fun _ => 0) 1) ∧
    -- BALLOT writes the mask to D and D + 1
    (Ready s i [r.sa.toNat, r.d.toNat, r.d.toNat + 1] [r.sa.toNat] [r.d.toNat, r.d.toNat + 1] →
      HasRoom s i [r.d.toNat, r.d.toNat + 1] →
      ∃ t, ∃ m : BitVec 64, exec (.vote .ballot r) s = .next t ∧
        (∀ l < 64, m.getLsbD l = true ↔ hasLane i.e.lanes l = true ∧ c l) ∧
        WritesNames s i t (rels2 r) [r.d.toNat, r.d.toNat + 1]
          (fun d _ => if d = r.d.toNat then m.extractLsb' 0 32 else m.extractLsb' 32 32) (fun _ => 1) (fun _ => 0) 1)

/-- O21. R341, R396: `SHAPE` reads a name's shape without its payload, and `EXPAND` makes a name general in all 64 lanes with every
value kept. -/
def Obligations.ShapeAndExpandEffects : Prop :=
  (∀ (r : R2) s i, Ready s i [r.sa.toNat, r.d.toNat] [] [r.d.toNat] → HasRoom s i [r.d.toNat] → ApUniform i [] →
    ∃ t, exec (.shape r) s = .next t ∧
      WritesNames s i t (rels2 r) [r.d.toNat]
        (fun _ l => match nameIx i.g l r.sa.toNat with
          | some n => match (getName i.g n).val with
            | .unalloc => 0 | .uniform _ => 1 | .affine .. => 2 | .general _ => 3
          | none => 0) (fun _ => 1) (fun _ => 0) 1) ∧
  ∀ (d : Reg) s i, Ready s i [d.toNat] [d.toNat] [] → HasRoom s i [d.toNat] → isAp i.g = false →
    ∃ t g, exec (.expand d) s = .next t ∧ getGroup t i.core i.slot = some g ∧ OnlyGroup (clearMaps s i.g g) t i.core i.slot ∧
      (∀ n ∈ namesOf i d.toNat, shapeCode (getName g n).val = 3 ∧
        ∀ l < 64, shapedAt (getName g n).val l = shapedAt (getName i.g n).val l) ∧
      (∀ n, n ∉ namesOf i d.toNat → getName g n = getName i.g n) ∧
      GroupKept i.g g ∧ LanesKept i g (fun _ => 0) ∧ WentOn i g 1

/-- O22. R96, R97: the value that `SREAD` gives for every special register, outside access-processor code. -/
def Obligations.SpecialRegisterReads : Prop :=
  ∀ (x : SReg) (d : Reg) s i, Ready s i [d.toNat] [] [d.toNat] → HasRoom s i [d.toNat] → isAp i.g = false →
    (isPriv x = true → i.g.handler.isSome = true) →
    let g := i.g
    let val := fun (l : Nat) => (match x with
      | .laneid => BitVec.ofNat 32 l
      | .groupid => BitVec.ofNat 32 g.id.group
      | .blockid => BitVec.ofNat 32 g.id.block
      | .gangid => BitVec.ofNat 32 g.id.gang
      | .launchid => g.id.launchId
      | .coreid => BitVec.ofNat 32 i.core
      | .clusterid => BitVec.ofNat 32 (i.core / 4)
      | .wingid => BitVec.ofNat 32 g.id.ctx.wing
      | .tenantid => BitVec.ofNat 32 g.id.ctx.ten
      | .actlo => BitVec.ofNat 32 i.e.lanes.toNat
      | .acthi => BitVec.ofNat 32 (i.e.lanes.toNat / 2 ^ 32)
      | .winid => match (laneSt g l).win with
        | some w => BitVec.ofNat 32 w.win
        | none => 0xFFFFFFFF
      | .streamid => match g.kind with
        | .window st _ => BitVec.ofNat 32 st
        | _ => 0xFFFFFFFF
      | .fmode => (laneSt g l).fmode
      | .fstat => (laneSt g l).fstat
      | .wb => BitVec.ofNat 32 (laneSt g l).wb.toNat
      | .rgncnt => g.rgnCnt
      | .corecyc => (getCore s i.core).corecyc
      | .capatom => 0x3356
      | .capunits =>
        let w := getWing s g.id.ctx.wing
        BitVec.ofNat 32 (popCount w.wl2s.toNat 96 * 2 ^ 23 + popCount w.wweng.toNat 96 * 2 ^ 16 + popCount w.wchan.toNat 256 * 2 ^ 7
          + popCount w.wclu.toNat 96)
      | .tcause => g.traps.cause
      | .tpc => BitVec.ofNat 32 g.traps.pc.toNat
      | .trgnpc => BitVec.ofNat 32 g.traps.rgnPc.toNat
      | .trgncnt => g.traps.rgnCnt
      | .taddr => BitVec.ofNat 32 g.traps.addr.toNat
      | .tmasklo => BitVec.ofNat 32 g.traps.mask.toNat
      | .tmaskhi => BitVec.ofNat 32 (g.traps.mask.toNat / 2 ^ 32)
      | .tshapes => g.traps.shapes
      | .tpchi => BitVec.ofNat 32 (g.traps.pc.toNat / 2 ^ 32)
      | .trgnpchi => BitVec.ofNat 32 (g.traps.rgnPc.toNat / 2 ^ 32)
      | .taddrhi => BitVec.ofNat 32 (g.traps.addr.toNat / 2 ^ 32 % 2 ^ 24)
      | .tword => g.traps.word : Word)
    let same := ∀ l < 64, hasLane i.e.lanes l = true → val l = val (lowLane i.e.lanes)
    ∃ t code, exec (.sread x d) s = .next t ∧
      WritesNames s i t [] [d.toNat] (fun _ => val) (fun _ => code) (fun _ => 0) 1 ∧
      -- LANEID is affine; a register of the lane is uniform where the active lanes agree; every other is uniform
      (x = .laneid → code = 2) ∧
      (x = .fmode ∨ x = .fstat ∨ x = .wb ∨ x = .winid → (code = 1 ↔ same) ∧ (code = 3 ↔ ¬same)) ∧
      (x ≠ .laneid → x ≠ .fmode → x ≠ .fstat → x ≠ .wb → x ≠ .winid → code = 1)

/-- O23. R97: a register that only a handler reads traps `PERM` outside one, with no other effect. -/
def Obligations.PrivilegedReadOutsideAHandlerTraps : Prop :=
  ∀ (x : SReg) (d : Reg) s i, Ready s i [d.toNat] [] [d.toNat] → i.g.handler = none →
    x = .tcause ∨ x = .tpc ∨ x = .trgnpc ∨ x = .trgncnt ∨ x = .taddr ∨ x = .tmasklo ∨ x = .tmaskhi ∨ x = .tshapes ∨ x = .tpchi ∨
      x = .trgnpchi ∨ x = .taddrhi ∨ x = .tword →
    exec (.sread x d) s = .next (trapWord s i causePerm i.e.lanes 0 0)

/-- O24. R105, R106, R398, R399, R409: writes of the lanes' registers. `SWRITE` writes the defined bits of `FMODE` or `FSTAT` of the
executing lanes, and `WBASE` sets their view of the names, in a handler the handler's view. -/
def Obligations.LaneRegisterWrites : Prop :=
  (∀ (sa : Reg) s i, Ready s i [sa.toNat] [sa.toNat] [] → HasRoom s i [] → isAp i.g = false →
    (∃ t g, exec (.swrite .fmode sa) s = .next t ∧ getGroup t i.core i.slot = some g ∧ OnlyGroup (clearMaps s i.g g) t i.core i.slot ∧
      OtherNamesKept i g [] [] ∧ GroupKept i.g g ∧
      LanesAre i g (fun l x => { x with fmode := fieldWord i.g l sa.toNat &&& 0x3FF }) ∧ WentOn i g 1) ∧
    ∃ t g, exec (.swrite .fstat sa) s = .next t ∧ getGroup t i.core i.slot = some g ∧ OnlyGroup (clearMaps s i.g g) t i.core i.slot ∧
      OtherNamesKept i g [] [] ∧ GroupKept i.g g ∧
      LanesAre i g (fun l x => { x with fstat := fieldWord i.g l sa.toNat &&& 0x1F }) ∧ WentOn i g 1) ∧
  ∀ (n : BitVec 10) s i, Ready s i [] [] [] → HasRoom s i [] → isAp i.g = false →
    ∃ t g, exec (.wbase n) s = .next t ∧ getGroup t i.core i.slot = some g ∧ OnlyGroup (clearMaps s i.g g) t i.core i.slot ∧
      OtherNamesKept i g [] [] ∧ GroupKept i.g g ∧
      LanesAre i g (fun _ x => if i.g.handler.isSome then { x with hvb := n } else { x with wb := n }) ∧ WentOn i g 1

/-! ### Control flow -/

/-- O25. R334, R362: branches. Lanes whose condition holds go to the clause header plus the word offset, the others to the word after
the clause; each lane of a `JMPR` goes to its own target; nothing is written. -/
def Obligations.BranchesGoToTheirTargets : Prop :=
  (∀ (off : BitVec 17) s i, Ready s i [] [] [] →
    ∃ t, exec (.bra off) s = .next t ∧ Branches s i t [] (fun _ => i.cc.hdr + BitVec.ofInt 56 (4 * off.toInt))) ∧
  (∀ (lrc : Bool) (c : Reg) (off : BitVec 17) s i, Ready s i [c.toNat] [c.toNat] [] →
    (isAp i.g = true → isUniform (fieldVal i c.toNat) = true) →
    let rels := if lrc then [c.toNat] else []
    let there := i.cc.hdr + BitVec.ofInt 56 (4 * off.toInt)
    let past := i.cc.hdr + BitVec.ofNat 56 (4 * headerLen i.cc.word) + 4
    (∃ t, exec (.brc lrc c off) s = .next t ∧
      Branches s i t rels (fun l => if fieldWord i.g l c.toNat ≠ 0 then there else past)) ∧
    ∃ t, exec (.brz lrc c off) s = .next t ∧
      Branches s i t rels (fun l => if fieldWord i.g l c.toNat = 0 then there else past)) ∧
  ∀ (sa : Reg) s i, Ready s i [sa.toNat, sa.toNat + 1] [sa.toNat, sa.toNat + 1] [] →
    let p := fun l => (fieldPair i.g l sa.toNat).toNat
    ((∀ l < 64, hasLane i.e.lanes l = true → p l < 2 ^ 56 ∧ p l % 4 = 0) →
      ∃ t, exec (.jmpr sa) s = .next t ∧ Branches s i t [] (fun l => BitVec.ofNat 56 (p l))) ∧
    -- a target outside the address space, or misaligned, traps before any effect
    ((∃ l < 64, hasLane i.e.lanes l = true ∧ (2 ^ 56 ≤ p l ∨ p l % 4 ≠ 0)) →
      ∃ m : LaneSet, exec (.jmpr sa) s = .next (trapWord s i causeIllegal m i.e.pc.toNat 0) ∧
        ∀ l < 64, hasLane m l = true ↔ hasLane i.e.lanes l = true ∧ (2 ^ 56 ≤ p l ∨ p l % 4 ≠ 0))

/-- O26. R335, R385: `CALL` moves the window, writes the return link into `v0` to `v2` of the new one, and goes to its target; `RET`
goes where the link says and sets the window back. -/
def Obligations.CallAndReturn : Prop :=
  (∀ (frame : BitVec 5) (off : BitVec 20) s i, Ready s i [] [] [] → i.g.handler = none → isAp i.g = false →
    let wb := fun l => (laneSt i.g l).wb.toNat
    let j : Iss := { i with g := mapLanes i.g i.e.lanes (fun l x => { x with wb := BitVec.ofNat 10 (wb l + 8 * frame.toNat) }) }
    let ra := i.cc.hdr + BitVec.ofNat 56 (4 * headerLen i.cc.word) + 4
    ((∀ l < 64, hasLane i.e.lanes l = true → wb l + 8 * frame.toNat ≤ 1016) →
      interlocked s j [0, 1, 2] = false → receiveWait s j [0, 1, 2] = none → toFill j [] [0, 1, 2] = [] → HasRoom s j [0, 1, 2] →
      ∃ t, exec (.call frame off) s = .next t ∧ LeavesNames s i t fun g =>
        LanesHold i g [0, 1, 2] (fun d l => if d = 0 then BitVec.ofNat 32 ra.toNat
          else if d = 1 then BitVec.ofNat 32 (ra.toNat / 2 ^ 32) else BitVec.ofNat 32 (wb l)) ∧
        ShapesAre j g [0, 1, 2] (fun _ => 1) ∧ OtherNamesKept j g [] [0, 1, 2] ∧ GroupKept i.g g ∧
        LanesAre i g (fun l x => { x with wb := BitVec.ofNat 10 (wb l + 8 * frame.toNat) }) ∧
        WentTo i g (fun _ => i.cc.hdr + BitVec.ofInt 56 (4 * off.toInt))) ∧
    -- a window above name 1016 traps before any effect
    ((∃ l < 64, hasLane i.e.lanes l = true ∧ 1016 < wb l + 8 * frame.toNat) →
      ∃ m : LaneSet, exec (.call frame off) s = .next (trapWord s i causeIllegal m i.e.pc.toNat 0))) ∧
  ∀ s i, Ready s i [0, 1, 2] [0, 1, 2] [] → i.g.handler = none →
    (∀ l < 64, hasLane i.e.lanes l = true → (fieldWord i.g l 1).toNat < 2 ^ 24 ∧ (fieldWord i.g l 0).toNat % 4 = 0 ∧
      (fieldWord i.g l 2).toNat % 8 = 0 ∧ (fieldWord i.g l 2).toNat ≤ 1016) →
    ∃ t, exec .ret s = .next t ∧ Leaves s i t fun g =>
      OtherNamesKept i g [] [] ∧ GroupKept i.g g ∧
      LanesAre i g (fun l x => { x with wb := (fieldWord i.g l 2).setWidth 10 }) ∧
      WentTo i g (fun l => BitVec.ofNat 56 ((fieldWord i.g l 1).toNat * 2 ^ 32 + (fieldWord i.g l 0).toNat))

/-- O27. R33, R35, R371, R372: `YIELD` and the rejoin markers. -/
def Obligations.YieldAndMarkers : Prop :=
  ∀ s i, i.g.handler = none →
    let past := i.cc.hdr + BitVec.ofNat 56 (4 * headerLen i.cc.word) + 4
    (Ready s i [] [] [] →
      -- the lanes stand after the clause, with a yield mark where they are not merged with lanes that have none
      (∃ t, exec .yield s = .next t ∧ Branches s i t [] (fun _ => past) ∧
        ((∀ e ∈ i.g.frontier, e.pc ≠ past) → ∀ g, getGroup t i.core i.slot = some g → ∃ e ∈ g.frontier, e.pc = past ∧ e.mark = true)) ∧
      -- MJOIN enrols the lanes
      (∀ k : BitVec 4, ∃ t, exec (.mjoin k) s = .next t ∧ Leaves s i t fun g =>
        let m := getMarker i.g k.toNat
        getMarker g k.toNat = ⟨m.enr ||| i.e.lanes, m.arr⟩ ∧ (∀ n, n ≠ k.toNat → getMarker g n = getMarker i.g n) ∧
        (∀ n, getName g n = getName i.g n) ∧ LanesKept i g (fun _ => 0) ∧ WentOn i g 1) ∧
      -- MLEAVE strikes them out, and releases the marker where all that is left has arrived
      (∀ k : BitVec 4, ∃ t, exec (.mleave k) s = .next t ∧ Leaves s i t fun g =>
        let m := getMarker i.g k.toNat
        let enr := m.enr &&& ~~~i.e.lanes
        let arr := m.arr &&& ~~~i.e.lanes
        let free : Prop := enr ≠ 0 ∧ arr = enr
        getMarker g k.toNat = ⟨enr, if arr = enr then 0 else arr⟩ ∧ (∀ n, n ≠ k.toNat → getMarker g n = getMarker i.g n) ∧
        (free → ∀ e ∈ g.frontier, e.park ≠ .marker k.toNat) ∧
        (∀ n, getName g n = getName i.g n) ∧ LanesKept i g (fun _ => 0) ∧ WentOn i g 1) ∧
      -- MWAIT: the enrolled lanes arrive, and wait past the clause unless they complete the set
      ∀ k : BitVec 4, ∃ t, exec (.mwait k) s = .next t ∧ Leaves s i t fun g =>
        let m := getMarker i.g k.toNat
        let arr := m.arr ||| (i.e.lanes &&& m.enr)
        let free : Prop := m.enr ≠ 0 ∧ arr = m.enr
        getMarker g k.toNat = ⟨m.enr, if arr = m.enr then 0 else arr⟩ ∧ (∀ n, n ≠ k.toNat → getMarker g n = getMarker i.g n) ∧
        g.active = none ∧
        (∀ l < 64, hasLane i.e.lanes l = true → ∃ e ∈ g.frontier, e.pc = past ∧ hasLane e.lanes l = true ∧
          (e.park = .none ↔ free ∨ hasLane m.enr l = false) ∧ (e.park = .marker k.toNat ↔ ¬free ∧ hasLane m.enr l = true)) ∧
        (∀ n, getName g n = getName i.g n) ∧ LanesAre i g (fun _ x => { x with nonRep := true })) ∧
    -- MREAD
    ∀ (k : BitVec 4) (d : Reg), isAp i.g = false → Ready s i [d.toNat, d.toNat + 1] [] [d.toNat, d.toNat + 1] →
      HasRoom s i [d.toNat, d.toNat + 1] →
      let m := getMarker i.g k.toNat
      let half := fun (x : LaneSet) (f : Nat) => if f = d.toNat then x.extractLsb' 0 32 else x.extractLsb' 32 32
      (∃ t, exec (.mreadEnr k d) s = .next t ∧
        WritesNames s i t [] [d.toNat, d.toNat + 1] (fun f _ => half m.enr f) (fun _ => 1) (fun _ => 0) 1) ∧
      ∃ t, exec (.mreadArr k d) s = .next t ∧
        WritesNames s i t [] [d.toNat, d.toNat + 1] (fun f _ => half m.arr f) (fun _ => 1) (fun _ => 0) 1

/-- O28. R332, R340: the block barrier, and the end of lanes. `BAR` is stated where nothing is outstanding on the core's memory path,
`EXIT` in a compute group whose block has no guestbook filled and whose core has no message state. -/
def Obligations.BarrierAndExit : Prop :=
  (∀ s i, Ready s i [] [] [] → i.g.handler = none → isAp i.g = false → Quiet s i.core →
    -- another group of the block, or a lane of this one, has not arrived
    let waits : Prop := lanesAtBar i.g ||| i.e.lanes ≠ i.g.live ∨
      ∃ p ∈ groupsOfBlock (getCore s i.core) i.g.id.blockKey, p.1 ≠ i.slot ∧ lanesAtBar p.2 ≠ p.2.live
    ∃ t g, exec .bar s = .next t ∧ OnlyCores s t ∧ getGroup t i.core i.slot = some g ∧ g.active = none ∧
      (∀ l < 64, hasLane i.e.lanes l = true → ∃ e ∈ g.frontier, e.pc = i.cc.hdr + BitVec.ofNat 56 (4 * headerLen i.cc.word) + 4 ∧
        hasLane e.lanes l = true ∧ (e.park = .bar ↔ waits) ∧ (e.park = .none ↔ ¬waits)) ∧
      (∀ n, getName g n = getName i.g n) ∧ LanesAre i g (fun _ x => { x with nonRep := true })) ∧
  ∀ s i, Ready s i [] [] [] → i.g.handler = none → i.g.kind = .compute → (getCore s i.core).boxes = [] →
    (∀ b, getBlock s i.core i.g.id.blockKey = some b → b.books = []) →
    ∃ t, exec .exit s = .next t ∧
      (i.g.live &&& ~~~i.e.lanes ≠ 0 → ∃ g, getGroup t i.core i.slot = some g ∧ g.live = i.g.live &&& ~~~i.e.lanes ∧
        g.active = none ∧ (∀ e ∈ g.frontier, e.lanes &&& i.e.lanes = 0) ∧ ∀ n, getName g n = getName i.g n) ∧
      -- with its last lane the group ends
      (i.g.live &&& ~~~i.e.lanes = 0 → getGroup t i.core i.slot = none)

/-! ### Traps and returns -/

/-- O29. R275, R277, R278, R280, R281: what a precise trap does. One whose cause is enabled enters the handler where the core's trap pool is
free and no earlier trap waits for it: the trap registers hold the cause, the word's address, the region record of the lowest lane, the
address, the lanes and the word; the entry goes to `HENTRY` alone, the group's other entries halt; each lane's trap enables are saved and
cleared, and its view becomes the handler's. Else it waits in trap order with its registers. One that is not enabled, or is raised in a
handler or by the access processor, aborts the launch, or disarms the stream of a window group, with one record. R276, R285, R287: a
stepped lane, and an entry at a breakpoint, trap `BREAK` at the header of their clause, before any effect of it; what a taken header trap
records. -/
def Obligations.TrapsEnterTheHandler : Prop :=
  -- what the trap registers record of a trap at the word
  let recorded := fun (s : State) (i : Iss) (cause : Nat) (m : LaneSet) (addr idx : Nat) (r : TrapRegs) =>
    r.cause.toNat % 256 = cause ∧ r.cause.toNat / 256 % 4 = idx % 4 ∧ r.pc = i.e.pc ∧
    r.rgnPc = (laneSt i.g (lowLane i.e.lanes)).rgnPc ∧ r.rgnCnt = (laneSt i.g (lowLane i.e.lanes)).rgnCnt ∧
    r.addr = BitVec.ofNat 64 addr ∧ r.mask = m ∧ r.word = wordAt s i ∧
    (r.cause.getLsbD 12 = true ↔ ∃ l < 64, hasLane i.e.lanes l = true ∧ (laneSt i.g l).nonRep = true)
  (∀ s i cause (m : LaneSet) addr idx d, Issues s i → isAp i.g = false → i.g.handler = none →
    (getTenant s i.g.id.ctx).trap = some d → d.tenable.getLsbD cause = true →
    let t := trapWord s i cause m addr idx
    -- taken
    ((getCore s i.core).trapOwner = none → (getCore s i.core).trapQueue = [] →
      ∃ g h, getGroup t i.core i.slot = some g ∧ (getCore t i.core).trapOwner = some i.slot ∧ recorded s i cause m addr idx g.traps ∧
        -- the entry at the handler
        g.active = none ∧ (∃ e, g.frontier = [e] ∧ e.pc = d.hentry ∧ e.lanes = i.e.lanes ∧ e.park = .none) ∧
        g.handler = some h ∧ h.lanes = i.e.lanes ∧ h.returned = 0 ∧ h.halted = i.g.frontier ∧ h.names = [] ∧
        -- the lanes, and the names below the handler's
        LanesAre i g (fun _ x => { x with savedTe := x.fmode.extractLsb' 5 5, fmode := x.fmode &&& ~~~(0x3E0 : Word), hvb := x.wb }) ∧
        g.names = i.g.names) ∧
    -- waiting for the trap pool, behind the earlier traps
    ((getCore s i.core).trapOwner ≠ none ∨ (getCore s i.core).trapQueue ≠ [] →
      ∃ g p, getGroup t i.core i.slot = some g ∧ g.gpark = .trapPool ∧ g.active = none ∧ g.pendTrap = some p ∧
        recorded s i cause m addr idx p.regs ∧ p.entry.lanes = i.e.lanes ∧ g.names = i.g.names ∧ g.lanes = i.g.lanes ∧ g.handler = none ∧
        (getCore t i.core).trapOwner = (getCore s i.core).trapOwner ∧
        (getCore t i.core).trapQueue = (getCore s i.core).trapQueue ++ [i.slot])) ∧
  -- aborted
  (∀ s i cause (m : LaneSet) addr idx, Issues s i → isAp i.g = false ∨ cause ≠ causeMemerr →
    (getTenant s i.g.id.ctx).trap = none ∨ (∃ d, (getTenant s i.g.id.ctx).trap = some d ∧ d.tenable.getLsbD cause = false) ∨
      i.g.handler.isSome = true ∨ isAp i.g = true →
    let t := trapWord s i cause m addr idx
    let x := i.g.id.ctx
    (hasFaultQueue (getWing s x.wing) = true → ∃ r ∈ (getWing t x.wing).faults, r.kind = 0x20 ∧
      r.cause = (if i.g.handler.isSome then causeKill else cause) ∧ r.ten = x.ten ∧ r.replay = false ∧ r.addr = i.e.pc.toNat ∧
      r.rgnPc = (laneSt i.g (lowLane i.e.lanes)).rgnPc ∧ r.rgnCnt = (laneSt i.g (lowLane i.e.lanes)).rgnCnt) ∧
    (isWindow i.g = false →
      (∀ l, getLaunch s x i.g.id.launch = some l → ∃ u, getLaunch t x i.g.id.launch = some u ∧ u.aborted = true) ∧
      ∀ c k g, getGroup t c k = some g → ¬(g.kind = .compute ∧ g.id.ctx = x ∧ g.id.launch = i.g.id.launch)) ∧
    ∀ st num, i.g.kind = .window st num →
      (∀ k, getStream s x st = some k → ∃ u, getStream t x st = some u ∧ u.armed = false) ∧
      ∀ c k g n, getGroup t c k = some g → ¬(g.kind = .window st n ∧ g.id.ctx = x)) ∧
  -- a step, and a breakpoint, at the header that an entry is about to begin
  (∀ s c n g e w u, getGroup s c n = some g → g.active = none → g.gpark = .none → g.halt = .run → slotRuns s g.id.ctx = true →
    heldStore s c n g = none → (∀ d ∈ g.frontier, d.fail ≠ some .again) → selectEntry (pickable s c g) = some e → e.clause = none →
    e.fail = none → fetchWord s c g.id.ctx e.pc = (.word w, u) → getGroup u c n = some g → waitBusy g w = false → g.ovfq = [] →
    let stepped := fun (l : Nat) => hasLane e.lanes l = true ∧ g.handler = none ∧ (laneSt g l).step = true ∧ (laneSt g l).fresh = false
    let checked := fun (l : Nat) => hasLane e.lanes l = true ∧
      ((laneSt g l).mute = false ∨ w.getLsbD 1 = true ∧ (laneSt g l).fresh = false ∧ g.handler = none)
    ((∃ l < 64, stepped l) → ∃ m : LaneSet, (∀ l < 64, hasLane m l = true ↔ stepped l) ∧
      exec (.pick c n) s = .next (headerTrap u c n (mapLanes g m (fun _ x => { x with step := false })) e causeBreak 0 0 m true false w)) ∧
    ((¬∃ l < 64, stepped l) → isAp g = false → (∃ l < 64, checked l) → ∀ j, breakHit u g.id.ctx e.pc = some j →
      ∃ m : LaneSet, (∀ l < 64, hasLane m l = true ↔ checked l) ∧
        exec (.pick c n) s = .next (headerTrap u c n g e causeBreak e.pc.toNat j m false false w))) ∧
  -- the lowest enabled breakpoint at the address
  (∀ s x (pc : Pc) d, (getTenant s x).trap = some d →
    let at' := fun (j : Nat) => j < 4 ∧ d.bpen.getLsbD j = true ∧ d.bpa[j]? = some pc.toNat
    (∀ j, breakHit s x pc = some j → at' j ∧ ∀ k < j, ¬at' k) ∧ (breakHit s x pc = none → ∀ j, ¬at' j)) ∧
  -- a trap at a header, or in its clause's decode, as it enters the handler
  ∀ s c k g e cause addr idx (m : LaneSet) stp dec (w : Word) d, isAp g = false → g.handler = none → (getTenant s g.id.ctx).trap = some d →
    d.tenable.getLsbD cause = true → (getCore s c).trapOwner = none → (getCore s c).trapQueue = [] →
    ∃ q h, getGroup (headerTrap s c k g e cause addr idx m stp dec w) c k = some q ∧
      q.traps.cause.toNat % 256 = cause ∧ q.traps.cause.toNat / 256 % 4 = idx % 4 ∧ q.traps.cause.getLsbD 15 = stp ∧
      q.traps.cause.getLsbD 13 = dec ∧ q.traps.cause.getLsbD 11 = !dec ∧ q.traps.pc = e.pc ∧ q.traps.addr = BitVec.ofNat 64 addr ∧
      q.traps.mask = m ∧ q.traps.word = w ∧ q.active = none ∧ (∃ f, q.frontier = [f] ∧ f.pc = d.hentry ∧ f.lanes = e.lanes) ∧
      q.handler = some h ∧ h.lanes = e.lanes ∧ h.hdrTrap = !dec ∧ h.halted = g.frontier.erase e

/-- O30. R283, R285, R386: the returns from a handler. `RESTART` goes to the trapped header, or each lane to its own region's;
`GOTO` goes to the lowest lane's address, of which bits [55:0] are taken (log entry 90, DEDUCED); the lanes' step and mute marks are those of the word. Once every handler lane has
returned, the trap enables come back and the group's other entries run on. `END` ends the lanes. -/
def Obligations.HandlerReturns : Prop :=
  let returns := fun (mute stp restart : Bool) (s : State) (i : Iss) (h : Handler) (t : State) (target : Nat → Pc) =>
    let done : Prop := h.returned ||| i.e.lanes = h.lanes ∧ i.g.frontier = []
    ∃ g, getGroup t i.core i.slot = some g ∧ OnlyCores s t ∧ g.active = none ∧ g.names = i.g.names ∧
      (done → g.handler = none) ∧
      (¬done → ∃ k, g.handler = some k ∧ k.returned = h.returned ||| i.e.lanes ∧ k.lanes = h.lanes ∧ g.frontier = i.g.frontier) ∧
      (∀ l < 64, hasLane i.e.lanes l = true → ∃ e ∈ (match g.handler with | some k => k.halted | none => g.frontier),
        e.pc = target l ∧ hasLane e.lanes l = true ∧ e.park = .none) ∧
      (∀ l < 64, hasLane i.e.lanes l = true →
        (laneSt g l).step = stp ∧ (laneSt g l).mute = mute ∧ (laneSt g l).fresh = true ∧ (laneSt g l).restart = restart) ∧
      ∀ l < 64, done → hasLane h.lanes l = true →
        (laneSt g l).fmode = ((laneSt i.g l).fmode &&& ~~~(0x3E0 : Word)) ||| ((laneSt i.g l).savedTe.setWidth 32 <<< 5)
  (∀ (mute stp : Bool) s i h, Ready s i [] [] [] → i.g.handler = some h →
    ∃ t, exec (.rftRestart mute stp) s = .next t ∧
      returns mute stp (!h.hdrTrap) s i h t (fun l => if h.hdrTrap = true then i.g.traps.pc else (laneSt i.g l).rgnPc)) ∧
  (∀ (mute stp : Bool) (sa : Reg) s i h, Ready s i [sa.toNat, sa.toNat + 1] [sa.toNat, sa.toNat + 1] [] → i.g.handler = some h →
    let a := (fieldPair i.g (lowLane i.e.lanes) sa.toNat).toNat
    (a % 4 = 0 →
      ∃ t, exec (.rftGoto mute stp sa) s = .next t ∧ returns mute stp false s i h t (fun _ => BitVec.ofNat 56 a)) ∧
    (a % 4 ≠ 0 → exec (.rftGoto mute stp sa) s = .next (illegal s i i.e.lanes))) ∧
  (∀ s i h, Ready s i [] [] [] → i.g.handler = some h → i.g.kind = .compute → (getCore s i.core).boxes = [] →
    (∀ b, getBlock s i.core i.g.id.blockKey = some b → b.books = []) →
    ∃ t, exec .rftEnd s = .next t ∧
      (i.g.live &&& ~~~i.e.lanes ≠ 0 → ∃ g, getGroup t i.core i.slot = some g ∧ g.live = i.g.live &&& ~~~i.e.lanes ∧
        (h.returned ||| i.e.lanes = h.lanes → i.g.frontier = [] → g.handler = none)) ∧
      (i.g.live &&& ~~~i.e.lanes = 0 → getGroup t i.core i.slot = none)) ∧
  -- outside a handler each is illegal
  ∀ s i, Ready s i [] [] [] → i.g.handler = none →
    (∀ mute stp, exec (.rftRestart mute stp) s = .next (illegal s i i.e.lanes)) ∧ exec .rftEnd s = .next (illegal s i i.e.lanes)

/-! ### Memory instructions -/

/-- O31. R365, R367 with R59, R83, R141, R152, R161: loads issue. With every lane's access passing its checks and nothing outstanding
on the core's memory path, the operation enters the load-return path with a part for each lane, its flag is busy, and its
destinations await its value, showing the shapes that they had; an acquiring load has its value already and invalidates what its scope
asks for. That the destinations are held with their final shapes from issue on, where no instruction can read them, is the model's way
(log entry 23, DEDUCED). -/
def Obligations.LoadsIssue : Prop :=
  (∀ (w : Width) (ep : BitVec 2) (lu : Bool) (m : MArgs) s i (place : Nat → PLoc), isAp i.g = false →
    let n := widthBytes w
    let fs := addrFields m.spc m.a.toNat
    let ds := fieldsFrom m.d.toNat (wordsFor n)
    let uni := fs.all (fun f => isUniform (fieldVal i f))
    Ready s i (fs ++ ds) fs ds → HasRoom s i ds → Quiet s i.core → Passes s i (kindLoad m.spc) m.spc m.a.toNat n place →
    ∃ t g o, exec (.ld w ep lu m) s = .next t ∧ getGroup t i.core i.slot = some g ∧ (getCore t i.core).loads = [o] ∧
      o.slot = i.slot ∧ o.age = i.g.id.age ∧ o.flag = flagA i.cc ∧ o.lu = lu ∧ o.ep = ep.toNat ∧
      o.dest = .names (fullMask i) uni ∧
      (∀ l < 64, hasLane i.e.lanes l = true → ∃ p ∈ o.parts, p.lane = l ∧ p.loc = place l ∧ p.width = n ∧
        p.dests = destNames i l m.d.toNat (wordsFor n) ∧
        -- a load that no cache serves binds to what a load of the core reads now, or binds later
        ((∀ j < 64, hasLane i.e.lanes j = true → cacheable (place j).tgt (m.spc == .host) = false) → p.val = none ∨
          p.val = some (loadBytes (clearMaps s i.g g) i.core i.g.id.ctx (place l) (addrVal i m.spc l m.a.toNat) n (m.spc == .host)))) ∧
      (∀ f, flagA i.cc = some f → flagCount g f = flagCount i.g f + 1) ∧
      OtherNamesKept i g (if m.lra then fs else []) ds ∧ ShapesAre i g ds (fun _ => if uni = true then 1 else 3) ∧
      ShowsOldShapes i g (if m.lra then fs else []) ds ∧ WentOn i g 1 ∧
      (let u := clearMaps s i.g g
       (lu = false → t.mem = u.mem) ∧ t.hostMem = u.hostMem ∧ t.peerMem = u.peerMem) ∧
      (getCore t i.core).blocks = (getCore s i.core).blocks) ∧
  -- an access-processor load claims entries at the tail of its queue
  (∀ (w : Width) (ep : BitVec 2) (lu : Bool) (m : MArgs) s i (place : Nat → PLoc) a, isAp i.g = true → 120 ≤ m.d.toNat →
    m.spc = .flat ∨ m.spc = .host → (getCore s i.core).apq = some a →
    let k := wordsFor (widthBytes w)
    let fs := addrFields m.spc m.a.toNat
    let q := m.d.toNat - 120
    sget 0 a.count q + k ≤ 32 → Ready s i fs fs [] → HasRoom s i [] → Quiet s i.core →
    Passes s i (kindLoad m.spc) m.spc m.a.toNat (widthBytes w) place →
    ∃ t g o b, exec (.ld w ep lu m) s = .next t ∧ getGroup t i.core i.slot = some g ∧ (getCore t i.core).loads = [o] ∧
      o.dest = .queue q (sget 0 a.head q + sget 0 a.count q) k ∧ (getCore t i.core).apq = some b ∧
      sget 0 b.count q = sget 0 a.count q + k ∧ b.head = a.head ∧ WentOn i g 1) ∧
  ∀ (wide : Bool) (scp : Scope) (m : MArgs) s i (place : Nat → PLoc), isAp i.g = false →
    let n := if wide then 8 else 4
    let fs := addrFields m.spc m.a.toNat
    let ds := fieldsFrom m.d.toNat (wordsFor n)
    Ready s i (fs ++ ds) fs ds → HasRoom s i ds → Quiet s i.core → s.lastRel = [] →
    Passes s i (kindAcq m.spc) m.spc m.a.toNat n place →
    ∃ t g o, exec (.lda wide scp m) s = .next t ∧ getGroup t i.core i.slot = some g ∧ (getCore t i.core).loads = [o] ∧
      o.slot = i.slot ∧ o.flag = flagA i.cc ∧
      (∀ l < 64, hasLane i.e.lanes l = true → ∃ p ∈ o.parts, p.lane = l ∧ p.loc = place l ∧
        p.dests = destNames i l m.d.toNat (wordsFor n) ∧ p.val.isSome = true ∧
        ((∀ j < 64, hasLane i.e.lanes j = true → cacheable (place j).tgt (m.spc == .host) = false) →
          p.val = some ((List.range n).map (fun j => homeByte s (locAdd (place l) j))))) ∧
      (scp = .cluster ∨ scp = .device ∨ scp = .system → (getCore t i.core).l1 = []) ∧
      OtherNamesKept i g (if m.lra then fs else []) ds ∧ ShowsOldShapes i g (if m.lra then fs else []) ds ∧ WentOn i g 1 ∧
      (let u := clearMaps s i.g g
       t.mem = u.mem ∧ t.hostMem = u.hostMem ∧ t.peerMem = u.peerMem)

/-- O32. R400, R401 with R157, R160: stores enter the store buffer, one entry for each unit that a lane's bytes touch, and no byte of
any memory changes; a release carries its scope. -/
def Obligations.StoresEnterTheStoreBuffer : Prop :=
  let stored := fun (s : State) (i : Iss) (t : State) (m : MArgs) (n : Nat) (place : Nat → PLoc) (rel : Nat → Option Scope) =>
    let fs := addrFields m.spc m.a.toNat
    (∀ d, d ≠ i.core → getCore t d = getCore s d) ∧
    { getCore t i.core with groups := (getCore s i.core).groups, seq := (getCore s i.core).seq, sb := [] } = getCore s i.core ∧
    (∀ j, j ≠ i.slot → getGroup t i.core j = getGroup s i.core j) ∧
    (∀ l < 64, hasLane i.e.lanes l = true → ∀ k ∈ pieces (unitSize (place l).tgt) (place l).a n,
      ∃ e ∈ (getCore t i.core).sb, e.lane = l ∧ e.xl = .done (locAdd (place l) k.1) ∧ e.va = addrVal i m.spc l m.a.toNat + k.1 ∧
        e.bytes = ((fieldBytes i.g l m.d.toNat n).drop k.1).take k.2 ∧ e.rel = rel l) ∧
    (∀ e ∈ (getCore t i.core).sb, hasLane i.e.lanes e.lane = true ∧ e.slot = i.slot ∧ e.age = i.g.id.age ∧ e.op = .store ∧
      e.flag = flagB i.cc) ∧
    ∃ g, getGroup t i.core i.slot = some g ∧ OnlyCores (clearMaps s i.g g) t ∧
      OtherNamesKept i g (if m.lra then fs else []) [] ∧ WentOn i g 1 ∧
      ∀ f, flagB i.cc = some f → flagCount g f = flagCount i.g f + (getCore t i.core).sb.length
  (∀ (w : Width) (ep : BitVec 2) (lu : Bool) (m : MArgs) s i (place : Nat → PLoc),
    let n := widthBytes w
    let fs := addrFields m.spc m.a.toNat ++ fieldsFrom m.d.toNat (wordsFor n)
    Ready s i fs fs [] → HasRoom s i [] → Quiet s i.core → Passes s i (kindStore m.spc) m.spc m.a.toNat n place →
    ∃ t, exec (.st w ep lu m) s = .next t ∧ stored s i t m n place (fun _ => none)) ∧
  ∀ (wide : Bool) (scp : Scope) (m : MArgs) s i (place : Nat → PLoc),
    let n := if wide then 8 else 4
    let fs := addrFields m.spc m.a.toNat ++ fieldsFrom m.d.toNat (wordsFor n)
    Ready s i fs fs [] → HasRoom s i [] → Quiet s i.core → Passes s i (kindRel m.spc) m.spc m.a.toNat n place →
    ∃ t, exec (.stl wide scp m) s = .next t ∧
      stored s i t m n place (fun l => some (match (place l).tgt with | .peer _ => .system | _ => scp))

/-- O33. R330, R382: atomics and reductions. An atomic of one lane reads the word at its home and replaces it by its step, with no
other byte changed; its result goes onto the load-return path. A reduction of one lane enters the combining buffer for device
memory, and acts at once on a word of scratchpad. That an atomic performs at its home in the step in which it issues is the model's
choice (log entry 24, DEDUCED), and that a reduction leaves `FSTAT` as it was its reading (log entry 73, DEDUCED). -/
def Obligations.AtomicsAndReductions : Prop :=
  let homed := fun (s : State) (p : PLoc) => match p.tgt with
    | .scr c b => (getBlock s c b).isSome = true
    | _ => True
  let elsewhere := fun (s t : State) (p : PLoc) (n : Nat) =>
    ∀ q : PLoc, q.tgt ≠ p.tgt ∨ q.a < p.a ∨ p.a + n ≤ q.a → homeRead t q 1 = homeRead s q 1
  let atomic := fun (ins : Instr) (op : AtomOp) (wide : Bool) (sb sa d : Nat) =>
    ∀ s i (place : Nat → PLoc), isAp i.g = false →
      let n := if wide then 8 else 4
      let k := if wide then 2 else 1
      let ds := fieldsFrom d k
      let srcs := [sa, sa + 1] ++ fieldsFrom sb k ++ (if op = .cas then ds else [])
      let val := fun (l f : Nat) => if wide then (fieldPair i.g l f).toNat else (fieldWord i.g l f).toNat
      Ready s i (srcs ++ ds) srcs ds → HasRoom s i ds → Quiet s i.core → Passes s i (kindAtom op) .flat sa n place →
      ∃ t g o, exec ins s = .next t ∧ getGroup t i.core i.slot = some g ∧ (getCore t i.core).loads = [o] ∧
        o.slot = i.slot ∧ o.flag = flagA i.cc ∧
        (∀ l < 64, hasLane i.e.lanes l = true → ∃ p ∈ o.parts, p.lane = l ∧ p.loc = place l ∧ p.dests = destNames i l d k ∧
          p.val.isSome = true) ∧
        OtherNamesKept i g [] ds ∧ ShowsOldShapes i g [] ds ∧ LanesAre i g (fun _ x => { x with nonRep := true }) ∧ WentOn i g 1 ∧
        ∀ l < 64, (∀ j < 64, hasLane i.e.lanes j = true ↔ j = l) → homed s (place l) →
          let u := clearMaps s i.g g
          let old := homeRead u (place l) n
          (∀ p ∈ o.parts, p.val = some old) ∧ elsewhere u t (place l) n ∧
          homeRead t (place l) n = match atomNew op wide (val l sb) (val l d) (leNat old) with
            | some v => leBytes n v
            | none => old
  (∀ (op : AtomOp) (sb sa d : Reg), atomic (.atom op sb sa d) op false sb.toNat sa.toNat d.toNat) ∧
  (∀ (op : AtomOp) (sb sa d : Reg), atomic (.atom64 op sb sa d) op true sb.toNat sa.toNat d.toNat) ∧
  ∀ (op : AtomOp) (scp : Scope) (sat cnan ftz : Bool) (sb sa : Reg) s i (place : Nat → PLoc),
    let srcs := [sa.toNat, sa.toNat + 1, sb.toNat]
    Ready s i srcs srcs [] → HasRoom s i [] → Quiet s i.core → Passes s i (kindRed op) .flat sa.toNat 4 place →
    ∃ t g, exec (.red op scp sat cnan ftz sb sa) s = .next t ∧ getGroup t i.core i.slot = some g ∧
      LanesAre i g (fun _ x => { x with nonRep := true }) ∧ WentOn i g 1 ∧
      ∀ l < 64, (∀ j < 64, hasLane i.e.lanes j = true ↔ j = l) →
        let p := place l
        let x := fieldWord i.g l sb.toNat
        let u := clearMaps s i.g g
        (p.tgt = .dev → t.mem = u.mem ∧ ∃ e, (getCore t i.core).comb = [e] ∧ e.granule = p.a / 32 * 32 ∧ e.op = op ∧
          e.ftz = ftz ∧ e.cnan = cnan ∧ e.sat = sat ∧ e.words = [(p.a % 32 / 4, x)] ∧ e.ctx = i.g.id.ctx) ∧
        (∀ c b, p.tgt = .scr c b → (getBlock s c b).isSome = true → elsewhere u t p 4 ∧ (getCore t i.core).comb = [] ∧
          homeRead t p 4 = leBytes 4 (redStep op ftz cnan sat (BitVec.ofNat 32 (leNat (homeRead u p 4))) x).toNat)

/-- O34. R346, R347, R377, R378: fences, pops of an access queue, and the test of presence. -/
def Obligations.FencesPopsAndPresence : Prop :=
  let fenced := fun (s : State) (i : Iss) (t : State) (scp : Scope) =>
    ∃ g, getGroup t i.core i.slot = some g ∧ (∀ n, getName g n = getName i.g n) ∧ WentOn i g 1 ∧
      t.mem = s.mem ∧ t.hostMem = s.hostMem ∧ t.peerMem = s.peerMem ∧
      (scp = .cluster ∨ scp = .device ∨ scp = .system → (getCore t i.core).l1 = []) ∧
      (scp = .device ∨ scp = .system → ∀ n ∈ l2Slices s i.g.id.ctx (clusterOf i.core), ∀ p ∈ (getCluster t n).l2,
        p.2.ctx ≠ i.g.id.ctx)
  (∀ (scp : Scope) s i, Ready s i [] [] [] → Quiet s i.core →
    ∃ t, exec (.fence scp) s = .next t ∧ fenced s i t scp ∧ t.pins = s.pins) ∧
  (∀ (scp : Scope) (sb sa : Reg) s i, Ready s i [sa.toNat, sa.toNat + 1, sb.toNat] [sa.toNat, sa.toNat + 1, sb.toNat] [] →
    Quiet s i.core →
    let len := fun l => (fieldWord i.g l sb.toNat).toNat
    ((∀ l < 64, hasLane i.e.lanes l = true → len l ≤ 2 ^ 24) →
      ∃ t, exec (.fenceUnpin scp sb sa) s = .next t ∧ fenced s i t scp ∧
        -- a pin of the context on a line that some lane's range overlaps goes, and no other
        ∀ p, p ∈ t.pins ↔ p ∈ s.pins ∧ ¬(p.ctx = i.g.id.ctx ∧ ∃ l < 64, hasLane i.e.lanes l = true ∧
          ∃ r ∈ devRanges s i.g.id.ctx (len l / 4096 + 2) (fieldPair i.g l sa.toNat).toNat (len l),
            r.1 < p.line * 128 + 128 ∧ p.line * 128 < r.1 + r.2)) ∧
    ((∃ l < 64, hasLane i.e.lanes l = true ∧ 2 ^ 24 < len l) →
      ∃ m : LaneSet, exec (.fenceUnpin scp sb sa) s = .next (illegal s i m))) ∧
  -- QPOP: word l of the head entry, which leaves the queue; an access processor parked at a full queue returns
  (∀ (q : BitVec 3) (d : Reg) s i a p, Ready s i [d.toNat] [] [d.toNat] → HasRoom s i [d.toNat] → isAp i.g = false →
    launchHasAp s i.g = true → queueFor s i.core i.g = some a → headEntry s i.core a q.toNat = some p → poisonIn s p 256 = none →
    ∃ t g b, exec (.qpop q d) s = .next t ∧ getGroup t i.core i.slot = some g ∧ OnlyCores (clearMaps s i.g g) t ∧
      LanesHold i g [d.toNat] (fun _ l => wordOf (homeRead s p 256) l) ∧ ShapesAre i g [d.toNat] (fun _ => 3) ∧
      OtherNamesKept i g [] [d.toNat] ∧ LanesAre i g (fun _ x => { x with nonRep := true }) ∧ WentOn i g 1 ∧
      (getCore t i.core).apq = some b ∧ sget 0 b.head q.toNat = (sget 0 a.head q.toNat + 1) % 32 ∧
      sget 0 b.count q.toNat = sget 0 a.count q.toNat - 1 ∧
      ∀ x, getGroup s i.core Config.apSlot = some x → x.gpark = .fullQueue → i.slot ≠ Config.apSlot →
        ∃ y, getGroup t i.core Config.apSlot = some y ∧ y.gpark = .none) ∧
  -- QPOP at an empty queue parks the lanes at the word
  (∀ (q : BitVec 3) (d : Reg) s i a, Ready s i [d.toNat] [] [d.toNat] → launchHasAp s i.g = true →
    queueFor s i.core i.g = some a → headEntry s i.core a q.toNat = none →
    exec (.qpop q d) s = .next (parkAt s i i.e.lanes (.emptyQueue q.toNat))) ∧
  -- PRES: 0 for a scratchpad line that is not present, else 1, for an address of SPC 3 in the aperture too; the model counts the use of
  -- a free value (log entry 18)
  ∀ (m : MArgs) s i, isAp i.g = false →
    let fs := addrFields m.spc m.a.toNat
    let addr := fun l => addrVal i m.spc l m.a.toNat
    let tgt := fun l => if m.spc = .host ∧ addr l < 2 ^ 56 then .flat (addr l) else targetOf s i.core i.g m.spc (addr l) 1
    Ready s i (fs ++ [m.d.toNat]) fs [m.d.toNat] →
    (HasRoom s i [m.d.toNat] → (∀ l < 64, hasLane i.e.lanes l = true → (∃ va, tgt l = .flat va) ∨ ∃ p cl, tgt l = .scr p cl) →
      ∃ t, exec (.pres m) s = .next t ∧ WritesNames { s with freeCtr := s.freeCtr + 1 } i t (if m.lra then fs else []) [m.d.toNat]
        (fun _ l => match tgt l with
          | .scr p _ => if absentLines s p 1 = [] then 1 else 0
          | _ => 1) (fun _ => 3) (fun _ => 0) 1) ∧
    -- and PERM where a load of one byte would trap so by its address alone
    ∀ l < 64, hasLane i.e.lanes l = true → tgt l = .perm → (∀ j < l, hasLane i.e.lanes j = true → tgt j ≠ .perm) →
      ∃ x : LaneSet, exec (.pres m) s = .next (trapWord s i causePerm x (addr l) 0) ∧
        ∀ j < 64, hasLane x j = true ↔ hasLane i.e.lanes j = true ∧ tgt j = .perm

/-- O35. R83, R145, R154, R157: the events of the memory path. A load's bound values reach its names and its flag clears; a store at
the head of the buffer reaches its home, where it changes its own bytes alone; a slice's newer bytes reach their home; an entry of
the combining buffer that is 1,024 cycles old is applied. -/
def Obligations.MemoryPathEvents : Prop :=
  let elsewhere := fun (s t : State) (p : PLoc) (n : Nat) =>
    ∀ q : PLoc, q.tgt ≠ p.tgt ∨ q.a < p.a ∨ p.a + n ≤ q.a → homeRead t q 1 = homeRead s q 1
  -- LOAD_RETURN
  (∀ s core k o g full uni, (getCore s core).loads[k]? = some o → o.dest = .names full uni →
    (∀ p ∈ o.parts, p.val.isSome = true ∧ p.lane < 64 ∧ p.dests.Nodup ∧ ∀ n ∈ p.dests, n < 1024) →
    groupOfAge s core o.slot o.age = some g →
    ∃ t h, exec (.loadReturn core k) s = .next t ∧ getGroup t core o.slot = some h ∧ OnlyCores (clearMaps s g h) t ∧
      (getCore t core).loads = (getCore s core).loads.filter (fun d => d.id != o.id) ∧
      (∀ f, o.flag = some f → flagCount h f = flagCount g f - 1) ∧
      (∀ n, (∀ p ∈ o.parts, n ∉ p.dests) → getName h n = getName g n) ∧
      ((full && uni) = false → (o.parts.map (·.lane)).Nodup → ∀ p ∈ o.parts, ∀ v, p.val = some v →
        ∀ j n, p.dests[j]? = some n → shapedAt (getName h n).val p.lane = wordOf v j) ∧
      ((full && uni) = true → ∀ v ns, o.parts ≠ [] → (∀ p ∈ o.parts, p.val = some v ∧ p.dests = ns) →
        ∀ j n, ns[j]? = some n → (getName h n).val = .uniform (wordOf v j))) ∧
  -- STORE_BUFFER_DRAIN
  (∀ s core e p, (getCore s core).sb = [e] → e.op = .store → e.xl = .done p → (getCore s core).loads = [] → (getCore s core).comb = [] → s.peerOut = [] →
    (∀ n, ∀ x ∈ (getCluster s n).l2, x.2.dirty = 0) →
    (∃ c b, p.tgt = .scr c b ∧ (getBlock s c b).isSome = true) ∨
      (p.tgt = .dev ∧ e.snoop = false ∧ l2Slice s e.ctx (clusterOf core) (p.a / 128) = none) →
    ∃ t, exec (.storeBufferDrain core 0) s = .next t ∧ (getCore t core).sb = [] ∧
      homeRead t p e.bytes.length = e.bytes ∧ elsewhere s t p e.bytes.length ∧
      ∀ g f, groupOfAge s core e.slot e.age = some g → e.flag = some f →
        ∃ h, getGroup t core e.slot = some h ∧ flagCount h f = flagCount g f - 1) ∧
  -- L2_WRITE_BACK, of a sector of device memory that one context alone has in the slice
  (∀ s n sec x (c : Ctx), sec < 2 ^ 55 → c.wing < 32 → c.ten < 8 → fget (getCluster s n).l2 (l2Key c sec) = some x → x.dirty ≠ 0 →
    x.bytes.length = 32 → (∀ p ∈ (getCluster s n).l2, p.1 / 256 = sec → p.1 = l2Key c sec) →
    ∃ t y, exec (.l2WriteBack n sec) s = .next t ∧ fget (getCluster t n).l2 (l2Key c sec) = some y ∧ y.dirty = 0 ∧ y.bytes = x.bytes ∧
      (∀ j < 32, memByte t.mem (32 * sec + j) = if x.dirty.getLsbD j = true then x.bytes.getD j 0 else memByte s.mem (32 * sec + j)) ∧
      ∀ a, a / 32 ≠ sec → memByte t.mem a = memByte s.mem a) ∧
  -- COMBINE_AGE_FLUSH
  (∀ s core e k x, (getCore s core).comb = [e] → (getCore s core).sb = [] → e.words = [(k, x)] →
    (∀ n, ∀ y ∈ (getCluster s n).l2, y.2.dirty = 0) →
    (e.born + 1024 ≤ s.clock → ∃ t, exec (.combineAgeFlush core) s = .next t ∧ (getCore t core).comb = [] ∧
      (let p : PLoc := ⟨.dev, e.granule + 4 * k⟩
       homeRead t p 4 = leBytes 4 (redStep e.op e.ftz e.cnan e.sat (BitVec.ofNat 32 (leNat (homeRead s p 4))) x).toNat ∧
       elsewhere s t p 4)) ∧
    (s.clock < e.born + 1024 → exec (.combineAgeFlush core) s = .next s)) ∧
  -- LINE_PRESENT: the last outstanding write of a line has landed
  (∀ s core key line b, getBlock s core key = some b → sget 0 b.absent line = 1 →
    ∃ t d, exec (.linePresent core key line) s = .next t ∧ OnlyCores s t ∧ getBlock t core key = some d ∧
      sget 0 d.absent line = 0 ∧ (∀ n, n ≠ line → sget 0 d.absent n = sget 0 b.absent n) ∧ d.mem = b.mem ∧
      ∀ c, clusterOf c = clusterOf core → ∀ k g, getGroup t c k = some g → ∀ e ∈ g.frontier, ∀ ls, e.park = .absent ls →
        (⟨.scr core key, line⟩ : PLoc) ∉ ls) ∧
  -- CLOAK_FILL_COMPLETE: a spilled name comes back with its shape, its bit in the map is cleared, and the group returns to the pool
  ∀ s core slot g n bs u, getGroup s core slot = some g → g.gpark = .fill [n] → n < 1024 → fillPoison s core slot n = none →
    devRead s g.id.ctx (g.id.cloak + 0x1000 + 256 * n) (payloadLen (getName g n).val) = .ok bs →
    putMaps (devTouch s g.id.ctx (g.id.cloak + 0x1000 + 256 * n) (payloadLen (getName g n).val))
      (setName g n { getName g n with val := unpayload (getName g n).val bs, spilled := false }) n true = .ok u →
    (usedSlots (getCore s core) g.id.ctx).1 + 2 ≤ (poolRoom (splitWing s g.id.ctx.wing)).1 →
    (usedSlots (getCore s core) g.id.ctx).2 + 1 ≤ (poolRoom (splitWing s g.id.ctx.wing)).2 →
    ∃ t h, exec (.cloakFillComplete core slot) s = .next t ∧ OnlyGroup u t core slot ∧ getGroup t core slot = some h ∧
      h.gpark = .none ∧ (getName h n).val = unpayload (getName g n).val bs ∧ (getName h n).spilled = false ∧
      ∀ m, m ≠ n → getName h m = getName g m

/-! ### Engines -/

/-- O36. R338, R405, R407, R352 with R141, R171, R223: the copy, load, store and gate instructions enter their queue. The operation
stands last in the cluster's engine queue, or in the reservation table, with the operands of the lowest lane, its ranges in the
vitrine, and the clause's flag busy; no byte of memory changes at issue. That the descriptor of a copy into an access queue lies in
the block that holds the queue is the model's reading (log entry 35, DEDUCED), and so is that an instruction which acts once looks at
the names of its lowest lane alone (log entry 36, DEDUCED). -/
def Obligations.EngineInstructionsEnterTheirQueues : Prop :=
  -- COPY
  (∀ (sa : Reg) s i p bs, ReadyLow s i [sa.toNat] → HasRoom s i [] →
    let o := (lowWord i sa.toNat).toNat
    let n := clusterOf i.core
    let d := copyDesc bs
    let so := engOperand s i.core i.g d.saddr (srcSpan d) false
    let dd := engOperand s i.core i.g d.daddr (dstSpan d) true
    let sc := if d.scaled then engOperand s i.core i.g d.scales (sclSpan d) false else .mem
    -- the descriptor is readable
    o % 16 = 0 → (∃ c, scrTarget s i.core i.g.id.blockKey o 48 false = .scr p c) →
    placeChecks s i.core i.g (lowLane i.e.lanes) (kindLoad .loc) (some p) o (watchAddr .loc o) 48 = .ok p →
    bs = loadBytes s i.core i.g.id.ctx p o 48 false →
    -- it is legal (R240), and its operands may be accessed
    copyFields d (fieldAt bs 0x24 4) = true → operandsMeet so dd d.saddr (srcSpan d) d.daddr (dstSpan d) = false →
    (d.cvt ≠ 0 ∨ d.scaled = true → copyAligned d false = true) → so ≠ .bad → dd ≠ .bad → sc ≠ .bad → so ≠ .wait → sc ≠ .wait →
    (∀ b, d.bar = some b → let w := engLocal s i.core i.g b 4
      b % 4 = 0 ∧ w ≠ .bad ∧ operandsMeet so w d.saddr (srcSpan d) (Config.apertureBase + b) 4 = false ∧
      operandsMeet dd w d.daddr (dstSpan d) (Config.apertureBase + b) 4 = false) →
    ownsCopy s i.core i.g.id.ctx.wing = true → vitRoom s n 3 = true →
    ∃ t q, exec (.copy sa) s = .next t ∧ Posted1 i t ∧ (getCluster t n).queue = (getCluster s n).queue ++ [q] ∧
      q.kind = .copy d ∧ q.id = (getCluster s n).nextOp ∧ q.flag = flagA i.cc ∧ q.started = false ∧ q.src = operandPlace so ∧
      q.dst = operandPlace dd ∧ q.fmode = (laneSt i.g (lowLane i.e.lanes)).fmode ∧
      (∃ vs, (getCluster t n).vit = (getCluster s n).vit ++ vs ∧ ∀ v ∈ vs, v.op = q.id) ∧ MemKept s i t) ∧
  -- COPY into an access queue
  (∀ (qn : BitVec 3) (sa : Reg) s i p bs a, ReadyLow s i [sa.toNat] → HasRoom s i [] → isAp i.g = true →
    (getCore s i.core).apq = some a →
    let o := (lowWord i sa.toNat).toNat
    let n := clusterOf i.core
    let d := copyDesc bs
    let so := engOperand s i.core i.g d.saddr (srcSpan d) false
    let sc := if d.scaled then engOperand s i.core i.g d.scales (sclSpan d) false else .mem
    let k := (dstTotal d + 255) / 256
    o % 16 = 0 → (∃ c, scrTarget s i.core a.holder o 48 false = .scr p c) →
    placeChecks s i.core i.g (lowLane i.e.lanes) (kindLoad .loc) (some p) o (watchAddr .loc o) 48 = .ok p →
    bs = loadBytes s i.core i.g.id.ctx p o 48 false →
    copyFields d (fieldAt bs 0x24 4) = true → dstTotal d ≤ 8192 →
    (d.cvt ≠ 0 ∨ d.scaled = true → copyAligned d true = true) → so ≠ .bad → sc ≠ .bad → so ≠ .wait → sc ≠ .wait →
    ownsCopy s i.core i.g.id.ctx.wing = true → vitRoom s n 3 = true → sget 0 a.count qn.toNat + k ≤ Config.queueEntries →
    ∃ t q b, exec (.copyQueue qn sa) s = .next t ∧ Posted1 i t ∧ (getCluster t n).queue = (getCluster s n).queue ++ [q] ∧
      q.kind = .queue d qn.toNat (sget 0 a.head qn.toNat + sget 0 a.count qn.toNat) k ∧ q.block = a.holder ∧
      (getCore t i.core).apq = some b ∧ sget 0 b.count qn.toNat = sget 0 a.count qn.toNat + k ∧ b.head = a.head ∧ MemKept s i t) ∧
  -- TLD
  (∀ (sc : Option (BitVec 2 × ElemW)) (sb sa : Reg) s i,
    ReadyLow s i [sa.toNat, sa.toNat + 1, sb.toNat, sb.toNat + 1] → HasRoom s i [] → i.g.handler = none →
    let a := (lowPair i sa.toNat).toNat
    let off := (lowWord i sb.toNat).toNat
    let pitch := (lowWord i (sb.toNat + 1)).toNat
    let n := clusterOf i.core
    let so := engOperand s i.core i.g a (63 * pitch + 64) false
    let d := engLocal s i.core i.g off 4096
    operandsMeet so d a (63 * pitch + 64) (Config.apertureBase + off) 4096 = false → off % 256 = 0 → a % 32 = 0 → pitch % 32 = 0 →
    so ≠ .bad → so ≠ .wait → d ≠ .bad → ownsCopy s i.core i.g.id.ctx.wing = true → vitRoom s n 2 = true →
    ∃ t q, exec (.tld sc sb sa) s = .next t ∧ Posted1 i t ∧ (getCluster t n).queue = (getCluster s n).queue ++ [q] ∧
      q.kind = .tld a pitch off (sc.map (fun k => (sget 0 i.g.scales k.1.toNat, k.2))) ∧ q.src = operandPlace so ∧
      q.dst = operandPlace d ∧ MemKept s i t) ∧
  -- TST
  (∀ (f : TstFmt) (free : Bool) (tn : BitVec 3) (sb sa : Reg) s i p,
    ReadyLow s i [sa.toNat, sa.toNat + 1, sb.toNat] → HasRoom s i [] → i.g.handler = none → fget i.g.tiles tn.toNat = some p →
    let a := (lowPair i sa.toNat).toNat
    let pitch := (lowWord i sb.toNat).toNat
    let n := clusterOf i.core
    let o := engOperand s i.core i.g a (63 * pitch + tstRow f) true
    SeatFree s n → tstRow f ≤ pitch → a % 32 = 0 → pitch % 32 = 0 → o ≠ .bad → vitRoom s n 1 = true →
    ∃ t q, exec (.tst f free tn sb sa) s = .next t ∧ Posted1 i t ∧ (getCluster t n).resv = (getCluster s n).resv ++ [q] ∧
      q.kind = .tst f a pitch (if free then some tn.toNat else none) ∧ q.tile = p ∧ q.dst = operandPlace o ∧
      q.id = (getCluster s n).nextOp ∧ MemKept s i t) ∧
  -- GATE on a state in scratchpad, with a separate output for `LSTM`
  ∀ (pr : GateProg) (tn : BitVec 3) (sa : Reg) s i p q, i.g.handler = none → HasRoom s i [] →
    let outF := match pr with
      | .lstm r => some r.toNat
      | _ => none
    let off := (lowWord i sa.toNat).toNat
    let len := 256 * gateWidth pr
    let n := clusterOf i.core
    ReadyLow s i (sa.toNat :: outF.toList) → fget i.g.tiles tn.toNat = some p → SeatFree s n → vitRoom s n 3 = true →
    off ≠ 0xFFFFFFFF → off % 256 = 0 → engLocal s i.core i.g off len = .scr q →
    (∀ f, outF = some f → (lowWord i f).toNat ≠ 0xFFFFFFFF ∧ (lowWord i f).toNat % 256 = 0 ∧
      engLocal s i.core i.g (lowWord i f).toNat len ≠ .bad ∧ rangesMeet off len (lowWord i f).toNat len = false) →
    ∃ t o, exec (.gate pr tn sa) s = .next t ∧ Posted1 i t ∧ (getCluster t n).resv = (getCluster s n).resv ++ [o] ∧ o.tile = p ∧
      o.kind = .gate pr (.scratch i.g.id.blockKey q.a) (outF.map (fun f => (lowWord i f).toNat)) false ∧ MemKept s i t

/-- O37. R390, R406, R355, R373, R391 with R215, R216, R220, R221: scale registers, tiles, guestbooks, matrix operations and scans. That a later
signature is compared with the mask as first declared is the model's reading (log entry 38, DEDUCED), and so is that an instruction
which acts once looks at the names of its lowest lane alone (log entry 36, DEDUCED). -/
def Obligations.MatrixAndScanInstructions : Prop :=
  -- SCALE
  (∀ (k : BitVec 2) (sa : Reg) s i, ReadyLow s i [sa.toNat] → HasRoom s i [] →
    ∃ t, exec (.scale k sa) s = .next t ∧ LeavesNames s i t fun g => sget 0 g.scales k.toNat = lowWord i sa.toNat ∧
      (∀ j, j ≠ k.toNat → sget 0 g.scales j = sget 0 i.g.scales j) ∧ OtherNamesKept i g [] [] ∧ LanesKept i g (fun _ => 0) ∧
      WentOn i g 1) ∧
  -- TNEW: a tile of zeros
  (∀ (tn : BitVec 3) s i p, ReadyLow s i [] → HasRoom s i [] → i.g.handler = none →
    let n := clusterOf i.core
    (∀ x ∈ (getCluster s n).tileGrants, x.1 ≠ issReq i) → ahead s i.g.id.ctx (issReq i) (getCluster s n).tileReqs = [] →
    freeTile s n i.g.id.ctx = some p →
    ∃ t g, exec (.tnew tn) s = .next t ∧ getGroup t i.core i.slot = some g ∧ fget g.tiles tn.toNat = some p ∧
      (∀ k, k ≠ tn.toNat → fget g.tiles k = fget i.g.tiles k) ∧ fget (getCluster t n).tiles p = some ⟨i.g.id.ctx, []⟩ ∧
      LanesAre i g (fun _ x => { x with nonRep := true }) ∧ OtherNamesKept i g [] [] ∧ WentOn i g 1 ∧ MemKept s i t) ∧
  -- GBSIGN in lane mode, where no lane of the group stands at the guestbook
  (∀ (k : BitVec 2) (sa : Reg) s i, ReadyLow s i [sa.toNat, sa.toNat + 1] → HasRoom s i [] → i.g.handler = none →
    (getBlock s i.core i.g.id.blockKey).isSome = true → bookEntries i.g k.toNat = [] →
    let d := lowPair i sa.toNat
    i.e.lanes &&& ~~~i.g.live = 0 → d ≠ 0 →
    (getBook s i.core i.g.id.blockKey k.toNat = none → i.e.lanes &&& ~~~d = 0 →
      ∃ t b, exec (.gbsign k sa) s = .next t ∧ getBook t i.core i.g.id.blockKey k.toNat = some b ∧ b.blk = false ∧ b.orig = d ∧
        b.decl = d &&& i.g.live ∧ b.signed = i.e.lanes ∧ b.owner = i.slot ∧ b.lastLanes = i.e.lanes ∧
        ∃ g, getGroup t i.core i.slot = some g ∧ LanesAre i g (fun _ x => { x with nonRep := true }) ∧ WentOn i g 1) ∧
    (∀ b, getBook s i.core i.g.id.blockKey k.toNat = some b → b.blk = false → b.orig = d → b.owner = i.slot → b.decl ≠ 0 →
      i.e.lanes &&& ~~~b.decl = 0 →
      ∃ t, exec (.gbsign k sa) s = .next t ∧ getBook t i.core i.g.id.blockKey k.toNat =
        some { b with signed := b.signed ||| i.e.lanes, lastSlot := i.slot, lastLanes := i.e.lanes }) ∧
    -- another declaration traps
    ∀ b, getBook s i.core i.g.id.blockKey k.toNat = some b → b.orig ≠ d →
      exec (.gbsign k sa) s = .next (illegal s i i.e.lanes)) ∧
  -- GBSIGN in group mode: the first signature of several
  (∀ (k : BitVec 2) (sa : Reg) s i x, ReadyLow s i [sa.toNat] → HasRoom s i [] → i.g.handler = none → i.g.kind = .compute →
    (getBlock s i.core i.g.id.blockKey).isSome = true → getBook s i.core i.g.id.blockKey k.toNat = none →
    getLaunch s i.g.id.ctx i.g.id.launch = some x →
    let d := (lowWord i sa.toNat).toNat
    2 ≤ d → d ≤ 16 → d ≤ x.groups →
    ∃ t b, exec (.gbsignBlk k sa) s = .next t ∧ getBook t i.core i.g.id.blockKey k.toNat = some b ∧ b.blk = true ∧
      b.decl.toNat = d ∧ b.groups = [i.g.id.group] ∧
      ∃ g, getGroup t i.core i.slot = some g ∧ LanesAre i g (fun _ y => { y with nonRep := true }) ∧ WentOn i g 1) ∧
  -- MMA without a guestbook: the operation enters with its fragments captured
  (∀ (m : MmaArgs) s i p, m.guest = none → ReadyLow s i (mmaFields m) → HasRoom s i [] → i.g.handler = none →
    fget i.g.tiles m.tile.toNat = some p →
    let n := clusterOf i.core
    let frag := fun (k : BitVec 3) => (List.range 16).map (fun j => (List.range 64).map (fun l =>
      match nameIx i.g (lowLane i.e.lanes) (16 * k.toNat + j) with
      | some x => shapedAt (getName i.g x).val l
      | none => 0))
    SeatFree s n →
    ∃ t q, exec (.mma m) s = .next t ∧ Posted1 i t ∧ (getCluster t n).resv = (getCluster s n).resv ++ [q] ∧ q.tile = p ∧
      q.id = (getCluster s n).nextOp ∧ q.flags = (flagA i.cc).toList ∧ q.fmode = (laneSt i.g (lowLane i.e.lanes)).fmode ∧
      (∃ sa sb, q.kind = .mma m.ta m.tb (frag m.afrag) (frag m.bfrag) sa sb ∧ (m.scaled = false → sa = 0 ∧ sb = 0)) ∧
      MemKept s i t) ∧
  -- MMA at a guestbook that nobody has signed: the lanes park at the word, with their flag busy
  (∀ (m : MmaArgs) (k : BitVec 2) s i, m.guest = some k → ReadyLow s i (mmaFields m) → i.g.handler = none →
    bookEntries i.g k.toNat = [] → getBook s i.core i.g.id.blockKey k.toNat = none →
    ∃ t, exec (.mma m) s = .next t ∧ Leaves s i t fun g => g.active = none ∧
      (∃ e ∈ g.frontier, e.pc = i.e.pc ∧ e.park = .guestbook k.toNat m ∧ i.e.lanes &&& ~~~e.lanes = 0) ∧
      LanesAre i g (fun _ x => { x with nonRep := true }) ∧ ∀ f, flagA i.cc = some f → flagCount g f = flagCount i.g f + 1) ∧
  -- SCAN: h in the active lanes, the carry-out in all 64 lanes of the names after
  ∀ (k : Bool) (r : R3) s i, isAp i.g = false → oneView i = true →
    let as := fieldsFrom r.sa.toNat 3
    let cs := fieldsFrom r.sb.toNat (if k then 2 else 1)
    let ds := fieldsFrom r.d.toNat (if k then 4 else 2)
    let scanned := fun (t : State) (hin : Dw) (rels : List Nat) (f : LaneSt → LaneSt) (rest : Group → Prop) =>
      let h := fun l => ((scanAll i k r.sa.toNat hin).getD l none).getD ⟨0, 0, 0⟩
      let out := h (highLane i.e.lanes)
      ∃ g, getGroup t i.core i.slot = some g ∧ rest g ∧ OtherNamesKept i g rels ds ∧ ShapesAre i g ds (fun _ => 3) ∧ WentOn i g 1 ∧
        LanesAre i g (fun l x => { f x with fstat := x.fstat ||| ((h l).fl.setWidth 32) }) ∧
        LanesHold i g [r.d.toNat] (fun _ l => bw (h l).hi) ∧ (k = true → LanesHold i g [r.d.toNat + 1] (fun _ l => bw (h l).lo)) ∧
        (k = false → ∀ n ∈ namesOf i (r.d.toNat + 1), ∀ l < 64, shapedAt (getName g n).val l = bw out.hi) ∧
        (k = true → ∀ n ∈ namesOf i (r.d.toNat + 2), ∀ l < 64, shapedAt (getName g n).val l = bw out.hi) ∧
        (k = true → ∀ n ∈ namesOf i (r.d.toNat + 3), ∀ l < 64, shapedAt (getName g n).val l = bw out.lo)
    let untrapped := fun (hin : Dw) => ∀ l < 64, hasLane i.e.lanes l = true →
      (((scanAll i k r.sa.toNat hin).getD l none).getD ⟨0, 0, 0⟩).fl &&& trapEnables (laneSt i.g l).fmode = 0
    -- from names
    (let hin : Dw := ⟨(lowWord i r.sb.toNat).toNat, if k then (lowWord i (r.sb.toNat + 1)).toNat else 0, 0⟩
     Ready s i (as ++ cs ++ ds) (as ++ cs) ds → HasRoom s i ds → untrapped hin →
      ∃ t, exec (.scan false k r) s = .next t ∧
        scanned t hin ((if r.lra then as else []) ++ (if r.lrb then cs else [])) id
          (fun g => OnlyGroup (clearMaps s i.g g) t i.core i.slot)) ∧
    -- from the stream's `CARRY`, which takes the carry-out as a release
    ∀ st num p q a, i.g.kind = .window st num → i.g.handler = none → streamCarry s i.g.id.ctx st = .ok (a, false) →
      let n := if k then 8 else 4
      let bs := (List.range n).map (fun j => homeByte s (locAdd p j))
      let hin : Dw := ⟨leNat (bs.take 4), if k then leNat (bs.drop 4) else 0, 0⟩
      checkLane s i.core i.g (lowLane i.e.lanes) (kindAcq .flat) .flat a n = (.ok p, s) →
      checkLane s i.core i.g (lowLane i.e.lanes) (kindRel .flat) .flat a n = (.ok q, s) →
      q.a % unitSize q.tgt + n ≤ unitSize q.tgt →
      Ready s i (as ++ ds) as ds → HasRoom s i ds → Quiet s i.core → s.lastRel = [] → untrapped hin →
      ∃ t e, exec (.scan true k r) s = .next t ∧ scanned t hin (if r.lra then as else []) (fun x => { x with nonRep := true })
          (fun g => t.mem = (clearMaps s i.g g).mem) ∧
        (let out := ((scanAll i k r.sa.toNat hin).getD (highLane i.e.lanes) none).getD ⟨0, 0, 0⟩
         (getCore t i.core).sb = [e] ∧ e.xl = .done q ∧ e.rel.isSome = true ∧
         e.bytes = leBytes 4 out.hi ++ (if k then leBytes 4 out.lo else []))

/-- O38. R112, R173, R174, R216, R223, R241: the events of the engines. That a copy moves its bytes and a pass changes its tile in
the step that completes the operation is the model's choice (log entry 40, DESIGN CHOICE); the list of what each step holds names a
pass under `ENGINE_GRANT`. -/
def Obligations.EngineEvents : Prop :=
  -- ENGINE_QUEUE_START
  (∀ s n o os, (getCluster s n).queue = o :: os → o.started = false → (getTenant s o.ctx).saved = none →
    opBlocked (getCluster s n) o.id = false → eqAbsent s o = false → Quiet s o.core → ∃ t, exec (.engineQueueStart n 0) s = .next t ∧
      (getCluster t n).queue = ({ o with started := true } :: os.map (fun q => if q.id == o.id then { o with started := true } else q)) ∧
      t.mem = s.mem) ∧
  -- an operation whose ranges meet an earlier one's waits
  (∀ s n k o, (getCluster s n).queue[k]? = some o → opBlocked (getCluster s n) o.id = true →
    exec (.engineQueueStart n k) s = .next s) ∧
  -- RESERVATION_ENTER, and TILE_ALLOCATE, where no block of the cluster has a guestbook filled
  (∀ s n, (∀ c ∈ coresOf n, ∀ b ∈ (getCore s c).blocks, b.2.books = []) →
    (∀ r rs, (getCluster s n).rtReqs = r :: rs → (∀ q ∈ r :: rs, liveReq s q = true) → (getCluster s n).rtGrants = [] →
      (getCluster s n).resv.length < Config.reservationEntries →
      ∃ t, exec (.reservationEnter n) s = .next t ∧ (getCluster t n).rtReqs = rs ∧ (getCluster t n).rtGrants = [r]) ∧
    ∀ r p, (getCluster s n).tileReqs = [r] → liveReq s r = true → (getCluster s n).tileGrants = [] →
      freeTile s n (reqCtx s r) = some p →
      ∃ t, exec (.tileAllocate n) s = .next t ∧ (getCluster t n).tileReqs = [] ∧ (getCluster t n).tileGrants = [(r, p)]) ∧
  -- ENGINE_GRANT
  (∀ s n o, (getCluster s n).resv = [o] → o.started = false → (getTenant s o.ctx).saved = none →
    opBlocked (getCluster s n) o.id = false → gatePresent s o = true →
    Quiet s o.core → ∃ t, exec (.engineGrant n 0) s = .next t ∧ (getCluster t n).resv = [{ o with started := true }]) ∧
  -- ENGINE_OP_COMPLETE of a pass: every element takes the pass's blocks (R112)
  (∀ s n o ta tb fa fb sa sb v c k g, (getCluster s n).queue = [] → (getCluster s n).resv = [o] → o.started = true →
    (getTenant s o.ctx).saved = none → o.rest = none → o.kind = .mma ta tb fa fb sa sb →
    fget (getCluster s n).tiles o.tile = some ⟨o.ctx, v⟩ →
    -- a group of the cluster still names the tile
    c ∈ coresOf n → getGroup s c k = some g → o.tile ∈ fvals g.tiles →
    ∃ t w, exec (.engineOpComplete n 0) s = .next t ∧ (getCluster t n).resv = [] ∧
      fget (getCluster t n).tiles o.tile = some ⟨o.ctx, w⟩ ∧
      ∀ x < 64, ∀ y < 64, sget 0 w (64 * x + y) =
        (mmaElem ta tb (fmodeOf o.fmode).ftzo (fmodeOf o.fmode).cnan sa sb (fragRow fa x) (fragRow fb y) (sget 0 v (64 * x + y))).1) ∧
  -- ENGINE_OP_COMPLETE of a copy of one row of at most 32 bytes between scratchpad places
  (∀ s n o d p q c b k, (getCluster s n).queue = [o] → o.started = true → (getTenant s o.ctx).saved = none → o.rest = none →
    o.done = 0 → o.kind = .copy d → d.rows = 1 → 1 ≤ d.rbytes → d.rbytes ≤ 32 → d.cvt = 0 → d.scaled = false → d.bar = none →
    o.src = some p → o.dst = some q → p.tgt = .scr c b → q.tgt = .scr c b → getBlock s c b = some k → k.poison = [] →
    o.keptSrc = [] → (p.a + d.rbytes ≤ q.a ∨ q.a + d.rbytes ≤ p.a) →
    ∃ t, exec (.engineOpComplete n 0) s = .next t ∧ (getCluster t n).queue = [] ∧
      homeRead t q d.rbytes = homeRead s p d.rbytes ∧
      (∀ a, a < q.a ∨ q.a + d.rbytes ≤ a → homeRead t ⟨.scr c b, a⟩ 1 = homeRead s ⟨.scr c b, a⟩ 1) ∧ t.mem = s.mem ∧
      ∀ g f, groupOfAge s o.core o.slot o.age = some g → o.flag = some f →
        ∃ h, getGroup t o.core o.slot = some h ∧ flagCount h f = flagCount g f - 1) ∧
  -- COPY_PROGRESS: the barrier word counts what has performed, in units of 256 bytes but for the last
  ∀ s n o d b k units, (getCluster s n).queue = [o] → o.started = true → (getTenant s o.ctx).saved = none → o.rest = some [] →
    o.kind = .copy d → d.bar = some b → getBlock s o.core o.block = some k →
    let have' := dstTotal d
    let w := min (have' - o.told) (256 * units)
    let v := if o.told + w < have' then w / 256 * 256 else w
    let l : PLoc := ⟨.scr o.core o.block, b⟩
    ∃ t q, exec (.copyProgress n 0 units) s = .next t ∧ (getCluster t n).queue = [q] ∧ q.told = o.told + v ∧
      { q with told := o.told, landed := o.landed } = o ∧
      homeRead t l 4 = leBytes 4 (BitVec.ofNat 32 (leNat (homeRead s l 4)) + BitVec.ofNat 32 v).toNat ∧
      ∀ a, a < b ∨ b + 4 ≤ a → homeRead t ⟨.scr o.core o.block, a⟩ 1 = homeRead s ⟨.scr o.core o.block, a⟩ 1

/-! ### Messages -/

/-- O39. R233 to R238, R349, R387, R388, R395: forwarded registers and messages. -/
def Obligations.MessagesBetweenCores : Prop :=
  -- SEND
  (∀ (sb sa d : Reg) s i, isAp i.g = false →
    let srcs := [sa.toNat, sb.toNat, sb.toNat + 1]
    let a := (lowWord i sb.toNat).toNat
    let b := (lowWord i (sb.toNat + 1)).toNat
    let dst := a % 512
    let peer := testBit b 12
    Ready s i (srcs ++ [d.toNat]) srcs [d.toNat] → HasRoom s i [d.toNat] → Quiet s i.core → sendLegal a b = true →
    (peer = false → liveCluster s (clusterOf dst) = true ∧ (getWing s i.g.id.ctx.wing).wclu.getLsbD (clusterOf dst) = true) →
    ∃ t g o, exec (.send sb sa d) s = .next t ∧ getGroup t i.core i.slot = some g ∧
      (getCore t i.core).sends = (getCore s i.core).sends ++ [o] ∧ o.dst = dst ∧
      o.port = (if peer = true then some (b / 2 ^ 13 % 8) else none) ∧
      o.msg = ⟨a / 2 ^ 16, BitVec.ofNat 32 i.core, b % 512, (List.range 64).map (shapedAt (fieldVal i sa.toNat))⟩ ∧
      o.lanes = i.e.lanes ∧ (∀ f, flagB i.cc = some f → flagCount g f = flagCount i.g f + 1) ∧ OtherNamesKept i g [] [d.toNat] ∧
      LanesAre i g (fun _ x => { x with nonRep := true }) ∧ WentOn i g 1 ∧ MemKept s i t) ∧
  -- RPOST: a message that has come is taken, and else the receive is posted
  (∀ (sa d : Reg) s i, isAp i.g = false → i.g.handler = none →
    let srcs := [sa.toNat, sa.toNat + 1]
    let ds := fieldsFrom d.toNat 3
    let a := (lowWord i sa.toNat).toNat
    let b := (lowWord i (sa.toNat + 1)).toNat
    let src := BitVec.ofNat 32 (b / 2 ^ 12 % 16 * 2 ^ 12 + a % 512)
    Ready s i (srcs ++ ds) srcs ds → HasRoom s i ds → rpostLegal a b = true →
    ((getBox s i.core i.g.id.ctx).overflow = [] → (getBox s i.core i.g.id.ctx).posted.length < Config.postedEntries →
      ∃ t g p, exec (.rpost sa d) s = .next t ∧ getGroup t i.core i.slot = some g ∧
        (getBox t i.core i.g.id.ctx).posted = (getBox s i.core i.g.id.ctx).posted ++ [p] ∧ p.tag = a / 2 ^ 16 ∧ p.src = src ∧
        p.anyTag = testBit b 0 ∧ p.anySrc = testBit b 1 ∧ p.lanes = i.e.lanes ∧ p.flag = flagA i.cc ∧
        (∀ f, flagA i.cc = some f → flagCount g f = flagCount i.g f + 1) ∧ OtherNamesKept i g [] ds ∧ WentOn i g 1) ∧
    ∀ m, (getBox s i.core i.g.id.ctx).overflow = [m] → (testBit b 0 = true ∨ m.tag = a / 2 ^ 16) → (testBit b 1 = true ∨ m.src = src) →
      ∃ t g, exec (.rpost sa d) s = .next t ∧ getGroup t i.core i.slot = some g ∧ (getBox t i.core i.g.id.ctx).overflow = [] ∧
        LanesHold i g ds (fun f l => if f = d.toNat then payloadWord m l
          else if f = d.toNat + 1 then BitVec.ofNat 32 (m.tag * 2 ^ 16 + m.n) else m.src) ∧ OtherNamesKept i g [] ds ∧ WentOn i g 1) ∧
  -- FWD and FRECV
  (∀ (sa : Reg) s i, Ready s i [sa.toNat] [sa.toNat] [] → HasRoom s i [] →
    let c := nextCore s i.core
    (getBox s c i.g.id.ctx).inbox.length < Config.inboxEntries →
    ∃ t g, exec (.fwd sa) s = .next t ∧ getGroup t i.core i.slot = some g ∧ OnlyCores (clearMaps s i.g g) t ∧
      (getBox t c i.g.id.ctx).inbox = (getBox s c i.g.id.ctx).inbox ++ [⟨i.g.id.launch, isWindow i.g, fieldVal i sa.toNat, false⟩] ∧
      OtherNamesKept i g [] [] ∧ LanesAre i g (fun _ x => { x with nonRep := true }) ∧ WentOn i g 1) ∧
  (∀ (d : Reg) s i f fs, isAp i.g = false → Ready s i [d.toNat] [] [d.toNat] → HasRoom s i [d.toNat] →
    (getBox s i.core i.g.id.ctx).inbox = f :: fs → f.arrived = true → forwardFor i.g f = true →
    ∃ t g, exec (.frecv d) s = .next t ∧ getGroup t i.core i.slot = some g ∧ OnlyCores (clearMaps s i.g g) t ∧
      (getBox t i.core i.g.id.ctx).inbox = fs ∧ LanesHold i g [d.toNat] (fun _ l => shapedAt f.val l) ∧
      OtherNamesKept i g [] [d.toNat] ∧ LanesAre i g (fun _ x => { x with nonRep := true }) ∧ WentOn i g 1) ∧
  (∀ (d : Reg) s i, Ready s i [d.toNat] [] [d.toNat] → (getBox s i.core i.g.id.ctx).inbox = [] →
    exec (.frecv d) s = .next (parkAt s i i.e.lanes .inbox)) ∧
  -- FWD_ARRIVAL: the lanes that wait for it look again
  (∀ s c b f, (getCore s c).boxes = [b] → b.inbox = [f] → f.arrived = false →
    ∃ t, exec (.fwdArrival c) s = .next t ∧ OnlyCores s t ∧ (getCore t c).boxes = [{ b with inbox := [{ f with arrived := true }] }] ∧
      ∀ k g, getGroup t c k = some g → g.id.ctx = b.ctx → forwardFor g f = true → ∀ e ∈ g.frontier, e.park ≠ .inbox) ∧
  -- MESSAGE_ARRIVAL: a posted receive that it matches takes it, and else it waits in arrival order
  (∀ s c o os, (getCore s c).sends = o :: os → o.status = none → o.port = none → contextRuns s o.ctx = true →
    ((∀ p ∈ (getBox s o.dst o.ctx).posted, compatible p o.msg = false) →
      (getBox s o.dst o.ctx).overflow.length < Config.overflowEntries →
      ∃ t, exec (.messageArrival c 0) s = .next t ∧
        (getBox t o.dst o.ctx).overflow = (getBox s o.dst o.ctx).overflow ++ [o.msg] ∧
        ∃ q ∈ (getCore t c).sends, q.id = o.id ∧ q.status = some 0) ∧
    ∀ p g, (getBox s o.dst o.ctx).posted = [p] → compatible p o.msg = true → groupOfAge s o.dst p.slot p.age = some g →
      -- no name that it writes in part lies in the cloakroom
      (∀ n ∈ partNames g p.dests, (getName g n).spilled = false) → (p.dests.map (·.1)).Nodup → (∀ d ∈ p.dests, d.1 < 64 ∧ d.2.Nodup ∧ ∀ n ∈ d.2, n < 1024) →
      ∃ t h, exec (.messageArrival c 0) s = .next t ∧ (getBox t o.dst o.ctx).posted = [] ∧ getGroup t o.dst p.slot = some h ∧
        (∀ f, p.flag = some f → flagCount h f = flagCount g f - 1) ∧ (∀ e ∈ h.frontier, e.park ≠ .receive p.id) ∧
        ∀ d ∈ p.dests, ∀ (j n : Nat) (w : Word), d.2[j]? = some n → (receiveWords o.msg d.1)[j]? = some w → shapedAt (getName h n).val d.1 = w) ∧
  -- SEND_COMPLETE: the status reaches the lanes
  ∀ s c o os v g, (getCore s c).sends = o :: os → o.status = some v → groupOfAge s c o.slot o.age = some g → o.full = false →
    (∀ d ∈ o.dests, d.1 < 64 ∧ d.2 < 1024) → (∀ n ∈ partNames g (o.dests.map (fun d => (d.1, [d.2]))), (getName g n).spilled = false) →
    ∃ t h, exec (.sendComplete c 0) s = .next t ∧ OnlyCores (clearMaps s g h) t ∧ (∀ q ∈ (getCore t c).sends, q.id ≠ o.id) ∧
      getGroup t c o.slot = some h ∧ (∀ f, o.flag = some f → flagCount h f = flagCount g f - 1) ∧
      ∀ d ∈ o.dests, shapedAt (getName h d.2).val d.1 = v

/-! ### Windows and streams -/

/-- O40. R196, R207 to R209, R210, R411: the window instructions. `WSUSP` commits the lanes' deliveries and rests them; `WCLOSE` queues
the closes of their windows; `WINFO` and `WPANE` read what the stream knows of them; `WEMIT` appends its lanes' records, each of which
stands in the slot of the tail word, which then counts it; `STRCTL` acts on each lane's stream in ascending order. That an operation of
`STRCTL` completes where a write of the entry fails is the model's reading (log entry 46, DEDUCED). -/
def Obligations.WindowInstructions : Prop :=
  -- WSUSP, in lanes none of which executes a close entry
  (∀ s i st num k, i.g.kind = .window st num → i.g.handler = none → getStream s i.g.id.ctx st = some k → Ready s i [] [] [] →
    Quiet s i.core → EntryTakes s i.g.id.ctx st 0x78 → (∀ l < 64, hasLane i.e.lanes l = true → ∃ v, (laneSt i.g l).win = some v ∧ v.entry ≠ 4) →
    ∃ t g, exec .wsusp s = .next t ∧ getGroup t i.core i.slot = some g ∧ g.active = none ∧
      (∀ l < 64, hasLane i.e.lanes l = true →
        (∃ v w, (laneSt i.g l).win = some v ∧ (laneSt g l).win = some w ∧ w.win = v.win ∧ w.busy = false ∧ w.buf = none) ∧
        ∃ e ∈ g.frontier, e.lanes = laneBit l ∧ e.park = .resting) ∧
      (∀ n, getName g n = getName i.g n) ∧
      -- with its last busy lane the group parks
      (i.g.live ≠ 0 → i.g.gpark = .none → (∀ l < 64, laneBusy i.g l = true → hasLane i.e.lanes l = true) → g.gpark = .noDelivery)) ∧
  -- WCLOSE
  (∀ s i st num k, i.g.kind = .window st num → i.g.handler = none → getStream s i.g.id.ctx st = some k → Ready s i [] [] [] →
    HasRoom s i [] →
    ∃ t g q, exec .wclose s = .next t ∧ getGroup t i.core i.slot = some g ∧ OtherNamesKept i g [] [] ∧ WentOn i g 1 ∧ MemKept s i t ∧
      getStream t i.g.id.ctx st = some q ∧
      ∀ l < 64, hasLane i.e.lanes l = true → ∀ v w, (laneSt i.g l).win = some v → getWin k v.win = some w → v.entry ≠ 4 →
        w.trig = false → w.closed = false →
        (∃ y, getWin q v.win = some y ∧ y.early = true ∧ y.closed = true ∧ y.shut = true) ∧
        ∃ y ∈ q.items, y.win = v.win ∧ y.entry = 4) ∧
  -- WINFO and WPANE
  (∀ (d : Reg) s i st num k, i.g.kind = .window st num → getStream s i.g.id.ctx st = some k → Ready s i [d.toNat] [] [d.toNat] →
    HasRoom s i [d.toNat] →
    let val := fun (f : Win → LaneWin → Nat → Nat) (l : Nat) => (match (laneSt i.g l).win with
      | some v => match getWin k v.win with
        | some w => BitVec.ofNat 32 (f w v l)
        | none => 0
      | none => 0 : Word)
    let gives := fun (ins : Instr) (f : Win → LaneWin → Nat → Nat) =>
      let same : Prop := ∀ l < 64, hasLane i.e.lanes l = true → val f l = val f (lowLane i.e.lanes)
      ∃ t code, exec ins s = .next t ∧ WritesNames s i t [] [d.toNat] (fun _ => val f) (fun _ => code) (fun _ => 0) 1 ∧
        (code = 1 ↔ same) ∧ (code = 3 ↔ ¬same)
    gives (.winfo 0 d) (fun w _ _ => w.start) ∧ gives (.winfo 1 d) (fun w _ _ => w.start / 2 ^ 32) ∧
    gives (.winfo 2 d) (fun w _ _ => w.fin) ∧ gives (.winfo 3 d) (fun w _ _ => w.fin / 2 ^ 32) ∧
    gives (.winfo 4 d) (fun w _ _ => w.key.toNat) ∧ gives (.winfo 5 d) (fun w _ _ => w.data) ∧
    gives (.winfo 6 d) (fun _ _ l => 1024 * l) ∧ gives (.winfo 7 d) (fun w _ _ => w.lastTime) ∧
    -- outside pane mode WPANE reads 0
    (k.cfg.pane = false → ∀ sel, gives (.wpane sel d) (fun _ _ _ => 0)) ∧
    (k.cfg.pane = true →
      let p := Nat.gcd k.cfg.wlen k.cfg.wstep
      gives (.wpane 0 d) (fun w _ _ => w.start / p) ∧ gives (.wpane 1 d) (fun w _ _ => (w.start + k.cfg.wlen) / p - 1) ∧
      gives (.wpane 2 d) (fun w _ _ => w.panes) ∧
      gives (.wpane 3 d) (fun w v _ => if v.entry = 1 ∨ v.entry = 3 then w.paneCnt else 0))) ∧
  -- WEMIT, where the ring takes the record of every lane that is left
  (∀ (sa : Reg) s i u, Ready s i [sa.toNat] [sa.toNat] [] → HasRoom s i [] → Quiet s i.core → EmitsAll s i sa u →
    ∃ t, exec (.wemit sa) s = .next t ∧ EmittedAll i u t) ∧
  -- and of one lane, whose record and count come to stand in device memory
  (∀ (sa : Reg) s i st num k b c tb head l p q v, Ready s i [sa.toNat] [sa.toNat] [] → HasRoom s i [] → Quiet s i.core →
    i.g.kind = .window st num → getStream s i.g.id.ctx st = some k → getBlock s i.core i.g.id.blockKey = some b → k.cfg.outv = true →
    k.held = none →
    let x := i.g.id.ctx
    outConfig s x st k.cfg.out = .ok c → streamRead s x st c.taila 4 = .ok tb → outHead s x st k.cfg.out = .ok head →
    let a := (fieldWord i.g l sa.toNat).toNat
    let n := leNat tb % 2 ^ 32
    let slot := c.ring + n % 2 ^ c.ringlog * c.rsize
    let record := homeRead s ⟨.scr i.core i.g.id.blockKey, a⟩ c.rsize
    l < 64 → (∀ j < 64, hasLane i.e.lanes j = true ↔ j = l) → a % 16 = 0 → a + c.rsize ≤ openScratch b →
    (BitVec.ofNat 32 n - head).toNat < 2 ^ c.ringlog → poisonIn s ⟨.scr i.core i.g.id.blockKey, a⟩ c.rsize = none →
    WritableAt s x slot c.rsize p → devWrite s x slot record = .ok v → WritableAt v x c.taila 4 q → p + c.rsize ≤ q ∨ q + 4 ≤ p →
    ∃ t, exec (.wemit sa) s = .next t ∧ (∀ j < c.rsize, memByte t.mem (p + j) = record.getD j 0) ∧
      memRead t.mem q 4 = leBytes 4 (BitVec.ofNat 32 n + 1).toNat ∧
      ∀ m, (m < p ∨ p + c.rsize ≤ m) → (m < q ∨ q + 4 ≤ m) → memByte t.mem m = memByte s.mem m) ∧
  -- STRCTL
  (∀ (sa : Reg) s i, Ready s i [sa.toNat] [sa.toNat] [] → HasRoom s i [] → (fkeys i.g.names).Nodup → Quiet s i.core →
    let x := i.g.id.ctx
    let ix := fun l => (fieldWord i.g l sa.toNat).toNat
    let strn := match (getTenant s x).block with
      | some b => b.strn
      | none => 0
    -- the operation acts on each lane's stream in turn, and does not end the group that executes it
    let acts := fun (ins : Instr) (f : State → Nat → State) =>
      let u := (lanesOf i.e.lanes).foldl (fun s l => f s (ix l)) s
      (getGroup u i.core i.slot).isSome = true →
      ∃ t g, exec ins s = .next t ∧ getGroup t i.core i.slot = some g ∧ OtherNamesKept i g [] [] ∧
        LanesAre i g (fun _ y => { y with nonRep := true }) ∧ WentOn i g 1 ∧ t.mem = u.mem ∧ t.hostMem = u.hostMem ∧
        t.peerMem = u.peerMem ∧ ∀ n, getStream t x n = getStream u x n
    -- every lane's entry is there and can be read, and no fault record holds its stream
    ((∀ l < 64, hasLane i.e.lanes l = true → ix l ≤ 16383 ∧ ix l < strn ∧ streamHeld s x (ix l) = false ∧
        ∃ bs, entryRead s x (ix l) 0 128 = .ok bs) →
      acts (.strctlArm sa) (fun s n => armStream s x n) ∧
      acts (.strctlPause sa) (fun s n => statusBits s x n 0 0x40000000) ∧
      acts (.strctlResume sa) (fun s n => statusBits s x n 0x40000000 0) ∧
      acts (.strctlClrreset sa) (fun s n => stateOf (entryEdit s x n 0x68 0x80000000 0)) ∧
      ∀ l, (∀ j < 64, hasLane i.e.lanes j = true ↔ j = l) → l < 64 →
        -- PAUSE of one stream sets PAUSED in its STATUS, and nothing else
        (∀ k u, getStream s x (ix l) = some k → k.armed = true →
          devWrite s x (streamAddr s x (ix l) + 0x7C) (leBytes 4 (k.status ||| 0x40000000).toNat) = .ok u →
          ∃ t, exec (.strctlPause sa) s = .next t ∧ t.mem = u.mem ∧
            getStream t x (ix l) = some { k with status := k.status ||| 0x40000000 }) ∧
        -- ARM of one stream that is not armed, whose entry passes the check
        ∀ bs u v, (∀ k, getStream s x (ix l) = some k → k.armed = false) → entryRead s x (ix l) 0 128 = .ok bs →
          armCheck s x bs = true →
          let status := (BitVec.ofNat 32 (fieldAt bs 0x7C 4) &&& ~~~0x3C000000) ||| 0x80000000
          devWrite s x (streamAddr s x (ix l) + 0x7C) (leBytes 4 status.toNat) = .ok u →
          devWrite u x (streamCfg bs).dir (zeroBytes 64) = .ok v →
          ∃ t, exec (.strctlArm sa) s = .next t ∧ t.mem = v.mem ∧ t.hostMem = v.hostMem ∧ getStream t x (ix l) =
            some (armedStream (streamCfg bs) (BitVec.ofNat 32 (fieldAt bs 0x78 4)) status (getStream s x (ix l)))) ∧
    -- an index that the context does not have traps
    ((∃ l < 64, hasLane i.e.lanes l = true ∧ (16383 < ix l ∨ strn ≤ ix l)) →
      ∃ (m : LaneSet) (a : Nat), exec (.strctlPause sa) s = .next (trapWord s i causePerm m a 0))) ∧
  ∀ (sb sa : Reg) s i, Ready s i [sa.toNat, sb.toNat, sb.toNat + 1] [sa.toNat, sb.toNat, sb.toNat + 1] [] → HasRoom s i [] →
    (fkeys i.g.names).Nodup → Quiet s i.core →
    let x := i.g.id.ctx
    let ix := fun l => (fieldWord i.g l sa.toNat).toNat
    (∃ b, (getTenant s x).block = some b ∧ ∀ l < 64, hasLane i.e.lanes l = true → ix l ≤ 16383 ∧ ix l < b.strn ∧
      streamHeld s x (ix l) = false ∧ ∃ bs, entryRead s x (ix l) 0 128 = .ok bs) →
    let u := (lanesOf i.e.lanes).foldl (fun s l =>
      stateOf (streamWrite s x (ix l) (streamAddr s x (ix l) + 0x60) (leBytes 8 (fieldPair i.g l sb.toNat).toNat))) s
    (getGroup u i.core i.slot).isSome = true →
    ∃ t g, exec (.strctlSetcarry sb sa) s = .next t ∧ getGroup t i.core i.slot = some g ∧
      LanesAre i g (fun _ y => { y with nonRep := true }) ∧ WentOn i g 1 ∧ t.mem = u.mem ∧ t.hostMem = u.hostMem

/-- O41. R185 to R190, R199, R201: the records of a stream. The engine takes the tail word where it is in range; each record counts as
consumed, and acts by its kind: a late record is only counted, a data record goes to its session or window or into its pane, a
watermark closes the windows whose end it has reached, a reset goes to the open windows of its key, the end closes every window and
disarms, and a reserved kind is only counted. -/
def Obligations.StreamRecords : Prop :=
  ∀ s (w tn st : Nat) k,
    let x : Ctx := ⟨w, tn⟩
    getStream s x st = some k → k.armed = true → k.held = none → k.cfg.kind ≠ 3 → serving s x = true → k.owed = false →
    -- the tail word
    (∀ bs, s.lastRel = [] → streamRead s x st k.cfg.taila 4 = .ok bs →
      let v := BitVec.ofNat 32 (leNat bs)
      ((v - k.head).toNat ≤ 2 ^ k.cfg.ringlog →
        ∃ t, exec (.tailWriteSeen w tn st) s = .next t ∧ exec (.tailPoll w tn st) s = .next t ∧ getStream t x st = some { k with tail := v } ∧
          t.mem = s.mem) ∧
      (2 ^ k.cfg.ringlog < (v - k.head).toNat →
        exec (.tailPoll w tn st) s = .next (statusBits (devTouch s x k.cfg.taila 4) x st 0 0x08000000) ∧
        exec (.tailWriteSeen w tn st) s = .next (statusBits (devTouch s x k.cfg.taila 4) x st 0 0x08000000))) ∧
    -- the next record
    ∀ bs, k.next ≠ k.tail → k.status.getLsbD 30 = false → quiesced s x st = true → EntryTakes s x st 0x78 →
      streamRead s x st (k.cfg.ring + k.next.toNat % 2 ^ k.cfg.ringlog * k.cfg.rsize) k.cfg.rsize = .ok bs →
      let r := recOf k.cfg k.next bs
      let taken := fun (q : Stream) => q.next = k.next + 1 ∧ q.taken = k.taken + 1 ∧ q.cfg = k.cfg ∧ q.tail = k.tail
      let item := fun (y : Item) (wid entry data v6 : Nat) => y.win = wid ∧ y.entry = entry ∧ y.cause = k.next ∧ y.vals = recordWords r ∧
        y.time = r.time ∧ y.record = bs ∧ y.data = data ∧ y.v6.toNat = v6
      -- a late data record
      (r.kind = 0 → k.cfg.kind ≠ 0 → r.time < k.wmark → ∃ t q, exec (.dataRecord w tn st) s = .next t ∧ getStream t x st = some q ∧
        taken q ∧ q.late = bump k.late ∧ q.dir = k.dir ∧ q.items = k.items) ∧
      -- a data record of the one open session that it joins
      (r.kind = 0 → k.cfg.kind = 2 → k.wmark ≤ r.time → ∀ wid v, winsOf k = [(wid, v)] → v.key = r.key → v.shut = false →
        v.start < r.time + k.cfg.wgap → r.time < v.b + k.cfg.wgap →
        ∃ t q y, exec (.dataRecord w tn st) s = .next t ∧ getStream t x st = some q ∧ taken q ∧ q.items = k.items ++ [y] ∧
          item y wid 2 1 0 ∧ getWin q wid = some { v with
            start := min v.start r.time, b := max v.b r.time, fin := min (max v.b r.time + k.cfg.wgap) (2 ^ 64 - 1) }) ∧
      -- a data record of a window of time that is open
      (r.kind = 0 → k.cfg.kind = 1 → k.cfg.pane = false → k.wmark ≤ r.time → ∀ n wid v,
        windowsAt k.cfg.wlen k.cfg.wstep r.time = [n] → winsOf k = [(wid, v)] → v.key = r.key → v.k = n → v.shut = false →
        ∃ t q y, exec (.dataRecord w tn st) s = .next t ∧ getStream t x st = some q ∧ taken q ∧ q.items = k.items ++ [y] ∧
          item y wid 2 1 0 ∧ q.dir = k.dir) ∧
      -- a data record folded into its pane
      (r.kind = 0 → k.cfg.kind = 1 → k.cfg.pane = true → k.wmark ≤ r.time → ∀ e acc n tm,
        k.dir = [(e, .pane r.key (r.time / Nat.gcd k.cfg.wlen k.cfg.wstep) acc n tm)] →
        ∃ t q, exec (.dataRecord w tn st) s = .next t ∧ getStream t x st = some q ∧ taken q ∧ q.items = k.items ∧
          q.dir = [(e, .pane r.key (r.time / Nat.gcd k.cfg.wlen k.cfg.wstep)
            (foldStep k.cfg.fold acc (BitVec.ofNat 32 (fieldAt bs k.cfg.foldoff 4))) (n + 1) r.time)]) ∧
      -- a watermark
      (r.kind = 1 → k.wmark < r.time → k.cfg.kind ≠ 0 → k.cfg.pane = false →
        ∃ t q, exec (.watermarkRecord w tn st) s = .next t ∧ getStream t x st = some q ∧ taken q ∧ q.wmark = r.time ∧
          ∀ wid v, getWin k wid = some v → v.shut = false → v.closed = false → v.fin ≤ r.time →
            getWin q wid = some { v with trig := true, closed := true, shut := true } ∧ ∃ y ∈ q.items, y.win = wid ∧ y.entry = 4) ∧
      -- a reset
      (r.kind = 2 → k.cfg.pane = false → ∀ u, entryEdit s x st 0x68 0 0x80000000 = .ok u → EntryTakes u x st 0x78 →
        ∃ t q, exec (.resetRecord w tn st) s = .next t ∧ getStream t x st = some q ∧ taken q ∧ q.dir = k.dir ∧
          q.items = k.items ++ ((winsOf k).filter (fun v => v.2.key == r.key && !v.2.shut)).map (fun v => recordItem r v.1 false 0 false)) ∧
      -- the end
      (r.kind = 3 → panesOf k = [] → ∀ u,
        devWrite s x (streamAddr s x st + 0x7C) (leBytes 4 ((k.status &&& 0x7FFFFFFF) ||| 0x20000000).toNat) = .ok u →
        EntryTakes u x st 0x78 →
        ∃ t q, exec (.endRecord w tn st) s = .next t ∧ getStream t x st = some q ∧ taken q ∧ q.armed = false ∧
          ∀ wid v, getWin k wid = some v → ∃ y, getWin q wid = some y ∧ y.ended = true ∧ y.closed = true ∧
            (v.closed = false → ∃ z ∈ q.items, z.win = wid ∧ z.entry = 4)) ∧
      -- a reserved kind
      (4 ≤ r.kind → ∃ t q, exec (.reservedKindRecord w tn st) s = .next t ∧ getStream t x st = some q ∧ taken q ∧
        q.badkind = bump k.badkind ∧ q.dir = k.dir ∧ q.items = k.items)

/-- O42. R190, R194, R195, R202, R205, R208: the other events of a window engine. A delivery makes its window's lane busy at its
entry, with the delivery's values in `v0` to `v6` of view 0 and the record in a delivery buffer; a graft also retires the later
session; a stash takes a resting window out of its lane. -/
def Obligations.WindowEngineEvents : Prop :=
  -- enough room that nothing is spilled for the seven names
  let roomy := fun (s : State) (c : Nat) (x : Ctx) =>
    (usedSlots (getCore s c) x).1 + 14 ≤ (poolRoom (splitWing s x.wing)).1 ∧
    (usedSlots (getCore s c) x).2 + 7 ≤ (poolRoom (splitWing s x.wing)).2
  (∀ s (w tn st : Nat) k it v num l c slot g b blk,
    let x : Ctx := ⟨w, tn⟩
    getStream s x st = some k → k.owed = false → k.items = [it] → mayDeliver s x st k 0 = true → it.entry = 1 ∨ it.entry = 2 → it.record ≠ [] →
    getWin k it.win = some v → v.place = .lane num l → l < 64 → winGroup s x st num = some (c, slot, g) →
    (∀ p ∈ winGroups s x st, winNum p.2.2 = num → p = (c, slot, g)) → laneBusy g l = false →
    getGroup s c slot = some g → g.id.ctx = x → g.handler = none → freeBuffer g = some b → getBlock s c g.id.blockKey = some blk →
    roomy s c x → (∀ n < 7, (getName g n).spilled = false) →
    let buf := 0x10000 + 256 * b
    ∃ t h q, exec (.delivery w tn st 0) s = .next t ∧ getGroup t c slot = some h ∧ getStream t x st = some q ∧ q.items = [] ∧
      (∃ y, (laneSt h l).win = some y ∧ y.win = it.win ∧ y.busy = true ∧ y.entry = it.entry ∧ y.cause = it.cause ∧ y.buf = some b) ∧
      (laneSt h l).wb = 0 ∧ h.rgnCnt = g.rgnCnt + 1 ∧ (laneSt h l).rgnCnt = h.rgnCnt ∧
      (laneSt h l).rgnPc = BitVec.ofNat 56 (k.cfg.code + k.cfg.entries.getD (it.entry - 1) 0) ∧
      (∀ n < 4, shapedAt (getName h n).val l = it.vals.getD n 0) ∧ shapedAt (getName h 4).val l = BitVec.ofNat 32 buf ∧
      shapedAt (getName h 5).val l = BitVec.ofNat 32 it.time ∧ shapedAt (getName h 6).val l = it.v6 ∧
      (∃ e ∈ h.frontier, e.pc = (laneSt h l).rgnPc ∧ hasLane e.lanes l = true ∧ e.park = .none) ∧ h.gpark ≠ .noDelivery ∧
      homeRead t ⟨.scr c g.id.blockKey, buf⟩ it.record.length = it.record) ∧
  -- a graft within one window group
  (∀ s (w tn st : Nat) k it v y num l m c slot g blk,
    let x : Ctx := ⟨w, tn⟩
    getStream s x st = some k → k.owed = false → k.items = [it] → mayDeliver s x st k 0 = true → it.entry = 5 → getWin k it.win = some v →
    v.place = .lane num l → l < 64 → getWin k it.other = some y → y.place = .lane num m → m < 64 → m ≠ l → it.other ≠ it.win →
    winGroup s x st num = some (c, slot, g) → getGroup s c slot = some g → g.id.ctx = x → g.handler = none → busyLanes g = 0 →
    hasLane g.live l = true → getBlock s c g.id.blockKey = some blk → roomy s c x →
    (∀ n < 7, (getName g n).spilled = false) →
    ∃ t h q, exec (.graft w tn st 0) s = .next t ∧ getGroup t c slot = some h ∧ getStream t x st = some q ∧ q.items = [] ∧
      getWin q it.other = none ∧ h.live = g.live &&& ~~~laneBit m ∧
      (∃ z, (laneSt h l).win = some z ∧ z.win = it.win ∧ z.busy = true ∧ z.entry = 5) ∧
      homeRead t ⟨.scr c g.id.blockKey, 0x10800⟩ k.cfg.statesz = homeRead s ⟨.scr c g.id.blockKey, 1024 * m⟩ k.cfg.statesz) ∧
  -- a stash, where the window has been idle long enough
  (∀ s (w tn st wid : Nat) k v u,
    let x : Ctx := ⟨w, tn⟩
    getStream s x st = some k → getWin k wid = some v → k.cfg.idle ≠ 0 → v.touch + k.cfg.idle ≤ k.taken → serving s x = true →
    k.held = none → stashWindow s x st wid = .ok u →
    exec (.idleStash w tn st wid) s = .next u ∧
    ∃ q z n c slot g l h, getStream u x st = some q ∧ getWin q wid = some z ∧ z.place = .stash n ∧ n < k.cfg.stashn ∧
      restingAt s x st k wid = some (c, slot, g, l) ∧ getGroup u c slot = some h ∧ hasLane h.live l = false) ∧
  (∀ s (w tn st wid : Nat) k v, getStream s ⟨w, tn⟩ st = some k → getWin k wid = some v → k.cfg.idle = 0 ∨ k.taken < v.touch + k.cfg.idle →
    exec (.idleStash w tn st wid) s = .next s) ∧
  -- DIRECTORY_WRITEBACK: the header of a stream that is served, or that has changed since, goes to the directory
  (∀ s (w tn st : Nat) k h u, getStream s ⟨w, tn⟩ st = some k → k.held = none → k.owed = false → k.hdr = some h →
    let stashed := (winsOf k).filter (fun v => match v.2.place with | .stash _ => true | _ => false)
    let bs := leBytes 8 k.wmark ++ leBytes 4 k.late.toNat ++ leBytes 4 k.badkind.toNat ++ leBytes 4 k.dropdir.toNat ++
      leBytes 4 k.droplane.toNat ++ leBytes 4 (winsOf k).length ++ leBytes 4 stashed.length ++ zeroBytes 32
    (k.armed = true ∨ h ≠ bs) → devWrite s ⟨w, tn⟩ k.cfg.dir bs = .ok u →
    exec (.directoryWriteback w tn st) s = .next (setStream u ⟨w, tn⟩ st { k with hdr := some bs })) ∧
  -- WEMIT_SLOT_RESUME: a `WEMIT` with records left runs on
  ∀ s c slot sa i t, let u := { s with focusCore := c, focusSlot := slot }
    issuer u = some i → i.g.wemit ≠ 0 → i.g.gpark = .none → i.g.halt = .run → slotRuns s i.g.id.ctx = true →
    decodeWord (wordAt u i) (some 0) = .ok (.wemit sa) → exec (.wemit sa) u = .next t →
    exec (.wemitSlotResume c slot) s = .next { t with focusCore := s.focusCore, focusSlot := s.focusSlot }

/-! ### Launches, events and service calls -/

/-- O43. R3, R244, R247 to R250, R363: launches and launch events. `LAUNCH` appends a descriptor address to its queue; `EVSIG` sets or
clears an event; the scheduler reads a queue's entry, whose `QHEAD` and `BADDESC` are its own, takes up the tail, reads the head, and
starts or refuses it; a launch whose work is done and performed sets its events and is gone. The model's readings: `LAUNCH` traps `PERM`
with the entry's address in `TADDR` (log entry 48), a head is refused as soon as it is found bad, with the `LAUNCHID` of its start in the
record (log entry 54), and the names of the lowest lane alone are checked (log entry 36). -/
def Obligations.LaunchesAndEvents : Prop :=
  -- LAUNCH
  (∀ (n : BitVec 6) (sa : Reg) s i, ReadyLow s i [sa.toNat, sa.toNat + 1] → HasRoom s i [] →
    let x := i.g.id.ctx
    let d := (lowPair i sa.toNat).toNat
    let a := queueAddr s x n.toNat
    let k := getQueue s x n.toNat
    (badDesc d = true → exec (.launch n sa) s = .next (trapWord s i causeMisalign i.e.lanes d 0)) ∧
    (badDesc d = false → k.held = none → k.app = none → ∀ bs, devRead s x a 32 = .ok bs → devPoison s x a 32 = none →
      let e := queueEnt bs
      let u := (releaseAt (devTouch s x a 32) i.core x .device (getCore s i.core).seq).1
      (e.served = false → exec (.launch n sa) s = .next (trapWord s i causePerm i.e.lanes a 0)) ∧
      (e.served = true → Quiet s i.core → u.mem = s.mem ∧
        -- the engine's own `QHEAD` counts, once it has read it
        ((e.tail - headOf k e).toNat ≠ 2 ^ e.log →
          ∀ v w, devWrite u x (e.ring + 8 * (e.tail.toNat % 2 ^ e.log)) (leBytes 8 d) = .ok v →
            devWrite v x (a + 8) (leBytes 4 (e.tail + 1).toNat) = .ok w →
            ∃ t g, exec (.launch n sa) s = .next t ∧ MemKept w i t ∧
              getGroup t i.core i.slot = some g ∧ OtherNamesKept i g [] [] ∧ LanesAre i g (fun _ y => { y with nonRep := true }) ∧
              WentOn i g 1) ∧
        -- a full queue holds the instruction
        ((e.tail - headOf k e).toNat = 2 ^ e.log → exec (.launch n sa) s = .next (holdIssue u))))) ∧
  -- EVSIG
  (∀ (sa : Reg) s i, ReadyLow s i [sa.toNat] → HasRoom s i [] →
    let x := i.g.id.ctx
    let e := (lowWord i sa.toNat).toNat
    let b : BitVec 256 := BitVec.ofNat 256 (2 ^ e)
    let signals := fun (ins : Instr) (v : BitVec 256) => ∃ t g, exec ins s = .next t ∧ (getTenant t x).events = v ∧ MemKept s i t ∧
      getGroup t i.core i.slot = some g ∧ OtherNamesKept i g [] [] ∧ LanesAre i g (fun _ y => { y with nonRep := true }) ∧ WentOn i g 1
    (e ≤ 255 → Quiet s i.core → signals (.evsigSet sa) ((getTenant s x).events ||| b)) ∧
    (e ≤ 255 → signals (.evsigClr sa) ((getTenant s x).events &&& ~~~b)) ∧
    (255 < e → exec (.evsigSet sa) s = .next (illegal s i i.e.lanes) ∧ exec (.evsigClr sa) s = .next (illegal s i i.e.lanes))) ∧
  -- the scheduler's read of an entry: `QHEAD` and `BADDESC` are its own, and a rise of `QEN` clears the latter
  (∀ s (x : Ctx) (q : Nat) bs, s.lastRel = [] → devRead s x (queueAddr s x q) 32 = .ok bs → devPoison s x (queueAddr s x q) 32 = none →
    let e := queueEnt bs
    let k := getQueue s x q
    let bad := if e.en = true ∧ k.en = false then false else k.bad || (k.qhead.isNone && e.flags.getLsbD 31)
    ∃ u, readEntry s x q = .ok (e, u) ∧
      getQueue u x q = { k with taking := none, qhead := some (k.qhead.getD e.head), bad := bad, en := e.en } ∧
      -- nothing is written where no store has changed them
      (e.head = k.qhead.getD e.head → e.flags = (if bad = true then 0x80000000 else 0) → u.mem = s.mem)) ∧
  -- the scheduler's events, from what its read of the entry leaves
  (∀ s (w tn q : Nat) e u,
    let x : Ctx := ⟨w, tn⟩
    let k := getQueue u x q
    let head := headOf k e
    queueReady s x q = true → readEntry s x q = .ok (e, u) →
    -- QTAIL_WRITE_SEEN and QTAIL_POLL, with no head to take
    let polls := fun (t : State) => exec (.qtailPoll w tn q) s = .next t ∧ exec (.qtailWriteSeen w tn q) s = .next t
    let v := setQueue u x q { k with tail := e.tail }
    (k.head ≠ none ∨ e.served = false ∨ head = e.tail → polls v) ∧
    -- with a head: its descriptor's address and the events it waits for are kept
    (k.head = none → e.served = true → head ≠ e.tail → ∀ ds y,
      queueRead (setQueue v x q { getQueue v x q with qhead := some head, taking := some 0 }) x q (e.slot head) 8 = .ok (ds, y) →
      let d := leNat ds
      (badDesc d = true → polls (setQueue y x q { getQueue y x q with head := some ⟨d, true, 0, 0⟩, taking := none })) ∧
      (badDesc d = false → ∀ ws z,
        queueRead (setQueue y x q { getQueue y x q with taking := some d }) x q (d + 0x60) 32 = .ok (ws, z) →
        polls (setQueue z x q { getQueue z x q with head := some ⟨d, false, BitVec.ofNat 256 (leNat ws), 0⟩, taking := none }))) ∧
    -- LAUNCH_START
    ∀ h, serving s x = true → e.served = true → k.head = some h →
      let a := queueAddr s x q
      -- the start's atomic step from a state, which consumes the events given
      let counted := fun (z t : State) (gone : BitVec 256) =>
        (getQueue t x q).head = none ∧ (getQueue t x q).qhead = some ((getQueue z x q).qhead.getD 0 + 1) ∧
        (getTenant t x).launchCtr = (if (getTenant z x).launchCtr + 1 = 0xFFFFFFFF then 0 else (getTenant z x).launchCtr + 1) ∧
        (getTenant t x).events = (getTenant z x).events &&& ~~~gone
      let qheadTakes := fun (z : State) => ∃ o, devWrite z x (queueAddr z x q + 0xC) (leBytes 4 ((getQueue z x q).qhead.getD 0 + 1).toNat) = .ok o
      let refused := fun (z t : State) (gone : BitVec 256) => counted z t gone ∧ (getQueue t x q).bad = true ∧
        (getTenant t x).launches = (getTenant z x).launches ∧
        (hasFaultQueue (getWing z w) = true → ∃ r fs, (getWing t w).faults = (getWing z w).faults ++ r :: fs ∧ r.kind = 0x22 ∧
          r.addr = h.desc ∧ r.launch = (getTenant z x).launchCtr)
      (h.bad = true → qheadTakes u → ∃ t, exec (.launchStart w tn q) s = .next t ∧ refused u t h.consume) ∧
      (h.bad = false → h.waits &&& ~~~(getTenant u x).events ≠ 0 ∨ lastPlaced u x q = false →
        exec (.launchStart w tn q) s = .next u) ∧
      (h.bad = false → h.waits &&& ~~~(getTenant u x).events = 0 → lastPlaced u x q = true →
        ∀ d y, queueRead u x q h.desc 160 = .ok (d, y) →
          let gone : BitVec 256 := if testBit (fieldAt d 0x24 4) 0 = true then h.waits else 0
          let y1 := setQueue y x q { getQueue y x q with head := some { h with consume := gone } }
          (descOk d = false → qheadTakes y1 → ∃ t, exec (.launchStart w tn q) s = .next t ∧ refused y1 t gone) ∧
          (descOk d = true → ∀ kd z, queueRead y1 x q (fieldAt d 0 8) 32 = .ok (kd, z) → qheadTakes z →
            (getQueue z x q).head = some { h with consume := gone } →
            let n := (getTenant z x).launchSeq
            let l := launchOf (getTenant z x).launchCtr h.desc q e.pri d kd
            ((kernelOk kd && launchFits z x n l) = false → ∃ t, exec (.launchStart w tn q) s = .next t ∧ refused z t gone) ∧
            (kernelOk kd = true → launchFits z x n l = true →
              ∃ t, exec (.launchStart w tn q) s = .next t ∧ counted z t gone ∧ getLaunch t x n = some l ∧
                (getTenant t x).launchSeq = n + 1 ∧ (getQueue t x q).last = some n ∧
                t.mem = (putWord z x (a + 0xC) ((getQueue z x q).qhead.getD 0 + 1)).mem)))) ∧
  -- GANG_PLACE: the next gang of the launch; where it is one block of one group, that group's start
  (∀ s (w n cl : Nat) l,
    let x : Ctx := ⟨w, (getWing s w).curt.toNat⟩
    serving s x = true → (getWing s w).waiting = [] → nextLaunch (getTenant s x) = some (n, l) → getLaunch s x n = some l →
    chooseCluster s x n l = some (cl, true) → l.blocks = 1 → l.groups = 1 →
    -- the arguments find room in the pools
    (usedSlots (getCore s (4 * cl)) x).1 + 2 * l.args.length ≤ (poolRoom (splitWing s w)).1 →
    (usedSlots (getCore s (4 * cl)) x).2 + l.args.length ≤ (poolRoom (splitWing s w)).2 →
    ∃ t m k g e, exec (.gangPlace w) s = .next t ∧ getLaunch t x n = some m ∧ m.nextGang = l.nextGang + 1 ∧
      m.resident = l.resident + 1 ∧ getGroup t (4 * cl) k = some g ∧ g.kind = .compute ∧ g.id.launch = n ∧ g.id.gang = l.nextGang ∧
      g.id.block = 0 ∧ g.id.group = 0 ∧ g.live = allLanes ∧ g.frontier = [e] ∧ e.pc = l.kentry ∧ e.lanes = allLanes ∧
      (∀ j < 8, ∀ v : Word, l.args[j]? = some v → (getName g j).val = .uniform v) ∧ t.mem = s.mem) ∧
  -- LAUNCH_COMPLETE
  ∀ s (w tn n : Nat) l,
    let x : Ctx := ⟨w, tn⟩
    getLaunch s x n = some l →
    (l.aborted = true ∨ l.nextGang ≠ l.gangs ∨ gangWaits s x n = true ∨ l.resident ≠ 0 →
      exec (.launchComplete w tn n) s = .next s) ∧
    (l.aborted = false → l.nextGang = l.gangs → gangWaits s x n = false → l.resident = 0 → (∀ c ∈ fkeys s.cores, Quiet s c) →
      writesLeft s x n = false →
      ∃ t, exec (.launchComplete w tn n) s = .next t ∧ getLaunch t x n = none ∧
        (getTenant t x).events = (getTenant s x).events ||| l.sets ∧ t.mem = s.mem)

/-- O44. R289 to R294, R404: service calls. `SVC` parks its group off-core with the call; the call takes a slot of the host's ring and
the host is notified; the reply reaches the two names of each calling lane, which goes on after its clause; a refused call traps
`SVC`. -/
def Obligations.ServiceCalls : Prop :=
  -- SVC
  (∀ (n : BitVec 4) (sa d : Reg) s i,
    let k := n.toNat + 1
    let srcs := fieldsFrom sa.toNat k
    let ds := [d.toNat, d.toNat + 1]
    Ready s i (srcs ++ ds) srcs ds → i.g.handler = none → Quiet s i.core →
    (svcRing s i.g.id.ctx = none → exec (.svc n sa d) s = .next (trapWord s i causeSvc i.e.lanes 0xFFFFFFFF 0)) ∧
    (svcRing s i.g.id.ctx ≠ none → firstKindLeft s i.core i.slot i.g.id.age i.e.lanes = true →
      exec (.svc n sa d) s = .next (holdIssue s)) ∧
    (svcRing s i.g.id.ctx ≠ none → firstKindLeft s i.core i.slot i.g.id.age i.e.lanes = false →
      ∀ v : SvcCall, v.seq = none → v.lanes = i.e.lanes → v.pc = i.e.pc → v.argn = k → v.entry = { i.e with clause := some i.cc } →
        v.args = (List.range 64).map (fun l =>
          if hasLane i.e.lanes l = true then (List.range k).map (fun j => fieldWord i.g l (sa.toNat + j)) else []) →
        v.names = (List.range 64).map (fun l => (nameIx i.g l d.toNat).getD 0) →
        ∀ u, spillGroup (setGroup (countIssue s i.core) i.core i.slot
            { (touchFields s i srcs).g with active := none, gpark := .svc, token := false, svc := some v }) i.core i.slot false = .ok u →
          exec (.svc n sa d) s = .next u ∧
          ∃ g, getGroup u i.core i.slot = some g ∧ g.gpark = .svc ∧ g.active = none ∧ g.svc = some v ∧ g.frontier = i.g.frontier ∧
            ∀ m, (getName g m).val = (getName i.g m).val ∧ (m < 1024 → (getName g m).val ≠ .unalloc → (getName g m).spilled = true))) ∧
  ∀ s c k g v ring, getGroup s c k = some g → g.svc = some v → g.gpark = .svc → s.lastRel = [] →
    let x := g.id.ctx
    svcRing s x = some ring → contextRuns s x = true → (getTenant s x).held = none → x.ten < 8 →
    -- SVC_RECORD_WRITE
    (∀ ctl r, v.seq = none → ringRead s x ring 64 = .ok (ctl, r) →
      let j := BitVec.ofNat 32 (fieldAt ctl 8 4)
      (svcRoom ctl = false → exec (.svcRecordWrite c k) s = .next r) ∧
      (svcRoom ctl = true → ∀ u p, ringWrites x (svcSlotAt ctl j.toNat) (svcPieces c g v j) r = .ok u →
        ringWrite u x (ring + 8) (leBytes 4 (j + 1).toNat) = .ok p →
        -- the group's area takes the number too
        ∀ y, cloakWrite p x (g.id.cloak + 0x18C) (leBytes 4 j.toNat) false = .ok y →
        ∃ t, exec (.svcRecordWrite c k) s = .next t ∧ getGroup t c k = some { g with svc := some { v with seq := some j } } ∧
          t.mem = y.mem ∧ t.hostMem = y.hostMem ∧ (getWing t x.wing).nsvc.getLsbD x.ten = true ∧
          t.msi = if (getWing s x.wing).nsvc.getLsbD x.ten = false ∧ (getWing s x.wing).nmask.getLsbD x.ten = false
            then s.msi ++ [(x.wing, x.ten)] else s.msi)) ∧
    -- SVC_REPLY
    (∀ j a rep r q u cc, svcAnswered s c k 1 = .ok (g, v, j, a, r) → ringRead r x (a + 0x1100) 512 = .ok (rep, q) →
      ringWrite q x a (leBytes 4 3) = .ok u → v.entry.clause = some cc → v.lanes ≠ 0 → (∀ l, v.names.getD l 0 + 1 < 1024) →
      -- the reply names lie in no cloakroom, and the pools take them
      let ds := ((lanesOf v.lanes).flatMap (fun l => [v.names.getD l 0, v.names.getD l 0 + 1])).eraseDups
      (∀ n ∈ ds, (getName g n).spilled = false) →
      (usedSlots (getCore s c) x).1 + 2 * ds.length ≤ (poolRoom (splitWing s x.wing)).1 →
      (usedSlots (getCore s c) x).2 + ds.length ≤ (poolRoom (splitWing s x.wing)).2 →
      ∃ t h, exec (.svcReply c k) s = .next t ∧ getGroup t c k = some h ∧ h.svc = none ∧ h.gpark = .none ∧
        (∀ l < 64, hasLane v.lanes l = true →
          shapedAt (getName h (v.names.getD l 0)).val l = BitVec.ofNat 32 (fieldAt rep (8 * l) 4) ∧
          shapedAt (getName h (v.names.getD l 0 + 1)).val l = BitVec.ofNat 32 (fieldAt rep (8 * l + 4) 4)) ∧
        ∃ e ∈ h.frontier, e.pc = afterClause cc ∧ e.park = .none ∧ v.lanes &&& ~~~e.lanes = 0) ∧
    -- SVC_REFUSED
    ∀ j a r u cc, svcAnswered s c k 2 = .ok (g, v, j, a, r) → ringWrite r x a (leBytes 4 3) = .ok u → v.entry.clause = some cc →
      exec (.svcRefused c k) s =
        .next (trapWord u ⟨c, k, { g with svc := none, gpark := .none, readyAt := u.clock }, v.entry, cc⟩ causeSvc v.lanes j.toNat 0)

/-! ### Wings, slots and registers -/

/-- O45. R256, R260, R262, R263, R265, R266, R268 to R270: the slot machinery of a wing. A row's end moves to the next valid row, by an edge
where that is another tenant's; groups halt under an edge; the first grace hardens it, the second kills; the commit saves the
outgoing tenant and starts the incoming one or, under a pre-emption, stops the wing. That `PREEMPT` clears with `PDONE` and is kept on a
wing that does not run (log entry 50, DEDUCED), what the records of a save area hold (log entry 14, DESIGN CHOICE), which half a
restored context takes (log entry 51, DEDUCED) and a donation without its 10 us (log entry 4, DESIGN CHOICE) are the model's. -/
def Obligations.SlotsAndEdges : Prop :=
  let newEdge := fun (s : State) (k : Wing) (row donor : Option Nat) =>
    (⟨if k.running = true then some k.curt.toNat else none, row, row.map (fun r => rowTenant (getRow k r)), donor, wingMicros s k, false, false, false⟩ : Edge)
  -- rows as written take effect at their starts, the passed ones with them
  let effect := fun (k t : Wing) (js : List Nat) => ∀ j, sget 0 t.eff j = if j ∈ js then getRow k j else sget 0 k.eff j
  -- SLOT_ROW_END
  (∀ s w r,
    let k := getWing s w
    s.booterr = false → k.running = true → k.edge = none → validFrom k (k.donated.getD k.row.toNat + 1) = some r →
    ∃ t, exec (.slotRowEnd w) s = .next t ∧ effect k (getWing t w) (rowsUpTo (k.donated.getD k.row.toNat) r) ∧ getWing t w =
      if rowTenant (getRow k r) = k.curt.toNat
      then { k with eff := (getWing t w).eff, row := BitVec.ofNat 5 r, curRow := getRow k r, donated := none }
      else { k with eff := (getWing t w).eff, edge := some (newEdge s k (some r) none) }) ∧
  -- GROUP_HALT, while another group of the context still runs
  (∀ s c n g e d m h, getGroup s c n = some g → edgeOf s g.id.ctx = some e → mayHalt s c n g e = true → Quiet s c →
    (d ≠ c ∨ m ≠ n) → getGroup s d m = some h → h.id.ctx = g.id.ctx → h.halt = .run →
    ∃ t, exec (.groupHalt c n) s = .next t ∧ getGroup t c n = some { g with halt := .halted } ∧
      t.mem = s.mem) ∧
  (∀ s c n g, getGroup s c n = some g → edgeOf s g.id.ctx = none → exec (.groupHalt c n) s = .next s) ∧
  -- GRACE1_EXPIRY and GRACE2_EXPIRY
  (∀ s w e o, (getWing s w).edge = some e → e.out = some o →
    (∃ t, exec (.grace1Expiry w) s = .next t ∧ getWing t w = { getWing s w with edge := some { e with grace1 := true } }) ∧
    (e.killed = true ∨ (getTenant s ⟨w, o⟩).saved ≠ none → exec (.grace2Expiry w) s = .next s) ∧
    (e.killed = false → (getTenant s ⟨w, o⟩).saved = none → ∃ t, exec (.grace2Expiry w) s = .next t ∧
      (getWing t w).edge = some { e with grace2 := true, killed := true } ∧
      (getTenant t ⟨w, o⟩).overruns = bump (getTenant s ⟨w, o⟩).overruns ∧
      (∀ c n g, getGroup t c n = some g → g.id.ctx ≠ ⟨w, o⟩) ∧ (getTenant t ⟨w, o⟩).launches = [] ∧
      (hasFaultQueue (getWing s w) = true → ∃ fs r, (getWing t w).faults = fs ++ [r] ∧ r.kind = 0x21 ∧ r.cause = 13 ∧ r.ten = o))) ∧
  -- EDGE_COMMIT: the incoming tenant's slot begins, once the outgoing one is saved or gone
  (∀ s w e r tn u v, s.booterr = false → let s1 := match (getWing s w).edge with
      | some d => saveOut s w d
      | none => s
    (getWing s w).edge ≠ none → (getWing s1 w).edge = some e → outGone s1 w e = true → e.row = some r → e.inc = some tn →
    s1.booterr = false → readBlock s1 ⟨w, tn⟩ = .ok u → readTrap u ⟨w, tn⟩ = .ok v → (getWing v w).preempt = false →
    (getWing v w).disabling = false →
    let x : Ctx := ⟨w, tn⟩
    let y := getTenant v x
    (y.saved = none → ∃ t, exec (.edgeCommit w) s = .next t ∧
      let q := getWing v w
      getWing t w = { q with edge := none, running := true, curt := BitVec.ofNat 3 tn, row := BitVec.ofNat 5 r,
                             curRow := sget 0 q.eff r, donated := e.donor, tenants := (getWing t w).tenants } ∧
      let waited := min (2 ^ 32 - 1) (y.edgewait.toNat + (wingMicros v q - e.t0))
      getTenant t x = { y with half := halfFor v w e tn, edgewait := BitVec.ofNat 32 waited }) ∧
    -- a saved group comes back as the save area and its cloakroom area hold it
    (∀ k n g b bl h z, let img : SavedCtx := ⟨halfFor v w e tn, [⟨k, [(n, g)], b, none, [], [], none, []⟩], []⟩
      y.saved = some img → y.block = some bl → readRecs v x img (recIds y img) bl.save (y, img) = .ok (y, img) →
      imagePoison v x bl.save (recsSize y img) = none → isAp g = false → g.id.ctx = x → g.handler = none →
      areaPoison v (resume v.clock g) = none → groupFromArea v (resume v.clock g) = .ok (h, z) → (getBox v k x).inbox = [] →
      (∀ q ∈ (getWing v w).faults, q.ten ≠ tn) →
      ∃ t, exec (.edgeCommit w) s = .next t ∧ (getWing t w).running = true ∧ (getTenant t x).saved = none ∧
        getGroup t k n = some h ∧ h.halt = .run ∧ h.readyAt = v.clock)) ∧
  -- EDGE_COMMIT of a pre-emption: the running tenant is saved, with its group's state, and the wing stops
  (∀ s w e o c n g b u y, s.booterr = false → (getWing s w).edge = some e → e.out = some o → e.row = none → e.killed = false →
    let x : Ctx := ⟨w, o⟩
    (getTenant s x).saved = none → (getTenant s x).held = none → fkeys s.cores = [c] → (getCore s c).groups = [(n, g)] →
    g.id.ctx = x → g.halt = .halted → (∀ ns, g.gpark ≠ .fill ns) → isAp g = false → g.handler = none → enginesDone s x = true →
    Quiet s c → (getCore s c).sends = [] → (getCore s c).boxes = [] → (getTenant s x).streams = [] →
    (getTenant s x).block = some b → imageSize s x ≤ b.savesz → spillGroup s c n true = .ok u →
    writeRecs x (getTenant s x) (imageOf s x) (recIds (getTenant s x) (imageOf s x)) b.save u = .ok y →
    (getWing s w).wclu.getLsbD (clusterOf c) = true →
    ∃ t v q, exec (.edgeCommit w) s = .next t ∧ (getWing t w).running = false ∧ (getWing t w).pdone = true ∧ (getWing t w).edge = none ∧
      getGroup t c n = none ∧ (getTenant t x).saved = some v ∧ v.cores = [q] ∧ q.core = c ∧ q.groups = [(n, g)] ∧
      t.mem = y.mem ∧ t.hostMem = y.hostMem) ∧
  -- IDLE_DONATION
  (∀ s w,
    let k := getWing s w
    (k.running = true → k.edge = none → k.donated = none → rowDonates k.curRow = true → tenantIdle s (curCtx s w) = true →
      ∃ t, exec (.idleDonation w) s = .next t ∧ effect k (getWing t w) [rowDrow k.curRow] ∧
        getWing t w = { k with eff := (getWing t w).eff,
                               edge := some (newEdge s k (some (rowDrow k.curRow)) (some k.row.toNat)) }) ∧
    (k.donated ≠ none ∨ rowDonates k.curRow = false → exec (.idleDonation w) s = .next s)) ∧
  -- PREEMPT_TIMEOUT
  (∀ s w e r,
    let k := getWing s w
    k.edge = some e → e.inc ≠ none → e.row = some r → e.killed = false → outGone s w e = true →
    (k.preempt = true ∨ k.disabling = true → ∃ t, exec (.preemptTimeout w) s = .next t ∧
      getWing t w = { k with edge := none, running := false, pdone := true, preempt := false, donated := none, row := BitVec.ofNat 5 r,
                             en := k.en && !k.disabling, disabling := false }) ∧
    (k.preempt = false → k.disabling = false → exec (.preemptTimeout w) s = .next s)) ∧
  -- WING_ENABLE, WING_PREEMPT and WING_DISABLE
  ∀ s w,
    let k := getWing s w
    (k.running = true ∨ k.edge ≠ none → ∃ t, exec (.wingEnable w) s = .next t ∧ getWing t w = { k with pdone := false }) ∧
    (s.booterr = true → k.running = false → k.edge = none → exec (.wingEnable w) s = .next s) ∧
    (s.booterr = false → k.running = false → k.edge = none → consistent k k.rows = false →
      ∃ t, exec (.wingEnable w) s = .next t ∧ getWing t w = { k with pdone := false, tblerr := true }) ∧
    (s.booterr = false → k.running = false → k.edge = none → consistent k k.rows = true → ∃ t, exec (.wingEnable w) s = .next t ∧
      getWing t w = { k with pdone := false, en := true, tblerr := false, eff := k.rows, edge := some (newEdge s k (validFrom k k.row.toNat) none) }) ∧
    (k.running = true → k.edge = none →
      (∃ t, exec (.wingPreempt w) s = .next t ∧ getWing t w = { k with preempt := true, edge := some (newEdge s k none none) }) ∧
      (∃ t, exec (.wingDisable w) s = .next t ∧
        getWing t w = { k with pdone := false, disabling := true, preempt := true, edge := some (newEdge s k none none) })) ∧
    (∀ e, k.edge = some e → e.inc ≠ none → ∃ t, exec (.wingPreempt w) s = .next t ∧ getWing t w = { k with preempt := true }) ∧
    (k.running = false → k.edge = none →
      (∃ t, exec (.wingPreempt w) s = .next t ∧ getWing t w = { k with preempt := true }) ∧
      ∃ t, exec (.wingDisable w) s = .next t ∧ getWing t w = { k with pdone := false, en := false })

/-- O46. R256 to R261: the registers of a wing that the physical function writes. Bits of fused units and of other wings' units stay 0;
a row that would make an enabled wing's table inconsistent is refused; the graces keep their order. That a write which would break the
order of the graces is ignored (log entry 50, DEDUCED), and that an accepted write of a context register drops what its old context had
saved, queued, started, pinned or held (log entries 52 and 55, DEDUCED), are the model's readings. -/
def Obligations.WingRegisterWrites : Prop :=
  ∀ s w,
    let k := getWing s w
    -- SLOT_ROW_WRITE
    (∀ row v,
      let rows := sset 0 k.rows (row % 32) (v &&& 0x00000000FFFF0000FFFFFFFFF1F8FFFF)
      (k.en = false ∨ consistent k rows = true → ∃ t, exec (.slotRowWrite w row v) s = .next t ∧
        getWing t w = { k with rows := (getWing t w).rows, tblerr := false } ∧
        ∀ j, getRow (getWing t w) j = if j = row % 32 then v &&& 0x00000000FFFF0000FFFFFFFFF1F8FFFF else getRow k j) ∧
      (k.en = true → consistent k rows = false → ∃ t, exec (.slotRowWrite w row v) s = .next t ∧ getWing t w = { k with tblerr := true })) ∧
    -- CONTEXT_REG_WRITE
    (∀ (tn : Nat) (v : DWord),
      let named := k.eff.any (fun r => rowValid r.2 && rowTenant r.2 == tn)
      ((k.running = false ∧ k.edge = none) ∨ named = false → ∃ t, exec (.contextRegWrite w tn v) s = .next t ∧
        let y := getTenant s ⟨w, tn⟩
        getTenant t ⟨w, tn⟩ = { y with ctxReg := v &&& ~~~0x7E, block := none, trap := none, blockFail := false,
                                        trapFail := false, events := 0, launchCtr := 0, launches := [], queues := [], streams := [],
                                        saved := none, held := none } ∧
        t.pins = s.pins.filter (fun p => p.ctx != ⟨w, tn⟩)) ∧
      (k.running = true ∨ k.edge ≠ none → named = true →
        ∃ t, exec (.contextRegWrite w tn v) s = .next t ∧ getWing t w = { k with tblerr := true })) ∧
    -- WING_BITMAP_WRITE
    (∀ off v, k.en = true → exec (.wingBitmapWrite w off v) s = .next s) ∧
    (k.en = false → ∀ q v,
      let put := fun {n : Nat} (old new live : BitVec n) (f : Wing → BitVec n) => ∀ b < n, (new.getLsbD b = true ↔
        (if b / 32 = q then v.getLsbD (b % 32) else old.getLsbD b) = true ∧ live.getLsbD b = true ∧
        ∀ j, j ≠ w → (f (getWing s j)).getLsbD b = false)
      let written := fun (off : Nat) (P : Wing → Prop) => ∃ t, exec (.wingBitmapWrite w off v) s = .next t ∧ P (getWing t w)
      (q < 3 → written (4 * q) (fun y => put k.wclu y.wclu s.liveClu (·.wclu) ∧ y.wcopy = k.wcopy &&& y.wclu)) ∧
      (q < 3 → written (0x10 + 4 * q) (fun y => put k.wl2s y.wl2s s.liveClu (·.wl2s))) ∧
      (q < 3 → written (0x20 + 4 * q) (fun y => put k.wweng y.wweng s.liveClu (·.wweng))) ∧
      (q < 8 → written (0x30 + 4 * q) (fun y => put k.wchan y.wchan s.liveChan (·.wchan))) ∧
      (q < 3 → written (0x50 + 4 * q) (fun y => put k.wcopy y.wcopy (s.liveClu &&& k.wclu) (·.wcopy))) ∧
      (q = 0 → written 0x5C (fun y => put k.whq y.whq (BitVec.allOnes 32) (·.whq)))) ∧
    -- GRACE1_WRITE and GRACE2_WRITE
    (∀ v : Word,
      let a := v.toNat % 2 ^ 16
      let b := v.toNat % 2 ^ 20
      (k.en = false → a ≠ 0 → a < k.grace2.toNat →
        ∃ t, exec (.grace1Write w v) s = .next t ∧ getWing t w = { k with grace1 := BitVec.ofNat 16 a }) ∧
      (k.en = true ∨ a = 0 ∨ k.grace2.toNat ≤ a → exec (.grace1Write w v) s = .next s) ∧
      (k.en = false → k.grace1.toNat < b →
        ∃ t, exec (.grace2Write w v) s = .next t ∧ getWing t w = { k with grace2 := BitVec.ofNat 20 b }) ∧
      (k.en = true ∨ b ≤ k.grace1.toNat → exec (.grace2Write w v) s = .next s)) ∧
    -- THRLOSS_READ
    ∀ tn,
      let y := getTenant s ⟨w, tn⟩
      ∃ t, exec (.thrlossRead w tn) s = .next t ∧ getTenant t ⟨w, tn⟩ = { y with thrlatch := y.thrloss.extractLsb' 32 32 }

/-- O47. R3, R149, R256, R303, R318, R321, R324, R326: the writes of the other registers: those without behaviour of their own, the
notification bits, the events and streams that the host sets, and attestation. That the report count is the one at the request and
counts up when the report is written, and that a wing without a host queue sets `ATTERR`, are the model's choices (log entry 13, DESIGN
CHOICE). -/
def Obligations.OtherRegisterWrites : Prop :=
  let lo := fun (r : DWord) (v : Word) => (r.extractLsb' 32 32 ++ v : DWord)
  let hi := fun (r : DWord) (v : Word) => (v ++ r.extractLsb' 0 32 : DWord)
  -- REGISTER_WRITE, on registers of the physical function
  (∀ s w (v : Word),
    let k := getWing s w
    let gives := fun (r : PlainReg) (y : Wing) => ∃ t, exec (.registerWrite r v) s = .next t ∧ getWing t w = y
    (k.en = true → ∀ r ∈ [PlainReg.weights w, .s2rootLo w, .s2rootHi w, .fqbaseLo w, .fqbaseHi w],
      exec (.registerWrite r v) s = .next s) ∧
    (k.en = false → gives (.weights w) { k with weights := v } ∧ gives (.s2rootLo w) { k with s2root := lo k.s2root v } ∧
      gives (.s2rootHi w) { k with s2root := hi k.s2root v } ∧ gives (.fqbaseLo w) { k with fqbase := lo k.fqbase v } ∧
      gives (.fqbaseHi w) { k with fqbase := hi k.fqbase v }) ∧
    gives (.fqhead w) { k with fqhead := v } ∧ gives (.fqlog w) { k with fqlog := v.extractLsb' 0 5 } ∧
    gives (.fqrseq w) { k with fqrseq := v } ∧ gives (.nmask w) { k with nmask := v.extractLsb' 0 9 } ∧
    gives (.xaddrLo w) { k with xaddr := lo k.xaddr v } ∧ gives (.xaddrHi w) { k with xaddr := hi k.xaddr v } ∧
    (let x := v.extractLsb' 29 2
     (x = 3 → exec (.registerWrite (.xctl w) v) s = .next s) ∧
     (x ≠ 3 → gives (.xctl w) { k with xscope := x, xten := v.extractLsb' 26 3, xbusy := k.xbusy || v.getLsbD 31 })) ∧
    (∀ tn,
      let y := getTenant s ⟨w, tn⟩
      (∃ t, exec (.registerWrite (.s1rootLo w tn) v) s = .next t ∧ getTenant t ⟨w, tn⟩ = { y with s1root := lo y.s1root v }) ∧
      (∃ t, exec (.registerWrite (.s1rootHi w tn) v) s = .next t ∧ getTenant t ⟨w, tn⟩ = { y with s1root := hi y.s1root v })) ∧
    -- NOTIFY_CLEAR
    (∃ t, exec (.notifyClear w v) s = .next t ∧
      getWing t w = { k with nfq := k.nfq && !v.getLsbD 8, nsvc := k.nsvc &&& ~~~(v.extractLsb' 0 8) })) ∧
  (∀ s (v : Word),
    let p : BitVec 16 := v.extractLsb' 0 16
    (600 ≤ p.toNat → p.toNat ≤ 2400 → exec (.registerWrite .plimit v) s = .next { s with plimit := p }) ∧
    (p.toNat < 600 ∨ 2400 < p.toNat → exec (.registerWrite .plimit v) s = .next s) ∧
    (∀ off, exec (.registerWrite (.readOnly off) v) s = .next s) ∧
    ∀ p, let k := getPort s p
      ∃ t, exec (.registerWrite (.jctl p) v) s = .next t ∧
        getPort t p = { k with jen := v.getLsbD 30, jwing := v.extractLsb' 25 5, jten := v.extractLsb' 22 3 }) ∧
  -- EVS_WRITE, EVC_WRITE and STROP, of a tenant whose context is enabled and of one whose is not
  (∀ s w tn,
    let x : Ctx := ⟨w, tn⟩
    let y := getTenant s x
    let n := match y.block with | some b => b.strn | none => 0
    (y.ctxReg.getLsbD 0 = true → ∀ (k : Nat) (v : Word),
      let b : BitVec 256 := BitVec.ofNat 256 (v.toNat * 2 ^ (32 * k))
      (∃ t, exec (.evsWrite w tn k v) s = .next t ∧ getTenant t x = { y with events := y.events ||| b }) ∧
      (∃ t, exec (.evcWrite w tn k v) s = .next t ∧ getTenant t x = { y with events := y.events &&& ~~~b })) ∧
    (y.ctxReg.getLsbD 0 = false → ∀ (k : Nat) (v : Word), exec (.evsWrite w tn k v) s = .next s ∧ exec (.evcWrite w tn k v) s = .next s) ∧
    ∀ ix : BitVec 14,
      (y.ctxReg.getLsbD 0 = false ∨ n ≤ ix.toNat →
        exec (.stropArm w tn ix) s = .next s ∧ exec (.stropPause w tn ix) s = .next s ∧ exec (.stropResume w tn ix) s = .next s) ∧
      (y.ctxReg.getLsbD 0 = true → ix.toNat < n →
        exec (.stropPause w tn ix) s = .next (statusBits s x ix.toNat 0 0x40000000) ∧
        exec (.stropResume w tn ix) s = .next (statusBits s x ix.toNat 0x40000000 0) ∧
        ((∃ k, getStream s x ix.toNat = some k ∧ k.armed = true) → exec (.stropArm w tn ix) s = .next s) ∧
        ∀ bs, (∀ k, getStream s x ix.toNat = some k → k.armed = false) → entryRead s x ix.toNat 0 128 = .ok bs →
          (armCheck s x bs = false → exec (.stropArm w tn ix) s =
            .next (statusBits (devTouch s x (streamAddr s x ix.toNat) 128) x ix.toNat 0 0x10000000)) ∧
          ∀ u v, armCheck s x bs = true →
            let status := (BitVec.ofNat 32 (fieldAt bs 0x7C 4) &&& ~~~0x3C000000) ||| 0x80000000
            devWrite s x (streamAddr s x ix.toNat + 0x7C) (leBytes 4 status.toNat) = .ok u →
            devWrite u x (streamCfg bs).dir (zeroBytes 64) = .ok v →
            ∃ t, exec (.stropArm w tn ix) s = .next t ∧ t.mem = v.mem ∧ getStream t x ix.toNat =
              some (armedStream (streamCfg bs) (BitVec.ofNat 32 (fieldAt bs 0x78 4)) status (getStream s x ix.toNat)))) ∧
  -- ATTNONCE, ATTBUF, ATTEST_REPORT, ATTEST_CERT and ATTEST_DONE
  ∀ s view,
    let m := getMailbox s view
    (∀ (v : Word) (k b : Nat), k < 8 → b < 256 → ∃ t, exec (.registerWrite (.attnonce view k) v) s = .next t ∧
      (getMailbox t view).nonce.getLsbD b = if b / 32 = k then v.getLsbD (b % 32) else m.nonce.getLsbD b) ∧
    (∀ v : Word, (∃ t, exec (.registerWrite (.attbufLo view) v) s = .next t ∧ getMailbox t view = { m with buf := lo m.buf v }) ∧
      (∃ t, exec (.registerWrite (.attbufHi view) v) s = .next t ∧ getMailbox t view = { m with buf := hi m.buf v }) ∧
      (v.getLsbD 31 = false → ∃ t, exec (.registerWrite (.attop view) v) s = .next t ∧ getMailbox t view = { m with op := v.getLsbD 0 })) ∧
    (m.go = true → exec (.attestReport view) s = .next s ∧ exec (.attestCert view) s = .next s) ∧
    (m.go = false →
      (∃ t, exec (.attestCert view) s = .next t ∧
        getMailbox t view = { m with go := true, err := false, op := true, goOp := true, goBuf := m.buf, captured := [] }) ∧
      ∃ t r, exec (.attestReport view) s = .next t ∧
        getMailbox t view = { m with go := true, err := false, op := false, goOp := false, goBuf := m.buf, captured := r } ∧
        r.length = 320 ∧ fieldAt r 0 4 = 1 ∧ fieldAt r 4 4 = (if view < 24 then view else 0xFFFFFFFF) ∧ fieldAt r 8 32 = m.nonce.toNat ∧
        fieldAt r 0x130 4 = s.reports.toNat) ∧
    (m.go = false → ∀ ok, exec (.attestDone view ok) s = .next s) ∧
    (m.go = true →
      let path := 24 ≤ view ∨ (getWing s view).whq ≠ 0
      (path → m.goOp = false → ∃ t, exec (.attestDone view true) s = .next t ∧ getMailbox t view = { m with go := false, captured := [] } ∧
        t.reports = s.reports + 1 ∧ memRead t.hostMem m.goBuf.toNat m.captured.length = m.captured) ∧
      (path → m.goOp = true → ∃ t, exec (.attestDone view true) s = .next t ∧ getMailbox t view = { m with go := false, captured := [] } ∧
        t.reports = s.reports) ∧
      ((∃ t, exec (.attestDone view false) s = .next t ∧ t.hostMem = s.hostMem ∧
        getMailbox t view = { m with go := false, err := true, captured := [] })) ∧
      (¬path → exec (.attestDone view true) s = exec (.attestDone view false) s))

/-! ### Translation and faults -/

/-- O48. R296 to R308, R310, R319: the two stages of translation, invalidations, walks that end after issue, and the fault queue. A walk
follows the tables of its stage to a leaf, whose rights are those that both stages grant, or to a fault, which can be replayed where its
entry is not valid and `NR` is 0. An invalidation completes once nothing
uses a covered translation, and none is left; a walk's fault holds the store under a record; a record reaches the queue and the
host is notified; `REPLAY` lets the held work walk again, and `FAIL` traps it. That a store is cut at its home's units when its walk
ends (log entry 26), that a record concerns one page (log entries 30 and 40), and that an invalidation completes in one step (log
entry 56) are the model's readings (26, 30 and 56 DEDUCED, 40 a DESIGN CHOICE). -/
def Obligations.TranslationAndFaultEvents : Prop :=
  -- the tables of stage 2
  (∀ s (k : Wing) ia,
    let rd := fun a => (.ok (leNat (memRead s.mem a 8)) : Except XlFault Nat)
    (k.s2root = 0 → walkStage2 s k ia = .error ⟨false, true, false⟩) ∧
    ∀ n tbls e, k.s2root ≠ 0 → LeadsTo true rd k.s2root.toNat ia n tbls → rd (entryOf ia n (tbls n)) = .ok e →
      (e % 2 = 0 → walkStage2 s k ia = .error ⟨decide (e / 2 ^ 7 % 2 = 0), true, false⟩) ∧
      (e % 2 = 1 → ¬EntryFits true n e → walkStage2 s k ia = .error ⟨false, true, false⟩) ∧
      (e % 2 = 1 → e / 2 % 2 = 0 → EntryFits true n e →
        walkStage2 s k ia = .ok ⟨outAddr e + ia % 2 ^ lvlShift n, lvlShift n, e⟩)) ∧
  -- the tables of stage 1, which lie in device memory of the wing
  (∀ s x va,
    let k := getWing s x.wing
    let root := (getTenant s x).s1root
    (∀ ia l, walkStage2 s k ia = .ok l → leafTgt s k l = .ok .dev → l.log ≠ 12 → readStage1 s k ia = .ok (leNat (memRead s.mem l.out 8))) ∧
    (∀ ia l, walkStage2 s k ia = .ok l → leafTgt s k l ≠ .ok .dev ∨ l.log = 12 → readStage1 s k ia = .error ⟨false, true, false⟩) ∧
    (∀ ia f, walkStage2 s k ia = .error f → readStage1 s k ia = .error f) ∧
    (root = 0 → walk s x va = .error ⟨false, false, false⟩) ∧
    ∀ n tbls, root ≠ 0 → LeadsTo false (readStage1 s k) root.toNat va n tbls →
      (∀ f, readStage1 s k (entryOf va n (tbls n)) = .error f → walk s x va = .error f) ∧
      ∀ e, readStage1 s k (entryOf va n (tbls n)) = .ok e →
        (e % 2 = 0 → walk s x va = .error ⟨decide (e / 2 ^ 7 % 2 = 0), false, false⟩) ∧
        (e % 2 = 1 → ¬EntryFits false n e → walk s x va = .error ⟨false, false, false⟩) ∧
        (e % 2 = 1 → e / 2 % 2 = 0 → EntryFits false n e →
          let ia := outAddr e + va % 2 ^ lvlShift n
          (∀ f, walkStage2 s k ia = .error f → walk s x va = .error f) ∧
          ∀ l, walkStage2 s k ia = .ok l →
            -- the target of the stage-2 leaf: own channels, host memory with a host queue, or a port
            let tgt := l.pte / 2 ^ 58 % 4
            (tgt = 0 → (leafTgt s k l = .ok .dev ↔ ownsAddr s k l.out = true)) ∧ (tgt = 1 → (leafTgt s k l = .ok .host ↔ k.whq ≠ 0)) ∧
            (tgt = 2 → leafTgt s k l = .ok (.peer (l.pte / 2 ^ 60 % 8))) ∧
            (∀ f, leafTgt s k l = .error f → f = ⟨false, true, false⟩ ∧ walk s x va = .error f) ∧
            ∀ g, leafTgt s k l = .ok g →
              -- 4 KiB are for host memory alone
              (g ≠ .host → lvlShift n = 12 ∨ l.log = 12 → ∃ f, walk s x va = .error f ∧ f.replay = false) ∧
              (g = .host ∨ lvlShift n ≠ 12 ∧ l.log ≠ 12 → ∃ y, walk s x va = .ok y ∧ y.ctx = x ∧
                y.log = min (lvlShift n) l.log ∧ y.va = va / 2 ^ y.log * 2 ^ y.log ∧ placeOf y va = ⟨g, l.out⟩ ∧
                (y.r = true ↔ e / 2 ^ 2 % 2 = 1 ∧ l.pte / 2 ^ 2 % 2 = 1) ∧ (y.w = true ↔ e / 2 ^ 3 % 2 = 1 ∧ l.pte / 2 ^ 3 % 2 = 1) ∧
                (y.x = true ↔ e / 2 ^ 4 % 2 = 1 ∧ l.pte / 2 ^ 4 % 2 = 1) ∧ (y.sup = true ↔ e / 2 ^ 5 % 2 = 1) ∧
                y.own = l.pte / 2 ^ 56 % 4))) ∧
  -- XINV
  (∀ s w tn,
    let k := getWing s w
    let busy := fun (ins : Instr) (scope : BitVec 2) => ∃ t, exec ins s = .next t ∧
      getWing t w = { k with xscope := scope, xten := BitVec.ofNat 3 tn, xbusy := true }
    busy (.xinvPage w tn) 0 ∧ busy (.xinvTenant w tn) 1 ∧ busy (.xinvWing w tn) 2 ∧
    (k.xbusy = false → exec (.xinvComplete w) s = .next s) ∧
    (k.xbusy = true → (∀ c ∈ fkeys s.cores, Quiet s c) → s.peerOut = [] →
      ∃ t, exec (.xinvComplete w) s = .next t ∧ getWing t w = { k with xbusy := false } ∧ t.mem = s.mem ∧
        (∀ c, (getCore t c).tlb = (getCore s c).tlb.filter (fun e => !xinvCovers k w e)) ∧
        ∀ n, (getCluster t n).tlb = (getCluster s n).tlb.filter (fun e => !xinvCovers k w e))) ∧
  -- WALK_COMPLETE
  (∀ s c n e, (getCore s c).sb[n]? = some e → e.xl = .walking → (getTenant s e.ctx).saved = none →
    -- no other entry of its quadrant waits for the walk
    (∀ d ∈ fkeys s.cores, d / 24 = c / 24 → ∀ y ∈ (getCore s d).sb, onePage e y = true → y.xl = .walking → d = c ∧ y = e) →
    (fkeys s.cores).Nodup →
    -- the entry becomes one for each unit of its home
    (∀ d, resolveEntry s e = .ok d → ∃ t, exec (.walkComplete c n) s = .next t ∧ t.mem = s.mem ∧
      (getCore t c).sb = (getCore s c).sb.flatMap (fun y => if y.seq = e.seq ∧ y.va = e.va then splitEntry d else [y])) ∧
    (∀ f, resolveEntry s e = .error f → f.replay = true → hasFaultQueue (getWing s e.ctx.wing) = true → walkRecord (getCore s c) e = none →
      let k := getWing s e.ctx.wing
      ∃ t r, exec (.walkComplete c n) s = .next t ∧ (getWing t e.ctx.wing).faults = k.faults ++ [r] ∧ r.id = k.faultCtr ∧
        r.replay = true ∧ r.stage2 = f.stage2 ∧
        (getCore t c).sb = (getCore s c).sb.map (fun y => if sameWalk e y = true then { y with xl := .held r.id } else y))) ∧
  -- FAULT_RECORD_WRITE
  (∀ s w r,
    let k := getWing s w
    hasFaultQueue k = true → k.faults.find? (fun r => r.seq.isNone) = some r →
    s.booterr = false →
    let q := { r with exited := r.exited || (r.kind == 0x11 && storeExited s w r) || (r.kind == 0x12 && engineExited s w r.id),
                      seq := some k.fqtail }
    ((k.fqtail - k.fqhead).toNat = 2 ^ k.fqlog.toNat → exec (.faultRecordWrite w) s = .next s) ∧
    ((k.fqtail - k.fqhead).toNat ≠ 2 ^ k.fqlog.toNat →
      ∃ t, exec (.faultRecordWrite w) s = .next t ∧ (getWing t w).fqtail = k.fqtail + 1 ∧ (getWing t w).nfq = true ∧
        memRead t.hostMem (k.fqbase.toNat + 32 * (k.fqtail.toNat % 2 ^ k.fqlog.toNat)) 32 = recordBytes q ∧
        (getWing t w).faults = (if r.replay = true then k.faults.map (fun y => if y.id = r.id then q else y)
          else k.faults.filter (fun y => y.id != r.id)) ∧
        t.msi = if k.nfq = false ∧ k.nmask.getLsbD 8 = false then s.msi ++ [(w, 8)] else s.msi)) ∧
  -- a record that no queue takes is lost and counted
  (∀ s w r,
    let k := getWing s w
    s.booterr = false → hasFaultQueue k = false → k.faults.find? (fun r => r.seq.isNone) = some r → r.replay = false →
    ∃ t, exec (.faultRecordWrite w) s = .next t ∧
      getWing t w = { k with faults := k.faults.filter (fun y => y.id != r.id), fqlost := bump k.fqlost }) ∧
  -- FQ_REPLAY
  (∀ s w,
    let k := getWing s w
    (namedRecord k = none → exec (.fqReplay w) s = .next s ∧ exec (.fqFail w) s = .next s) ∧
    ∀ r, namedRecord k = some r →
      ∃ t, exec (.fqReplay w) s = .next t ∧ (getWing t w).faults = k.faults.filter (fun y => y.id != r.id) ∧ t.mem = s.mem ∧
        (∀ c n g, getGroup s c n = some g → getGroup t c n = some
          (if g.id.ctx.wing = w ∧ ((∃ m, g.gpark = .fault r.id m) ∨ g.gpark = .storeFault r.id) then { g with gpark := .none, readyAt := s.clock }
          else g)) ∧
        ∀ c, (getCore t c).sb =
          (getCore s c).sb.map (fun e => if e.ctx.wing = w ∧ e.xl = .held r.id then { e with xl := .walking } else e)) ∧
  -- FQ_FAIL: of a tenant that is away, at its restore; of a lane's access, `XLATE` at its word
  ∀ s w r,
    let k := getWing s w
    namedRecord k = some r →
    ((getTenant s ⟨w, r.ten⟩).saved ≠ none → ∃ t, exec (.fqFail w) s = .next t ∧
      getWing t w = { k with faults := k.faults.map (fun y => if y.id = r.id then { y with answered := true } else y) }) ∧
    ∀ c n g m e cc, (getTenant s ⟨w, r.ten⟩).saved = none → r.kind = 0x10 → faultGroup (dropRecord s w r.id) w r.id = some (c, n, g, m) →
      isAp g = false → g.active = some e → e.clause = some cc →
      exec (.fqFail w) s = .next (releaseHeld
        (trapWord (dropRecord s w r.id) ⟨c, n, { g with gpark := .none }, e, cc⟩ causeXlate m r.addr 0) w r.id)

/-! ### The device and what surrounds it -/

/-- O49. R147 to R149, R313, R320, R326, R327: memory channels, power and uncorrectable errors. A refresh is counted or postponed, at most
eight times, after which every bank of the pseudo-channel refreshes; a scrub is counted; the clock steps by power and temperature; an
overheated device or a fabric error stops the device; an error in a clean copy has no effect, and one in an only copy poisons it and is
confined by its owner. The model's choices: whether a refresh is postponed comes from the choices listed (log entry 9), and a granule's
owner is found by scanning the tables, with a stop where no table maps it (log entry 59). -/
def Obligations.ChannelsPowerAndErrors : Prop :=
  -- REFRESH and FORCED_REFRESH
  (∀ s bank waited,
    let pc := bankPc bank
    let ch := pc / 2
    let n := sget 0 s.postponed bank
    -- the postponements of the banks given are made up for, and of no other
    let done' := fun (ins : Instr) (gone : Nat → Bool) => ∃ t, exec ins s = .next t ∧
      (∀ b, sget 0 t.postponed b = if gone b = true then 0 else sget 0 s.postponed b) ∧
      getChannel t ch = { getChannel s ch with refwait := (getChannel s ch).refwait + BitVec.ofNat 64 waited }
    s.liveChan.getLsbD ch = true →
    ((choose s 2).1 = 0 → n < 8 → done' (.refresh bank waited) (· == bank)) ∧
    (8 ≤ n → done' (.refresh bank waited) (fun b => bankPc b == pc)) ∧
    ((choose s 2).1 = 1 → n < 8 → ∃ t, exec (.refresh bank waited) s = .next t ∧ sget 0 t.postponed bank = n + 1 ∧
      (∀ b, b ≠ bank → sget 0 t.postponed b = sget 0 s.postponed b) ∧ getChannel t ch = getChannel s ch) ∧
    ((∃ p ∈ s.postponed, bankPc p.1 = pc ∧ p.2 = 8) → done' (.forcedRefresh pc waited) (fun b => bankPc b == pc)) ∧
    ((∀ p ∈ s.postponed, bankPc p.1 = pc → p.2 ≠ 8) → exec (.forcedRefresh pc waited) s = .next s)) ∧
  -- PATROL_SCRUB and REFWAIT_READ
  (∀ s g bs,
    let ch := channelOf s none (g / 128)
    let k := getChannel s ch
    let up := fun (v : BitVec 16) => if v = 0xFFFF then v else v + 1
    (∃ t, exec (.patrolScrub g (some bs) false) s = .next t ∧ getChannel t ch = { k with scrubfix := up k.scrubfix } ∧ t.mem = s.mem) ∧
    (∃ t, exec (.patrolScrub g (some bs) true) s = .next t ∧ getChannel t ch = { k with scrubdrop := up k.scrubdrop } ∧ t.mem = s.mem) ∧
    -- without a correctable error in the granule there is nothing to write back
    ∀ b, fget s.correctable (g / 32 * 32) = none → exec (.patrolScrub g none b) s = .next s) ∧
  (∀ s ch, ∃ t, exec (.refwaitRead ch) s = .next t ∧
    getChannel t ch = { getChannel s ch with latch := (getChannel s ch).refwait.extractLsb' 32 32 }) ∧
  -- THROTTLE_STEP
  (∀ s power temp up,
    let u := { s with temp := BitVec.ofNat 8 temp }
    let hot := s.plimit.toNat < power ∨ 100 ≤ temp
    let cool := up = true ∧ 100 * power < 95 * s.plimit.toNat ∧ temp < 95
    let v := s.clkstep
    let after := if hot then (if 4 < v.toNat then v - 1 else v) else if cool ∧ v.toNat < 16 then v + 1 else v
    (temp < 110 → exec (.throttleStep power temp up) s = .next { u with clkstep := after }) ∧
    -- at 110 °C the device stops
    (110 ≤ temp → ∃ t, exec (.throttleStep power temp up) s = .next t ∧ t.stopped = true ∧ t.clkstep = after ∧
      t.temp = BitVec.ofNat 8 temp ∧ (s.stopped = false → t.msi = s.msi ++ [(24, 0)] ∧ ∀ p, (getPort t p).jup = false))) ∧
  -- OVERTEMP_STOP
  (∀ s, s.stopped = false → ∃ t, exec .overtempStop s = .next t ∧ t.stopped = true ∧ t.msi = s.msi ++ [(24, 0)] ∧
    (∀ p, (getPort t p).jup = false) ∧ t.cores = s.cores ∧ t.mem = s.mem) ∧
  -- UNCORRECTABLE_ERROR
  -- a clean copy is discarded: the memories stand
  (∀ s c line, ∃ t, exec (.uncorrectableError (.l1 c line)) s = .next t ∧ OnlyCores s t ∧
    ∀ p ∈ (getCore t c).l1, p.1 / 4 ≠ line) ∧
  (∀ s n key x, fget (getCluster s n).l2 key = some x → x.dirty = 0 → ∃ t, exec (.uncorrectableError (.l2 n key)) s = .next t ∧
    (getCluster t n).l2 = ferase (getCluster s n).l2 key ∧ t.mem = s.mem ∧ t.hostMem = s.hostMem ∧ t.cores = s.cores ∧ t.poison = s.poison) ∧
  (∀ s a, memRead s.mem (a / 32 * 32) 32 = memRead s.dram (a / 32 * 32) 32 → ∃ t, exec (.uncorrectableError (.home a)) s = .next t ∧
    t.mem = s.mem ∧ t.cores = s.cores ∧ t.poison = s.poison) ∧
  (∀ s c k, (∃ t, exec (.uncorrectableError (.coreTlb c k)) s = .next t ∧ t.mem = s.mem ∧
      getCore t c = { getCore s c with tlb := (getCore s c).tlb.eraseIdx k }) ∧
    ∃ t, exec (.uncorrectableError (.clusterTlb c k)) s = .next t ∧ t.mem = s.mem ∧
      getCluster t c = { getCluster s c with tlb := (getCluster s c).tlb.eraseIdx k }) ∧
  -- a dirty sector of a slice is lost, and its granule in device memory with it
  (∀ s n key x, fget (getCluster s n).l2 key = some x → x.dirty ≠ 0 → (sectorLoc (key / 256)).tgt = .dev →
    ∃ t, exec (.uncorrectableError (.l2 n key)) s = .next t ∧ fget (getCluster t n).l2 key = none ∧
      ((sectorLoc (key / 256)).a ∈ t.poison ∨ t.stopped = true)) ∧
  (∀ s, s.stopped = false → ∃ t, exec (.uncorrectableError .fabric) s = .next t ∧ t.stopped = true ∧ t.msi = s.msi ++ [(24, 0)]) ∧
  (∀ s c b line k, getBlock s c b = some k → ∃ t q, exec (.uncorrectableError (.scratch c b line)) s = .next t ∧
    getBlock t c b = some q ∧ 128 * line ∈ q.poison ∧ q.mem = k.mem) ∧
  (∀ s a,
    let g := a / 32 * 32
    let hits := (fkeys s.wings).flatMap (fun w => (stage2Hits s w g).map (fun h => (w, h)))
    (hits = [] → s.stopped = false → ∃ t, exec (.uncorrectableError (.memory a)) s = .next t ∧ t.stopped = true) ∧
    (hits ≠ [] → ∃ t, exec (.uncorrectableError (.memory a)) s = .next t ∧ g ∈ t.poison ∧
      -- of a table, or of a page that the wing's driver owns: the wing stops
      ∀ w h, (w, h) ∈ hits → (h = .table ∨ ∃ va, h = .leaf 2 va) → (getWing t w).en = false ∧ (getWing t w).pdone = true ∧
        (getWing t w).running = false)) ∧
  (∀ s w tn, ∃ t, exec (.uncorrectableError (.ownedStore w tn)) s = .next t ∧ (getTenant t ⟨w, tn⟩).launches = [] ∧
    ∀ c n g, getGroup t c n = some g → g.id.ctx ≠ ⟨w, tn⟩) ∧
  -- JOESH_LINK_TRAIN and JOESH_FLIT_ERROR
  ∀ s p,
    let k := getPort s p
    (∃ t, exec (.joeshLinkTrain p false) s = .next t ∧ getPort t p = { k with jup := false }) ∧
    (s.stopped = false → ∃ t, exec (.joeshLinkTrain p true) s = .next t ∧ getPort t p = { k with jup := true }) ∧
    (s.stopped = true → exec (.joeshLinkTrain p true) s = .next s) ∧
    ∃ t, exec (.joeshFlitError p) s = .next t ∧ getPort t p = { k with jretry := if k.jretry = 0xFFFFFFFF then k.jretry else k.jretry + 1 }

/-- O50. R179, R180, R312, R317, R321: the host's accesses to the device, what comes through a Joesh port, and a peer's
acknowledgement. A write performs at its home, a read binds there; an access beyond device memory, or that stage 2 does not allow, is
refused without effect; poisoned data leaves the device marked, and no atomic returns it. The model's readings: an access through the
physical function beyond device memory has no effect (log entry 58), and what a read returned stands in observed fields (log entry 68). -/
def Obligations.HostAndPeerAccesses : Prop :=
  let clean := fun (s : State) (as : List Nat) => ∀ a ∈ as, poisonIn s ⟨.dev, a⟩ 1 = none
  let stored := fun (s t : State) (as : List Nat) (bs : List Byte) =>
    (∀ (j a : Nat) (b : Byte), as[j]? = some a → bs[j]? = some b → memByte t.mem a = b) ∧ ∀ a, a ∉ as → memByte t.mem a = memByte s.mem a
  -- HOST_WRITE
  (∀ s a bs, ∃ t, exec (.hostWrite .hostMem a bs) s = .next t ∧ memRead t.hostMem a bs.length = bs ∧
    ∀ j, j < a ∨ a + bs.length ≤ j → memByte t.hostMem j = memByte s.hostMem j) ∧
  (∀ s a bs, s.booterr = false →
    (a + bs.length ≤ deviceBytes s → ∃ t, exec (.hostWrite .device a bs) s = .next t ∧ memRead t.mem a bs.length = bs ∧
      ∀ j, j < a ∨ a + bs.length ≤ j → memByte t.mem j = memByte s.mem j) ∧
    (deviceBytes s < a + bs.length → exec (.hostWrite .device a bs) s = .next s) ∧
    ∀ w, (wingBytes s w a false true false bs.length = none → exec (.hostWrite (.wingBar w) a bs) s = .next s) ∧
      ∀ as, wingBytes s w a false true false bs.length = some as → as.Nodup →
        ∃ t, exec (.hostWrite (.wingBar w) a bs) s = .next t ∧ stored s t as bs) ∧
  -- HOST_READ
  (∀ s a n,
    let unsupported := { s with hostRead := none, hostPoison := false }
    exec (.hostRead .hostMem a n) s = .next { s with hostRead := some (memRead s.hostMem a n), hostPoison := false } ∧
    (s.booterr = true → ∀ w, exec (.hostRead .device a n) s = .next unsupported ∧ exec (.hostRead (.wingBar w) a n) s = .next unsupported) ∧
    (s.booterr = false → deviceBytes s < a + n → exec (.hostRead .device a n) s = .next unsupported) ∧
    (s.booterr = false → a + n ≤ deviceBytes s →
      let as := (List.range n).map (a + ·)
      (clean s as → exec (.hostRead .device a n) s = .next { s with hostRead := some (memRead s.mem a n), hostPoison := false }) ∧
      (¬clean s as → ∃ t bs, exec (.hostRead .device a n) s = .next t ∧ t.hostRead = some bs ∧ bs.length = n ∧ t.hostPoison = true ∧
        t.mem = s.mem)) ∧
    (s.booterr = false → ∀ w, (wingBytes s w a true false false n = none → exec (.hostRead (.wingBar w) a n) s = .next unsupported) ∧
      ∀ as, wingBytes s w a true false false n = some as → clean s as →
        exec (.hostRead (.wingBar w) a n) s = .next { s with hostRead := some (as.map (memByte s.mem)), hostPoison := false })) ∧
  -- JOESH_INCOMING_ACCESS
  (∀ s p,
    let k := getPort s p
    let w := k.jwing.toNat
    let x : Ctx := ⟨w, k.jten.toNat⟩
    let refused := { s with peerReply := none }
    (takesPeers s p = false → ∀ a, exec (.joeshIncomingAccess p a) s = .next refused) ∧
    (takesPeers s p = true → s.lastRel = [] →
      (∀ ia n, (wingBytes s w ia true false true n = none → exec (.joeshIncomingAccess p (.read ia n)) s = .next refused) ∧
        ∀ as, wingBytes s w ia true false true n = some as → clean s as →
          exec (.joeshIncomingAccess p (.read ia n)) s = .next { s with peerReply := some (as.map (memByte s.mem)) }) ∧
      (∀ ia bs, (wingBytes s w ia false true true bs.length = none → exec (.joeshIncomingAccess p (.write ia bs)) s = .next refused) ∧
        ∀ as, wingBytes s w ia false true true bs.length = some as → as.Nodup →
          ∃ t, exec (.joeshIncomingAccess p (.write ia bs)) s = .next t ∧ stored s t as bs) ∧
      (∀ op wide ia v cmp,
        let n := if wide = true then 8 else 4
        (ia % n ≠ 0 ∨ wingBytes s w ia true true true n = none →
          exec (.joeshIncomingAccess p (.atom op wide ia v cmp)) s = .next refused) ∧
        ∀ as, ia % n = 0 → wingBytes s w ia true true true n = some as →
          (¬clean s as → exec (.joeshIncomingAccess p (.atom op wide ia v cmp)) s = .next refused) ∧
          (clean s as → as.Nodup →
            let old := as.map (memByte s.mem)
            ∃ t, exec (.joeshIncomingAccess p (.atom op wide ia v cmp)) s = .next t ∧ t.peerReply = some old ∧
              match atomNew op wide v.toNat cmp.toNat (leNat old) with
              | some y => stored s t as (leBytes n y)
              | none => t.mem = s.mem)) ∧
      (∀ op ia v ftz cnan sat as, ia % 4 = 0 → wingBytes s w ia true true true 4 = some as → as.Nodup →
        ∃ t, exec (.joeshIncomingAccess p (.red op ia v ftz cnan sat)) s = .next t ∧ stored s t as (leBytes 4
          (redStep op ftz cnan sat (BitVec.ofNat 32 (leNat (as.map (memByte s.mem)))) v).toNat)) ∧
      ∀ core tag src n ws,
        (liveCluster s (clusterOf core) = false ∨ (getWing s w).wclu.getLsbD (clusterOf core) = false →
          exec (.joeshIncomingAccess p (.message core tag src n ws)) s = .next refused) ∧
        (liveCluster s (clusterOf core) = true → (getWing s w).wclu.getLsbD (clusterOf core) = true → contextRuns s x = true →
          (∀ q ∈ (getBox s core x).posted, compatible q ⟨tag, sourceWord src (some p), n, ws⟩ = false) →
          (getBox s core x).overflow.length < Config.overflowEntries →
          ∃ t, exec (.joeshIncomingAccess p (.message core tag src n ws)) s = .next t ∧ t.peerReply = some (leBytes 4 0) ∧
            (getBox t core x).overflow = (getBox s core x).overflow ++ [⟨tag, sourceWord src (some p), n, ws⟩]))) ∧
  -- PEER_HOME_ACKNOWLEDGEMENT: the oldest write of the port performs and its flag counts down
  ∀ s p y ys, sget [] s.peerOut p = y :: ys →
    ∃ t, exec (.peerHomeAcknowledgement p) s = .next t ∧ sget [] t.peerOut p = ys ∧
      memRead (sget [] t.peerMem p) y.a y.bytes.length = y.bytes ∧
      (∀ j, j < y.a ∨ y.a + y.bytes.length ≤ j → memByte (sget [] t.peerMem p) j = memByte (sget [] s.peerMem p) j) ∧
      ∀ g f, groupOfAge s y.core y.slot y.age = some g → y.flag = some f →
        ∃ h, getGroup t y.core y.slot = some h ∧ flagCount h f = flagCount g f - 1

/-- O51. R322, R325: resets. A cold reset leaves the state of `State.reset` but for what is no part of the device and its fuses; a warm one
also keeps device memory; a device whose firmware does not verify reports it; a function-level reset kills every context of the wing,
clears its event vectors and disables it, and leaves the other wings enabled as they were. That a function-level reset drops the wing's
fault records, that a warm reset keeps poison, and that host memory stands at each, is the model's reading (log entry 60). -/
def Obligations.Resets : Prop :=
  let anew := fun (s t : State) (verified : Bool) => t.cores = [] ∧ t.clusters = [] ∧ t.wings = [] ∧ t.channels = [] ∧ t.ports = [] ∧
    t.mailboxes = [] ∧ t.pins = [] ∧ t.peerOut = [] ∧ t.stopped = false ∧ t.plimit = 2400 ∧ t.clkstep = 16 ∧ t.booterr = !verified ∧
    -- the live units are as the Milusk controller has settled them, and else as they were
    (t.liveClu, t.liveChan) = s.newFuses.getD (s.liveClu, s.liveChan) ∧ t.newFuses = none ∧ t.stepping = s.stepping ∧ t.hostMem = s.hostMem
  (∀ s v, ∃ t, exec (.coldReset v) s = .next t ∧ anew s t v ∧ t.mem = [] ∧ t.poison = []) ∧
  (∀ s v, ∃ t, exec (.warmReset v) s = .next t ∧ anew s t v ∧ t.mem = s.mem ∧ t.poison = s.poison) ∧
  ∀ s w, ∃ t, exec (.vfFlr w) s = .next t ∧ (getWing t w).en = false ∧ (getWing t w).running = false ∧ (getWing t w).edge = none ∧
    (getWing t w).faults = [] ∧ (getWing t w).fqtail = 0 ∧ (getWing t w).fqhead = 0 ∧
    (∀ tn < 8, (getTenant t ⟨w, tn⟩).events = 0 ∧ (getTenant t ⟨w, tn⟩).launches = [] ∧ (getTenant t ⟨w, tn⟩).saved = none ∧
      (getTenant t ⟨w, tn⟩).held = none) ∧
    (∀ c n g, getGroup t c n = some g → g.id.ctx.wing = w → 8 ≤ g.id.ctx.ten) ∧
    ∀ v, v ≠ w → (getWing t v).en = (getWing s v).en ∧ (getWing t v).running = (getWing s v).running

/-! ### Issue -/

/-- O52. R29 to R32, R40, R45, R46, R71, R73, R76, R281: the events of issue. A pick begins the clause of the entry that R30 selects, unless a
flag it waits on is busy or a word of it is illegal; a side takes the group that has waited longest; the cap of a core moves one row
towards its target; tokens are released; the next group in trap order enters its handler. That a busy flag holds the clause before its
header can trap and before its words are decoded (log entry 20, DEDUCED), and that a side chooses at every turn (log entry 32, DEDUCED),
are the model's readings. -/
def Obligations.IssueEvents : Prop :=
  -- PICK at a clause header
  (∀ s c n g e w u, getGroup s c n = some g → g.active = none → g.gpark = .none → g.halt = .run → slotRuns s g.id.ctx = true →
    heldStore s c n g = none → (∀ d ∈ g.frontier, d.fail ≠ some .again) → selectEntry (pickable s c g) = some e → e.clause = none →
    e.fail = none →
    fetchWord s c g.id.ctx e.pc = (.word w, u) → getGroup u c n = some g →
    -- a busy flag
    (waitBusy g w = true → exec (.pick c n) s = .next u) ∧
    (waitBusy g w = false → g.ovfq = [] → (∀ l < 64, hasLane e.lanes l = true → (laneSt g l).step = false) →
      breakHit u g.id.ctx e.pc = none →
      -- an illegal header, and an illegal word of the clause
      (decodeHeader w = none → exec (.pick c n) s = .next (headerTrap u c n g e causeIllegal e.pc.toNat 0 e.lanes false true w)) ∧
      ∀ h, decodeHeader w = some h →
        (∀ a x, decodeClause (isAp g) h 16 (e.pc + 4) (clauseWords u c g.id.ctx e.pc (headerLen w)) = .error (a, x) →
          exec (.pick c n) s = .next (headerTrap u c n g e causeIllegal a.toNat 0 e.lanes false true x)) ∧
        ∀ is, decodeClause (isAp g) h 16 (e.pc + 4) (clauseWords u c g.id.ctx e.pc (headerLen w)) = .ok is →
          is.all (fun p => !isMemory p.2) = true →
          ∃ t q f cc, exec (.pick c n) s = .next t ∧ t.focusCore = c ∧ t.focusSlot = n ∧ getGroup t c n = some q ∧
            q.frontier = g.frontier.erase e ∧ q.active = some f ∧ f.pc = e.pc + 4 ∧ f.lanes = e.lanes ∧ f.clause = some cc ∧
            cc.hdr = e.pc ∧ cc.word = w ∧ cc.begun = false ∧ q.names = g.names ∧ q.lanes = g.lanes ∧ t.mem = s.mem)) ∧
  -- PICK of an entry that resumes within its clause
  (∀ s c n g e cc, getGroup s c n = some g → g.active = none → g.gpark = .none → g.halt = .run → slotRuns s g.id.ctx = true →
    heldStore s c n g = none → (∀ d ∈ g.frontier, d.fail ≠ some .again) → selectEntry (pickable s c g) = some e → e.clause = some cc → cc.bad = false →
    ∃ t q f dd, exec (.pick c n) s = .next t ∧ t.focusCore = c ∧ t.focusSlot = n ∧ getGroup t c n = some q ∧ q.active = some f ∧
      f.pc = e.pc ∧ f.lanes = e.lanes ∧ f.clause = some dd ∧ dd.hdr = cc.hdr ∧ dd.resumed = true) ∧
  -- what R30 selects: eligible, and no eligible entry ranks above it
  (∀ fr e, selectEntry fr = some e → e ∈ fr ∧ e.park = .none ∧
    ∀ d ∈ fr, d.park = .none → ranksAbove d e = false ∨ d = e) ∧
  -- a parked or halted group, or one whose slot does not run, picks nothing
  (∀ s c n g, getGroup s c n = some g → g.gpark ≠ .none ∨ g.halt = .halted ∨ slotRuns s g.id.ctx = false →
    exec (.pick c n) s = .next s) ∧
  -- GROUP_SWITCH: a side whose group is not ready, or another of whose groups has been ready for 32 cycles, takes the ready group of its
  -- others that has waited longest
  (∀ s c (side : Bool) p,
    let now := if side = true then (getCore s c).side1 else (getCore s c).side0
    let others := (getCore s c).groups.filter (fun q => ofSide side q.1 && some q.1 != now)
    (∀ k, now = some k → groupReady s c k = false ∨ ∃ q ∈ others, groupReady s c q.1 = true ∧ waitsSince s q.2 + 32 ≤ s.clock) →
    longestWaiting s (others.filter (fun q => groupReady s c q.1)) = some p →
    ∃ t, exec (.groupSwitch c side) s = .next t ∧ t.focusCore = c ∧ t.focusSlot = p.1 ∧
      (if side = true then (getCore t c).side1 else (getCore t c).side0) = some p.1 ∧
      -- the group that it leaves begins to wait
      ∀ k, getGroup t c k = if now = some k then (getGroup s c k).map (fun g => { g with readyAt := s.clock }) else getGroup s c k) ∧
  -- a side that issues a ready group keeps it until another has been ready for 32 cycles
  (∀ s c (side : Bool) k, (if side = true then (getCore s c).side1 else (getCore s c).side0) = some k → groupReady s c k = true →
    (∀ q ∈ (getCore s c).groups, ofSide side q.1 = true → q.1 ≠ k → groupReady s c q.1 = true → s.clock < waitsSince s q.2 + 32) →
    exec (.groupSwitch c side) s = .next s) ∧
  -- a group that is parked or halted, or whose slot does not run, is not ready
  (∀ s c n g, getGroup s c n = some g → g.gpark ≠ .none ∨ g.halt ≠ .run ∨ slotRuns s g.id.ctx = false → groupReady s c n = false) ∧
  -- LOCALITY_INTERVAL
  (∀ s c,
    let q := getCore s c
    let score := if q.l1Lookups = 0 then 0 else min 255 (256 * q.victimHits / q.l1Lookups)
    let goal := if score ≤ 7 then 64 else if score ≤ 15 then 48 else if score ≤ 31 then 32 else if score ≤ 63 then 16
      else if score ≤ 127 then 8 else 4
    let less := fun n => if n = 64 then 48 else if n = 48 then 32 else if n = 32 then 16 else if n = 16 then 8 else 4
    let more := fun n => if n = 4 then 8 else if n = 8 then 16 else if n = 16 then 32 else if n = 32 then 48 else 64
    q.cap ∈ [64, 48, 32, 16, 8, 4] → ∃ t, exec (.localityInterval c) s = .next t ∧
      getCore t c = { q with l1Lookups := 0, victimHits := 0,
                             cap := if goal < q.cap then less q.cap else if q.cap < goal then more q.cap else q.cap }) ∧
  -- TOKEN_IDLE_RELEASE and TOKEN_HOLD_RELEASE
  (∀ s c n g, getGroup s c n = some g → g.token = true →
    let gives := fun (ins : Instr) => ∃ t, exec ins s = .next t ∧ getGroup t c n = some { g with token := false }
    let waits := (getCore s c).groups.any (fun p => p.1 != n && wantsToken s c p.2) = true
    (g.tokenLast + 256 ≤ s.clock → gives (.tokenIdleRelease c n)) ∧
    (s.clock < g.tokenLast + 256 → exec (.tokenIdleRelease c n) s = .next s) ∧
    (g.tokenSince + 65536 ≤ s.clock → waits → gives (.tokenHoldRelease c n)) ∧
    (s.clock < g.tokenSince + 65536 ∨ ¬waits → exec (.tokenHoldRelease c n) s = .next s)) ∧
  -- TRAP_ENTRY
  (∀ s c n ns g p d, (getCore s c).trapOwner = none → (getCore s c).trapQueue = n :: ns → getGroup s c n = some g →
    g.pendTrap = some p → (getTenant s g.id.ctx).trap = some d →
    ∃ t q h f, exec (.trapEntry c) s = .next t ∧ (getCore t c).trapOwner = some n ∧ (getCore t c).trapQueue = ns ∧
      getGroup t c n = some q ∧ q.pendTrap = none ∧ q.gpark = .none ∧ q.traps = p.regs ∧ q.handler = some h ∧ h.lanes = p.entry.lanes ∧
      h.halted = g.frontier ∧ q.frontier = [f] ∧ f.pc = d.hentry ∧ f.lanes = p.entry.lanes ∧
      ∀ l < 64, hasLane p.entry.lanes l = true → (laneSt q l).hvb = (laneSt g l).wb ∧
        (laneSt q l).fmode = (laneSt g l).fmode &&& ~~~(0x3E0 : Word)) ∧
  ∀ s c, (getCore s c).trapOwner ≠ none → exec (.trapEntry c) s = .next s

/-- O53. The traps that stop a word before any effect of it (R276). R52, R100: a name above 1023 traps `ILLEGAL` in the lanes that name
it, stated of `IADD`, `MOV` and a local `ST`. R122, R115 to R119, R125, R172, R288, R299, R304, R312: what traps a lane's memory access, of
`LD`, `ST`, `LDA`, `STL`, `ATOM`, `ATOM64` and `RED`: the lowest cause that the checks of its lanes give, and a translation that fails. By what
addresses the vitrine compares is the model's reading (log entry 27, DEDUCED), the operand of an address log entry 28, and the order of a
lane's faults log entry 30; that a rights failure found after issue is no trap is R310 and R400. -/
def Obligations.TrapsBeforeAnyEffect : Prop :=
  (∀ s i, Issues s i →
    (∀ (m : SatMode) (r : R3), badLanes i [r.sa.toNat, r.sb.toNat, r.d.toNat] ≠ 0 →
      exec (.iadd m r) s = .next (illegal s i (badLanes i [r.sa.toNat, r.sb.toNat, r.d.toNat]))) ∧
    (∀ r : R2, badLanes i [r.sa.toNat, r.d.toNat] ≠ 0 → exec (.mov r) s = .next (illegal s i (badLanes i [r.sa.toNat, r.d.toNat]))) ∧
    (∀ w ep lu (m : MArgs), m.spc = .loc → badLanes i ([m.a.toNat] ++ fieldsFrom m.d.toNat (wordsFor (widthBytes w))) ≠ 0 →
      exec (.st w ep lu m) s = .next (illegal s i (badLanes i ([m.a.toNat] ++ fieldsFrom m.d.toNat (wordsFor (widthBytes w)))))) ∧
    ∀ fs l, l < 64 → i.g.handler = none → isAp i.g = false → (hasLane (badLanes i fs) l = true ↔
      hasLane i.e.lanes l = true ∧ ∃ f ∈ fs, 1023 < (laneSt i.g l).wb.toNat + f)) ∧
  -- each instruction takes the lowest cause of its lanes' checks
  (∀ (w : Width) (ep : BitVec 2) (lu : Bool) (m : MArgs),
    let n := widthBytes w
    let fs := addrFields m.spc m.a.toNat
    let ds := fieldsFrom m.d.toNat (wordsFor n)
    TrapsAtAccess (.ld w ep lu m) (fs ++ ds) fs ds (kindLoad m.spc) m.spc m.a.toNat n ∧
    FaultsAtAccess (.ld w ep lu m) (fs ++ ds) fs ds (kindLoad m.spc) m.spc m.a.toNat n 0 ∧
    TrapsAtAccess (.st w ep lu m) (fs ++ ds) (fs ++ ds) [] (kindStore m.spc) m.spc m.a.toNat n) ∧
  (∀ (wide : Bool) (scp : Scope) (m : MArgs),
    let n := if wide then 8 else 4
    let fs := addrFields m.spc m.a.toNat
    let ds := fieldsFrom m.d.toNat (wordsFor n)
    TrapsAtAccess (.lda wide scp m) (fs ++ ds) fs ds (kindAcq m.spc) m.spc m.a.toNat n ∧
    FaultsAtAccess (.lda wide scp m) (fs ++ ds) fs ds (kindAcq m.spc) m.spc m.a.toNat n 0 ∧
    TrapsAtAccess (.stl wide scp m) (fs ++ ds) (fs ++ ds) [] (kindRel m.spc) m.spc m.a.toNat n) ∧
  (∀ (op : AtomOp) (scp : Scope) (sat cnan ftz : Bool) (sb sa d : Reg),
    let one := [sa.toNat, sa.toNat + 1, sb.toNat] ++ (if op = .cas then [d.toNat] else [])
    let two := [sa.toNat, sa.toNat + 1, sb.toNat, sb.toNat + 1] ++ (if op = .cas then [d.toNat, d.toNat + 1] else [])
    let red := [sa.toNat, sa.toNat + 1, sb.toNat]
    TrapsAtAccess (.atom op sb sa d) (one ++ [d.toNat]) one [d.toNat] (kindAtom op) .flat sa.toNat 4 ∧
    FaultsAtAccess (.atom op sb sa d) (one ++ [d.toNat]) one [d.toNat] (kindAtom op) .flat sa.toNat 4 2 ∧
    TrapsAtAccess (.atom64 op sb sa d) (two ++ [d.toNat, d.toNat + 1]) two [d.toNat, d.toNat + 1] (kindAtom op) .flat sa.toNat 8 ∧
    FaultsAtAccess (.atom64 op sb sa d) (two ++ [d.toNat, d.toNat + 1]) two [d.toNat, d.toNat + 1] (kindAtom op) .flat sa.toNat 8 2 ∧
    TrapsAtAccess (.red op scp sat cnan ftz sb sa) red red [] (kindRed op) .flat sa.toNat 4) ∧
  -- MISALIGN: an acquire, a release, an atomic or a reduction off its width, and an access that crosses a page
  (∀ s c g l k spc a n, k.aligned = true → a % n ≠ 0 → checkLane s c g l k spc a n = (.trap causeMisalign a 0, s)) ∧
  (∀ s c g l k spc a n e, spc = .flat ∨ spc = .host → a < 2 ^ 56 → apertureAddr a = false → tlbLookup s c g.id.ctx a = some e →
    2 ^ e.log < a % 2 ^ e.log + n → checkLane s c g l k spc a n = (.trap causeMisalign a 0, s)) ∧
  -- PERM, of an access that is aligned where that is asked for
  (∀ s c g l k spc a n, k.aligned = false ∨ a % n = 0 →
    let perm := checkLane s c g l k spc a n = (.trap causePerm a 0, s)
    -- address bits that must be zero
    (spc = .loc ∧ 2 ^ 19 ≤ a ∨ spc = .cluster ∧ 2 ^ 21 ≤ a ∨ (spc = .flat ∨ spc = .host) ∧ 2 ^ 56 ≤ a → perm) ∧
    (spc = .flat → apertureAddr a = true →
      (if a / 2 ^ 23 % 2 = 0 then a / 2 ^ 19 % 16 ≠ 0 else a / 2 ^ 21 % 4 ≠ 0) → perm) ∧
    -- beyond the scratchpad that is open, another gang's block, and a store in the cluster form
    (∀ b, spc = .loc → isAp g = false → getBlock s c g.id.blockKey = some b → openScratch b < a + n → perm) ∧
    (spc = .cluster → isAp g = false → gangBlocks s g ≤ a / 2 ^ 19 → perm) ∧
    (spc = .cluster → k.store = true → perm) ∧
    -- SPC 3 in the aperture, and what a translation at hand refuses
    (spc = .host → apertureAddr a = true → perm) ∧
    ∀ e, spc = .flat ∨ spc = .host → a < 2 ^ 56 → apertureAddr a = false → tlbLookup s c g.id.ctx a = some e →
      a % 2 ^ e.log + n ≤ 2 ^ e.log →
      (k.rights.r = true ∧ e.r = false ∨ k.rights.w = true ∧ e.w = false ∨ k.rights.prog = true ∧ e.sup = true ∨
        k.host = true ∧ (placeOf e a).tgt ≠ .host ∨ k.hostOk = false ∧ (placeOf e a).tgt = .host) → perm) ∧
  -- the translation of a store or a reduction that is not at hand is none of its traps
  (∀ s c g l k a n, k.lazy = true → a < 2 ^ 56 → apertureAddr a = false → tlbLookup s c g.id.ctx a = none →
    ∀ r, checkLane s c g l k .flat a n = (r, s) → r ≠ .trap causePerm a 0 ∧ ∀ f va, r ≠ .fault f va) ∧
  -- a translation that fails
  (∀ s c g l k spc a n f, k.lazy = false → spc = .flat ∨ spc = .host → k.aligned = false ∨ a % n = 0 → a < 2 ^ 56 →
    apertureAddr a = false → tlbLookup s c g.id.ctx a = none → walk s g.id.ctx a = .error f →
    let span := failSpan (walkTouch s g.id.ctx a) g.id.ctx a
    a % 2 ^ span + n ≤ 2 ^ span → checkLane s c g l k spc a n = (.fault f a, walkTouch s g.id.ctx a)) ∧
  -- an access that passes these goes on to the checks of its place
  (∀ s c g l k a n b, k.aligned = false ∨ a % n = 0 → isAp g = false → a < 2 ^ 19 → getBlock s c g.id.blockKey = some b →
    a + n ≤ openScratch b →
    checkLane s c g l k .loc a n =
      (placeChecks s c g l k (some ⟨.scr c g.id.blockKey, a⟩) a (Config.apertureBase + a) n, s)) ∧
  (∀ s c g l k spc a n e, k.aligned = false ∨ a % n = 0 → spc = .flat ∨ spc = .host → a < 2 ^ 56 → apertureAddr a = false →
    tlbLookup s c g.id.ctx a = some e → a % 2 ^ e.log + n ≤ 2 ^ e.log → rightsOk e k.rights = true →
    (k.host = true → (placeOf e a).tgt = .host) → ((placeOf e a).tgt = .host → k.hostOk = true) → peerDown s (placeOf e a) = false →
    checkLane s c g l k spc a n = (placeChecks s c g l k (some (placeOf e a)) a a n, s)) ∧
  -- VITRINE, WATCH, MEMERR and absence, in this order
  ∀ s c g l k (p : PLoc) a wa n, 0 < n →
    let r := placeChecks s c g l k (some p) a wa n
    let scratch := fun (q : PLoc) => match q.tgt with
      | .scr .. => True
      | _ => False
    -- an entry of the vitrine of the same context that overlaps: a write, or a load from a destination in memory
    let barred := ∃ e ∈ (getCluster s (clusterOf c)).vit, e.ctx = g.id.ctx ∧
      (scratch e.space ∧ k.write = true ∧ p.tgt = e.space.tgt ∧ e.space.a < p.a + n ∧ p.a < e.space.a + e.len ∨
        ¬scratch e.space ∧ ¬scratch p ∧ (k.write = true ∨ e.dst = true) ∧ e.flat < a + n ∧ a < e.flat + e.len)
    let absent := ∃ q h b, p.tgt = .scr q h ∧ getBlock s q h = some b ∧
      ∃ ln, p.a / 128 ≤ ln ∧ ln ≤ (p.a + n - 1) / 128 ∧ sget 0 b.absent ln ≠ 0
    -- watchpoint `j` matches
    let hit := fun (j : Nat) => ∃ d w, (getTenant s g.id.ctx).trap = some d ∧ j < 4 ∧ d.wp[j]? = some w ∧ d.wpen.getLsbD j = true ∧
      (k.load = true ∧ w.2.2.1 = true ∨ k.write = true ∧ w.2.2.2 = true) ∧ max w.1 wa < w.1 + w.2.1 ∧ max w.1 wa < wa + n
    let watched := isAp g = false ∧ (laneSt g l).mute = false ∧ ∃ j, hit j
    let poisoned := k.load = true ∧ poisonIn s p n ≠ none
    (barred ∨ k.store = true ∧ absent → r = .trap causeVitrine a 0) ∧
    (¬(barred ∨ k.store = true ∧ absent) →
      (watched → ∃ ad ix, r = .trap causeWatch ad ix ∧ hit ix ∧ (∀ j, hit j → ix ≤ j) ∧
        (∃ j d w, hit j ∧ (getTenant s g.id.ctx).trap = some d ∧ d.wp[j]? = some w ∧ ad = max w.1 wa) ∧
        ∀ j d w, hit j → (getTenant s g.id.ctx).trap = some d → d.wp[j]? = some w → ad ≤ max w.1 wa) ∧
      (¬watched →
        (poisoned → ∃ ad, r = .trap causeMemerr ad 0) ∧
        (¬poisoned → (absent → ∃ ln, r = .absent ln) ∧ (¬absent → r = .ok p))))

/-! ### Reset, memory and the whole machine -/

/-- O54. R21, R22, R326: what the registers read right after reset, of a device with every unit live, and the worked example of R22 for one
with four clusters and eight channels fused. That the reset state has every unit live is the model's choice (log entry 5). -/
def Obligations.RegistersAfterReset : Prop :=
  let s := State.reset
  pfRead s 0 = 0 ∧ pfRead s 4 = 2400 ∧ pfRead s 8 = 0x80000000 ∧ pfRead s 0x100 = 0x0E040000 ∧
  pfRead s 0x104 = 0x30608060 ∧ pfRead s 0x108 = 393216 ∧
  (let u := { s with liveClu := 0x0FFFFFFFFFFFFFFFFFFFFFFF, liveChan := BitVec.ofNat 256 (2 ^ 248 - 1) }
   pfRead u 0x104 = 0x2E5C7C5C ∧ pfRead u 0x108 = 380928) ∧
  (∀ w < 24, pfRead s (0x2000 + 0x100 * w + 0x64) = 0 ∧ pfRead s (0x2000 + 0x100 * w + 0x6C) = 50 ∧
    pfRead s (0x2000 + 0x100 * w + 0x70) = 500) ∧
  s.cores = [] ∧ s.mem = [] ∧ step s = .next s

/-- O55. R2, R127: a write at a home is read back there, and every byte outside it reads as before, at each of the four kinds of home. -/
def Obligations.HomeReadsWhatWasWritten : Prop :=
  ∀ (s : State) (l : PLoc) (bs : List Byte),
    (∀ c b, l.tgt = .scr c b → (getBlock s c b).isSome = true) →
    homeRead (homeWrite s l bs) l bs.length = bs ∧
    (∀ a, a < l.a ∨ l.a + bs.length ≤ a → homeRead (homeWrite s l bs) ⟨l.tgt, a⟩ 1 = homeRead s ⟨l.tgt, a⟩ 1) ∧
    ∀ m : PLoc, m.tgt ≠ l.tgt → ∀ n, homeRead (homeWrite s l bs) m n = homeRead s m n

/-- O56. R3, R21 (fuses are loaded at device reset only), and the form of the model's memories: every step of every state keeps each memory
canonical; the stepping stays, and the live units change at a reset of the device only, to what the Milusk controller has settled. -/
def Obligations.EveryStepKeepsMemoriesAndFuses : Prop :=
  ∀ s t, step s = .next t → (MemoriesWf s → MemoriesWf t) ∧
    t.stepping = s.stepping ∧ ((t.liveClu = s.liveClu ∧ t.liveChan = s.liveChan) ∨
      (s.newFuses = some (t.liveClu, t.liveChan) ∧ ∃ v ts, s.turns = .event (.coldReset v) :: ts ∨ s.turns = .event (.warmReset v) :: ts))

/-- O57. The reset state meets what O56 keeps. -/
def Obligations.ResetMemoriesAreCanonical : Prop := MemoriesWf State.reset

/-- O58. R24, R322: no step refuses, and only a code word without an issuing group faults; every event answers a next state in every
state, and so does every step. -/
def Obligations.EveryStepGoesOn : Prop :=
  (∀ i s r, exec i s ≠ .refused r) ∧
  (∀ i s, i.isCode = false → ∃ t, exec i s = .next t) ∧
  (∀ i s, (issuer s).isSome = true → ∃ t, exec i s = .next t) ∧
  ∀ s, ∃ t, step s = .next t

/-! ### Completion of the returns from a handler, and of a WEMIT under way -/

/-- O59. R283, R285, R386: wherever a word of the handler may execute, `RFT`, `RFT.GOTO` and `RFT.END` complete. A return takes its lanes
out of the handler's code, with the step and mute marks of its word, at an address that is a multiple of 4, of which bits [55:0] are taken (log entry 90, DEDUCED); an end makes them dead. -/
def Obligations.HandlerReturnsComplete : Prop :=
  -- the lanes have left the handler's code, bear the marks, and stand at their targets
  let left := fun (mute stp : Bool) (i : Iss) (t : State) (target : Nat → Pc) => ∃ g, getGroup t i.core i.slot = some g ∧ g.active = none ∧
    ∀ l < 64, hasLane i.e.lanes l = true → (laneSt g l).mute = mute ∧ (laneSt g l).step = stp ∧
      ∃ e ∈ g.frontier ++ (match g.handler with | some k => k.halted | none => []), e.pc = target l ∧ hasLane e.lanes l = true
  (∀ (mute stp : Bool) s i h, Ready s i [] [] [] → i.g.handler = some h →
    ∃ t, exec (.rftRestart mute stp) s = .next t ∧
      left mute stp i t (fun l => if h.hdrTrap = true then i.g.traps.pc else (laneSt i.g l).rgnPc)) ∧
  (∀ (mute stp : Bool) (sa : Reg) s i h, Ready s i [sa.toNat, sa.toNat + 1] [sa.toNat, sa.toNat + 1] [] → i.g.handler = some h →
    (fieldPair i.g (lowLane i.e.lanes) sa.toNat).toNat % 4 = 0 →
    ∃ t, exec (.rftGoto mute stp sa) s = .next t ∧
      left mute stp i t (fun _ => (fieldPair i.g (lowLane i.e.lanes) sa.toNat).setWidth 56)) ∧
  ∀ s i h, Ready s i [] [] [] → i.g.handler = some h →
    ∃ t, exec .rftEnd s = .next t ∧ ∀ g, getGroup t i.core i.slot = some g → g.live &&& i.e.lanes = 0

/-- O60. R208, R411: a `WEMIT` that has appended some of its records goes on with the lanes left, wherever the slot given stands at it and
runs, and completes when the ring takes each of their records. -/
def Obligations.EmissionUnderWayCompletes : Prop :=
  ∀ s c slot (sa : Reg) i u,
    let s1 := { s with focusCore := c, focusSlot := slot }
    -- the slot's group stands at the `WEMIT`, with lanes left
    Ready s1 i [sa.toNat] [sa.toNat] [] → i.g.wemit ≠ 0 → i.g.gpark = .none → i.g.halt = .run → slotRuns s i.g.id.ctx = true →
    decodeWord (wordAt s1 i) (some 0) = .ok (.wemit sa) →
    HasRoom s1 i [] → Quiet s1 i.core → EmitsAll s1 i sa u →
    ∃ t, exec (.wemitSlotResume c slot) s = .next t ∧ EmittedAll i u t ∧ t.focusCore = s.focusCore ∧ t.focusSlot = s.focusSlot
end

