-- ==== Sys2Proof/Laws/Sparse.lean ====
section
/-!
SUPPORT. Laws of the finite maps: what a read gives after a write or an erasure, in every list, and that the operations keep the
canonical form.
-/
namespace Sys2Proof.Machine

theorem fget_ferase {α : Type} (m : FMap α) (n k : Nat) : fget (ferase m n) k = if n = k then none else fget m k := by
  induction m with
  | nil => simp [ferase, fget]
  | cons p m ih =>
    obtain ⟨a, v⟩ := p
    simp only [ferase] at ih
    by_cases h : a = n
    · subst h; simp only [ferase, List.filter_cons]; simp only [fget, ne_eq, not_true, decide_false, Bool.false_eq_true, if_false, ih]
      split <;> rfl
    · simp only [ferase, List.filter_cons, ne_eq, h, not_false_eq_true, decide_true, if_true, fget, ih]
      split
      · split
        · omega
        · rfl
      · rfl

theorem fget_finsert {α : Type} (m : FMap α) (n k : Nat) (x : α) (h : fget m n = none) :
    fget (finsert m n x) k = if n = k then some x else fget m k := by
  induction m with
  | nil => simp [finsert, fget]
  | cons p m ih =>
    obtain ⟨a, v⟩ := p
    have ha : a ≠ n := by rintro rfl; simp [fget] at h
    have hm : fget m n = none := by simpa [fget, ha] using h
    unfold finsert
    split
    · simp [fget]
    · simp only [fget, ih hm]
      split
      · rw [if_neg]; omega
      · rfl

theorem fget_fset {α : Type} (m : FMap α) (n k : Nat) (x : α) : fget (fset m n x) k = if n = k then some x else fget m k := by
  rw [fset, fget_finsert _ _ _ _ (by simp [fget_ferase]), fget_ferase]
  split <;> rfl

@[simp] theorem fget_fset_self {α : Type} (m : FMap α) (n : Nat) (x : α) : fget (fset m n x) n = some x := by simp [fget_fset]

theorem fget_fset_ne {α : Type} (m : FMap α) {n k : Nat} (x : α) (h : n ≠ k) : fget (fset m n x) k = fget m k := by
  simp [fget_fset, h]

/-- A total map reads what was written, and is unchanged elsewhere. -/
theorem sget_sset {α : Type} [DecidableEq α] (d : α) (m : FMap α) (n k : Nat) (x : α) :
    sget d (sset d m n x) k = if n = k then x else sget d m k := by
  unfold sget sset
  split
  · subst_vars; rw [fget_ferase]; split <;> simp
  · rw [fget_fset]; split <;> simp

@[simp] theorem sget_sset_self {α : Type} [DecidableEq α] (d : α) (m : FMap α) (n : Nat) (x : α) :
    sget d (sset d m n x) n = x := by simp [sget_sset]

theorem sget_sset_ne {α : Type} [DecidableEq α] (d : α) (m : FMap α) {n k : Nat} (x : α) (h : n ≠ k) :
    sget d (sset d m n x) k = sget d m k := by simp [sget_sset, h]

/-! ### The canonical form -/

/-- Every key of a map is above a number. -/
def keysAbove {α : Type} (n : Nat) (m : FMap α) : Prop := ∀ p ∈ m, n < p.1

theorem keysRising_cons {α : Type} (p : Nat × α) (m : FMap α) :
    keysRising (p :: m) = true ↔ keysAbove p.1 m ∧ keysRising m = true := by
  induction m generalizing p with
  | nil => simp [keysRising, keysAbove]
  | cons q m ih =>
    obtain ⟨a, x⟩ := p
    obtain ⟨b, y⟩ := q
    simp only [keysRising, Bool.and_eq_true, decide_eq_true_eq]
    constructor
    · rintro ⟨h, hr⟩
      refine ⟨?_, hr⟩
      have hb := ((ih (b, y)).1 hr).1
      intro p hp
      rcases List.mem_cons.1 hp with rfl | hp
      · exact h
      · exact Nat.lt_trans h (hb p hp)
    · rintro ⟨h, hr⟩
      exact ⟨h (b, y) (List.mem_cons_self ..), hr⟩

theorem keysRising_filter {α : Type} {m : FMap α} (f : Nat × α → Bool) (h : keysRising m = true) :
    keysRising (m.filter f) = true := by
  induction m with
  | nil => simp [keysRising]
  | cons q m ih =>
    have hk := (keysRising_cons _ _).1 h
    rw [List.filter_cons]
    split
    · exact (keysRising_cons _ _).2 ⟨fun p hp => hk.1 p (List.mem_of_mem_filter hp), ih hk.2⟩
    · exact ih hk.2

theorem mem_finsert {α : Type} {m : FMap α} {n : Nat} {x : α} {p : Nat × α} : p ∈ finsert m n x ↔ p = (n, x) ∨ p ∈ m := by
  induction m with
  | nil => simp [finsert]
  | cons q m ih =>
    obtain ⟨k, v⟩ := q
    unfold finsert
    split
    · simp
    · rw [List.mem_cons, ih, List.mem_cons]; tauto

theorem mem_fset {α : Type} {m : FMap α} {n : Nat} {x : α} {p : Nat × α} (h : p ∈ fset m n x) :
    p = (n, x) ∨ p ∈ m ∧ p.1 ≠ n := by
  rcases mem_finsert.1 h with h | h
  · exact .inl h
  · simpa [ferase] using Or.inr h

theorem keysRising_finsert {α : Type} {m : FMap α} (n : Nat) (x : α) (h : keysRising m = true) (hn : ∀ p ∈ m, p.1 ≠ n) :
    keysRising (finsert m n x) = true := by
  induction m with
  | nil => simp [finsert, keysRising]
  | cons q m ih =>
    obtain ⟨k, v⟩ := q
    have hk := (keysRising_cons _ _).1 h
    have hkn : k ≠ n := hn (k, v) (List.mem_cons_self ..)
    unfold finsert
    split
    · rename_i hlt
      refine (keysRising_cons _ _).2 ⟨?_, h⟩
      intro p hp
      rcases List.mem_cons.1 hp with rfl | hp
      · exact hlt
      · exact Nat.lt_trans hlt (hk.1 p hp)
    · refine (keysRising_cons _ _).2 ⟨?_, ih hk.2 (fun p hp => hn p (List.mem_cons_of_mem _ hp))⟩
      intro p hp
      rcases mem_finsert.1 hp with rfl | hp
      · simp only; omega
      · exact hk.1 p hp

theorem keysRising_fset {α : Type} {m : FMap α} (n : Nat) (x : α) (h : keysRising m = true) : keysRising (fset m n x) = true :=
  keysRising_finsert _ _ (keysRising_filter _ h) (fun p hp => by simpa using (List.mem_filter.1 hp).2)

/-- Writing a total map keeps its canonical form. -/
theorem canonical_sset {α : Type} [DecidableEq α] {d : α} {m : FMap α} (n : Nat) (x : α) (h : canonical d m = true) :
    canonical d (sset d m n x) = true := by
  simp only [canonical, Bool.and_eq_true, List.all_eq_true, decide_eq_true_eq] at h ⊢
  unfold sset
  split
  · exact ⟨keysRising_filter _ h.1, fun p hp => h.2 p (List.mem_of_mem_filter hp)⟩
  · refine ⟨keysRising_fset _ _ h.1, fun p hp => ?_⟩
    rcases mem_fset hp with rfl | hp
    · assumption
    · exact h.2 p hp.1

end Sys2Proof.Machine
end

