-- ==== Sys2Proof/Laws/Groups.lean ====
section
/-!
SUPPORT. Laws of the parts of the state: reading a core, a cluster, a wing, a group or a lane after a write of one.
-/
namespace Sys2Proof.Machine

theorem getCore_setCore (s : State) (c d : Nat) (q : Core) : getCore (setCore s c q) d = if c = d then q else getCore s d := by
  simp [getCore, setCore, sget_sset]

@[simp] theorem getCore_setCore_self (s : State) (c : Nat) (q : Core) : getCore (setCore s c q) c = q := by
  simp [getCore_setCore]

theorem getCore_setCore_ne (s : State) {c d : Nat} (q : Core) (h : c ≠ d) : getCore (setCore s c q) d = getCore s d := by
  simp [getCore_setCore, h]

theorem getCluster_setCluster (s : State) (n m : Nat) (k : Cluster) :
    getCluster (setCluster s n k) m = if n = m then k else getCluster s m := by
  simp [getCluster, setCluster, sget_sset]

@[simp] theorem getCluster_setCluster_self (s : State) (n : Nat) (k : Cluster) : getCluster (setCluster s n k) n = k := by
  simp [getCluster_setCluster]

theorem getWing_setWing (s : State) (w v : Nat) (k : Wing) : getWing (setWing s w k) v = if w = v then k else getWing s v := by
  simp [getWing, setWing, sget_sset]

@[simp] theorem getWing_setWing_self (s : State) (w : Nat) (k : Wing) : getWing (setWing s w k) w = k := by
  simp [getWing_setWing]

@[simp] theorem getTenant_setTenant_self (s : State) (x : Ctx) (t : Tenant) : getTenant (setTenant s x t) x = t := by
  simp [getTenant, setTenant]

theorem getGroup_setCore (s : State) (c d k : Nat) (q : Core) :
    getGroup (setCore s c q) d k = if c = d then fget q.groups k else getGroup s d k := by
  simp only [getGroup, getCore_setCore]; split <;> rfl

theorem getGroup_setGroup (s : State) (c k d j : Nat) (g : Group) :
    getGroup (setGroup s c k g) d j = if c = d ∧ k = j then some g else getGroup s d j := by
  simp only [setGroup, getGroup_setCore]
  by_cases h : c = d
  · subst h
    simp only [fget_fset, true_and, if_true]
    rfl
  · simp [h]

@[simp] theorem getGroup_setGroup_self (s : State) (c k : Nat) (g : Group) : getGroup (setGroup s c k g) c k = some g := by
  simp [getGroup_setGroup]

theorem laneSt_setLane (g : Group) (l m : Nat) (x : LaneSt) : laneSt (setLane g l x) m = if l = m then x else laneSt g m := by
  simp [laneSt, setLane, sget_sset]

theorem mem_lanesOf {m : LaneSet} {l : Nat} : l ∈ lanesOf m ↔ l < 64 ∧ hasLane m l = true := by
  simp [lanesOf, hasLane]

theorem nodup_lanesOf (m : LaneSet) : (lanesOf m).Nodup := List.nodup_range.filter _

/-- Folding a change over distinct lanes changes each lane once. -/
theorem laneSt_foldl (f : Nat → LaneSt → LaneSt) (ls : List Nat) (hd : ls.Nodup) (g : Group) (l : Nat) :
    laneSt (ls.foldl (fun g l => setLane g l (f l (laneSt g l))) g) l = if l ∈ ls then f l (laneSt g l) else laneSt g l := by
  induction ls generalizing g with
  | nil => simp
  | cons a ls ih =>
    have hn := List.nodup_cons.1 hd
    rw [List.foldl_cons, ih hn.2, laneSt_setLane]
    by_cases h : a = l
    · subst h; simp [hn.1]
    · simp [h, Ne.symm h]

/-- The state of a lane after a change of every lane of a set. -/
theorem laneSt_mapLanes (g : Group) (m : LaneSet) (f : Nat → LaneSt → LaneSt) (l : Nat) :
    laneSt (mapLanes g m f) l = if l < 64 ∧ hasLane m l = true then f l (laneSt g l) else laneSt g l := by
  rw [mapLanes, laneSt_foldl _ _ (nodup_lanesOf m)]
  simp only [mem_lanesOf]

/-- A change of lanes changes nothing else of a group. -/
theorem mapLanes_eq (g : Group) (m : LaneSet) (f : Nat → LaneSt → LaneSt) : mapLanes g m f = { g with lanes := (mapLanes g m f).lanes } := by
  unfold mapLanes
  generalize lanesOf m = ls
  induction ls generalizing g with
  | nil => rfl
  | cons a ls ih => rw [List.foldl_cons, ih]; rfl

theorem lowLane_mem {m : LaneSet} (h : m ≠ 0) : lowLane m ∈ lanesOf m := by
  unfold lowLane
  cases hl : lanesOf m with
  | nil =>
    exfalso
    apply h
    ext k hk
    have : k ∉ lanesOf m := by simp [hl]
    simpa [mem_lanesOf, hasLane, hk] using this
  | cons a ls => simp

end Sys2Proof.Machine
end

