-- ==== Sys2Proof/Laws/Names.lean ====
section
/-!
SUPPORT. Laws of vector names: reading a name after a write of one, what releasing, touching and writing fields leave, and how
many slots of the pools they take.
-/
namespace Sys2Proof.Machine

/-! ### A group apart from its names -/

/-- Two groups that differ in their names alone. -/
def NamesOnly (a b : Group) : Prop :=
  { b with names := a.names, handler := a.handler } = a ∧
  b.handler.map (fun h => { h with names := [] }) = a.handler.map (fun h => { h with names := [] })

theorem NamesOnly.refl (a : Group) : NamesOnly a a := ⟨rfl, rfl⟩

theorem NamesOnly.trans {a b c : Group} (h : NamesOnly a b) (k : NamesOnly b c) : NamesOnly a c := by
  obtain ⟨h1, h2⟩ := h
  obtain ⟨k1, k2⟩ := k
  refine ⟨?_, k2.trans h2⟩
  cases a; cases b; cases c
  simp only [Group.mk.injEq] at *
  simp_all

section
variable {a b : Group} (h : NamesOnly a b)
include h

theorem NamesOnly.lanes : b.lanes = a.lanes := by
  have := congrArg Group.lanes h.1; simpa using this
theorem NamesOnly.live : b.live = a.live := by
  have := congrArg Group.live h.1; simpa using this
theorem NamesOnly.kind : b.kind = a.kind := by
  have := congrArg Group.kind h.1; simpa using this
theorem NamesOnly.id : b.id = a.id := by
  have := congrArg Group.id h.1; simpa using this
theorem NamesOnly.frontier : b.frontier = a.frontier := by
  have := congrArg Group.frontier h.1; simpa using this
theorem NamesOnly.active : b.active = a.active := by
  have := congrArg Group.active h.1; simpa using this

theorem NamesOnly.isSome : b.handler.isSome = a.handler.isSome := by
  have := congrArg Option.isSome h.2; simpa using this

theorem NamesOnly.laneSt (l : Nat) : Machine.laneSt b l = Machine.laneSt a l := by simp [Machine.laneSt, h.lanes]

theorem NamesOnly.nameIx (l f : Nat) : Machine.nameIx b l f = Machine.nameIx a l f := by
  have e : inHandler b = inHandler a := h.isSome
  have e' : isAp b = isAp a := by simp only [isAp, h.kind]
  simp only [Machine.nameIx, e, e', h.laneSt]

theorem NamesOnly.laneView (l : Nat) : Machine.laneView b l = Machine.laneView a l := by
  have e : inHandler b = inHandler a := h.isSome
  simp only [Machine.laneView, e, h.laneSt]
end

theorem NamesOnly.setName (g : Group) (n : Nat) (x : Name) : NamesOnly g (setName g n x) := by
  unfold Machine.setName
  split
  · exact ⟨rfl, rfl⟩
  · refine ⟨rfl, ?_⟩
    cases g.handler <;> rfl

/-- A name that the group has room to hold: handler names need a handler. -/
def NameOk (g : Group) (n : Nat) : Prop := n < 1024 ∨ g.handler.isSome = true

theorem nameOk_of_nameIx {g : Group} {l f n : Nat} (h : nameIx g l f = some n) : NameOk g n := by
  unfold nameIx at h
  by_cases hh : inHandler g = true
  · exact .inr hh
  · left
    simp only at h
    rw [if_neg hh] at h
    split at h
    · split at h <;> simp at h; omega
    · split at h <;> simp at h; omega

/-- A field names at most one name in a lane, and no two fields name the same. -/
theorem nameIx_inj {g : Group} {l f f' n : Nat} (h : nameIx g l f = some n) (h' : nameIx g l f' = some n) : f = f' := by
  unfold nameIx at h h'
  simp only at h h'
  split at h
  · rename_i hh
    rw [if_pos hh] at h'
    split at h <;> split at h' <;> simp at h h' <;> omega
  · rename_i hh
    rw [if_neg hh] at h'
    split at h
    · rename_i ha
      rw [if_pos ha] at h'
      simp at h h'; omega
    · rename_i ha
      rw [if_neg ha] at h'
      simp at h h'; omega

theorem getName_setName {g : Group} {n : Nat} (hn : NameOk g n) (m : Nat) (x : Name) :
    getName (setName g n x) m = if n = m then x else getName g m := by
  unfold setName
  split
  · rename_i h
    simp only [getName]
    split
    · rw [sget_sset]
    · rw [if_neg (by omega)]
  · rename_i h
    have hs : g.handler.isSome = true := hn.resolve_left h
    obtain ⟨hd, hh⟩ := Option.isSome_iff_exists.1 hs
    simp only [getName, hh, Option.map_some]
    split
    · rw [if_neg (by omega)]
    · rw [sget_sset]
      by_cases e : n = m
      · subst e; simp
      · rw [if_neg (by omega), if_neg e]

/-- Writing several names of a group, each with a value of its own. -/
theorem getName_foldl {g : Group} (v : Nat → Name) (ns : List Nat) (hn : ∀ n ∈ ns, NameOk g n) (a : Group) (ha : NamesOnly g a)
    (m : Nat) : getName (ns.foldl (fun a n => setName a n (v n)) a) m = if m ∈ ns then v m else getName a m := by
  induction ns generalizing a with
  | nil => simp
  | cons n ns ih =>
    rw [List.foldl_cons, ih (fun k hk => hn k (List.mem_cons_of_mem _ hk)) _ (ha.trans (.setName ..)), getName_setName]
    · by_cases h : m ∈ ns
      · simp [h]
      · by_cases e : n = m
        · subst e; simp
        · simp [h, e, Ne.symm e]
    · have := hn n (List.mem_cons_self ..)
      rcases this with h | h
      · exact .inl h
      · exact .inr (by rw [ha.isSome]; exact h)

theorem namesOnly_foldl {β : Type} (f : Group → β → Group) (hf : ∀ g b, NamesOnly g (f g b)) (bs : List β) (g : Group) :
    NamesOnly g (bs.foldl f g) := by
  induction bs generalizing g with
  | nil => exact .refl g
  | cons b bs ih => exact (hf g b).trans (ih _)

/-! ### Slots of the pools (R55, R63) -/

/-- Weight of the names of a list. -/
def slotSum (w : Name → Nat) (m : FMap Name) : Nat := (m.map (fun p => w p.2)).sum

theorem slotSum_ferase (w : Name → Nat) (m : FMap Name) (n : Nat) : slotSum w (ferase m n) ≤ slotSum w m := by
  induction m with
  | nil => simp [ferase]
  | cons p m ih =>
    simp only [ferase, List.filter_cons] at ih ⊢
    split <;> simp only [slotSum, List.map_cons, List.sum_cons] at ih ⊢ <;> omega

theorem slotSum_ferase_get (w : Name → Nat) (m : FMap Name) (n : Nat) {y : Name} (h : fget m n = some y) :
    slotSum w (ferase m n) + w y ≤ slotSum w m := by
  induction m with
  | nil => simp [fget] at h
  | cons p m ih =>
    obtain ⟨k, v⟩ := p
    by_cases e : k = n
    · subst e
      simp only [fget, if_true, Option.some.injEq] at h
      subst h
      have := slotSum_ferase w m k
      simp only [ferase, List.filter_cons, slotSum, List.map_cons, List.sum_cons, ne_eq, not_true, decide_false, Bool.false_eq_true, if_false] at this ⊢
      omega
    · simp only [fget, e, if_false] at h
      have := ih h
      simp only [ferase, List.filter_cons, slotSum, List.map_cons, List.sum_cons, ne_eq, e, not_false_eq_true, decide_true, if_true] at this ⊢
      omega

theorem slotSum_finsert (w : Name → Nat) (m : FMap Name) (n : Nat) (x : Name) : slotSum w (finsert m n x) = slotSum w m + w x := by
  induction m with
  | nil => simp [finsert, slotSum]
  | cons p m ih =>
    unfold finsert
    split <;> simp only [slotSum, List.map_cons, List.sum_cons] at ih ⊢ <;> omega

theorem slotSum_sset (w : Name → Nat) (h0 : w Name.free = 0) (m : FMap Name) (n : Nat) (x : Name) :
    slotSum w (sset Name.free m n x) + w (sget Name.free m n) ≤ slotSum w m + w x := by
  unfold sset sget
  cases h : fget m n with
  | none =>
    have := slotSum_ferase w m n
    simp only [Option.getD_none, h0]
    split
    · subst_vars; omega
    · rw [fset, slotSum_finsert]; omega
  | some y =>
    have := slotSum_ferase_get w m n h
    simp only [Option.getD_some]
    split
    · subst_vars; omega
    · rw [fset, slotSum_finsert]; omega

theorem groupSlots_eq (g : Group) :
    groupSlots g = (slotSum (fun x => (slotsOf x).1) g.names, slotSum (fun x => (slotsOf x).2) g.names) := by
  have : ∀ (l : List Name) (a : Nat × Nat), l.foldl (fun a x => (a.1 + (slotsOf x).1, a.2 + (slotsOf x).2)) a =
      (a.1 + (l.map (fun x => (slotsOf x).1)).sum, a.2 + (l.map (fun x => (slotsOf x).2)).sum) := by
    intro l
    induction l with
    | nil => simp
    | cons x l ih => intro a; rw [List.foldl_cons, ih]; simp [Nat.add_assoc]
  simp only [groupSlots, this, fvals, slotSum, List.map_map, Nat.zero_add]
  rfl

theorem groupSlots_setName (g : Group) (n : Nat) (x : Name) :
    (groupSlots (setName g n x)).1 + (if n < 1024 then (slotsOf (getName g n)).1 else 0) ≤
        (groupSlots g).1 + (if n < 1024 then (slotsOf x).1 else 0) ∧
    (groupSlots (setName g n x)).2 + (if n < 1024 then (slotsOf (getName g n)).2 else 0) ≤
        (groupSlots g).2 + (if n < 1024 then (slotsOf x).2 else 0) := by
  simp only [groupSlots_eq]
  by_cases h : n < 1024
  · simp only [setName, getName, h, if_true]
    exact ⟨slotSum_sset (fun x => (slotsOf x).1) rfl g.names n x, slotSum_sset (fun x => (slotsOf x).2) rfl g.names n x⟩
  · simp only [setName, h, if_false]
    exact ⟨Nat.le_refl _, Nat.le_refl _⟩

/-- The names of one group hold no more of either pool than those of another, but for a number of slots. -/
def SlotsLe (a b : Group) (p q : Nat) : Prop := (groupSlots b).1 ≤ (groupSlots a).1 + p ∧ (groupSlots b).2 ≤ (groupSlots a).2 + q

theorem SlotsLe.refl (a : Group) : SlotsLe a a 0 0 := ⟨Nat.le_refl _, Nat.le_refl _⟩

theorem SlotsLe.trans {a b c : Group} {p q p' q' : Nat} (h : SlotsLe a b p q) (k : SlotsLe b c p' q') :
    SlotsLe a c (p + p') (q + q') := ⟨by have := h.1; have := k.1; omega, by have := h.2; have := k.2; omega⟩

theorem SlotsLe.mono {a b : Group} {p q p' q' : Nat} (h : SlotsLe a b p q) (hp : p ≤ p') (hq : q ≤ q') : SlotsLe a b p' q' :=
  ⟨by have := h.1; omega, by have := h.2; omega⟩

theorem slotsLe_setName (g : Group) (n : Nat) (x : Name) : SlotsLe g (setName g n x) (slotsOf x).1 (slotsOf x).2 := by
  have := groupSlots_setName g n x
  constructor
  · have := this.1; split at this <;> omega
  · have := this.2; split at this <;> omega

theorem slotsLe_same (g : Group) (n : Nat) (x : Name) (h : slotsOf x = slotsOf (getName g n)) : SlotsLe g (setName g n x) 0 0 := by
  have := groupSlots_setName g n x
  rw [h] at this
  exact ⟨by have := this.1; omega, by have := this.2; omega⟩

theorem slotsLe_foldl {β : Type} (f : Group → β → Group) (p q : Nat) (hf : ∀ g b, SlotsLe g (f g b) p q) (bs : List β) (g : Group) :
    SlotsLe g (bs.foldl f g) (bs.length * p) (bs.length * q) := by
  induction bs generalizing g with
  | nil => exact (SlotsLe.refl g).mono (by omega) (by omega)
  | cons b bs ih => exact ((hf g b).trans (ih _)).mono (by simp; ring_nf; omega) (by simp; ring_nf; omega)

end Sys2Proof.Machine
end

