-- ==== Sys2Proof/Laws/Fields.lean ====
section
/-!
SUPPORT. Laws of fields: what the end of an instruction leaves in its names (`writeBack`), for every mask and every shape.
-/
namespace Sys2Proof.Machine

/-- Two issuing entries that differ in their group's names and in the clause's helper copies alone. -/
structure NamesMoved (i j : Iss) : Prop where
  core : j.core = i.core
  slot : j.slot = i.slot
  e : j.e = i.e
  cc : { j.cc with hvals := i.cc.hvals } = i.cc
  g : NamesOnly i.g j.g

theorem NamesMoved.refl (i : Iss) : NamesMoved i i := ⟨rfl, rfl, rfl, rfl, .refl _⟩

theorem NamesMoved.trans {i j k : Iss} (h : NamesMoved i j) (l : NamesMoved j k) : NamesMoved i k := by
  refine ⟨l.core.trans h.core, l.slot.trans h.slot, l.e.trans h.e, ?_, h.g.trans l.g⟩
  have h1 := h.cc
  have h2 := l.cc
  generalize i.cc = a at *
  generalize j.cc = b at *
  generalize k.cc = c at *
  cases a; cases b; cases c
  simp only [ClauseCtx.mk.injEq] at *
  simp_all

section
variable {i j : Iss} (h : NamesMoved i j)
include h

theorem NamesMoved.oneView : Machine.oneView j = Machine.oneView i := by
  simp only [Machine.oneView, h.e, h.g.laneView]

theorem NamesMoved.fullMask : Machine.fullMask j = Machine.fullMask i := by
  simp only [Machine.fullMask, h.oneView, h.g.live, h.e]

theorem NamesMoved.namesOf (f : Nat) : Machine.namesOf j f = Machine.namesOf i f := by
  simp only [Machine.namesOf, h.e, h.g.nameIx]

theorem NamesMoved.keepNames (fs : List Nat) : Machine.keepNames j fs = Machine.keepNames i fs := by
  simp only [Machine.keepNames]
  congr 1
  funext f
  exact h.namesOf f
end

theorem mem_namesOf {i : Iss} {f n : Nat} : n ∈ namesOf i f ↔ ∃ l < 64, hasLane i.e.lanes l = true ∧ nameIx i.g l f = some n := by
  simp only [namesOf, List.mem_eraseDups, List.mem_filterMap, mem_lanesOf]
  constructor
  · rintro ⟨l, ⟨h1, h2⟩, h3⟩; exact ⟨l, h1, h2, h3⟩
  · rintro ⟨l, h1, h2, h3⟩; exact ⟨l, ⟨h1, h2⟩, h3⟩

theorem mem_keepNames {i : Iss} {fs : List Nat} {n : Nat} : n ∈ keepNames i fs ↔ ∃ f ∈ fs, n ∈ namesOf i f := by
  simp [keepNames]

/-- Under one view of the names, a field names the same in every active lane. -/
theorem nameIx_low {i : Iss} (h : oneView i = true) {l : Nat} (hl : l ∈ lanesOf i.e.lanes) (f : Nat) :
    nameIx i.g l f = nameIx i.g (lowLane i.e.lanes) f := by
  simp only [oneView, List.all_eq_true, beq_iff_eq] at h
  have hv := h l hl
  unfold laneView at hv
  unfold nameIx
  by_cases hh : inHandler i.g = true
  · simp only [hh, if_true] at hv ⊢
    rw [hv]
  · simp only [hh] at hv ⊢
    simp only [Bool.false_eq_true, if_false] at hv ⊢
    rw [hv]

/-- Every active lane of the entry is named by the fields given. -/
def Named (i : Iss) (fs : List Nat) : Prop := ∀ f ∈ fs, ∀ l ∈ lanesOf i.e.lanes, (nameIx i.g l f).isSome = true

theorem NamesMoved.named {i j : Iss} (h : NamesMoved i j) {fs : List Nat} (hn : Named i fs) : Named j fs := by
  intro f hf l hl
  rw [h.e] at hl
  rw [h.g.nameIx]
  exact hn f hf l hl

/-! ### Releasing and touching -/

theorem releaseFields_moved (i : Iss) (fs : List Nat) : NamesMoved i (releaseFields i fs) := by
  unfold releaseFields
  split
  · refine ⟨rfl, rfl, rfl, rfl, namesOnly_foldl _ ?_ _ _⟩
    intro g f
    split
    · exact .setName ..
    · exact .refl _
  · exact .refl _

theorem releaseFields_slots (i : Iss) (fs : List Nat) : SlotsLe i.g (releaseFields i fs).g 0 0 := by
  unfold releaseFields
  split
  · refine (slotsLe_foldl _ 0 0 ?_ fs i.g).mono (by simp) (by simp)
    intro g f
    split
    · exact slotsLe_setName ..
    · exact .refl _
  · exact .refl _

theorem releaseFields_get {i : Iss} (fs : List Nat) (hl : i.e.lanes ≠ 0) (m : Nat) :
    getName (releaseFields i fs).g m = if fullMask i = true ∧ m ∈ keepNames i fs then Name.free else getName i.g m := by
  unfold releaseFields
  by_cases hf : fullMask i = true
  · rw [if_pos hf]
    have hv : oneView i = true := by simp only [fullMask, Bool.and_eq_true] at hf; exact hf.1
    simp only [hf, true_and]
    -- one field at a time
    have key : ∀ (fs : List Nat) (a : Group), NamesOnly i.g a →
        getName (fs.foldl (fun g f => match nameIx i.g (lowLane i.e.lanes) f with
          | some n => setName g n Name.free
          | none => g) a) m = if m ∈ keepNames i fs then Name.free else getName a m := by
      intro fs
      induction fs with
      | nil => intro a _; simp [keepNames]
      | cons f fs ih =>
        intro a ha
        rw [List.foldl_cons]
        have hmem : m ∈ namesOf i f ↔ nameIx i.g (lowLane i.e.lanes) f = some m := by
          rw [mem_namesOf]
          constructor
          · rintro ⟨l, h1, h2, h3⟩
            rw [← nameIx_low hv (mem_lanesOf.2 ⟨h1, h2⟩), h3]
          · intro h
            have := mem_lanesOf.1 (lowLane_mem hl)
            exact ⟨_, this.1, this.2, h⟩
        cases hn : nameIx i.g (lowLane i.e.lanes) f with
        | none =>
          rw [hn] at hmem
          rw [ih _ ha]
          simp [keepNames, hmem]
        | some n =>
          rw [hn] at hmem
          dsimp only
          rw [ih _ (ha.trans (.setName ..)), getName_setName]
          · simp only [keepNames, List.flatMap_cons, List.mem_append, hmem, Option.some.injEq]
            by_cases h1 : m ∈ fs.flatMap (namesOf i)
            · simp [h1]
            · by_cases h2 : n = m <;> simp [h1, h2]
          · rcases nameOk_of_nameIx hn with h | h
            · exact .inl h
            · exact .inr (by rw [ha.isSome]; exact h)
    exact key fs i.g (.refl _)
  · rw [if_neg hf]; simp [hf]

theorem touchFields_moved (s : State) (i : Iss) (fs : List Nat) : NamesMoved i (touchFields s i fs) := by
  refine ⟨rfl, rfl, rfl, rfl, namesOnly_foldl _ ?_ _ _⟩
  intro g f
  refine namesOnly_foldl _ ?_ _ _
  intro g n
  dsimp only
  split
  · exact .refl _
  · exact .setName ..

theorem touchFields_slots (s : State) (i : Iss) (fs : List Nat) : SlotsLe i.g (touchFields s i fs).g 0 0 := by
  refine (slotsLe_foldl _ 0 0 ?_ fs i.g).mono (by simp) (by simp)
  intro g f
  refine (slotsLe_foldl _ 0 0 ?_ (namesOf i f) g).mono (by simp) (by simp)
  intro g n
  dsimp only
  split
  · exact .refl _
  · exact slotsLe_same _ _ _ (by simp [slotsOf])

/-- Touching names changes their use times alone. -/
theorem touchFields_get (s : State) (i : Iss) (fs : List Nat) (m : Nat) :
    (getName (touchFields s i fs).g m).val = (getName i.g m).val ∧
    (getName (touchFields s i fs).g m).spilled = (getName i.g m).spilled := by
  have inner : ∀ (ns : List Nat) (a : Group), (∀ n ∈ ns, NameOk a n) → ∀ m,
      (getName (ns.foldl (fun g n => let x := getName g n; if x.val == .unalloc then g
          else setName g n { x with use := (getCore s i.core).seq }) a) m).val = (getName a m).val ∧
      (getName (ns.foldl (fun g n => let x := getName g n; if x.val == .unalloc then g
          else setName g n { x with use := (getCore s i.core).seq }) a) m).spilled = (getName a m).spilled := by
    intro ns
    induction ns with
    | nil => intro a _ m; exact ⟨rfl, rfl⟩
    | cons n ns ih =>
      intro a ha m
      rw [List.foldl_cons]
      have h2 := ih (if (getName a n).val == Shaped.unalloc then a else setName a n { getName a n with use := (getCore s i.core).seq })
        (by
          intro k hk
          have := ha k (List.mem_cons_of_mem _ hk)
          split
          · exact this
          · rcases this with h | h
            · exact .inl h
            · exact .inr (by rw [(NamesOnly.setName a n _).isSome]; exact h)) m
      dsimp only at h2 ⊢
      rw [h2.1, h2.2]
      split
      · exact ⟨rfl, rfl⟩
      · rw [getName_setName (ha n (List.mem_cons_self ..))]
        split
        · subst_vars; exact ⟨rfl, rfl⟩
        · exact ⟨rfl, rfl⟩
  have outer : ∀ (fs : List Nat) (a : Group), NamesOnly i.g a → ∀ m,
      (getName (fs.foldl (fun g f => (namesOf i f).foldl (fun g n => let x := getName g n; if x.val == .unalloc then g
          else setName g n { x with use := (getCore s i.core).seq }) g) a) m).val = (getName a m).val ∧
      (getName (fs.foldl (fun g f => (namesOf i f).foldl (fun g n => let x := getName g n; if x.val == .unalloc then g
          else setName g n { x with use := (getCore s i.core).seq }) g) a) m).spilled = (getName a m).spilled := by
    intro fs
    induction fs with
    | nil => intro a _ m; exact ⟨rfl, rfl⟩
    | cons f fs ih =>
      intro a ha m
      rw [List.foldl_cons]
      have hk : ∀ n ∈ namesOf i f, NameOk a n := by
        intro n hn
        obtain ⟨l, _, _, hx⟩ := mem_namesOf.1 hn
        rcases nameOk_of_nameIx hx with h | h
        · exact .inl h
        · exact .inr (by rw [ha.isSome]; exact h)
      have hm : NamesOnly a ((namesOf i f).foldl (fun g n => let x := getName g n; if x.val == .unalloc then g
          else setName g n { x with use := (getCore s i.core).seq }) a) := by
        refine namesOnly_foldl _ ?_ _ _
        intro g n
        dsimp only
        split
        · exact .refl _
        · exact .setName ..
      have h1 := ih _ (ha.trans hm) m
      have h2 := inner _ a hk m
      exact ⟨h1.1.trans h2.1, h1.2.trans h2.2⟩
  exact outer fs i.g (.refl _) m

/-! ### Writing -/

theorem writeHelpers_frame (i : Iss) (m : LaneSet) (f : Nat) (vals : Nat → Word) :
    { writeHelpers i m f vals with hvals := i.cc.hvals } = i.cc := by
  unfold writeHelpers
  generalize lanesOf m = ls
  have : ∀ (ls : List Nat) (cc : ClauseCtx), { cc with hvals := i.cc.hvals } = i.cc →
      { ls.foldl (fun cc l => match nameIx i.g l f with
        | some n => { cc with hvals := fset cc.hvals n (fset (sget [] cc.hvals n) l (vals l)) }
        | none => cc) cc with hvals := i.cc.hvals } = i.cc := by
    intro ls
    induction ls with
    | nil => intro cc h; exact h
    | cons l ls ih =>
      intro cc h
      rw [List.foldl_cons]
      apply ih
      split
      · exact h
      · exact h
  exact this ls i.cc rfl

theorem writePartial_only (g : Group) (m : LaneSet) (f : Nat) (vals : Nat → Word) (use : Nat) :
    NamesOnly g (writePartial g m f vals use) := by
  unfold writePartial
  exact namesOnly_foldl _ (fun a n => .setName ..) _ _

theorem writeField_moved (s : State) (i : Iss) (f : Nat) (vals : Nat → Word) (sh : ResShape) :
    NamesMoved i (writeField s i f vals sh) := by
  unfold writeField
  dsimp only
  split
  · split
    · exact ⟨rfl, rfl, rfl, writeHelpers_frame .., .setName ..⟩
    · exact ⟨rfl, rfl, rfl, writeHelpers_frame .., .refl _⟩
  · exact ⟨rfl, rfl, rfl, writeHelpers_frame .., writePartial_only ..⟩

theorem writeField_slots (s : State) (i : Iss) (f : Nat) (vals : Nat → Word) (sh : ResShape) (hl : i.e.lanes ≠ 0)
    (hn : Named i [f]) : SlotsLe i.g (writeField s i f vals sh).g (2 * (namesOf i f).length) (namesOf i f).length := by
  have hlen : 1 ≤ (namesOf i f).length := by
    obtain ⟨n, hx⟩ := Option.isSome_iff_exists.1 (hn f (by simp) _ (lowLane_mem hl))
    have h64 := mem_lanesOf.1 (lowLane_mem hl)
    exact List.length_pos_of_mem (mem_namesOf.2 ⟨_, h64.1, h64.2, hx⟩)
  unfold writeField
  dsimp only
  split
  · split
    · refine (slotsLe_setName ..).mono ?_ ?_
      · split
        · simp [slotsOf, Name.free]
        · simp only [slotsOf, Bool.false_eq_true, if_false]; split <;> simp only <;> omega
      · split
        · simp [slotsOf, Name.free]
        · simp only [slotsOf, Bool.false_eq_true, if_false]; split <;> simp only <;> omega
    · exact (SlotsLe.refl _).mono (by omega) (by omega)
  · unfold writePartial
    refine (slotsLe_foldl _ 0 1 ?_ _ _).mono (by simp) (by simp [namesOf])
    intro a n
    exact slotsLe_setName ..

/-- A name that the field does not name keeps what it held. -/
theorem writeField_other (s : State) (i : Iss) (f : Nat) (vals : Nat → Word) (sh : ResShape) (hl : i.e.lanes ≠ 0) {m : Nat}
    (hm : m ∉ namesOf i f) : getName (writeField s i f vals sh).g m = getName i.g m := by
  have h64 := mem_lanesOf.1 (lowLane_mem hl)
  unfold writeField
  dsimp only
  split
  · split
    · rename_i n hx
      rw [getName_setName (nameOk_of_nameIx hx), if_neg]
      rintro rfl
      exact hm (mem_namesOf.2 ⟨_, h64.1, h64.2, hx⟩)
    · rfl
  · unfold writePartial
    rw [getName_foldl (g := i.g)
      (fun n => ⟨.general ((List.range 64).map (fun l =>
        if hasLane i.e.lanes l && nameIx i.g l f == some n then vals l else shapedAt (getName i.g n).val l)), false,
        (getCore s i.core).seq⟩) _ ?_ _ (.refl _), if_neg]
    · simpa [namesOf] using hm
    · intro n hn
      obtain ⟨l, _, _, hx⟩ := (mem_namesOf (i := i) (f := f)).1 (by simpa [namesOf] using hn)
      exact nameOk_of_nameIx hx

/-- A shape says of a full-mask result what its values are (R56). -/
def ShapeSound (i : Iss) (vals : Nat → Word) : ResShape → Prop
  | .unalloc => ∀ l < 64, hasLane i.e.lanes l = true → vals l = 0
  | .uniform => ∀ l < 64, hasLane i.e.lanes l = true → vals l = vals (lowLane i.e.lanes)
  | .affine b st => ∀ l < 64, hasLane i.e.lanes l = true → b + BitVec.ofNat 32 l * st = vals l
  | .general => True

theorem fullValue_at {i : Iss} {old : Shaped} {vals : Nat → Word} {sh : ResShape} (h : ShapeSound i vals sh) {l : Nat} (hl : l < 64)
    (ha : hasLane i.e.lanes l = true) : shapedAt (fullValue i old vals sh) l = vals l := by
  cases sh with
  | unalloc => exact (h l hl ha).symm
  | uniform => exact (h l hl ha).symm
  | affine b st => exact h l hl ha
  | general => simp [fullValue, shapedAt, hl, ha]

/-- The field holds the values written, in every active lane. -/
theorem writeField_self {s : State} {i : Iss} {f : Nat} {vals : Nat → Word} {sh : ResShape} (hn : Named i [f])
    (hs : fullMask i = true → ShapeSound i vals sh) {l : Nat} (h64 : l < 64) (ha : hasLane i.e.lanes l = true) :
    fieldWord (writeField s i f vals sh).g l f = vals l := by
  obtain ⟨n, hx⟩ := Option.isSome_iff_exists.1 (hn f (by simp) l (mem_lanesOf.2 ⟨h64, ha⟩))
  unfold fieldWord
  rw [(writeField_moved ..).g.nameIx, hx]
  unfold writeField
  dsimp only
  split
  · rename_i hf
    have hv : oneView i = true := by simp only [fullMask, Bool.and_eq_true] at hf; exact hf.1
    rw [← nameIx_low hv (mem_lanesOf.2 ⟨h64, ha⟩), hx]
    dsimp only
    rw [getName_setName (nameOk_of_nameIx hx), if_pos rfl]
    have := fullValue_at (old := (getName i.g n).val) (hs hf) h64 ha
    split
    · rename_i hu
      rw [beq_iff_eq.1 hu] at this
      exact this
    · exact this
  · unfold writePartial
    dsimp only
    rw [getName_foldl (g := i.g)
      (fun n => ⟨.general ((List.range 64).map (fun l =>
        if hasLane i.e.lanes l && nameIx i.g l f == some n then vals l else shapedAt (getName i.g n).val l)), false,
        (getCore s i.core).seq⟩) _ ?_ _ (.refl _), if_pos]
    · simp [shapedAt, h64, ha, hx]
    · rw [List.mem_eraseDups, List.mem_filterMap]
      exact ⟨l, mem_lanesOf.2 ⟨h64, ha⟩, hx⟩
    · intro k hk
      rw [List.mem_eraseDups, List.mem_filterMap] at hk
      obtain ⟨_, _, hx⟩ := hk
      exact nameOk_of_nameIx hx

/-- The code that a result shape takes (R55). -/
def resCode : ResShape → Nat
  | .unalloc => 0
  | .uniform => 1
  | .affine .. => 2
  | .general => 3

/-- The shape of a name that the field names: that of the result under a full mask, general under a partial one (R56, R57). -/
theorem writeField_shape {s : State} {i : Iss} {f : Nat} {vals : Nat → Word} {sh : ResShape} {m : Nat} (hm : m ∈ namesOf i f) :
    shapeCode (getName (writeField s i f vals sh).g m).val = if fullMask i = true then resCode sh else 3 := by
  obtain ⟨l, h64, ha, hx⟩ := mem_namesOf.1 hm
  unfold writeField
  dsimp only
  split
  · rename_i hf
    have hv : oneView i = true := by simp only [fullMask, Bool.and_eq_true] at hf; exact hf.1
    rw [← nameIx_low hv (mem_lanesOf.2 ⟨h64, ha⟩), hx]
    dsimp only
    rw [getName_setName (nameOk_of_nameIx hx), if_pos rfl]
    cases sh <;> simp [fullValue, resCode, shapeCode, Name.free]
  · unfold writePartial
    dsimp only
    rw [getName_foldl (g := i.g)
      (fun n => ⟨.general ((List.range 64).map (fun l =>
        if hasLane i.e.lanes l && nameIx i.g l f == some n then vals l else shapedAt (getName i.g n).val l)), false,
        (getCore s i.core).seq⟩) _ ?_ _ (.refl _), if_pos]
    · rfl
    · rw [List.mem_eraseDups, List.mem_filterMap]
      exact ⟨l, mem_lanesOf.2 ⟨h64, ha⟩, hx⟩
    · intro k hk
      rw [List.mem_eraseDups, List.mem_filterMap] at hk
      obtain ⟨_, _, hx⟩ := hk
      exact nameOk_of_nameIx hx

/-- Another field's word is as it was, in every active lane. -/
theorem writeField_word {s : State} {i : Iss} {f f' : Nat} {vals : Nat → Word} {sh : ResShape} (hl : i.e.lanes ≠ 0) (hff : f ≠ f')
    {l : Nat} (h64 : l < 64) (ha : hasLane i.e.lanes l = true) :
    fieldWord (writeField s i f vals sh).g l f' = fieldWord i.g l f' := by
  unfold fieldWord
  rw [(writeField_moved ..).g.nameIx]
  cases hx : nameIx i.g l f' with
  | none => rfl
  | some n =>
    dsimp only
    by_cases hm : n ∈ namesOf i f
    · -- another lane names n by f: only its element changes
      unfold writeField
      dsimp only
      split
      · rename_i hf
        exfalso
        have hv : oneView i = true := by simp only [fullMask, Bool.and_eq_true] at hf; exact hf.1
        obtain ⟨k, hk, hka, hkx⟩ := mem_namesOf.1 hm
        rw [nameIx_low hv (mem_lanesOf.2 ⟨hk, hka⟩), ← nameIx_low hv (mem_lanesOf.2 ⟨h64, ha⟩)] at hkx
        exact hff (nameIx_inj hkx hx)
      · unfold writePartial
        dsimp only
        rw [getName_foldl (g := i.g)
          (fun n => ⟨.general ((List.range 64).map (fun l =>
            if hasLane i.e.lanes l && nameIx i.g l f == some n then vals l else shapedAt (getName i.g n).val l)), false,
            (getCore s i.core).seq⟩) _ ?_ _ (.refl _)]
        · split
          · simp only [shapedAt, List.getD_eq_getElem?_getD]
            rw [List.getElem?_map, List.getElem?_range h64]
            simp only [Option.map_some, Option.getD_some]
            rw [if_neg]
            simp only [ha, Bool.true_and, beq_iff_eq]
            intro h
            exact hff (nameIx_inj h hx)
          · rfl
        · intro k hk
          rw [List.mem_eraseDups, List.mem_filterMap] at hk
          obtain ⟨_, _, hx⟩ := hk
          exact nameOk_of_nameIx hx
    · rw [writeField_other s i f vals sh hl hm]

/-! ### The end of an instruction -/

/-- What the end of an instruction leaves: its results in the destination fields, the names marked free, every other name as it
was, and at most a scalar pair and a vector slot more for every destination name. -/
theorem writeBack_spec {s : State} {i : Iss} {srcs rels : List Nat} (ds : List Dest) (hl : i.e.lanes ≠ 0)
    (hn : Named i (ds.map (·.f))) (hnd : (ds.map (·.f)).Nodup)
    (hs : fullMask i = true → ∀ d ∈ ds, ShapeSound i (fun l => d.vals.getD l 0) d.sh) :
    NamesMoved i (writeBack s i srcs rels ds) ∧
    (∀ d ∈ ds, ∀ l < 64, hasLane i.e.lanes l = true → fieldWord (writeBack s i srcs rels ds).g l d.f = d.vals.getD l 0) ∧
    (∀ m, m ∉ keepNames i (ds.map (·.f)) →
      (getName (writeBack s i srcs rels ds).g m).val =
        (if fullMask i = true ∧ m ∈ keepNames i rels then .unalloc else (getName i.g m).val) ∧
      (getName (writeBack s i srcs rels ds).g m).spilled =
        (if fullMask i = true ∧ m ∈ keepNames i rels then false else (getName i.g m).spilled)) ∧
    SlotsLe i.g (writeBack s i srcs rels ds).g (2 * (keepNames i (ds.map (·.f))).length) (keepNames i (ds.map (·.f))).length ∧
    ∀ d ∈ ds, ∀ n ∈ namesOf i d.f, shapeCode (getName (writeBack s i srcs rels ds).g n).val =
      if fullMask i = true then resCode d.sh else 3 := by
  -- the writes alone
  have writes : ∀ (ds : List Dest) (j : Iss), NamesMoved i j → Named i (ds.map (·.f)) → (ds.map (·.f)).Nodup →
      (fullMask i = true → ∀ d ∈ ds, ShapeSound i (fun l => d.vals.getD l 0) d.sh) →
      NamesMoved i (ds.foldl (fun i d => writeField s i d.f (fun l => d.vals.getD l 0) d.sh) j) ∧
      (∀ d ∈ ds, ∀ l < 64, hasLane i.e.lanes l = true →
        fieldWord (ds.foldl (fun i d => writeField s i d.f (fun l => d.vals.getD l 0) d.sh) j).g l d.f = d.vals.getD l 0) ∧
      (∀ f, f ∉ ds.map (·.f) → ∀ l < 64, hasLane i.e.lanes l = true →
        fieldWord (ds.foldl (fun i d => writeField s i d.f (fun l => d.vals.getD l 0) d.sh) j).g l f = fieldWord j.g l f) ∧
      (∀ m, m ∉ keepNames i (ds.map (·.f)) →
        getName (ds.foldl (fun i d => writeField s i d.f (fun l => d.vals.getD l 0) d.sh) j).g m = getName j.g m) ∧
      SlotsLe j.g (ds.foldl (fun i d => writeField s i d.f (fun l => d.vals.getD l 0) d.sh) j).g
        (2 * (keepNames i (ds.map (·.f))).length) (keepNames i (ds.map (·.f))).length ∧
      (∀ d ∈ ds, ∀ n ∈ namesOf i d.f,
        shapeCode (getName (ds.foldl (fun i d => writeField s i d.f (fun l => d.vals.getD l 0) d.sh) j).g n).val =
          if fullMask i = true then resCode d.sh else 3) ∧
      (∀ f, f ∉ ds.map (·.f) → ∀ n ∈ namesOf i f, fullMask i = false → shapeCode (getName j.g n).val = 3 →
        shapeCode (getName (ds.foldl (fun i d => writeField s i d.f (fun l => d.vals.getD l 0) d.sh) j).g n).val = 3) := by
    intro ds
    induction ds with
    | nil =>
      intro j hj _ _ _
      refine ⟨hj, by simp, fun _ _ _ _ _ => rfl, fun _ _ => rfl, (SlotsLe.refl _).mono (by simp) (by simp), by simp,
        fun _ _ _ _ _ h => h⟩
    | cons d ds ih =>
      intro j hj hn hnd hs
      rw [List.map_cons, List.nodup_cons] at hnd
      have hjl : j.e.lanes ≠ 0 := by rw [hj.e]; exact hl
      have hd : Named j [d.f] := hj.named (fun f hf => by
        simp only [List.mem_singleton] at hf; subst hf; exact hn _ (by simp))
      have hm := hj.trans (writeField_moved s j d.f (fun l => d.vals.getD l 0) d.sh)
      have hsd : fullMask j = true → ShapeSound j (fun l => d.vals.getD l 0) d.sh := by
        intro h
        rw [hj.fullMask] at h
        have := hs h d (by simp)
        unfold ShapeSound at this ⊢
        rw [hj.e]
        exact this
      obtain ⟨r1, r2, r3, r4, r5, r6, r7⟩ := ih _ hm (fun f hf => hn f (by simp at hf ⊢; exact .inr hf)) hnd.2
        (fun h d' hd' => hs h d' (List.mem_cons_of_mem _ hd'))
      rw [List.foldl_cons]
      refine ⟨r1, ?_, ?_, ?_, ?_, ?_, ?_⟩
      · intro d' hd' l h64 ha
        rcases List.mem_cons.1 hd' with rfl | hd'
        · rw [r3 _ hnd.1 l h64 ha]
          exact writeField_self hd hsd h64 (by rw [hj.e]; exact ha)
        · exact r2 d' hd' l h64 ha
      · intro f hf l h64 ha
        simp only [List.map_cons, List.mem_cons, not_or] at hf
        rw [r3 f hf.2 l h64 ha]
        exact writeField_word hjl (Ne.symm hf.1) h64 (by rw [hj.e]; exact ha)
      · intro m hm'
        simp only [keepNames, List.map_cons, List.flatMap_cons, List.mem_append, not_or] at hm'
        rw [r4 m hm'.2]
        exact writeField_other _ _ _ _ _ hjl (by rw [hj.namesOf]; exact hm'.1)
      · have := writeField_slots s j d.f (fun l => d.vals.getD l 0) d.sh hjl hd
        rw [hj.namesOf] at this
        refine (this.trans r5).mono ?_ ?_
        · simp only [keepNames, List.map_cons, List.flatMap_cons, List.length_append]; omega
        · simp only [keepNames, List.map_cons, List.flatMap_cons, List.length_append]; omega
      · intro d' hd' n hn'
        rcases List.mem_cons.1 hd' with rfl | hd'
        · have hws := writeField_shape (s := s) (i := j) (vals := fun l => d'.vals.getD l 0) (sh := d'.sh)
            (show n ∈ namesOf j d'.f by rw [hj.namesOf]; exact hn')
          rw [hj.fullMask] at hws
          cases hfull : fullMask i with
          | false =>
            rw [hfull] at hws
            simpa using r7 d'.f hnd.1 n hn' hfull (by simpa using hws)
          | true =>
            rw [hfull] at hws
            rw [r4 n, hws]
            -- no other field names it
            intro hk
            obtain ⟨f', hf', hx'⟩ := mem_keepNames.1 hk
            have hv : oneView i = true := by simp only [fullMask, Bool.and_eq_true] at hfull; exact hfull.1
            obtain ⟨a, ha64, haa, hax⟩ := mem_namesOf.1 hn'
            obtain ⟨b, hb64, hbb, hbx⟩ := mem_namesOf.1 hx'
            rw [nameIx_low hv (mem_lanesOf.2 ⟨ha64, haa⟩)] at hax
            rw [nameIx_low hv (mem_lanesOf.2 ⟨hb64, hbb⟩)] at hbx
            have := nameIx_inj hax hbx
            exact hnd.1 (this ▸ hf')
        · exact r6 d' hd' n hn'
      · intro f hf n hn' hfull h3
        simp only [List.map_cons, List.mem_cons, not_or] at hf
        refine r7 f hf.2 n hn' hfull ?_
        by_cases hmem : n ∈ namesOf j d.f
        · rw [writeField_shape hmem, hj.fullMask, hfull]; simp
        · rw [writeField_other _ _ _ _ _ hjl hmem]; exact h3
  have h0 := touchFields_moved s i srcs
  have h1 := h0.trans (releaseFields_moved (touchFields s i srcs) rels)
  obtain ⟨r1, r2, _, r4, r5, r6, _⟩ := writes ds _ h1 hn hnd hs
  have ht : (touchFields s i srcs).e.lanes ≠ 0 := by rw [h0.e]; exact hl
  refine ⟨r1, r2, ?_, ?_, r6⟩
  · intro m hm
    have e := r4 m hm
    rw [releaseFields_get rels ht, h0.fullMask, h0.keepNames] at e
    have tt := touchFields_get s i srcs m
    unfold writeBack
    dsimp only
    rw [e]
    split
    · exact ⟨rfl, rfl⟩
    · exact tt
  · refine (((touchFields_slots s i srcs).trans (releaseFields_slots _ rels)).trans r5).mono (by omega) (by omega)

end Sys2Proof.Machine
end

