-- ==== Sys2Proof/Laws/Memory.lean ====
section
/-!
SUPPORT. Laws of memories: a write is read back, leaves every other byte alone, and keeps the canonical form.
-/
namespace Sys2Proof.Machine

/-- A byte after a write: the written byte inside the range, the old one outside. -/
theorem memByte_memWrite (m : Memory) (a : Nat) (bs : List Byte) (b : Nat) :
    memByte (memWrite m a bs) b = if a ≤ b ∧ b < a + bs.length then bs.getD (b - a) 0 else memByte m b := by
  induction bs generalizing m a with
  | nil => simp only [memWrite, List.length_nil]; rw [if_neg]; omega
  | cons x bs ih =>
    rw [memWrite, ih]
    by_cases h : a = b
    · subst h
      rw [if_neg (by omega), if_pos (by simp)]
      simp [memByte]
    · by_cases h' : a + 1 ≤ b ∧ b < a + 1 + bs.length
      · rw [if_pos h', if_pos (by simp only [List.length_cons]; omega)]
        obtain ⟨k, hk⟩ : ∃ k, b - a = k + 1 := ⟨b - a - 1, by omega⟩
        rw [show b - (a + 1) = k by omega, hk, List.getD_cons_succ]
      · rw [if_neg h', if_neg (by simp only [List.length_cons]; omega)]
        simp [memByte, sget_sset_ne _ _ _ h]

/-- A byte outside the range of a write is as it was. -/
theorem memByte_memWrite_outside (m : Memory) {a : Nat} {bs : List Byte} {b : Nat} (h : b < a ∨ a + bs.length ≤ b) :
    memByte (memWrite m a bs) b = memByte m b := by
  rw [memByte_memWrite, if_neg]; omega

/-- A read of what was just written gives it. -/
theorem memRead_memWrite (m : Memory) (a : Nat) (bs : List Byte) : memRead (memWrite m a bs) a bs.length = bs := by
  apply List.ext_getElem
  · simp [memRead]
  · intro k h1 h2
    simp only [memRead, List.getElem_map, List.getElem_range, memByte_memWrite]
    rw [if_pos (by omega), show a + k - a = k by omega]
    simp [List.getD_eq_getElem?_getD, h2]

/-- A write keeps the canonical form of a memory. -/
theorem memWrite_wf {m : Memory} (a : Nat) (bs : List Byte) (h : Memory.wf m = true) : Memory.wf (memWrite m a bs) = true := by
  induction bs generalizing m a with
  | nil => exact h
  | cons x bs ih => exact ih _ (canonical_sset _ _ h)

/-- Replacing a range keeps the canonical form of a memory. -/
theorem memPut_wf (may : Nat → Bool) {m : Memory} (a n : Nat) (cells : Memory) (h : Memory.wf m = true) :
    Memory.wf (memPut may m a n cells) = true := by
  have key : ∀ (xs : Memory) (m : Memory), Memory.wf m = true → Memory.wf (xs.foldl (fun m p => sset 0 m (a + p.1) p.2) m) = true := by
    intro xs
    induction xs with
    | nil => exact fun _ h => h
    | cons x xs ih => exact fun m h => ih _ (canonical_sset _ _ h)
  refine key _ _ ?_
  simp only [Memory.wf, canonical, Bool.and_eq_true, List.all_eq_true] at h ⊢
  exact ⟨keysRising_filter _ h.1, fun p hp => h.2 p (List.mem_of_mem_filter hp)⟩

/-- A byte outside a replaced range is as it was. -/
theorem memByte_memPut_outside (may : Nat → Bool) (m : Memory) {a n b : Nat} (cells : Memory) (h : b < a ∨ a + n ≤ b) :
    memByte (memPut may m a n cells) b = memByte m b := by
  have key : ∀ (xs : Memory) (m : Memory), (∀ p ∈ xs, a + p.1 ≠ b) → memByte (xs.foldl (fun m p => sset 0 m (a + p.1) p.2) m) b = memByte m b := by
    intro xs
    induction xs with
    | nil => exact fun _ _ => rfl
    | cons x xs ih =>
      intro m hx
      rw [List.foldl_cons, ih _ (fun p hp => hx p (List.mem_cons_of_mem _ hp))]
      exact sget_sset_ne _ _ _ (hx x (List.mem_cons_self ..))
  rw [memPut, key]
  · simp only [memByte, sget]
    congr 1
    induction m with
    | nil => rfl
    | cons q m ih =>
      obtain ⟨k, v⟩ := q
      rw [List.filter_cons]
      by_cases hk : k = b
      · subst hk
        rw [if_pos (by simp; omega)]
        simp [fget]
      · split
        · simp only [fget, if_neg hk]; exact ih
        · simp only [fget, if_neg hk]; exact ih
  · intro p hp
    have := (List.mem_filter.1 hp).2
    simp at this
    omega

theorem empty_wf : Memory.wf [] = true := rfl

@[simp] theorem leBytes_length (n v : Nat) : (leBytes n v).length = n := by
  induction n generalizing v with
  | zero => rfl
  | succ n ih => simp [leBytes, ih]

/-- Little-endian bytes hold the number they were made of (R2). -/
theorem leNat_leBytes (n v : Nat) : leNat (leBytes n v) = v % 2 ^ (8 * n) := by
  induction n generalizing v with
  | zero => simp [leBytes, leNat, Nat.mod_one]
  | succ n ih =>
    simp only [leBytes, leNat, ih, BitVec.toNat_ofNat]
    rw [show 2 ^ (8 * (n + 1)) = 256 * 2 ^ (8 * n) by rw [Nat.mul_succ, Nat.pow_add]; ring, Nat.mod_mul]

end Sys2Proof.Machine
end

