-- ==== Sys2Proof/Laws/State.lean ====
section
/-!
SUPPORT. What each update of a part of the state leaves alone: one lemma for each field and update. (Reading a part back after its
own update stands in Laws/Groups.lean.)
-/
namespace Sys2Proof.Machine

theorem getTenant_setTenant (s : State) (x y : Ctx) (t : Tenant) :
    getTenant (setTenant s x t) y = if x = y then t else getTenant s y := by
  obtain ⟨a, b⟩ := x
  obtain ⟨c, d⟩ := y
  by_cases h : a = c
  · subst h; by_cases g : b = d <;> simp [getTenant, setTenant, sget_sset, g]
  · simp [getTenant, setTenant, getWing_setWing, h]

/-! ### `setCore` changes cores alone -/

@[simp] theorem setCore_turns (s : State) (c : Nat) (q : Core) : (setCore s c q).turns = s.turns := rfl
@[simp] theorem setCore_choices (s : State) (c : Nat) (q : Core) : (setCore s c q).choices = s.choices := rfl
@[simp] theorem setCore_freeCtr (s : State) (c : Nat) (q : Core) : (setCore s c q).freeCtr = s.freeCtr := rfl
@[simp] theorem setCore_clock (s : State) (c : Nat) (q : Core) : (setCore s c q).clock = s.clock := rfl
@[simp] theorem setCore_focusCore (s : State) (c : Nat) (q : Core) : (setCore s c q).focusCore = s.focusCore := rfl
@[simp] theorem setCore_focusSlot (s : State) (c : Nat) (q : Core) : (setCore s c q).focusSlot = s.focusSlot := rfl
@[simp] theorem setCore_liveClu (s : State) (c : Nat) (q : Core) : (setCore s c q).liveClu = s.liveClu := rfl
@[simp] theorem setCore_liveChan (s : State) (c : Nat) (q : Core) : (setCore s c q).liveChan = s.liveChan := rfl
@[simp] theorem setCore_stepping (s : State) (c : Nat) (q : Core) : (setCore s c q).stepping = s.stepping := rfl
@[simp] theorem setCore_newFuses (s : State) (c : Nat) (q : Core) : (setCore s c q).newFuses = s.newFuses := rfl
@[simp] theorem setCore_micros (s : State) (c : Nat) (q : Core) : (setCore s c q).micros = s.micros := rfl
@[simp] theorem setCore_clusters (s : State) (c : Nat) (q : Core) : (setCore s c q).clusters = s.clusters := rfl
@[simp] theorem setCore_wings (s : State) (c : Nat) (q : Core) : (setCore s c q).wings = s.wings := rfl
@[simp] theorem setCore_mem (s : State) (c : Nat) (q : Core) : (setCore s c q).mem = s.mem := rfl
@[simp] theorem setCore_dram (s : State) (c : Nat) (q : Core) : (setCore s c q).dram = s.dram := rfl
@[simp] theorem setCore_slice (s : State) (c : Nat) (q : Core) : (setCore s c q).slice = s.slice := rfl
@[simp] theorem setCore_correctable (s : State) (c : Nat) (q : Core) : (setCore s c q).correctable = s.correctable := rfl
@[simp] theorem setCore_useCtr (s : State) (c : Nat) (q : Core) : (setCore s c q).useCtr = s.useCtr := rfl
@[simp] theorem setCore_hostBad (s : State) (c : Nat) (q : Core) : (setCore s c q).hostBad = s.hostBad := rfl
@[simp] theorem setCore_peerBad (s : State) (c : Nat) (q : Core) : (setCore s c q).peerBad = s.peerBad := rfl
@[simp] theorem setCore_peerRefused (s : State) (c : Nat) (q : Core) : (setCore s c q).peerRefused = s.peerRefused := rfl
@[simp] theorem setCore_poison (s : State) (c : Nat) (q : Core) : (setCore s c q).poison = s.poison := rfl
@[simp] theorem setCore_lastRel (s : State) (c : Nat) (q : Core) : (setCore s c q).lastRel = s.lastRel := rfl
@[simp] theorem setCore_pins (s : State) (c : Nat) (q : Core) : (setCore s c q).pins = s.pins := rfl
@[simp] theorem setCore_channels (s : State) (c : Nat) (q : Core) : (setCore s c q).channels = s.channels := rfl
@[simp] theorem setCore_postponed (s : State) (c : Nat) (q : Core) : (setCore s c q).postponed = s.postponed := rfl
@[simp] theorem setCore_hostMem (s : State) (c : Nat) (q : Core) : (setCore s c q).hostMem = s.hostMem := rfl
@[simp] theorem setCore_peerMem (s : State) (c : Nat) (q : Core) : (setCore s c q).peerMem = s.peerMem := rfl
@[simp] theorem setCore_peerOut (s : State) (c : Nat) (q : Core) : (setCore s c q).peerOut = s.peerOut := rfl
@[simp] theorem setCore_ports (s : State) (c : Nat) (q : Core) : (setCore s c q).ports = s.ports := rfl
@[simp] theorem setCore_peerMsgs (s : State) (c : Nat) (q : Core) : (setCore s c q).peerMsgs = s.peerMsgs := rfl
@[simp] theorem setCore_msi (s : State) (c : Nat) (q : Core) : (setCore s c q).msi = s.msi := rfl
@[simp] theorem setCore_stopped (s : State) (c : Nat) (q : Core) : (setCore s c q).stopped = s.stopped := rfl
@[simp] theorem setCore_booterr (s : State) (c : Nat) (q : Core) : (setCore s c q).booterr = s.booterr := rfl
@[simp] theorem setCore_plimit (s : State) (c : Nat) (q : Core) : (setCore s c q).plimit = s.plimit := rfl
@[simp] theorem setCore_clkstep (s : State) (c : Nat) (q : Core) : (setCore s c q).clkstep = s.clkstep := rfl
@[simp] theorem setCore_temp (s : State) (c : Nat) (q : Core) : (setCore s c q).temp = s.temp := rfl
@[simp] theorem setCore_mailboxes (s : State) (c : Nat) (q : Core) : (setCore s c q).mailboxes = s.mailboxes := rfl
@[simp] theorem setCore_reports (s : State) (c : Nat) (q : Core) : (setCore s c q).reports = s.reports := rfl
@[simp] theorem setCore_hostRead (s : State) (c : Nat) (q : Core) : (setCore s c q).hostRead = s.hostRead := rfl
@[simp] theorem setCore_hostPoison (s : State) (c : Nat) (q : Core) : (setCore s c q).hostPoison = s.hostPoison := rfl
@[simp] theorem setCore_peerReply (s : State) (c : Nat) (q : Core) : (setCore s c q).peerReply = s.peerReply := rfl
@[simp] theorem getCluster_setCore (s : State) (c : Nat) (q : Core) (m : Nat) : getCluster (setCore s c q) m = getCluster s m := rfl
@[simp] theorem getWing_setCore (s : State) (c : Nat) (q : Core) (v : Nat) : getWing (setCore s c q) v = getWing s v := rfl
@[simp] theorem getTenant_setCore (s : State) (c : Nat) (q : Core) (y : Ctx) : getTenant (setCore s c q) y = getTenant s y := rfl

/-! ### `setCluster` changes clusters alone -/

@[simp] theorem setCluster_turns (s : State) (n : Nat) (q : Cluster) : (setCluster s n q).turns = s.turns := rfl
@[simp] theorem setCluster_choices (s : State) (n : Nat) (q : Cluster) : (setCluster s n q).choices = s.choices := rfl
@[simp] theorem setCluster_freeCtr (s : State) (n : Nat) (q : Cluster) : (setCluster s n q).freeCtr = s.freeCtr := rfl
@[simp] theorem setCluster_clock (s : State) (n : Nat) (q : Cluster) : (setCluster s n q).clock = s.clock := rfl
@[simp] theorem setCluster_focusCore (s : State) (n : Nat) (q : Cluster) : (setCluster s n q).focusCore = s.focusCore := rfl
@[simp] theorem setCluster_focusSlot (s : State) (n : Nat) (q : Cluster) : (setCluster s n q).focusSlot = s.focusSlot := rfl
@[simp] theorem setCluster_liveClu (s : State) (n : Nat) (q : Cluster) : (setCluster s n q).liveClu = s.liveClu := rfl
@[simp] theorem setCluster_liveChan (s : State) (n : Nat) (q : Cluster) : (setCluster s n q).liveChan = s.liveChan := rfl
@[simp] theorem setCluster_stepping (s : State) (n : Nat) (q : Cluster) : (setCluster s n q).stepping = s.stepping := rfl
@[simp] theorem setCluster_newFuses (s : State) (n : Nat) (q : Cluster) : (setCluster s n q).newFuses = s.newFuses := rfl
@[simp] theorem setCluster_micros (s : State) (n : Nat) (q : Cluster) : (setCluster s n q).micros = s.micros := rfl
@[simp] theorem setCluster_cores (s : State) (n : Nat) (q : Cluster) : (setCluster s n q).cores = s.cores := rfl
@[simp] theorem setCluster_wings (s : State) (n : Nat) (q : Cluster) : (setCluster s n q).wings = s.wings := rfl
@[simp] theorem setCluster_mem (s : State) (n : Nat) (q : Cluster) : (setCluster s n q).mem = s.mem := rfl
@[simp] theorem setCluster_dram (s : State) (n : Nat) (q : Cluster) : (setCluster s n q).dram = s.dram := rfl
@[simp] theorem setCluster_slice (s : State) (n : Nat) (q : Cluster) : (setCluster s n q).slice = s.slice := rfl
@[simp] theorem setCluster_correctable (s : State) (n : Nat) (q : Cluster) : (setCluster s n q).correctable = s.correctable := rfl
@[simp] theorem setCluster_useCtr (s : State) (n : Nat) (q : Cluster) : (setCluster s n q).useCtr = s.useCtr := rfl
@[simp] theorem setCluster_hostBad (s : State) (n : Nat) (q : Cluster) : (setCluster s n q).hostBad = s.hostBad := rfl
@[simp] theorem setCluster_peerBad (s : State) (n : Nat) (q : Cluster) : (setCluster s n q).peerBad = s.peerBad := rfl
@[simp] theorem setCluster_peerRefused (s : State) (n : Nat) (q : Cluster) : (setCluster s n q).peerRefused = s.peerRefused := rfl
@[simp] theorem setCluster_poison (s : State) (n : Nat) (q : Cluster) : (setCluster s n q).poison = s.poison := rfl
@[simp] theorem setCluster_lastRel (s : State) (n : Nat) (q : Cluster) : (setCluster s n q).lastRel = s.lastRel := rfl
@[simp] theorem setCluster_pins (s : State) (n : Nat) (q : Cluster) : (setCluster s n q).pins = s.pins := rfl
@[simp] theorem setCluster_channels (s : State) (n : Nat) (q : Cluster) : (setCluster s n q).channels = s.channels := rfl
@[simp] theorem setCluster_postponed (s : State) (n : Nat) (q : Cluster) : (setCluster s n q).postponed = s.postponed := rfl
@[simp] theorem setCluster_hostMem (s : State) (n : Nat) (q : Cluster) : (setCluster s n q).hostMem = s.hostMem := rfl
@[simp] theorem setCluster_peerMem (s : State) (n : Nat) (q : Cluster) : (setCluster s n q).peerMem = s.peerMem := rfl
@[simp] theorem setCluster_peerOut (s : State) (n : Nat) (q : Cluster) : (setCluster s n q).peerOut = s.peerOut := rfl
@[simp] theorem setCluster_ports (s : State) (n : Nat) (q : Cluster) : (setCluster s n q).ports = s.ports := rfl
@[simp] theorem setCluster_peerMsgs (s : State) (n : Nat) (q : Cluster) : (setCluster s n q).peerMsgs = s.peerMsgs := rfl
@[simp] theorem setCluster_msi (s : State) (n : Nat) (q : Cluster) : (setCluster s n q).msi = s.msi := rfl
@[simp] theorem setCluster_stopped (s : State) (n : Nat) (q : Cluster) : (setCluster s n q).stopped = s.stopped := rfl
@[simp] theorem setCluster_booterr (s : State) (n : Nat) (q : Cluster) : (setCluster s n q).booterr = s.booterr := rfl
@[simp] theorem setCluster_plimit (s : State) (n : Nat) (q : Cluster) : (setCluster s n q).plimit = s.plimit := rfl
@[simp] theorem setCluster_clkstep (s : State) (n : Nat) (q : Cluster) : (setCluster s n q).clkstep = s.clkstep := rfl
@[simp] theorem setCluster_temp (s : State) (n : Nat) (q : Cluster) : (setCluster s n q).temp = s.temp := rfl
@[simp] theorem setCluster_mailboxes (s : State) (n : Nat) (q : Cluster) : (setCluster s n q).mailboxes = s.mailboxes := rfl
@[simp] theorem setCluster_reports (s : State) (n : Nat) (q : Cluster) : (setCluster s n q).reports = s.reports := rfl
@[simp] theorem setCluster_hostRead (s : State) (n : Nat) (q : Cluster) : (setCluster s n q).hostRead = s.hostRead := rfl
@[simp] theorem setCluster_hostPoison (s : State) (n : Nat) (q : Cluster) : (setCluster s n q).hostPoison = s.hostPoison := rfl
@[simp] theorem setCluster_peerReply (s : State) (n : Nat) (q : Cluster) : (setCluster s n q).peerReply = s.peerReply := rfl
@[simp] theorem getCore_setCluster (s : State) (n : Nat) (q : Cluster) (d : Nat) : getCore (setCluster s n q) d = getCore s d := rfl
@[simp] theorem getGroup_setCluster (s : State) (n : Nat) (q : Cluster) (d j : Nat) : getGroup (setCluster s n q) d j = getGroup s d j := rfl
@[simp] theorem getBlock_setCluster (s : State) (n : Nat) (q : Cluster) (d j : Nat) : getBlock (setCluster s n q) d j = getBlock s d j := rfl
@[simp] theorem getWing_setCluster (s : State) (n : Nat) (q : Cluster) (v : Nat) : getWing (setCluster s n q) v = getWing s v := rfl
@[simp] theorem getTenant_setCluster (s : State) (n : Nat) (q : Cluster) (y : Ctx) : getTenant (setCluster s n q) y = getTenant s y := rfl

/-! ### `setWing` changes wings alone -/

@[simp] theorem setWing_turns (s : State) (w : Nat) (q : Wing) : (setWing s w q).turns = s.turns := rfl
@[simp] theorem setWing_choices (s : State) (w : Nat) (q : Wing) : (setWing s w q).choices = s.choices := rfl
@[simp] theorem setWing_freeCtr (s : State) (w : Nat) (q : Wing) : (setWing s w q).freeCtr = s.freeCtr := rfl
@[simp] theorem setWing_clock (s : State) (w : Nat) (q : Wing) : (setWing s w q).clock = s.clock := rfl
@[simp] theorem setWing_focusCore (s : State) (w : Nat) (q : Wing) : (setWing s w q).focusCore = s.focusCore := rfl
@[simp] theorem setWing_focusSlot (s : State) (w : Nat) (q : Wing) : (setWing s w q).focusSlot = s.focusSlot := rfl
@[simp] theorem setWing_liveClu (s : State) (w : Nat) (q : Wing) : (setWing s w q).liveClu = s.liveClu := rfl
@[simp] theorem setWing_liveChan (s : State) (w : Nat) (q : Wing) : (setWing s w q).liveChan = s.liveChan := rfl
@[simp] theorem setWing_stepping (s : State) (w : Nat) (q : Wing) : (setWing s w q).stepping = s.stepping := rfl
@[simp] theorem setWing_newFuses (s : State) (w : Nat) (q : Wing) : (setWing s w q).newFuses = s.newFuses := rfl
@[simp] theorem setWing_micros (s : State) (w : Nat) (q : Wing) : (setWing s w q).micros = s.micros := rfl
@[simp] theorem setWing_cores (s : State) (w : Nat) (q : Wing) : (setWing s w q).cores = s.cores := rfl
@[simp] theorem setWing_clusters (s : State) (w : Nat) (q : Wing) : (setWing s w q).clusters = s.clusters := rfl
@[simp] theorem setWing_mem (s : State) (w : Nat) (q : Wing) : (setWing s w q).mem = s.mem := rfl
@[simp] theorem setWing_dram (s : State) (w : Nat) (q : Wing) : (setWing s w q).dram = s.dram := rfl
@[simp] theorem setWing_slice (s : State) (w : Nat) (q : Wing) : (setWing s w q).slice = s.slice := rfl
@[simp] theorem setWing_correctable (s : State) (w : Nat) (q : Wing) : (setWing s w q).correctable = s.correctable := rfl
@[simp] theorem setWing_useCtr (s : State) (w : Nat) (q : Wing) : (setWing s w q).useCtr = s.useCtr := rfl
@[simp] theorem setWing_hostBad (s : State) (w : Nat) (q : Wing) : (setWing s w q).hostBad = s.hostBad := rfl
@[simp] theorem setWing_peerBad (s : State) (w : Nat) (q : Wing) : (setWing s w q).peerBad = s.peerBad := rfl
@[simp] theorem setWing_peerRefused (s : State) (w : Nat) (q : Wing) : (setWing s w q).peerRefused = s.peerRefused := rfl
@[simp] theorem setWing_poison (s : State) (w : Nat) (q : Wing) : (setWing s w q).poison = s.poison := rfl
@[simp] theorem setWing_lastRel (s : State) (w : Nat) (q : Wing) : (setWing s w q).lastRel = s.lastRel := rfl
@[simp] theorem setWing_pins (s : State) (w : Nat) (q : Wing) : (setWing s w q).pins = s.pins := rfl
@[simp] theorem setWing_channels (s : State) (w : Nat) (q : Wing) : (setWing s w q).channels = s.channels := rfl
@[simp] theorem setWing_postponed (s : State) (w : Nat) (q : Wing) : (setWing s w q).postponed = s.postponed := rfl
@[simp] theorem setWing_hostMem (s : State) (w : Nat) (q : Wing) : (setWing s w q).hostMem = s.hostMem := rfl
@[simp] theorem setWing_peerMem (s : State) (w : Nat) (q : Wing) : (setWing s w q).peerMem = s.peerMem := rfl
@[simp] theorem setWing_peerOut (s : State) (w : Nat) (q : Wing) : (setWing s w q).peerOut = s.peerOut := rfl
@[simp] theorem setWing_ports (s : State) (w : Nat) (q : Wing) : (setWing s w q).ports = s.ports := rfl
@[simp] theorem setWing_peerMsgs (s : State) (w : Nat) (q : Wing) : (setWing s w q).peerMsgs = s.peerMsgs := rfl
@[simp] theorem setWing_msi (s : State) (w : Nat) (q : Wing) : (setWing s w q).msi = s.msi := rfl
@[simp] theorem setWing_stopped (s : State) (w : Nat) (q : Wing) : (setWing s w q).stopped = s.stopped := rfl
@[simp] theorem setWing_booterr (s : State) (w : Nat) (q : Wing) : (setWing s w q).booterr = s.booterr := rfl
@[simp] theorem setWing_plimit (s : State) (w : Nat) (q : Wing) : (setWing s w q).plimit = s.plimit := rfl
@[simp] theorem setWing_clkstep (s : State) (w : Nat) (q : Wing) : (setWing s w q).clkstep = s.clkstep := rfl
@[simp] theorem setWing_temp (s : State) (w : Nat) (q : Wing) : (setWing s w q).temp = s.temp := rfl
@[simp] theorem setWing_mailboxes (s : State) (w : Nat) (q : Wing) : (setWing s w q).mailboxes = s.mailboxes := rfl
@[simp] theorem setWing_reports (s : State) (w : Nat) (q : Wing) : (setWing s w q).reports = s.reports := rfl
@[simp] theorem setWing_hostRead (s : State) (w : Nat) (q : Wing) : (setWing s w q).hostRead = s.hostRead := rfl
@[simp] theorem setWing_hostPoison (s : State) (w : Nat) (q : Wing) : (setWing s w q).hostPoison = s.hostPoison := rfl
@[simp] theorem setWing_peerReply (s : State) (w : Nat) (q : Wing) : (setWing s w q).peerReply = s.peerReply := rfl
@[simp] theorem getCore_setWing (s : State) (w : Nat) (q : Wing) (d : Nat) : getCore (setWing s w q) d = getCore s d := rfl
@[simp] theorem getGroup_setWing (s : State) (w : Nat) (q : Wing) (d j : Nat) : getGroup (setWing s w q) d j = getGroup s d j := rfl
@[simp] theorem getBlock_setWing (s : State) (w : Nat) (q : Wing) (d j : Nat) : getBlock (setWing s w q) d j = getBlock s d j := rfl
@[simp] theorem getCluster_setWing (s : State) (w : Nat) (q : Wing) (m : Nat) : getCluster (setWing s w q) m = getCluster s m := rfl

/-! ### `setTenant` changes wings alone -/

@[simp] theorem setTenant_turns (s : State) (x : Ctx) (q : Tenant) : (setTenant s x q).turns = s.turns := rfl
@[simp] theorem setTenant_choices (s : State) (x : Ctx) (q : Tenant) : (setTenant s x q).choices = s.choices := rfl
@[simp] theorem setTenant_freeCtr (s : State) (x : Ctx) (q : Tenant) : (setTenant s x q).freeCtr = s.freeCtr := rfl
@[simp] theorem setTenant_clock (s : State) (x : Ctx) (q : Tenant) : (setTenant s x q).clock = s.clock := rfl
@[simp] theorem setTenant_focusCore (s : State) (x : Ctx) (q : Tenant) : (setTenant s x q).focusCore = s.focusCore := rfl
@[simp] theorem setTenant_focusSlot (s : State) (x : Ctx) (q : Tenant) : (setTenant s x q).focusSlot = s.focusSlot := rfl
@[simp] theorem setTenant_liveClu (s : State) (x : Ctx) (q : Tenant) : (setTenant s x q).liveClu = s.liveClu := rfl
@[simp] theorem setTenant_liveChan (s : State) (x : Ctx) (q : Tenant) : (setTenant s x q).liveChan = s.liveChan := rfl
@[simp] theorem setTenant_stepping (s : State) (x : Ctx) (q : Tenant) : (setTenant s x q).stepping = s.stepping := rfl
@[simp] theorem setTenant_newFuses (s : State) (x : Ctx) (q : Tenant) : (setTenant s x q).newFuses = s.newFuses := rfl
@[simp] theorem setTenant_micros (s : State) (x : Ctx) (q : Tenant) : (setTenant s x q).micros = s.micros := rfl
@[simp] theorem setTenant_cores (s : State) (x : Ctx) (q : Tenant) : (setTenant s x q).cores = s.cores := rfl
@[simp] theorem setTenant_clusters (s : State) (x : Ctx) (q : Tenant) : (setTenant s x q).clusters = s.clusters := rfl
@[simp] theorem setTenant_mem (s : State) (x : Ctx) (q : Tenant) : (setTenant s x q).mem = s.mem := rfl
@[simp] theorem setTenant_dram (s : State) (x : Ctx) (q : Tenant) : (setTenant s x q).dram = s.dram := rfl
@[simp] theorem setTenant_slice (s : State) (x : Ctx) (q : Tenant) : (setTenant s x q).slice = s.slice := rfl
@[simp] theorem setTenant_correctable (s : State) (x : Ctx) (q : Tenant) : (setTenant s x q).correctable = s.correctable := rfl
@[simp] theorem setTenant_useCtr (s : State) (x : Ctx) (q : Tenant) : (setTenant s x q).useCtr = s.useCtr := rfl
@[simp] theorem setTenant_hostBad (s : State) (x : Ctx) (q : Tenant) : (setTenant s x q).hostBad = s.hostBad := rfl
@[simp] theorem setTenant_peerBad (s : State) (x : Ctx) (q : Tenant) : (setTenant s x q).peerBad = s.peerBad := rfl
@[simp] theorem setTenant_peerRefused (s : State) (x : Ctx) (q : Tenant) : (setTenant s x q).peerRefused = s.peerRefused := rfl
@[simp] theorem setTenant_poison (s : State) (x : Ctx) (q : Tenant) : (setTenant s x q).poison = s.poison := rfl
@[simp] theorem setTenant_lastRel (s : State) (x : Ctx) (q : Tenant) : (setTenant s x q).lastRel = s.lastRel := rfl
@[simp] theorem setTenant_pins (s : State) (x : Ctx) (q : Tenant) : (setTenant s x q).pins = s.pins := rfl
@[simp] theorem setTenant_channels (s : State) (x : Ctx) (q : Tenant) : (setTenant s x q).channels = s.channels := rfl
@[simp] theorem setTenant_postponed (s : State) (x : Ctx) (q : Tenant) : (setTenant s x q).postponed = s.postponed := rfl
@[simp] theorem setTenant_hostMem (s : State) (x : Ctx) (q : Tenant) : (setTenant s x q).hostMem = s.hostMem := rfl
@[simp] theorem setTenant_peerMem (s : State) (x : Ctx) (q : Tenant) : (setTenant s x q).peerMem = s.peerMem := rfl
@[simp] theorem setTenant_peerOut (s : State) (x : Ctx) (q : Tenant) : (setTenant s x q).peerOut = s.peerOut := rfl
@[simp] theorem setTenant_ports (s : State) (x : Ctx) (q : Tenant) : (setTenant s x q).ports = s.ports := rfl
@[simp] theorem setTenant_peerMsgs (s : State) (x : Ctx) (q : Tenant) : (setTenant s x q).peerMsgs = s.peerMsgs := rfl
@[simp] theorem setTenant_msi (s : State) (x : Ctx) (q : Tenant) : (setTenant s x q).msi = s.msi := rfl
@[simp] theorem setTenant_stopped (s : State) (x : Ctx) (q : Tenant) : (setTenant s x q).stopped = s.stopped := rfl
@[simp] theorem setTenant_booterr (s : State) (x : Ctx) (q : Tenant) : (setTenant s x q).booterr = s.booterr := rfl
@[simp] theorem setTenant_plimit (s : State) (x : Ctx) (q : Tenant) : (setTenant s x q).plimit = s.plimit := rfl
@[simp] theorem setTenant_clkstep (s : State) (x : Ctx) (q : Tenant) : (setTenant s x q).clkstep = s.clkstep := rfl
@[simp] theorem setTenant_temp (s : State) (x : Ctx) (q : Tenant) : (setTenant s x q).temp = s.temp := rfl
@[simp] theorem setTenant_mailboxes (s : State) (x : Ctx) (q : Tenant) : (setTenant s x q).mailboxes = s.mailboxes := rfl
@[simp] theorem setTenant_reports (s : State) (x : Ctx) (q : Tenant) : (setTenant s x q).reports = s.reports := rfl
@[simp] theorem setTenant_hostRead (s : State) (x : Ctx) (q : Tenant) : (setTenant s x q).hostRead = s.hostRead := rfl
@[simp] theorem setTenant_hostPoison (s : State) (x : Ctx) (q : Tenant) : (setTenant s x q).hostPoison = s.hostPoison := rfl
@[simp] theorem setTenant_peerReply (s : State) (x : Ctx) (q : Tenant) : (setTenant s x q).peerReply = s.peerReply := rfl
@[simp] theorem getCore_setTenant (s : State) (x : Ctx) (q : Tenant) (d : Nat) : getCore (setTenant s x q) d = getCore s d := rfl
@[simp] theorem getGroup_setTenant (s : State) (x : Ctx) (q : Tenant) (d j : Nat) : getGroup (setTenant s x q) d j = getGroup s d j := rfl
@[simp] theorem getBlock_setTenant (s : State) (x : Ctx) (q : Tenant) (d j : Nat) : getBlock (setTenant s x q) d j = getBlock s d j := rfl
@[simp] theorem getCluster_setTenant (s : State) (x : Ctx) (q : Tenant) (m : Nat) : getCluster (setTenant s x q) m = getCluster s m := rfl

/-! ### `setGroup` changes cores alone -/

@[simp] theorem setGroup_turns (s : State) (c k : Nat) (g : Group) : (setGroup s c k g).turns = s.turns := rfl
@[simp] theorem setGroup_choices (s : State) (c k : Nat) (g : Group) : (setGroup s c k g).choices = s.choices := rfl
@[simp] theorem setGroup_freeCtr (s : State) (c k : Nat) (g : Group) : (setGroup s c k g).freeCtr = s.freeCtr := rfl
@[simp] theorem setGroup_clock (s : State) (c k : Nat) (g : Group) : (setGroup s c k g).clock = s.clock := rfl
@[simp] theorem setGroup_focusCore (s : State) (c k : Nat) (g : Group) : (setGroup s c k g).focusCore = s.focusCore := rfl
@[simp] theorem setGroup_focusSlot (s : State) (c k : Nat) (g : Group) : (setGroup s c k g).focusSlot = s.focusSlot := rfl
@[simp] theorem setGroup_liveClu (s : State) (c k : Nat) (g : Group) : (setGroup s c k g).liveClu = s.liveClu := rfl
@[simp] theorem setGroup_liveChan (s : State) (c k : Nat) (g : Group) : (setGroup s c k g).liveChan = s.liveChan := rfl
@[simp] theorem setGroup_stepping (s : State) (c k : Nat) (g : Group) : (setGroup s c k g).stepping = s.stepping := rfl
@[simp] theorem setGroup_newFuses (s : State) (c k : Nat) (g : Group) : (setGroup s c k g).newFuses = s.newFuses := rfl
@[simp] theorem setGroup_micros (s : State) (c k : Nat) (g : Group) : (setGroup s c k g).micros = s.micros := rfl
@[simp] theorem setGroup_clusters (s : State) (c k : Nat) (g : Group) : (setGroup s c k g).clusters = s.clusters := rfl
@[simp] theorem setGroup_wings (s : State) (c k : Nat) (g : Group) : (setGroup s c k g).wings = s.wings := rfl
@[simp] theorem setGroup_mem (s : State) (c k : Nat) (g : Group) : (setGroup s c k g).mem = s.mem := rfl
@[simp] theorem setGroup_dram (s : State) (c k : Nat) (g : Group) : (setGroup s c k g).dram = s.dram := rfl
@[simp] theorem setGroup_slice (s : State) (c k : Nat) (g : Group) : (setGroup s c k g).slice = s.slice := rfl
@[simp] theorem setGroup_correctable (s : State) (c k : Nat) (g : Group) : (setGroup s c k g).correctable = s.correctable := rfl
@[simp] theorem setGroup_useCtr (s : State) (c k : Nat) (g : Group) : (setGroup s c k g).useCtr = s.useCtr := rfl
@[simp] theorem setGroup_hostBad (s : State) (c k : Nat) (g : Group) : (setGroup s c k g).hostBad = s.hostBad := rfl
@[simp] theorem setGroup_peerBad (s : State) (c k : Nat) (g : Group) : (setGroup s c k g).peerBad = s.peerBad := rfl
@[simp] theorem setGroup_peerRefused (s : State) (c k : Nat) (g : Group) : (setGroup s c k g).peerRefused = s.peerRefused := rfl
@[simp] theorem setGroup_poison (s : State) (c k : Nat) (g : Group) : (setGroup s c k g).poison = s.poison := rfl
@[simp] theorem setGroup_lastRel (s : State) (c k : Nat) (g : Group) : (setGroup s c k g).lastRel = s.lastRel := rfl
@[simp] theorem setGroup_pins (s : State) (c k : Nat) (g : Group) : (setGroup s c k g).pins = s.pins := rfl
@[simp] theorem setGroup_channels (s : State) (c k : Nat) (g : Group) : (setGroup s c k g).channels = s.channels := rfl
@[simp] theorem setGroup_postponed (s : State) (c k : Nat) (g : Group) : (setGroup s c k g).postponed = s.postponed := rfl
@[simp] theorem setGroup_hostMem (s : State) (c k : Nat) (g : Group) : (setGroup s c k g).hostMem = s.hostMem := rfl
@[simp] theorem setGroup_peerMem (s : State) (c k : Nat) (g : Group) : (setGroup s c k g).peerMem = s.peerMem := rfl
@[simp] theorem setGroup_peerOut (s : State) (c k : Nat) (g : Group) : (setGroup s c k g).peerOut = s.peerOut := rfl
@[simp] theorem setGroup_ports (s : State) (c k : Nat) (g : Group) : (setGroup s c k g).ports = s.ports := rfl
@[simp] theorem setGroup_peerMsgs (s : State) (c k : Nat) (g : Group) : (setGroup s c k g).peerMsgs = s.peerMsgs := rfl
@[simp] theorem setGroup_msi (s : State) (c k : Nat) (g : Group) : (setGroup s c k g).msi = s.msi := rfl
@[simp] theorem setGroup_stopped (s : State) (c k : Nat) (g : Group) : (setGroup s c k g).stopped = s.stopped := rfl
@[simp] theorem setGroup_booterr (s : State) (c k : Nat) (g : Group) : (setGroup s c k g).booterr = s.booterr := rfl
@[simp] theorem setGroup_plimit (s : State) (c k : Nat) (g : Group) : (setGroup s c k g).plimit = s.plimit := rfl
@[simp] theorem setGroup_clkstep (s : State) (c k : Nat) (g : Group) : (setGroup s c k g).clkstep = s.clkstep := rfl
@[simp] theorem setGroup_temp (s : State) (c k : Nat) (g : Group) : (setGroup s c k g).temp = s.temp := rfl
@[simp] theorem setGroup_mailboxes (s : State) (c k : Nat) (g : Group) : (setGroup s c k g).mailboxes = s.mailboxes := rfl
@[simp] theorem setGroup_reports (s : State) (c k : Nat) (g : Group) : (setGroup s c k g).reports = s.reports := rfl
@[simp] theorem setGroup_hostRead (s : State) (c k : Nat) (g : Group) : (setGroup s c k g).hostRead = s.hostRead := rfl
@[simp] theorem setGroup_hostPoison (s : State) (c k : Nat) (g : Group) : (setGroup s c k g).hostPoison = s.hostPoison := rfl
@[simp] theorem setGroup_peerReply (s : State) (c k : Nat) (g : Group) : (setGroup s c k g).peerReply = s.peerReply := rfl
@[simp] theorem getCluster_setGroup (s : State) (c k : Nat) (g : Group) (m : Nat) : getCluster (setGroup s c k g) m = getCluster s m := rfl
@[simp] theorem getWing_setGroup (s : State) (c k : Nat) (g : Group) (v : Nat) : getWing (setGroup s c k g) v = getWing s v := rfl
@[simp] theorem getTenant_setGroup (s : State) (c k : Nat) (g : Group) (y : Ctx) : getTenant (setGroup s c k g) y = getTenant s y := rfl

/-! ### `dropGroup` changes cores alone -/

@[simp] theorem dropGroup_turns (s : State) (c k : Nat) : (dropGroup s c k).turns = s.turns := rfl
@[simp] theorem dropGroup_choices (s : State) (c k : Nat) : (dropGroup s c k).choices = s.choices := rfl
@[simp] theorem dropGroup_freeCtr (s : State) (c k : Nat) : (dropGroup s c k).freeCtr = s.freeCtr := rfl
@[simp] theorem dropGroup_clock (s : State) (c k : Nat) : (dropGroup s c k).clock = s.clock := rfl
@[simp] theorem dropGroup_focusCore (s : State) (c k : Nat) : (dropGroup s c k).focusCore = s.focusCore := rfl
@[simp] theorem dropGroup_focusSlot (s : State) (c k : Nat) : (dropGroup s c k).focusSlot = s.focusSlot := rfl
@[simp] theorem dropGroup_liveClu (s : State) (c k : Nat) : (dropGroup s c k).liveClu = s.liveClu := rfl
@[simp] theorem dropGroup_liveChan (s : State) (c k : Nat) : (dropGroup s c k).liveChan = s.liveChan := rfl
@[simp] theorem dropGroup_stepping (s : State) (c k : Nat) : (dropGroup s c k).stepping = s.stepping := rfl
@[simp] theorem dropGroup_newFuses (s : State) (c k : Nat) : (dropGroup s c k).newFuses = s.newFuses := rfl
@[simp] theorem dropGroup_micros (s : State) (c k : Nat) : (dropGroup s c k).micros = s.micros := rfl
@[simp] theorem dropGroup_clusters (s : State) (c k : Nat) : (dropGroup s c k).clusters = s.clusters := rfl
@[simp] theorem dropGroup_wings (s : State) (c k : Nat) : (dropGroup s c k).wings = s.wings := rfl
@[simp] theorem dropGroup_mem (s : State) (c k : Nat) : (dropGroup s c k).mem = s.mem := rfl
@[simp] theorem dropGroup_dram (s : State) (c k : Nat) : (dropGroup s c k).dram = s.dram := rfl
@[simp] theorem dropGroup_slice (s : State) (c k : Nat) : (dropGroup s c k).slice = s.slice := rfl
@[simp] theorem dropGroup_correctable (s : State) (c k : Nat) : (dropGroup s c k).correctable = s.correctable := rfl
@[simp] theorem dropGroup_useCtr (s : State) (c k : Nat) : (dropGroup s c k).useCtr = s.useCtr := rfl
@[simp] theorem dropGroup_hostBad (s : State) (c k : Nat) : (dropGroup s c k).hostBad = s.hostBad := rfl
@[simp] theorem dropGroup_peerBad (s : State) (c k : Nat) : (dropGroup s c k).peerBad = s.peerBad := rfl
@[simp] theorem dropGroup_peerRefused (s : State) (c k : Nat) : (dropGroup s c k).peerRefused = s.peerRefused := rfl
@[simp] theorem dropGroup_poison (s : State) (c k : Nat) : (dropGroup s c k).poison = s.poison := rfl
@[simp] theorem dropGroup_lastRel (s : State) (c k : Nat) : (dropGroup s c k).lastRel = s.lastRel := rfl
@[simp] theorem dropGroup_pins (s : State) (c k : Nat) : (dropGroup s c k).pins = s.pins := rfl
@[simp] theorem dropGroup_channels (s : State) (c k : Nat) : (dropGroup s c k).channels = s.channels := rfl
@[simp] theorem dropGroup_postponed (s : State) (c k : Nat) : (dropGroup s c k).postponed = s.postponed := rfl
@[simp] theorem dropGroup_hostMem (s : State) (c k : Nat) : (dropGroup s c k).hostMem = s.hostMem := rfl
@[simp] theorem dropGroup_peerMem (s : State) (c k : Nat) : (dropGroup s c k).peerMem = s.peerMem := rfl
@[simp] theorem dropGroup_peerOut (s : State) (c k : Nat) : (dropGroup s c k).peerOut = s.peerOut := rfl
@[simp] theorem dropGroup_ports (s : State) (c k : Nat) : (dropGroup s c k).ports = s.ports := rfl
@[simp] theorem dropGroup_peerMsgs (s : State) (c k : Nat) : (dropGroup s c k).peerMsgs = s.peerMsgs := rfl
@[simp] theorem dropGroup_msi (s : State) (c k : Nat) : (dropGroup s c k).msi = s.msi := rfl
@[simp] theorem dropGroup_stopped (s : State) (c k : Nat) : (dropGroup s c k).stopped = s.stopped := rfl
@[simp] theorem dropGroup_booterr (s : State) (c k : Nat) : (dropGroup s c k).booterr = s.booterr := rfl
@[simp] theorem dropGroup_plimit (s : State) (c k : Nat) : (dropGroup s c k).plimit = s.plimit := rfl
@[simp] theorem dropGroup_clkstep (s : State) (c k : Nat) : (dropGroup s c k).clkstep = s.clkstep := rfl
@[simp] theorem dropGroup_temp (s : State) (c k : Nat) : (dropGroup s c k).temp = s.temp := rfl
@[simp] theorem dropGroup_mailboxes (s : State) (c k : Nat) : (dropGroup s c k).mailboxes = s.mailboxes := rfl
@[simp] theorem dropGroup_reports (s : State) (c k : Nat) : (dropGroup s c k).reports = s.reports := rfl
@[simp] theorem dropGroup_hostRead (s : State) (c k : Nat) : (dropGroup s c k).hostRead = s.hostRead := rfl
@[simp] theorem dropGroup_hostPoison (s : State) (c k : Nat) : (dropGroup s c k).hostPoison = s.hostPoison := rfl
@[simp] theorem dropGroup_peerReply (s : State) (c k : Nat) : (dropGroup s c k).peerReply = s.peerReply := rfl
@[simp] theorem getCluster_dropGroup (s : State) (c k : Nat) (m : Nat) : getCluster (dropGroup s c k) m = getCluster s m := rfl
@[simp] theorem getWing_dropGroup (s : State) (c k : Nat) (v : Nat) : getWing (dropGroup s c k) v = getWing s v := rfl
@[simp] theorem getTenant_dropGroup (s : State) (c k : Nat) (y : Ctx) : getTenant (dropGroup s c k) y = getTenant s y := rfl

/-! ### `setBlock` changes cores alone -/

@[simp] theorem setBlock_turns (s : State) (c b : Nat) (q : Block) : (setBlock s c b q).turns = s.turns := rfl
@[simp] theorem setBlock_choices (s : State) (c b : Nat) (q : Block) : (setBlock s c b q).choices = s.choices := rfl
@[simp] theorem setBlock_freeCtr (s : State) (c b : Nat) (q : Block) : (setBlock s c b q).freeCtr = s.freeCtr := rfl
@[simp] theorem setBlock_clock (s : State) (c b : Nat) (q : Block) : (setBlock s c b q).clock = s.clock := rfl
@[simp] theorem setBlock_focusCore (s : State) (c b : Nat) (q : Block) : (setBlock s c b q).focusCore = s.focusCore := rfl
@[simp] theorem setBlock_focusSlot (s : State) (c b : Nat) (q : Block) : (setBlock s c b q).focusSlot = s.focusSlot := rfl
@[simp] theorem setBlock_liveClu (s : State) (c b : Nat) (q : Block) : (setBlock s c b q).liveClu = s.liveClu := rfl
@[simp] theorem setBlock_liveChan (s : State) (c b : Nat) (q : Block) : (setBlock s c b q).liveChan = s.liveChan := rfl
@[simp] theorem setBlock_stepping (s : State) (c b : Nat) (q : Block) : (setBlock s c b q).stepping = s.stepping := rfl
@[simp] theorem setBlock_newFuses (s : State) (c b : Nat) (q : Block) : (setBlock s c b q).newFuses = s.newFuses := rfl
@[simp] theorem setBlock_micros (s : State) (c b : Nat) (q : Block) : (setBlock s c b q).micros = s.micros := rfl
@[simp] theorem setBlock_clusters (s : State) (c b : Nat) (q : Block) : (setBlock s c b q).clusters = s.clusters := rfl
@[simp] theorem setBlock_wings (s : State) (c b : Nat) (q : Block) : (setBlock s c b q).wings = s.wings := rfl
@[simp] theorem setBlock_mem (s : State) (c b : Nat) (q : Block) : (setBlock s c b q).mem = s.mem := rfl
@[simp] theorem setBlock_dram (s : State) (c b : Nat) (q : Block) : (setBlock s c b q).dram = s.dram := rfl
@[simp] theorem setBlock_slice (s : State) (c b : Nat) (q : Block) : (setBlock s c b q).slice = s.slice := rfl
@[simp] theorem setBlock_correctable (s : State) (c b : Nat) (q : Block) : (setBlock s c b q).correctable = s.correctable := rfl
@[simp] theorem setBlock_useCtr (s : State) (c b : Nat) (q : Block) : (setBlock s c b q).useCtr = s.useCtr := rfl
@[simp] theorem setBlock_hostBad (s : State) (c b : Nat) (q : Block) : (setBlock s c b q).hostBad = s.hostBad := rfl
@[simp] theorem setBlock_peerBad (s : State) (c b : Nat) (q : Block) : (setBlock s c b q).peerBad = s.peerBad := rfl
@[simp] theorem setBlock_peerRefused (s : State) (c b : Nat) (q : Block) : (setBlock s c b q).peerRefused = s.peerRefused := rfl
@[simp] theorem setBlock_poison (s : State) (c b : Nat) (q : Block) : (setBlock s c b q).poison = s.poison := rfl
@[simp] theorem setBlock_lastRel (s : State) (c b : Nat) (q : Block) : (setBlock s c b q).lastRel = s.lastRel := rfl
@[simp] theorem setBlock_pins (s : State) (c b : Nat) (q : Block) : (setBlock s c b q).pins = s.pins := rfl
@[simp] theorem setBlock_channels (s : State) (c b : Nat) (q : Block) : (setBlock s c b q).channels = s.channels := rfl
@[simp] theorem setBlock_postponed (s : State) (c b : Nat) (q : Block) : (setBlock s c b q).postponed = s.postponed := rfl
@[simp] theorem setBlock_hostMem (s : State) (c b : Nat) (q : Block) : (setBlock s c b q).hostMem = s.hostMem := rfl
@[simp] theorem setBlock_peerMem (s : State) (c b : Nat) (q : Block) : (setBlock s c b q).peerMem = s.peerMem := rfl
@[simp] theorem setBlock_peerOut (s : State) (c b : Nat) (q : Block) : (setBlock s c b q).peerOut = s.peerOut := rfl
@[simp] theorem setBlock_ports (s : State) (c b : Nat) (q : Block) : (setBlock s c b q).ports = s.ports := rfl
@[simp] theorem setBlock_peerMsgs (s : State) (c b : Nat) (q : Block) : (setBlock s c b q).peerMsgs = s.peerMsgs := rfl
@[simp] theorem setBlock_msi (s : State) (c b : Nat) (q : Block) : (setBlock s c b q).msi = s.msi := rfl
@[simp] theorem setBlock_stopped (s : State) (c b : Nat) (q : Block) : (setBlock s c b q).stopped = s.stopped := rfl
@[simp] theorem setBlock_booterr (s : State) (c b : Nat) (q : Block) : (setBlock s c b q).booterr = s.booterr := rfl
@[simp] theorem setBlock_plimit (s : State) (c b : Nat) (q : Block) : (setBlock s c b q).plimit = s.plimit := rfl
@[simp] theorem setBlock_clkstep (s : State) (c b : Nat) (q : Block) : (setBlock s c b q).clkstep = s.clkstep := rfl
@[simp] theorem setBlock_temp (s : State) (c b : Nat) (q : Block) : (setBlock s c b q).temp = s.temp := rfl
@[simp] theorem setBlock_mailboxes (s : State) (c b : Nat) (q : Block) : (setBlock s c b q).mailboxes = s.mailboxes := rfl
@[simp] theorem setBlock_reports (s : State) (c b : Nat) (q : Block) : (setBlock s c b q).reports = s.reports := rfl
@[simp] theorem setBlock_hostRead (s : State) (c b : Nat) (q : Block) : (setBlock s c b q).hostRead = s.hostRead := rfl
@[simp] theorem setBlock_hostPoison (s : State) (c b : Nat) (q : Block) : (setBlock s c b q).hostPoison = s.hostPoison := rfl
@[simp] theorem setBlock_peerReply (s : State) (c b : Nat) (q : Block) : (setBlock s c b q).peerReply = s.peerReply := rfl
@[simp] theorem getCluster_setBlock (s : State) (c b : Nat) (q : Block) (m : Nat) : getCluster (setBlock s c b q) m = getCluster s m := rfl
@[simp] theorem getWing_setBlock (s : State) (c b : Nat) (q : Block) (v : Nat) : getWing (setBlock s c b q) v = getWing s v := rfl
@[simp] theorem getTenant_setBlock (s : State) (c b : Nat) (q : Block) (y : Ctx) : getTenant (setBlock s c b q) y = getTenant s y := rfl

end Sys2Proof.Machine
end

