-- ==== Sys2Proof/Laws/Home.lean ====
section
/-!
SUPPORT. Laws of writes at the homes: they keep every memory in canonical form and change no fuse.
-/
namespace Sys2Proof.Machine

/-- The fuses of two states agree. -/
def SameFuses (s t : State) : Prop := t.liveClu = s.liveClu ∧ t.liveChan = s.liveChan ∧ t.stepping = s.stepping

/-- What every operation of the device does to the memories and the fuses: it keeps the form of the first and leaves the second. -/
def KeepsForm (s t : State) : Prop := (MemoriesWf s → MemoriesWf t) ∧ SameFuses s t

theorem KeepsForm.refl (s : State) : KeepsForm s s := ⟨id, rfl, rfl, rfl⟩

theorem KeepsForm.trans {s t u : State} (h : KeepsForm s t) (k : KeepsForm t u) : KeepsForm s u :=
  ⟨k.1 ∘ h.1, k.2.1.trans h.2.1, k.2.2.1.trans h.2.2.1, k.2.2.2.trans h.2.2.2⟩

/-- A state that has the memories and fuses of another has its form. -/
theorem KeepsForm.of_eq {s t : State} (m : t.mem = s.mem) (d : t.dram = s.dram) (h : t.hostMem = s.hostMem) (p : t.peerMem = s.peerMem)
    (a : t.liveClu = s.liveClu) (b : t.liveChan = s.liveChan) (c : t.stepping = s.stepping) : KeepsForm s t := by
  refine ⟨fun w => ?_, a, b, c⟩
  simpa only [MemoriesWf, m, d, h, p] using w

/-- A fold of operations that keep the form keeps it. -/
theorem KeepsForm.foldl {α : Type} (f : State → α → State) (h : ∀ s a, KeepsForm s (f s a)) (xs : List α) (s : State) :
    KeepsForm s (xs.foldl f s) := by
  induction xs generalizing s with
  | nil => exact .refl s
  | cons x xs ih => exact (h s x).trans (ih _)

theorem setCore_keepsForm (s : State) (c : Nat) (q : Core) : KeepsForm s (setCore s c q) := .of_eq rfl rfl rfl rfl rfl rfl rfl
theorem setCluster_keepsForm (s : State) (n : Nat) (q : Cluster) : KeepsForm s (setCluster s n q) := .of_eq rfl rfl rfl rfl rfl rfl rfl
theorem setWing_keepsForm (s : State) (w : Nat) (q : Wing) : KeepsForm s (setWing s w q) := .of_eq rfl rfl rfl rfl rfl rfl rfl
theorem setTenant_keepsForm (s : State) (x : Ctx) (q : Tenant) : KeepsForm s (setTenant s x q) := .of_eq rfl rfl rfl rfl rfl rfl rfl
theorem setGroup_keepsForm (s : State) (c k : Nat) (g : Group) : KeepsForm s (setGroup s c k g) := .of_eq rfl rfl rfl rfl rfl rfl rfl

/-- A write to DRAM keeps its canonical form. -/
theorem dramWrite_wf (s : State) {m : Memory} (a : Nat) (bs : List Byte) (h : Memory.wf m = true) : Memory.wf (dramWrite s m a bs) = true := by
  induction bs generalizing m a with
  | nil => exact h
  | cons x bs ih => exact ih _ (by split <;> [exact h; exact canonical_sset _ _ h])

/-- A write at a home keeps every memory canonical. -/
theorem homeWrite_keepsForm (s : State) (l : PLoc) (bs : List Byte) : KeepsForm s (homeWrite s l bs) := by
  simp only [homeWrite]
  split
  · exact ⟨fun ⟨m, d, h, p⟩ => ⟨memWrite_wf _ _ m, dramWrite_wf _ _ _ d, h, p⟩, rfl, rfl, rfl⟩
  · exact ⟨fun ⟨m, d, h, p⟩ => ⟨m, d, memWrite_wf _ _ h, p⟩, rfl, rfl, rfl⟩
  · rename_i q _
    refine ⟨fun ⟨m, d, h, p⟩ => ⟨m, d, h, fun r => ?_⟩, rfl, rfl, rfl⟩
    show Memory.wf (sget [] (sset [] s.peerMem q _) r) = true
    rw [sget_sset]
    split
    · exact memWrite_wf _ _ (p q)
    · exact p r
  · split
    · exact .of_eq rfl rfl rfl rfl rfl rfl rfl
    · exact .of_eq rfl rfl rfl rfl rfl rfl rfl

/-- Nothing but what is at the homes differs between two states. -/
def HomesOnly (s t : State) : Prop :=
  { t with mem := s.mem, dram := s.dram, poison := s.poison, correctable := s.correctable, hostMem := s.hostMem, hostBad := s.hostBad,
           peerMem := s.peerMem, peerBad := s.peerBad, peerOut := s.peerOut, lastRel := s.lastRel, slice := s.slice, pins := s.pins,
           channels := s.channels, useCtr := s.useCtr } = s

theorem HomesOnly.refl (s : State) : HomesOnly s s := rfl

theorem HomesOnly.trans {s t u : State} (h : HomesOnly s t) (k : HomesOnly t u) : HomesOnly s u := by
  unfold HomesOnly at *
  cases s; cases t; cases u
  simp only [State.mk.injEq] at *
  simp_all

theorem HomesOnly.cores {s t : State} (h : HomesOnly s t) : t.cores = s.cores := by
  rw [← show _ = s from h]
theorem HomesOnly.wings {s t : State} (h : HomesOnly s t) : t.wings = s.wings := by
  rw [← show _ = s from h]

theorem HomesOnly.foldl {α : Type} (f : State → α → State) (h : ∀ s a, HomesOnly s (f s a)) (xs : List α) (s : State) :
    HomesOnly s (xs.foldl f s) := by
  induction xs generalizing s with
  | nil => exact .refl s
  | cons x xs ih => exact (h s x).trans (ih _)

/-- A walk leads to a place outside the scratchpads (R117, R299). -/
theorem walk_tgt {s : State} {x : Ctx} {va : Nat} {e : TlbEntry} (h : walk s x va = .ok e) (c b : Nat) : e.loc.tgt ≠ .scr c b := by
  have leaf : ∀ w l t, leafTgt s w l = .ok t → t ≠ .scr c b := by
    intro w l t h
    unfold leafTgt at h
    split at h <;> (try split at h) <;> cases h <;> simp
  unfold walk at h
  dsimp only at h
  split at h
  · cases h
  · split at h
    · cases h
    · split at h
      · cases h
      · split at h
        · cases h
        · rename_i t ht
          split at h
          · cases h
          · cases h; exact leaf _ _ _ ht

/-- A write at a home outside the scratchpads changes nothing else. -/
theorem homeWrite_homes (s : State) (l : PLoc) (bs : List Byte) (h : ∀ c b, l.tgt ≠ .scr c b) : HomesOnly s (homeWrite s l bs) := by
  simp only [homeWrite]
  split
  · rfl
  · rfl
  · rfl
  · rename_i c b hc; exact absurd hc (h c b)

theorem countScrub_homes (s : State) (ch : Nat) (b : Bool) : HomesOnly s (countScrub s ch b) := rfl

theorem dramFetch_homes (s : State) (x : Ctx) (line : Nat) : HomesOnly s (dramFetch s x line) := by
  unfold dramFetch
  dsimp only
  apply HomesOnly.foldl
  intro s p
  rfl

theorem homeRoom_homes (s : State) (x : Ctx) (line : Nat) : HomesOnly s (homeRoom s x line) := by
  unfold homeRoom
  dsimp only
  split
  · exact .refl s
  · split
    · exact .refl s
    · split
      · rfl
      · exact .refl s

/-- A touch of a home slice changes nothing but what is at the homes (R133). -/
theorem homeTouch_homes (s : State) (x : Ctx) (l : PLoc) (ep : Option Nat) (last : Bool) : HomesOnly s (homeTouch s x l ep last) := by
  unfold homeTouch
  dsimp only
  split
  · exact .refl s
  · split
    · split
      · rfl
      · split <;> rfl
    · have h := dramFetch_homes (stamp s).2 x (lineOf l)
      split
      · exact HomesOnly.trans (show HomesOnly s (stamp s).2 from rfl) (h.trans rfl)
      · refine HomesOnly.trans (show HomesOnly s (stamp s).2 from rfl) (h.trans ((homeRoom_homes (dramFetch (stamp s).2 x (lineOf l)) x (lineOf l)).trans ?_))
        split <;> rfl

theorem touchLines_homes (s : State) (x : Ctx) (l : PLoc) (n : Nat) : HomesOnly s (touchLines s x l n) := by
  unfold touchLines
  split
  · exact .refl s
  · exact HomesOnly.foldl _ (fun _ _ => homeTouch_homes _ _ _ _ _) _ _

theorem walkTouch_homes (s : State) (x : Ctx) (va : Nat) : HomesOnly s (walkTouch s x va) :=
  HomesOnly.foldl _ (fun _ _ => homeTouch_homes _ _ _ _ _) _ _

theorem deliverPeer_homes (s : State) (l : PLoc) : HomesOnly s (deliverPeer s l) := by
  unfold deliverPeer
  split
  · exact HomesOnly.trans (HomesOnly.foldl _ (fun s w => homeWrite_homes s _ _ (by simp)) _ s) rfl
  · exact .refl s

theorem reachHome_homes (s : State) (x : Ctx) (va : Nat) (l : PLoc) (n : Nat) : HomesOnly s (reachHome s x va l n) :=
  (walkTouch_homes s x va).trans ((touchLines_homes _ x l n).trans (deliverPeer_homes _ l))

/-- So does the device's own touch of a structure of a context. -/
theorem devTouch_homes (s : State) (x : Ctx) (va n : Nat) : HomesOnly s (devTouch s x va n) := by
  unfold devTouch
  generalize n / 4096 + 2 = k
  induction k generalizing s va n with
  | zero => exact .refl s
  | succ k ih =>
    unfold devTouchFuel
    split
    · exact .refl s
    · dsimp only
      split
      · exact walkTouch_homes s x va
      · exact (walkTouch_homes s x va).trans ((touchLines_homes _ x _ _).trans (ih _ _ _))

theorem devWrite_homes {s t : State} {x : Ctx} {va : Nat} {bs : List Byte} (h : devWrite s x va bs = .ok t) : HomesOnly s t := by
  unfold devWrite at h
  generalize bs.length / 4096 + 2 = n at h
  induction n generalizing s va bs with
  | zero => cases h; exact .refl _
  | succ n ih =>
    unfold devWriteFuel at h
    split at h
    · cases h; exact .refl _
    · split at h
      · cases h
      · split at h
        · cases h
        · rename_i e he
          split at h
          · cases h
          · split at h
            · cases h
            · refine (reachHome_homes s x va _ _).trans (HomesOnly.trans (homeWrite_homes _ (placeOf e va) _ fun c b => ?_) (ih h))
              exact walk_tgt he c b

theorem putMaps_homes {s t : State} {g : Group} {n : Nat} {b : Bool} (h : putMaps s g n b = .ok t) : HomesOnly s t := by
  unfold putMaps cloakWrite at h
  split at h
  · cases h
  · rename_i u hu
    split at hu
    · rename_i v hv
      cases hu
      split at h
      · rename_i w hw
        cases h
        exact (devWrite_homes hv).trans (devWrite_homes hw)
      · cases h
    · cases hu

/-- Clearing the cloakroom's maps changes nothing but the homes (R65). -/
theorem clearMaps_homes (s : State) (old new : Group) : HomesOnly s (clearMaps s old new) := by
  unfold clearMaps
  generalize old.names.filter _ = ns
  induction ns generalizing s with
  | nil => exact .refl s
  | cons n ns ih =>
    rw [List.foldl_cons]
    refine HomesOnly.trans ?_ (ih _)
    split
    · rename_i t h; exact putMaps_homes h
    · exact .refl s

theorem clearMaps_core (s : State) (old new : Group) (c : Nat) : getCore (clearMaps s old new) c = getCore s c := by
  simp only [getCore, (clearMaps_homes s old new).cores]

theorem clearMaps_group (s : State) (old new : Group) (c k : Nat) : getGroup (clearMaps s old new) c k = getGroup s c k := by
  simp only [getGroup, clearMaps_core]

theorem clearMaps_wing (s : State) (old new : Group) (w : Nat) : getWing (clearMaps s old new) w = getWing s w := by
  simp only [getWing, (clearMaps_homes s old new).wings]

/-- The maps depend on the names, the context and the area of the group, and on nothing else of it. -/
theorem clearMaps_congr {s : State} {a b x y : Group} (h : a.names = b.names) (hn : ∀ n, getName x n = getName y n)
    (hg : x.tags = y.tags) (hi : x.id = y.id) : clearMaps s a x = clearMaps s b y := by
  have ht : tagByte x = tagByte y := by funext j; simp only [tagByte, shownVal, hn, hg]
  have hs : spillByte x = spillByte y := by funext j; simp only [spillByte, hn]
  have hp : ∀ s n, putMaps s x n false = putMaps s y n false := by intro s n; simp only [putMaps, ht, hs, hi]
  simp only [clearMaps, h, hn, hp]

/-- So does a write of a large structure. -/
theorem homePut_keepsForm (s : State) (l : PLoc) (n : Nat) (cells : Memory) : KeepsForm s (homePut s l n cells) := by
  simp only [homePut]
  split
  · exact ⟨fun ⟨m, d, h, p⟩ => ⟨memPut_wf (fun _ => true) l.a n cells m, memPut_wf (fun a => !inSlice s (a / 128)) l.a n cells d, h, p⟩, rfl, rfl, rfl⟩
  · exact ⟨fun ⟨m, d, h, p⟩ => ⟨m, d, memPut_wf (fun _ => true) l.a n cells h, p⟩, rfl, rfl, rfl⟩
  · rename_i q _
    refine ⟨fun ⟨m, d, h, p⟩ => ⟨m, d, h, fun r => ?_⟩, rfl, rfl, rfl⟩
    show Memory.wf (sget [] (sset [] s.peerMem q _) r) = true
    rw [sget_sset]
    split
    · exact memPut_wf (fun _ => true) l.a n cells (p q)
    · exact p r
  · split
    · exact .of_eq rfl rfl rfl rfl rfl rfl rfl
    · exact .of_eq rfl rfl rfl rfl rfl rfl rfl

/-- A line written back to DRAM leaves the memories canonical. -/
theorem lineToDram_keepsForm (s : State) (line : Nat) : KeepsForm s (lineToDram s line) :=
  ⟨fun ⟨m, d, h, p⟩ => ⟨m, memWrite_wf _ _ d, h, p⟩, rfl, rfl, rfl⟩

/-- So do the touches of the home slices. -/
theorem homeTouch_keepsForm (s : State) (x : Ctx) (l : PLoc) (ep : Option Nat) (last : Bool) : KeepsForm s (homeTouch s x l ep last) := by
  have fetch : ∀ s : State, KeepsForm s (dramFetch s x (lineOf l)) := by
    intro s
    unfold dramFetch
    dsimp only
    apply KeepsForm.foldl
    intro s p
    exact .of_eq rfl rfl rfl rfl rfl rfl rfl
  have room : ∀ s : State, KeepsForm s (homeRoom s x (lineOf l)) := by
    intro s
    unfold homeRoom
    dsimp only
    split
    · exact .refl s
    · split
      · exact .refl s
      · split
        · exact (lineToDram_keepsForm s _).trans (.of_eq rfl rfl rfl rfl rfl rfl rfl)
        · exact .refl s
  have st : KeepsForm s (stamp s).2 := .of_eq rfl rfl rfl rfl rfl rfl rfl
  unfold homeTouch
  dsimp only
  split
  · exact .refl s
  · split
    · split
      · exact .of_eq rfl rfl rfl rfl rfl rfl rfl
      · split <;> exact .of_eq rfl rfl rfl rfl rfl rfl rfl
    · split
      · exact st.trans ((fetch _).trans (.of_eq rfl rfl rfl rfl rfl rfl rfl))
      · refine st.trans ((fetch _).trans ((room _).trans ?_))
        split <;> exact .of_eq rfl rfl rfl rfl rfl rfl rfl

theorem touchLines_keepsForm (s : State) (x : Ctx) (l : PLoc) (n : Nat) : KeepsForm s (touchLines s x l n) := by
  unfold touchLines
  split
  · exact .refl s
  · exact KeepsForm.foldl _ (fun _ _ => homeTouch_keepsForm _ _ _ _ _) _ _

theorem walkTouch_keepsForm (s : State) (x : Ctx) (va : Nat) : KeepsForm s (walkTouch s x va) :=
  KeepsForm.foldl _ (fun _ _ => homeTouch_keepsForm _ _ _ _ _) _ _

theorem deliverPeer_keepsForm (s : State) (l : PLoc) : KeepsForm s (deliverPeer s l) := by
  unfold deliverPeer
  split
  · exact (KeepsForm.foldl _ (fun s _ => homeWrite_keepsForm s _ _) _ s).trans (.of_eq rfl rfl rfl rfl rfl rfl rfl)
  · exact .refl s

theorem reachHome_keepsForm (s : State) (x : Ctx) (va : Nat) (l : PLoc) (n : Nat) : KeepsForm s (reachHome s x va l n) :=
  (walkTouch_keepsForm s x va).trans ((touchLines_keepsForm _ x l n).trans (deliverPeer_keepsForm _ l))

theorem devTouch_keepsForm (s : State) (x : Ctx) (va n : Nat) : KeepsForm s (devTouch s x va n) := by
  unfold devTouch
  generalize n / 4096 + 2 = k
  induction k generalizing s va n with
  | zero => exact .refl s
  | succ k ih =>
    unfold devTouchFuel
    split
    · exact .refl s
    · dsimp only
      split
      · exact walkTouch_keepsForm s x va
      · exact (walkTouch_keepsForm s x va).trans ((touchLines_keepsForm _ x _ _).trans (ih _ _ _))

/-- The device's own writes keep every memory canonical. -/
theorem devWriteFuel_keepsForm (x : Ctx) (n : Nat) (s t : State) (va : Nat) (bs : List Byte) (h : devWriteFuel x n s va bs = .ok t) :
    KeepsForm s t := by
  induction n generalizing s va bs with
  | zero => cases h; exact .refl _
  | succ n ih =>
    unfold devWriteFuel at h
    split at h
    · cases h; exact .refl _
    · split at h
      · cases h
      · split at h
        · cases h
        · split at h
          · cases h
          · split at h
            · cases h
            · exact (reachHome_keepsForm _ _ _ _ _).trans ((homeWrite_keepsForm _ _ _).trans (ih _ _ _ h))

theorem devWrite_keepsForm {s t : State} {x : Ctx} {va : Nat} {bs : List Byte} (h : devWrite s x va bs = .ok t) : KeepsForm s t :=
  devWriteFuel_keepsForm _ _ _ _ _ _ h

theorem devPutFuel_keepsForm (x : Ctx) (f : Nat) (s t : State) (va n : Nat) (cells : Memory) (h : devPutFuel x f s va n cells = .ok t) :
    KeepsForm s t := by
  induction f generalizing s va n cells with
  | zero => cases h; exact .refl _
  | succ f ih =>
    unfold devPutFuel at h
    split at h
    · cases h; exact .refl _
    · split at h
      · cases h
      · split at h
        · cases h
        · split at h
          · cases h
          · split at h
            · cases h
            · exact (reachHome_keepsForm _ _ _ _ _).trans ((homePut_keepsForm _ _ _ _).trans (ih _ _ _ _ h))

/-- The records of an image are written without harm to any memory's form (R269). -/
theorem writeRecs_keepsForm {x : Ctx} {t : Tenant} {v : SavedCtx} (rs : List RecId) {a : Nat} {s u : State}
    (h : writeRecs x t v rs a s = .ok u) : KeepsForm s u := by
  induction rs generalizing a s with
  | nil => cases h; exact .refl _
  | cons r rs ih =>
    unfold writeRecs at h
    split at h
    · cases h
    · rename_i q hq
      exact (devPutFuel_keepsForm _ _ _ _ _ _ _ hq).trans (ih h)

theorem putWord_keepsForm (s : State) (x : Ctx) (va : Nat) (v : Word) : KeepsForm s (putWord s x va v) := by
  unfold putWord
  split
  · rename_i t h
    exact devWrite_keepsForm h
  · exact .refl s

/-- A line dropped without a write-back leaves the memories canonical. -/
theorem dropHomeLine_keepsForm (s : State) (line : Nat) : KeepsForm s (dropHomeLine s line) :=
  ⟨fun ⟨m, d, h, p⟩ => ⟨memWrite_wf _ _ m, d, h, p⟩, rfl, rfl, rfl⟩

/-- Taking a resolved choice, or a free value, touches no memory. -/
theorem choose_keepsForm (s : State) (n : Nat) : KeepsForm s (choose s n).2 := by
  unfold choose
  split
  · exact .refl s
  · exact .of_eq rfl rfl rfl rfl rfl rfl rfl

theorem freshWord_keepsForm (s : State) : KeepsForm s (freshWord s).2 := .of_eq rfl rfl rfl rfl rfl rfl rfl

theorem addRecord_keepsForm (s : State) (w : Nat) (r : FaultRec) : KeepsForm s (addRecord s w r).2 := by
  simp only [addRecord]
  split <;> exact setWing_keepsForm _ _ _

theorem editWord_keepsForm (s : State) (x : Ctx) (va : Nat) (clr set : Word) : KeepsForm s (editWord s x va clr set) := by
  unfold editWord
  split
  · exact .refl s
  · split
    · exact .refl s
    · exact (devTouch_keepsForm _ _ _ _).trans (putWord_keepsForm _ _ _ _)

theorem reset_memoriesWf_parts : Memory.wf State.reset.mem = true ∧ Memory.wf State.reset.dram = true := ⟨rfl, rfl⟩

end Sys2Proof.Machine
end

