-- ==== Sys2Proof/Laws/Run.lean ====
section
/-!
SUPPORT. Laws of the runners: an instruction of the issuing entry that meets no obstacle executes its body, and its end leaves its
results, the entry gone on and nothing else changed.
-/
namespace Sys2Proof.Machine

/-! ### What changes only one group -/

theorem OnlyGroup.refl (s : State) (c k : Nat) : OnlyGroup s s c k := ⟨rfl, fun _ _ => rfl, rfl, fun _ _ => rfl⟩

theorem OnlyGroup.trans {s t u : State} {c k : Nat} (h : OnlyGroup s t c k) (l : OnlyGroup t u c k) : OnlyGroup s u c k := by
  obtain ⟨a1, a2, a3, a4⟩ := h
  obtain ⟨b1, b2, b3, b4⟩ := l
  refine ⟨?_, fun d hd => (b2 d hd).trans (a2 d hd), ?_, fun j hj => (b4 j hj).trans (a4 j hj)⟩
  · cases s; cases t; cases u
    simp only [State.mk.injEq] at *
    simp_all
  · generalize getCore s c = p at *
    generalize getCore t c = q at *
    generalize getCore u c = r at *
    cases p; cases q; cases r
    simp only [Core.mk.injEq] at *
    simp_all

theorem onlyGroup_setGroup (s : State) (c k : Nat) (g : Group) : OnlyGroup s (setGroup s c k g) c k := by
  refine ⟨rfl, fun d hd => ?_, ?_, fun j hj => ?_⟩
  · simp [setGroup, getCore_setCore, Ne.symm hd]
  · simp [setGroup]
  · simp [getGroup_setGroup, Ne.symm hj]

theorem onlyGroup_countIssue (s : State) (c k : Nat) : OnlyGroup s (countIssue s c) c k := by
  refine ⟨rfl, fun d hd => ?_, ?_, fun j _ => ?_⟩
  · simp [countIssue, getCore_setCore, Ne.symm hd]
  · simp [countIssue]
  · simp only [countIssue, getGroup_setCore, if_true]; rfl

/-! ### The issuer -/

theorem issuer_group {s : State} {i : Iss} (h : issuer s = some i) :
    getGroup s i.core i.slot = some i.g ∧ i.g.active = some i.e ∧ i.e.clause = some i.cc := by
  unfold issuer at h
  cases hg : getGroup s s.focusCore s.focusSlot with
  | none => rw [hg] at h; simp at h
  | some g =>
    rw [hg] at h
    cases ha : g.active with
    | none => simp [ha] at h
    | some e =>
      cases hc : e.clause with
      | none => simp [ha, hc] at h
      | some cc =>
        simp only [ha, hc, Option.some.injEq] at h
        subst h
        exact ⟨hg, ha, hc⟩

theorem beginClause_names (s : State) (i : Iss) :
    (beginClause s i).core = i.core ∧ (beginClause s i).slot = i.slot ∧ (beginClause s i).g.names = i.g.names ∧
    (beginClause s i).g.id = i.g.id ∧ (beginClause s i).g.kind = i.g.kind := by
  unfold beginClause
  split
  · exact ⟨rfl, rfl, rfl, rfl, rfl⟩
  · dsimp only
    rw [mapLanes_eq]
    exact ⟨rfl, rfl, rfl, rfl, rfl⟩

/-- An entry of the group at its slot, whose names are those of the state. -/
def Stands (s : State) (i : Iss) : Prop :=
  ∃ g, getGroup s i.core i.slot = some g ∧ g.names = i.g.names ∧ g.id = i.g.id ∧ g.kind = i.g.kind

theorem Issues.stands {s : State} {i : Iss} (h : Issues s i) : Stands s i := by
  obtain ⟨h, _⟩ := h
  obtain ⟨i0, h0, rfl⟩ := Option.map_eq_some_iff.1 h
  obtain ⟨hg, _, _⟩ := issuer_group h0
  obtain ⟨a, b, c, d, e⟩ := beginClause_names s i0
  exact ⟨i0.g, by rw [a, b]; exact hg, c.symm, d.symm, e.symm⟩

/-! ### Going on -/

theorem addEntry_mem (fr : List Entry) {e : Entry} (h : e.lanes ≠ 0) :
    ∃ a ∈ addEntry fr e, a.pc = e.pc ∧ e.lanes &&& ~~~a.lanes = 0 := by
  have hz : (e.lanes == 0) = false := by simpa using h
  induction fr with
  | nil => exact ⟨e, by rw [addEntry, hz]; simp, rfl, by simp⟩
  | cons b fr ih =>
    unfold addEntry
    simp only [hz, Bool.false_eq_true, if_false]
    split
    · rename_i hm
      simp only [mergeable, Bool.and_eq_true, beq_iff_eq] at hm
      refine ⟨_, List.mem_cons_self .., hm.1.1.1.2, ?_⟩
      ext k hk
      cases he : e.lanes[k] <;> simp [mergeEntries, he]
    · obtain ⟨a, ha, hp⟩ := ih
      exact ⟨a, List.mem_cons_of_mem _ ha, hp⟩

/-- Going on changes one group alone: its entries. -/
theorem advance_spec (s : State) (i : Iss) (n : Nat) (hl : i.e.lanes ≠ 0) :
    OnlyGroup s (advance s i n) i.core i.slot ∧ ∃ g, getGroup (advance s i n) i.core i.slot = some g ∧
      { g with active := i.g.active, frontier := i.g.frontier } = i.g ∧ WentOn i g n := by
  unfold advance WentOn
  dsimp only
  by_cases h : (lastWord i.cc - i.cc.hdr).toNat < (i.e.pc + BitVec.ofNat 56 (4 * n) - i.cc.hdr).toNat
  · simp only [h, decide_true, if_true, depart, departWith]
    refine ⟨onlyGroup_setGroup .., _, getGroup_setGroup_self .., rfl, rfl, ?_⟩
    simp only [List.map_cons, List.map_nil, addEntries, List.foldl_cons, List.foldl_nil]
    have hne : ∀ (fl : Option FetchFail) (pr : Nat), (({ pc := afterClause i.cc, pri := pr, lanes := i.e.lanes, park := Park.none, pass := 0, mark := false, fail := fl, clause := none } : Entry)).lanes ≠ 0 := fun _ _ => hl
    unfold arrive
    split
    · obtain ⟨a, ha, hp, hm⟩ := addEntry_mem i.g.frontier (hne none _)
      exact ⟨a, ha, hp, hm⟩
    · obtain ⟨a, ha, hp, hm⟩ := addEntry_mem i.g.frontier (hne (some _) i.e.pri)
      exact ⟨a, ha, hp, hm⟩
  · simp only [h, decide_false, Bool.false_eq_true, if_false, putIss]
    exact ⟨onlyGroup_setGroup .., _, getGroup_setGroup_self .., rfl, _, rfl, rfl, rfl⟩

/-! ### Room in the pools -/

/-- Weight of the groups of a list. -/
def groupSum (w : Group → Nat) (m : FMap Group) : Nat := (m.map (fun p => w p.2)).sum

theorem groupSum_ferase (w : Group → Nat) (m : FMap Group) (n : Nat) {y : Group} (h : fget m n = some y) :
    groupSum w (ferase m n) + w y ≤ groupSum w m := by
  have le : ∀ (m : FMap Group), groupSum w (ferase m n) ≤ groupSum w m := by
    intro m
    induction m with
    | nil => simp [ferase]
    | cons p m ih =>
      simp only [ferase, List.filter_cons] at ih ⊢
      split <;> simp only [groupSum, List.map_cons, List.sum_cons] at ih ⊢ <;> omega
  induction m with
  | nil => simp [fget] at h
  | cons p m ih =>
    obtain ⟨k, v⟩ := p
    by_cases e : k = n
    · subst e
      simp only [fget, if_true, Option.some.injEq] at h
      subst h
      have := le m
      simp only [ferase, List.filter_cons, groupSum, List.map_cons, List.sum_cons, ne_eq, not_true, decide_false,
        Bool.false_eq_true, if_false] at this ⊢
      omega
    · simp only [fget, e, if_false] at h
      have := ih h
      simp only [ferase, List.filter_cons, groupSum, List.map_cons, List.sum_cons, ne_eq, e, not_false_eq_true, decide_true,
        if_true] at this ⊢
      omega

theorem groupSum_fset (w : Group → Nat) (m : FMap Group) (n : Nat) (x : Group) {y : Group} (h : fget m n = some y) :
    groupSum w (fset m n x) + w y ≤ groupSum w m + w x := by
  have := groupSum_ferase w m n h
  have ins : ∀ (m : FMap Group), groupSum w (finsert m n x) = groupSum w m + w x := by
    intro m
    induction m with
    | nil => simp [finsert, groupSum]
    | cons p m ih =>
      unfold finsert
      split <;> simp only [groupSum, List.map_cons, List.sum_cons] at ih ⊢ <;> omega
  rw [fset, ins]
  omega

/-- Slots of a group in the pools of a context. -/
def poolShare (x : Ctx) (g : Group) : Nat × Nat := if g.id.ctx == x && !isAp g then groupSlots g else (0, 0)

theorem usedSlots_eq (q : Core) (x : Ctx) :
    usedSlots q x = (groupSum (fun g => (poolShare x g).1) q.groups, groupSum (fun g => (poolShare x g).2) q.groups) := by
  have : ∀ (l : FMap Group) (a : Nat × Nat),
      l.foldl (fun a p => if p.2.id.ctx == x && !isAp p.2 then (a.1 + (groupSlots p.2).1, a.2 + (groupSlots p.2).2) else a) a =
      (a.1 + groupSum (fun g => (poolShare x g).1) l, a.2 + groupSum (fun g => (poolShare x g).2) l) := by
    intro l
    induction l with
    | nil => simp [groupSum]
    | cons p l ih =>
      intro a
      rw [List.foldl_cons, ih]
      simp only [groupSum, List.map_cons, List.sum_cons, poolShare]
      split <;> simp [Nat.add_assoc]
  rw [usedSlots, this]
  simp

/-- With room for its destination names, what an instruction writes needs no spill. -/
theorem room_after {s : State} {i j : Iss} {fs : List Nat} (hi : Stands s i) (hr : HasRoom s i fs) (hm : NamesMoved i j)
    (hs : SlotsLe i.g j.g (2 * (keepNames i fs).length) (keepNames i fs).length) (k : State → State) (s0 : State) (i0 : Iss)
    (hc : i0.core = i.core) (hk : i0.slot = i.slot) (hx : i0.g.id.ctx = i.g.id.ctx) (gs : List Nat) :
    withRoom s0 i0 gs (putIss (countIssue s i.core) j) k = k (putIss (countIssue s i.core) j) := by
  obtain ⟨g, hg, hn, hid, hkd⟩ := hi
  unfold withRoom
  rw [hc, hk]
  have hgrp : getGroup (putIss (countIssue s i.core) j) i.core i.slot =
      some { j.g with active := some { j.e with clause := some j.cc } } := by
    simp [putIss, hm.core, hm.slot]
  have hq : (getCore (putIss (countIssue s i.core) j) i.core).groups =
      fset (getCore s i.core).groups i.slot { j.g with active := some { j.e with clause := some j.cc } } := by
    simp [putIss, hm.core, hm.slot, setGroup, countIssue]
  have hw : splitWing (putIss (countIssue s i.core) j) i0.g.id.ctx.wing = splitWing s i.g.id.ctx.wing := by
    rw [hx]; rfl
  have hu : (usedSlots (getCore (putIss (countIssue s i.core) j) i.core) i.g.id.ctx).1 ≤
        (usedSlots (getCore s i.core) i.g.id.ctx).1 + 2 * (keepNames i fs).length ∧
      (usedSlots (getCore (putIss (countIssue s i.core) j) i.core) i.g.id.ctx).2 ≤
        (usedSlots (getCore s i.core) i.g.id.ctx).2 + (keepNames i fs).length := by
    simp only [usedSlots_eq, hq]
    have e0 : poolShare i.g.id.ctx g = if !isAp i.g then groupSlots i.g else (0, 0) := by
      simp [poolShare, hid, isAp, hkd, groupSlots, hn]
    have e1 : poolShare i.g.id.ctx { j.g with active := some { j.e with clause := some j.cc } } =
        if !isAp i.g then groupSlots j.g else (0, 0) := by
      simp [poolShare, hm.g.id, isAp, hm.g.kind, groupSlots]
    have h1 := groupSum_fset (fun g => (poolShare i.g.id.ctx g).1) _ i.slot { j.g with active := some { j.e with clause := some j.cc } } hg
    have h2 := groupSum_fset (fun g => (poolShare i.g.id.ctx g).2) _ i.slot { j.g with active := some { j.e with clause := some j.cc } } hg
    simp only [e0, e1] at h1 h2
    have s1 := hs.1
    have s2 := hs.2
    constructor
    · split at h1 <;> (try simp only at h1) <;> omega
    · split at h2 <;> (try simp only at h2) <;> omega
  have hr1 := hr.1
  have hr2 := hr.2
  rw [show makeRoom (splitWing (putIss (countIssue s i.core) j) i0.g.id.ctx.wing) i.core i.slot i0.e.lanes gs 2048
      (putIss (countIssue s i.core) j) = .ok (putIss (countIssue s i.core) j) from by
    rw [hw, show (2048 : Nat) = 2047 + 1 from rfl, makeRoom, hgrp]
    dsimp only
    rw [if_pos]
    simp only [Bool.and_eq_true, decide_eq_true_eq]
    rw [hm.g.id]
    exact ⟨by omega, by omega⟩]

/-! ### The end of an instruction -/

theorem NamesOnly.kept {a b : Group} (h : NamesOnly a b) : GroupKept a b := by
  refine ⟨?_, h.2⟩
  have := h.1
  have hl := h.lanes
  cases a; cases b
  simp only [Group.mk.injEq] at *
  simp_all

/-- The end of an instruction that has room and writes nothing general in access-processor code. -/
theorem finish_spec {s : State} {i : Iss} {srcs rels : List Nat} {ds : List Dest} {n : Nat} (hi : Stands s i) (hl : i.e.lanes ≠ 0)
    (hr : HasRoom s i (ds.map (·.f))) (hn : Named i (ds.map (·.f))) (hnd : (ds.map (·.f)).Nodup) (hap : apGeneral i ds = false)
    (hs : fullMask i = true → ∀ d ∈ ds, ShapeSound i (fun l => d.vals.getD l 0) d.sh) :
    ∃ t, finish s i srcs rels ds n = .next t ∧ ∃ g, getGroup t i.core i.slot = some g ∧
      OnlyGroup (clearMaps s i.g g) t i.core i.slot ∧
      (∀ d ∈ ds, ∀ l < 64, hasLane i.e.lanes l = true → fieldWord g l d.f = d.vals.getD l 0) ∧
      (∀ d ∈ ds, ∀ n ∈ namesOf i d.f, shapeCode (getName g n).val = if fullMask i = true then resCode d.sh else 3) ∧
      OtherNamesKept i g rels (ds.map (·.f)) ∧ GroupKept i.g g ∧ (∀ l, laneSt g l = laneSt i.g l) ∧ WentOn i g n := by
  obtain ⟨hm, hv, hk, hsl, hsh⟩ := writeBack_spec (s := s) (srcs := srcs) (rels := rels) ds hl hn hnd hs
  unfold finish finishWith
  rw [if_neg (by simp [hap])]
  dsimp only
  have hi' : Stands (clearMaps s i.g (writeBack s i srcs rels ds).g) i := by
    obtain ⟨g0, h0, h1⟩ := hi
    exact ⟨g0, by rw [clearMaps_group]; exact h0, h1⟩
  have hr' : HasRoom (clearMaps s i.g (writeBack s i srcs rels ds).g) i (ds.map (·.f)) := by
    simp only [HasRoom, splitWing, clearMaps_core, clearMaps_wing]
    exact hr
  unfold commit
  rw [room_after hi' hr' hm hsl _ s i rfl rfl rfl]
  clear hi' hr'
  generalize hj : writeBack s i srcs rels ds = j at hm hv hk hsh
  clear hj hsl
  obtain ⟨jc, js, jg, je, jcc⟩ := j
  obtain rfl : jc = i.core := hm.core
  obtain rfl : js = i.slot := hm.slot
  obtain rfl : je = i.e := hm.e
  have hmc := hm.cc
  have hmg := hm.g
  clear hm
  dsimp only at hmc hmg hv hk hsh ⊢
  generalize hq : clearMaps s i.g jg = q
  have hg : getGroup (id (putIss (countIssue q i.core) ⟨i.core, i.slot, jg, i.e, jcc⟩)) i.core i.slot =
      some { jg with active := some { i.e with clause := some jcc } } := by
    simp [putIss]
  rw [hg]
  dsimp only [id]
  generalize hgj : ({ jg with active := some { i.e with clause := some jcc } } : Group) = h at *
  have hjk : h.names = jg.names ∧ h.handler = jg.handler ∧ h.lanes = jg.lanes ∧ h.kind = jg.kind ∧
      { h with active := jg.active } = jg := by subst hgj; exact ⟨rfl, rfl, rfl, rfl, rfl⟩
  obtain ⟨ho, g, hgg, hgk, hw⟩ := advance_spec (putIss (countIssue q i.core) ⟨i.core, i.slot, jg, i.e, jcc⟩)
    ⟨i.core, i.slot, h, i.e, jcc⟩ n hl
  dsimp only at ho hgg hgk hw
  have e1 : g.names = jg.names := by rw [← hjk.1]; have := congrArg Group.names hgk; simpa using this
  have e2 : g.handler = jg.handler := by rw [← hjk.2.1]; have := congrArg Group.handler hgk; simpa using this
  have e3 : g.lanes = jg.lanes := by rw [← hjk.2.2.1]; have := congrArg Group.lanes hgk; simpa using this
  have e4 : g.kind = jg.kind := by rw [← hjk.2.2.2.1]; have := congrArg Group.kind hgk; simpa using this
  have en : ∀ m, getName g m = getName jg m := by intro m; simp only [getName, e1, e2]
  refine ⟨_, rfl, g, hgg, ?_, ?_, fun d hd n hn' => by rw [en n]; exact hsh d hd n hn', ?_, ?_, ?_, ?_⟩
  · have e0 : g.id = jg.id := by
      have k1 := congrArg Group.id hgk
      rw [← hjk.2.2.2.2]; simpa using k1
    have et : g.tags = jg.tags := by
      have k1 := congrArg Group.tags hgk
      rw [← hjk.2.2.2.2]; simpa using k1
    rw [clearMaps_congr (a := i.g) (b := i.g) rfl en et e0, hq]
    refine ((onlyGroup_countIssue q i.core i.slot).trans ?_).trans ho
    exact onlyGroup_setGroup (countIssue q i.core) i.core i.slot _
  · intro d hd l h64 ha
    rw [← hv d hd l h64 ha]
    have e5 : inHandler g = inHandler jg := by simp only [inHandler, e2]
    have e6 : isAp g = isAp jg := by simp only [isAp, e4]
    have e7 : ∀ l, laneSt g l = laneSt jg l := by intro l; simp only [laneSt, e3]
    have e8 : nameIx g l d.f = nameIx jg l d.f := by simp only [nameIx, e5, e6, e7]
    simp only [fieldWord, e8, en]
  · intro m hmn
    rw [en m]
    have := hk m hmn
    rw [this.1, this.2]
    constructor
    · intro h1 h2; simp [h1, h2]
    · intro h
      have : ¬(fullMask i = true ∧ m ∈ keepNames i rels) := by
        rintro ⟨h1, h2⟩
        rcases h with h | h
        · exact h h2
        · rw [h] at h1; cases h1
      rw [if_neg this, if_neg this]
      exact ⟨rfl, rfl⟩
  · obtain ⟨k1, k2⟩ := hmg.kept
    refine ⟨?_, by rw [e2]; exact k2⟩
    have k3 := hjk.2.2.2.2
    clear hgg ho hw e1 e2 e3 e4 en hv hk hg hjk hgj hmg hsh
    generalize i.g = a at k1 ⊢
    cases a; cases jg; cases h; cases g
    simp only [Group.mk.injEq] at k1 k3 hgk ⊢
    simp_all
  · intro l
    simp only [laneSt, e3, hmg.lanes]
  · have hh : jcc.hdr = i.cc.hdr := by have := congrArg ClauseCtx.hdr hmc; simpa using this
    have hw' : jcc.word = i.cc.word := by have := congrArg ClauseCtx.word hmc; simpa using this
    unfold WentOn at hw ⊢
    simp only [afterClause, lastWord, hh, hw'] at hw ⊢
    exact hw

/-! ### The checks before -/

theorem bit_laneBit_sum (f : Nat → Bool) (ls : List Nat) (a : Nat) :
    ls.foldl (fun a l => if f l then a + 2 ^ l else a) a = a + ((ls.filter f).map (2 ^ ·)).sum := by
  induction ls generalizing a with
  | nil => simp
  | cons l ls ih =>
    rw [List.foldl_cons, ih, List.filter_cons]
    split <;> simp [Nat.add_assoc]

/-- No lane of an empty set of bad lanes lacks a name. -/
theorem badLanes_zero {i : Iss} {fs : List Nat} (h : badLanes i fs = 0) : Named i fs := by
  intro f hf l hl
  obtain ⟨h64, ha⟩ := mem_lanesOf.1 hl
  by_contra hc
  have hbad : (hasLane i.e.lanes l && fs.any (fun f => nameIx i.g l f == none)) = true := by
    simp only [Bool.and_eq_true, List.any_eq_true, beq_iff_eq]
    exact ⟨ha, f, hf, by simpa using hc⟩
  generalize hF : (fun l => hasLane i.e.lanes l && fs.any (fun f => nameIx i.g l f == none)) = F at *
  have hFl : F l = true := by rw [← hF]; exact hbad
  unfold badLanes laneSetOf at h
  rw [hF, bit_laneBit_sum, Nat.zero_add] at h
  have hlt : ∀ n, (((List.range n).filter F).map (2 ^ ·)).sum < 2 ^ n := by
    intro n
    induction n with
    | zero => simp
    | succ n ih =>
      rw [List.range_succ, List.filter_append, List.map_append, List.sum_append]
      have : (((List.filter F [n]).map (2 ^ ·)).sum) ≤ 2 ^ n := by
        rw [List.filter_cons]; split <;> simp
      rw [pow_succ]; omega
  have hz : (((List.range 64).filter F).map (2 ^ ·)).sum = 0 := by
    have h2 := congrArg BitVec.toNat h
    rw [BitVec.toNat_ofNat, Nat.mod_eq_of_lt (hlt 64)] at h2
    exact h2
  have hmem : l ∈ (List.range 64).filter F := by simp [h64, hFl]
  have hle : 2 ^ l ≤ (((List.range 64).filter F).map (2 ^ ·)).sum :=
    List.single_le_sum (by simp) _ (List.mem_map_of_mem hmem)
  have := Nat.two_pow_pos l
  omega

/-- An instruction that meets no obstacle executes its body. -/
theorem runNames_ready {s : State} {i : Iss} {names reads writes : List Nat} (h : Ready s i names reads writes) (body : Iss → Out) :
    runNames s names reads writes body = body i := by
  obtain ⟨⟨hi, _⟩, hb, hl, hw, hf⟩ := h
  obtain ⟨i0, h0, rfl⟩ := Option.map_eq_some_iff.1 hi
  unfold runNames
  rw [h0]
  simp [hb, hl, hw, hf]

theorem runOp_ready {s : State} {i : Iss} {srcs dsts : List Nat} (h : Ready s i (srcs ++ dsts) srcs dsts) (body : Iss → Out) :
    runOp s srcs dsts body = body i := runNames_ready h body

/-- An active lane reads the word that a field names. -/
theorem readLane_active {i : Iss} {l : Nat} (f : Nat) (h : hasLane i.e.lanes l = true) : readLane i l f = fieldWord i.g l f := by
  unfold readLane fieldWord
  split
  · rename_i hx; rw [hx]
  · rename_i n hx; rw [hx]; simp [h]

/-! ### Instructions of one result per lane -/

/-- Adding exceptions to `FSTAT` changes nothing that names depend on. -/
theorem setFstat_frame (i : Iss) (fl : Nat → FFlags) :
    NamesMoved { i with g := { i.g with lanes := (setFstat i fl).g.lanes } } (setFstat i fl) ∧
    (setFstat i fl).core = i.core ∧ (setFstat i fl).slot = i.slot ∧ (setFstat i fl).e = i.e ∧ (setFstat i fl).cc = i.cc ∧
    (setFstat i fl).g = { i.g with lanes := (setFstat i fl).g.lanes } ∧
    ∀ l, laneSt (setFstat i fl).g l = if l < 64 ∧ hasLane i.e.lanes l = true
      then { laneSt i.g l with fstat := (laneSt i.g l).fstat ||| (fl l).setWidth 32 } else laneSt i.g l := by
  have h : (setFstat i fl).g = { i.g with lanes := (setFstat i fl).g.lanes } := by
    simp only [setFstat]; exact mapLanes_eq ..
  refine ⟨⟨rfl, rfl, rfl, rfl, ?_⟩, rfl, rfl, rfl, rfl, h, ?_⟩
  · dsimp only
    rw [← h]
    exact .refl _
  · intro l
    simp only [setFstat, laneSt_mapLanes]

theorem setFstat_nameIx (i : Iss) (fl : Nat → FFlags) (l f : Nat) : nameIx (setFstat i fl).g l f = nameIx i.g l f := by
  obtain ⟨_, _, _, _, _, hg, hl⟩ := setFstat_frame i fl
  have e1 : inHandler (setFstat i fl).g = inHandler i.g := by rw [hg]; rfl
  have e2 : isAp (setFstat i fl).g = isAp i.g := by rw [hg]; rfl
  have e3 : (laneSt (setFstat i fl).g l).hvb = (laneSt i.g l).hvb := by rw [hl]; split <;> rfl
  have e4 : (laneSt (setFstat i fl).g l).wb = (laneSt i.g l).wb := by rw [hl]; split <;> rfl
  simp only [nameIx, e1, e2, e3, e4]

theorem setFstat_keep (i : Iss) (fl : Nat → FFlags) (fs : List Nat) : keepNames (setFstat i fl) fs = keepNames i fs := by
  have : namesOf (setFstat i fl) = namesOf i := by
    funext f
    simp only [namesOf, setFstat_nameIx]
    rfl
  simp only [keepNames, this]

theorem setFstat_full (i : Iss) (fl : Nat → FFlags) : fullMask (setFstat i fl) = fullMask i := by
  obtain ⟨_, _, _, _, _, hg, hl⟩ := setFstat_frame i fl
  have e1 : inHandler (setFstat i fl).g = inHandler i.g := by rw [hg]; rfl
  have e3 : ∀ l, laneView (setFstat i fl).g l = laneView i.g l := by
    intro l
    simp only [laneView, e1, hl]
    split <;> split <;> rfl
  have e4 : (setFstat i fl).g.live = i.g.live := by rw [hg]
  have e5 : (setFstat i fl).e = i.e := rfl
  simp only [fullMask, oneView, e3, e4, e5]

theorem laneVals_getD (i : Iss) {α : Type} (z : α) (f : Nat → α) {l : Nat} (hl : l < 64) (ha : hasLane i.e.lanes l = true) :
    ((List.range 64).map (fun l => if hasLane (workLanes i) l then f l else z)).getD l z = f l := by
  have : hasLane (workLanes i) l = true := by
    simp only [workLanes, hasLane, BitVec.getLsbD_or] at ha ⊢
    simp [ha]
  simp [hl, this]

/-- The end of an instruction whose exceptions have been added to `FSTAT`: its results, and all else as `WritesNames` says. -/
theorem finish_writes {s : State} {i : Iss} {names reads : List Nat} {srcs rels : List Nat} {ds : List Dest} {n : Nat} (fl : Nat → FFlags)
    (hi : Ready s i names reads (ds.map (·.f))) (hsub : ∀ f ∈ ds.map (·.f), f ∈ names) (hr : HasRoom s i (ds.map (·.f)))
    (hnd : (ds.map (·.f)).Nodup) (hap : isAp i.g = true → fullMask i = true ∧ ∀ d ∈ ds, d.sh ≠ .general)
    (hs : fullMask i = true → ∀ d ∈ ds, ShapeSound i (fun l => d.vals.getD l 0) d.sh) :
    ∃ t, finish s (setFstat i fl) srcs rels ds n = .next t ∧
      ∃ g, getGroup t i.core i.slot = some g ∧ OnlyGroup (clearMaps s i.g g) t i.core i.slot ∧
      (∀ d ∈ ds, ∀ l < 64, hasLane i.e.lanes l = true → fieldWord g l d.f = d.vals.getD l 0) ∧
      (∀ d ∈ ds, ∀ n ∈ namesOf i d.f, shapeCode (getName g n).val = if fullMask i = true then resCode d.sh else 3) ∧
      OtherNamesKept i g rels (ds.map (·.f)) ∧ GroupKept i.g g ∧ LanesKept i g fl ∧ WentOn i g n := by
  obtain ⟨_, hc, hk, he, hcc, hg, hl⟩ := setFstat_frame i fl
  have hn : Named i (ds.map (·.f)) := fun f hf => badLanes_zero hi.2.1 f (hsub f hf)
  have st : Stands s (setFstat i fl) := by
    obtain ⟨g0, h1, h2, h3, h4⟩ := hi.1.stands
    exact ⟨g0, h1, by rw [hg]; exact h2, by rw [hg]; exact h3, by rw [hg]; exact h4⟩
  have hr' : HasRoom s (setFstat i fl) (ds.map (·.f)) := by
    have e : (setFstat i fl).g.id = i.g.id := by rw [hg]
    simp only [HasRoom, setFstat_keep, hc, e]
    exact hr
  have hn' : Named (setFstat i fl) (ds.map (·.f)) := by
    intro f hf l hl'
    rw [setFstat_nameIx]
    exact hn f hf l hl'
  have hap' : apGeneral (setFstat i fl) ds = false := by
    have e : isAp (setFstat i fl).g = isAp i.g := by rw [hg]; rfl
    simp only [apGeneral, e, setFstat_full]
    cases h : isAp i.g with
    | false => rfl
    | true =>
      obtain ⟨h1, h2⟩ := hap h
      simp only [Bool.true_and, h1, Bool.not_true, Bool.or_false, List.any_eq_false, beq_iff_eq]
      exact h2
  obtain ⟨t, h1, g, h3, h2, h4, h9, h5, h6, h7, h8⟩ := finish_spec (n := n) (srcs := srcs) (rels := rels) st hi.1.2 hr' hn' hnd hap'
    (by
      intro h d hd
      rw [setFstat_full] at h
      have := hs h d hd
      unfold ShapeSound at this ⊢
      exact this)
  refine ⟨t, h1, g, h3, ?_, h4, ?_, ?_, ?_, ?_, ?_⟩
  · rw [clearMaps_congr (b := (setFstat i fl).g) (by rw [hg]) (fun _ => rfl) rfl rfl]
    exact h2
  · intro d hd n hn
    have e : namesOf (setFstat i fl) d.f = namesOf i d.f := by simp only [namesOf, setFstat_nameIx]; rfl
    have := h9 d hd n (by rw [e]; exact hn)
    rw [setFstat_full] at this
    exact this
  · intro m hm
    have := h5 m (by rw [setFstat_keep]; exact hm)
    rw [setFstat_keep, setFstat_full] at this
    have e : getName (setFstat i fl).g m = getName i.g m := by rw [hg]; rfl
    rw [e] at this
    exact this
  · obtain ⟨k1, k2⟩ := h6
    rw [hg] at k1 k2
    refine ⟨?_, k2⟩
    clear h1 h2 h3 h4 h5 h7 h8 h9 hg hl st hr' hn' hap'
    generalize (setFstat i fl).g.lanes = z at k1
    generalize i.g = a at *
    cases a; cases g
    simp only [Group.mk.injEq] at *
    simp_all
  · intro l
    rw [h7, hl]
  · unfold WentOn at h8 ⊢
    exact h8

/-- An instruction of one result per lane completes wherever it is ready and has room, none of its exceptions being enabled as a
trap, and the shape given is sound. -/
theorem runLanes_spec {s : State} {i : Iss} {srcs rels : List Nat} {d : Nat} {sh : Iss → ResShape} {f : Iss → Nat → Word × FFlags}
    (hi : Ready s i (srcs ++ [d]) srcs [d]) (hr : HasRoom s i [d])
    (hap : isAp i.g = true → fullMask i = true ∧ sh i ≠ .general)
    (hfl : ∀ l < 64, hasLane i.e.lanes l = true → (f i l).2 &&& trapEnables (laneSt i.g l).fmode = 0)
    (hs : fullMask i = true → ShapeSound i (fun l => (f i l).1) (sh i)) :
    ∃ t, runLanes s srcs rels d sh f = .next t ∧
      WritesNames s i t rels [d] (fun _ l => (f i l).1) (fun _ => resCode (sh i)) (fun l => (f i l).2) 1 := by
  unfold runLanes
  rw [runOp_ready hi]
  dsimp only
  have hrs : ∀ l < 64, hasLane i.e.lanes l = true →
      ((List.range 64).map (fun l => if hasLane (workLanes i) l then f i l else (0, 0))).getD l (0, 0) = f i l :=
    fun l h1 h2 => laneVals_getD i (0, 0) (f i) h1 h2
  generalize hrd : (List.range 64).map (fun l => if hasLane (workLanes i) l then f i l else ((0, 0) : Word × FFlags)) = rs at *
  have hz : (fpxLanes i (fun l => (rs.getD l (0, 0)).2) != 0) = false := by
    have : ∀ l ∈ List.range 64, (hasLane i.e.lanes l &&
        ((rs.getD l (0, 0)).2 &&& trapEnables (laneSt i.g l).fmode) != 0) = false := by
      intro l hl
      have hl := List.mem_range.1 hl
      cases ha : hasLane i.e.lanes l with
      | false => rfl
      | true =>
        rw [hrs l hl ha, hfl l hl ha]
        rfl
    have hnil : List.filter (fun l => hasLane i.e.lanes l && ((rs.getD l (0, 0)).2 &&& trapEnables (laneSt i.g l).fmode) != 0)
        (List.range 64) = [] := List.filter_eq_nil_iff.2 (fun l hl => by rw [this l hl]; simp)
    simp only [fpxLanes, laneSetOf, bit_laneBit_sum, hnil]
    rfl
  rw [hz]
  simp only [Bool.false_eq_true, if_false]
  have hv : ∀ l < 64, hasLane i.e.lanes l = true → (rs.map (·.1)).getD l 0 = (f i l).1 := by
    intro l h1 h2
    rw [← hrs l h1 h2, List.getD_eq_getElem?_getD, List.getD_eq_getElem?_getD, List.getElem?_map]
    cases rs[l]? <;> rfl
  obtain ⟨t, h1, g, h3, h2, h4, h9, h5, h6, h7, h8⟩ := finish_writes (srcs := srcs) (rels := rels) (n := 1)
    (ds := [⟨d, rs.map (·.1), sh i⟩]) (fun l => (rs.getD l (0, 0)).2) hi (by simp) hr (by simp)
    (by intro h; exact ⟨(hap h).1, by simpa using (hap h).2⟩)
    (by
      intro h d' hd'
      simp only [List.mem_singleton] at hd'
      subst hd'
      have := hs h
      have hlow := mem_lanesOf.1 (lowLane_mem hi.1.2)
      dsimp only
      revert this
      cases sh i with
      | unalloc => intro this l h1 h2; dsimp only; rw [hv l h1 h2]; exact this l h1 h2
      | uniform => intro this l h1 h2; dsimp only; rw [hv l h1 h2, hv _ hlow.1 hlow.2]; exact this l h1 h2
      | affine b st => intro this l h1 h2; dsimp only; rw [hv l h1 h2]; exact this l h1 h2
      | general => intro; trivial)
  refine ⟨t, h1, g, h3, h2, ?_, ?_, h5, h6, ?_, h8⟩
  · intro d' hd' l hl ha
    simp only [List.mem_singleton] at hd'
    subst hd'
    rw [h4 _ (List.mem_singleton.2 rfl) l hl ha]
    exact hv l hl ha
  · intro d' hd' n hn
    simp only [List.mem_singleton] at hd'
    subst hd'
    exact h9 ⟨d', rs.map (·.1), sh i⟩ (by simp) n hn
  · intro l
    rw [h7 l]
    split
    · rename_i hh
      dsimp only
      rw [hrs l hh.1 hh.2]
    · rfl

/-! ### Shapes (R56) -/

/-- Under a full mask an active lane reads its element of the value that the whole entry sees. -/
theorem fieldWord_full {i : Iss} (hf : fullMask i = true) {l : Nat} (hl : l < 64) (ha : hasLane i.e.lanes l = true) (f : Nat) :
    fieldWord i.g l f = shapedAt (fieldVal i f) l := by
  have hv : oneView i = true := by simp only [fullMask, Bool.and_eq_true] at hf; exact hf.1
  unfold fieldWord fieldVal
  rw [nameIx_low hv (mem_lanesOf.2 ⟨hl, ha⟩)]
  cases nameIx i.g (lowLane i.e.lanes) f <;> rfl

theorem shapedAt_uniform {v : Shaped} (h : isUniform v = true) (l m : Nat) : shapedAt v l = shapedAt v m := by
  cases v <;> simp_all [isUniform, shapedAt]

/-- The standard shape is sound for every operation whose result in a lane depends on that lane's sources alone. -/
theorem stdShape_sound {i : Iss} {fs : List Nat} {f : (Nat → Word) → Word} (hf : fullMask i = true) (hl : i.e.lanes ≠ 0)
    (hdep : ∀ v w : Nat → Word, (∀ x ∈ fs, v x = w x) → f v = f w) :
    ShapeSound i (fun l => f (fieldWord i.g l)) (stdShape (fs.map (fieldVal i))) := by
  unfold stdShape
  split
  · rename_i h
    have hlow := mem_lanesOf.1 (lowLane_mem hl)
    intro l h1 h2
    apply hdep
    intro x hx
    have hu : isUniform (fieldVal i x) = true := by
      simp only [List.all_map, List.all_eq_true, Function.comp] at h
      exact h x hx
    rw [fieldWord_full hf h1 h2, fieldWord_full hf hlow.1 hlow.2]
    exact shapedAt_uniform hu _ _
  · trivial

end Sys2Proof.Machine
end

