-- ==== Sys2Proof/Tests/Slice0.lean ====
section
/-!
SUPPORT. Tests: ill-formed terms, words written out from the spec's encodings, single steps on small states, and a witness for the
hypotheses of each statement.
-/
namespace Sys2Proof.Tests
open Sys2Proof Sys2Proof.Machine
set_option Elab.async false

/-! ### Ill-formed terms, one for each check -/

theorem test_wf_wbase : (Instr.wbase 12).wf = false ∧ (Instr.wbase 16).wf = true := by decide +kernel
theorem test_wf_marker : (Instr.mjoin 12).wf = false ∧ (Instr.mreadArr 13 5).wf = false ∧ (Instr.mwait 11).wf = true := by decide +kernel
theorem test_wf_hint_space : (Instr.ld .b4 1 false ⟨false, .loc, 1, 2⟩).wf = false := by decide +kernel
theorem test_wf_hint_pair : (Instr.st .b4 3 true ⟨false, .flat, 1, 2⟩).wf = false := by decide +kernel
theorem test_wf_atom64 : (Instr.atom64 .fadd 1 2 3).wf = false ∧ (Instr.atom .fadd 1 2 3).wf = true := by decide +kernel
theorem test_wf_red_op : (Instr.red .cas .device false false false 1 2).wf = false := by decide +kernel
theorem test_wf_red_bits : (Instr.red .add .device true false false 1 2).wf = false := by decide +kernel
theorem test_wf_mma_types : (Instr.mma ⟨0, .i8, false, 1, .bf16, none, false, 0⟩).wf = false := by decide +kernel
theorem test_wf_mma_pair : (Instr.mma ⟨0, .e4m3, false, 1, .e5m2, none, true, 0⟩).wf = false := by decide +kernel
theorem test_wf_scan : (Instr.scan true false ⟨false, false, 4, 1, 2⟩).wf = false := by decide +kernel
theorem test_wf_core : (Instr.pick 384 0).wf = false ∧ (Instr.pick 383 64).wf = true := by decide +kernel
theorem test_wf_slot : (Instr.pick 0 65).wf = false := by decide +kernel
theorem test_wf_cluster : (Instr.engineGrant 96 0).wf = false := by decide +kernel
theorem test_wf_pseudo_channel : (Instr.refresh (512 * 256) 0).wf = false ∧ (Instr.forcedRefresh 512 0).wf = false := by decide +kernel
theorem test_wf_channel : (Instr.refwaitRead 256).wf = false := by decide +kernel
theorem test_wf_stream : (Instr.tailPoll 0 0 16384).wf = false := by decide +kernel
theorem test_wf_queue : (Instr.qtailPoll 0 0 64).wf = false := by decide +kernel
theorem test_wf_tenant : (Instr.thrlossRead 0 8).wf = false := by decide +kernel
theorem test_wf_wing : (Instr.gangPlace 24).wf = false := by decide +kernel
theorem test_wf_row : (Instr.slotRowWrite 0 32 0).wf = false := by decide +kernel
theorem test_wf_event_word : (Instr.evsWrite 0 0 8 0).wf = false := by decide +kernel
theorem test_wf_view : (Instr.attestReport 25).wf = false ∧ (Instr.attestReport 24).wf = true := by decide +kernel
theorem test_wf_port : (Instr.joeshLinkTrain 8 true).wf = false := by decide +kernel

/-! ### Words, bit by bit from the encodings (R85 to R95), one or more for every family -/

/-- OP in bits 31 to 25, the rest given. -/
def opWord (op rest : Nat) : Word := BitVec.ofNat 32 (op * 2 ^ 25 + rest)

/-- Format R: MOD 24:23, LRB 22, LRA 21, SB 20:14, SA 13:7, D 6:0 (R86). -/
def rWord (op mode lrb lra sb sa d : Nat) : Word :=
  opWord op (mode * 2 ^ 23 + lrb * 2 ^ 22 + lra * 2 ^ 21 + sb * 2 ^ 14 + sa * 2 ^ 7 + d)

-- BRA to three words before the header: OP 0x01, OFF in bits 16 to 0
theorem test_dec_bra : decodeWord (opWord 0x01 (2 ^ 17 - 3)) none = .ok (.bra (-3)) := by decide +kernel
-- CALL with a frame of 4: OP 0x04, FR 24:20, OFF 19:0
theorem test_dec_call : decodeWord (opWord 0x04 (4 * 2 ^ 20 + 0x40)) none = .ok (.call 4 0x40) := by decide +kernel
-- WBASE 32: the immediate in bits 23 to 14
theorem test_dec_wbase : decodeWord (opWord 0x09 (32 * 2 ^ 14)) none = .ok (.wbase 32) := by decide +kernel
-- MREAD of what has arrived at marker 5: bit 14, the marker in bits 10 to 7
theorem test_dec_mread : decodeWord (opWord 0x0D (2 ^ 14 + 5 * 2 ^ 7 + 9)) none = .ok (.mreadArr 5 9) := by decide +kernel
theorem test_dec_marker_12 : decodeWord (opWord 0x0A 12) none = .error .reservedValue := by decide +kernel
theorem test_dec_ballot : decodeWord (rWord 0x0E 2 0 1 0 4 6) none = .ok (.vote .ballot ⟨true, 4, 6⟩) := by decide +kernel
theorem test_dec_imul : decodeWord (rWord 0x12 1 1 0 7 8 9) none = .ok (.imul .hi ⟨true, false, 7, 8, 9⟩) := by decide +kernel
theorem test_dec_isari : decodeWord (opWord 0x26 (2 ^ 24 + 31 * 2 ^ 14 + 2 * 2 ^ 7 + 3)) none = .ok (.isari 31 ⟨true, 2, 3⟩) := by decide +kernel
theorem test_dec_fcmp : decodeWord (rWord 0x36 3 0 0 1 2 3) none = .ok (.fcmp .un ⟨false, false, 1, 2, 3⟩) := by decide +kernel
-- FCVT from f16 to e4m3: the source format in bits 19 to 17, the destination in 16 to 14
theorem test_dec_fcvt : decodeWord (opWord 0x3E (2 * 2 ^ 17 + 3 * 2 ^ 14 + 5 * 2 ^ 7 + 6)) none = .ok (.fcvt .f16 .e4m3 ⟨false, 5, 6⟩) := by
  decide +kernel
theorem test_dec_hfma2 : decodeWord (rWord 0x43 1 0 0 4 5 6) none = .ok (.hfma2 .f16 ⟨false, false, 4, 5, 6⟩) := by decide +kernel
theorem test_dec_movi : decodeWord (opWord 0x51 (0x3FF * 2 ^ 14 + 7)) none = .ok (.movi 0x3FF 7) := by decide +kernel
theorem test_dec_movl_alone : decodeWord 0xA400000A none ≠ .ok (.movl 0 10) := by decide +kernel
theorem test_dec_rdlane_imm : decodeWord (opWord 0x55 (2 ^ 23 + 63 * 2 ^ 14 + 2 * 2 ^ 7 + 1)) none = .ok (.rdlaneImm 63 ⟨false, 2, 1⟩) := by
  decide +kernel
theorem test_dec_qswz : decodeWord (rWord 0x54 3 0 0 2 4 5) none = .ok (.qswz (.bc 2) ⟨false, 4, 5⟩) := by decide +kernel
-- LDA of 64 bits at DEVICE scope: bit 23 set, width bit 22, scope in 21 to 19
theorem test_dec_lda : decodeWord (opWord 0x62 (2 ^ 23 + 2 ^ 22 + 3 * 2 ^ 19 + 2 ^ 18 + 4 * 2 ^ 7 + 6)) none =
    .ok (.lda true .device ⟨true, .flat, 4, 6⟩) := by decide +kernel
theorem test_dec_atom_cas : decodeWord (opWord 0x64 (9 * 2 ^ 21 + 1 * 2 ^ 14 + 2 * 2 ^ 7 + 3)) none = .ok (.atom .cas 1 2 3) := by decide +kernel
theorem test_dec_fence_unpin : decodeWord (opWord 0x67 (6 * 2 ^ 14 + 4 * 2 ^ 7 + 8 + 4)) none = .ok (.fenceUnpin .system 6 4) := by decide +kernel
-- QPOP from queue 3: fields 120 to 127 name the queues
theorem test_dec_qpop : decodeWord (opWord 0x68 ((120 + 3) * 2 ^ 7 + 5)) none = .ok (.qpop 3 5) := by decide +kernel
-- R214, the worked example: MMA.E4M3.E5M2 a2, v32, v48, g1, s2
theorem test_dec_mma : decodeWord 0xE20C90EA none = .ok (.mma ⟨2, .e4m3, true, 3, .e5m2, some 1, true, 2⟩) := by decide +kernel
theorem test_dec_tst : decodeWord (opWord 0x74 (9 * 2 ^ 14 + 4 * 2 ^ 7 + 2 ^ 6 + 1 * 2 ^ 3 + 2)) none = .ok (.tst .bf16 true 2 9 4) := by decide +kernel
theorem test_dec_scan_carry : decodeWord (rWord 0x76 2 0 0 0 4 8) none = .ok (.scan true false ⟨false, false, 0, 4, 8⟩) := by decide +kernel
theorem test_dec_winfo : decodeWord (opWord 0x79 (4 * 2 ^ 21 + 5 * 2 ^ 7 + 6)) none = .ok (.winfo 5 6) := by decide +kernel
theorem test_dec_setcarry : decodeWord (opWord 0x79 (5 * 2 ^ 21 + 8 * 2 ^ 14 + 4 * 2 ^ 7 + 3)) none = .ok (.strctlSetcarry 8 4) := by decide +kernel
theorem test_dec_send : decodeWord (opWord 0x7A (2 * 2 ^ 14 + 1 * 2 ^ 7 + 9)) none = .ok (.send 2 1 9) := by decide +kernel
theorem test_dec_launch : decodeWord (opWord 0x7B (4 * 2 ^ 7 + 63)) none = .ok (.launch 63 4) := by decide +kernel
theorem test_dec_svc : decodeWord (opWord 0x7D (15 * 2 ^ 14 + 4 * 2 ^ 7 + 6)) none = .ok (.svc 15 4 6) := by decide +kernel
theorem test_dec_rft : decodeWord (opWord 0x7E (4 * 2 ^ 7 + 8 + 1)) none = .ok (.rftGoto true false 4) := by decide +kernel
theorem test_dec_free_op : decodeWord (opWord 0x00 0) none ≠ .ok .exit ∧ decodeWord (opWord 0x7F 0) none ≠ .ok .exit := by decide +kernel

/-- What is to be read of an instruction of the opcode table. -/
theorem test_table_word : decodeTableWord 32 0x20008083 = some (.iadd .wrap ⟨false, false, 2, 1, 3⟩) := by decide +kernel

/-! ### Small states -/

/-- A group in a clause of 15 words whose first is the one given, right after reset. -/
def base (w : Nat) : State := State.reset.withFetchWord 32 w

def onGroup (f : Group → Group) (s : State) : State :=
  match getGroup s 0 0 with
  | some g => setGroup s 0 0 (f g)
  | none => s

def onCore (f : Core → Core) (s : State) : State := setCore s 0 (f (getCore s 0))
def onCluster (f : Cluster → Cluster) (s : State) : State := setCluster s 0 (f (getCluster s 0))
def onWing (f : Wing → Wing) (s : State) : State := setWing s 0 (f (getWing s 0))
def onTenant (f : Tenant → Tenant) (s : State) : State := setTenant s ⟨0, 0⟩ (f (getTenant s ⟨0, 0⟩))

/-- Names with uniform values. -/
def named (vs : List (Nat × Word)) (s : State) : State :=
  onGroup (fun g => vs.foldl (fun g p => setName g p.1 ⟨.uniform p.2, false, 0⟩) g) s

/-- A name with the value 4 times the lane. -/
def affineName (n : Nat) (s : State) : State := onGroup (fun g => setName g n ⟨.affine 0 4, false, 0⟩) s

/-- The wing runs tenant 0, and its two roots are left at 0. -/
def running (s : State) : State := onWing (fun k => { k with en := true, running := true }) s

/-- The entry that issues. -/
def iss (s : State) : Iss :=
  match issuer s with
  | some i => beginClause s i
  | none => ⟨0, 0, placeGroup, placeEntry, placeClause⟩

/-- A lane's element of a name after a step. -/
def lane (o : Out) (l n : Nat) : Option Word :=
  match o with
  | .next t => (getGroup t 0 0).map (fun g => shapedAt (getName g n).val l)
  | _ => none

def grp (o : Out) (f : Group → Bool) : Bool :=
  match o with
  | .next t => (match getGroup t 0 0 with | some g => f g | none => false)
  | _ => false

def out (o : Out) (f : State → Bool) : Bool :=
  match o with
  | .next t => f t
  | _ => false

/-! ### Single steps; each expected value is worked out by hand from the rule named -/

-- R357: sums wrap, and clamp as int32
theorem test_iadd_wrap : lane (step (named [(1, 0xFFFFFFFF), (2, 2)] (base 0x20008083))) 5 3 = some 1 := by decide +kernel
theorem test_iadd_sat : lane (step (named [(1, 0x7FFFFFFF), (2, 1)] (base 0x20808083))) 0 3 = some 0x7FFFFFFF := by decide +kernel
theorem test_isub_satu : lane (step (named [(1, 1), (2, 2)] (base 0x23008083))) 63 3 = some 0 := by decide +kernel
theorem test_imul_hi : lane (step (named [(1, 0x80000000), (2, 2)] (base 0x24808083))) 0 3 = some 0xFFFFFFFF := by decide +kernel
theorem test_imad : lane (step (named [(1, 3), (2, 5), (3, 7)] (base 0x26008083))) 9 3 = some 22 := by decide +kernel
-- R361: a count of 32 shifts everything out, and is not taken modulo 32
theorem test_ishl_32 : lane (step (named [(1, 1), (2, 32)] (base 0x32008083))) 0 3 = some 0 := by decide +kernel
theorem test_ishr_signed : lane (step (named [(1, 0x80000000), (2, 40)] (base 0x34808083))) 0 3 = some 0xFFFFFFFF := by decide +kernel
-- R336: a length that passes bit 31 is clamped
theorem test_bfe_clamp : lane (step (named [(1, 0xF0000000), (2, 0x0000081C)] (base 0x3A008083))) 0 3 = some 0xF := by decide +kernel
theorem test_icmp_signed : lane (step (named [(1, 0xFFFFFFFF), (2, 0)] (base 0x3F008083))) 0 3 = some 1 := by decide +kernel
theorem test_icmpu_unsigned : lane (step (named [(1, 0xFFFFFFFF), (2, 0)] (base 0x41008083))) 0 3 = some 0 := by decide +kernel
theorem test_sel : lane (step (named [(1, 10), (2, 20), (4, 0)] (base 0x42010083))) 0 3 = some 20 := by decide +kernel
-- R56: an affine sum keeps its stride
theorem test_affine_sum : lane (step (named [(2, 100)] (affineName 1 (base 0x20008083)))) 3 3 = some 112 := by decide +kernel
-- R344: 1.5 + 2.25, and an overflow to infinity under round to nearest
theorem test_fadd : lane (step (named [(1, 0x3FC00000), (2, 0x40100000)] (base 0x60008083))) 0 3 = some 0x40700000 := by decide +kernel
theorem test_fmul_overflow : lane (step (named [(1, 0x7F7FFFFF), (2, 0x7F7FFFFF)] (base 0x64008083))) 0 3 = some 0x7F800000 := by
  decide +kernel
theorem test_fmul_flag : grp (step (named [(1, 0x7F7FFFFF), (2, 0x7F7FFFFF)] (base 0x64008083))) (fun g => (laneSt g 7).fstat != 0) = true := by
  decide +kernel
-- R350: the sign of another value, on the bits alone
theorem test_fsgn_copy : lane (step (named [(1, 0x7FC00001), (2, 0x80000000)] (base 0x6E008083))) 0 3 = some 0xFFC00001 := by decide +kernel
theorem test_i2f : lane (step (named [(1, 0xFFFFFFFF)] (base 0x7E000083))) 0 3 = some 0xBF800000 := by decide +kernel
-- R375, R376: moves
theorem test_movi_sign : lane (step (base 0xA2800003)) 0 3 = some 0xFFFFFE00 := by decide +kernel
theorem test_movl : lane (step (State.reset.withFetchWord 64 (0x12345678 * 2 ^ 32 + 0xA4000003))) 0 3 = some 0x12345678 := by decide +kernel
theorem test_sread_laneid : lane (step (base 0xB4000003)) 41 3 = some 41 := by decide +kernel
-- R397: the lane's partner by exclusive or
theorem test_shfl_xor : lane (step (named [(2, 1)] (affineName 1 (base 0xA7808083)))) 6 3 = some 28 := by decide +kernel
-- R384: the sum of 4 l over 64 lanes is 8064
theorem test_redl : lane (step (affineName 1 (base 0xAE000083))) 9 3 = some 8064 := by decide +kernel
-- R408: a ballot of the lanes whose value is not 0
theorem test_ballot : lane (step (affineName 1 (base 0x1D000083))) 0 3 = some 0xFFFFFFFE := by decide +kernel
-- R334: BRA leaves for the header plus 5 words
theorem test_bra : grp (step (base 0x02000005)) (fun g => g.frontier.map (fun e => e.pc) == [0x10014]) = true := by decide +kernel
-- R335, the worked example: a clause at 0x2000 of length 3, CALL with a frame of 4 under WB 0: v32 holds 0x2010
def callState : State :=
  onGroup (fun g => { g with active := some { placeEntry with
    pc := 0x10004, clause := some { placeClause with word := 0x00000300 } } }) (base 0x08400040)
theorem test_call_link : lane (step callState) 0 32 = some 0x10010 := by decide +kernel
theorem test_call_window : grp (step callState) (fun g => (laneSt g 0).wb == 32) = true := by decide +kernel
-- R340: EXIT of every lane ends the group
theorem test_exit : out (step (base 0x0E000000)) (fun t => (getGroup t 0 0).isNone) = true := by decide +kernel
-- R52: v127 under WB 1016 does not exist, and no descriptor is there, so that the work is aborted
theorem test_name_1024 : out (step (onGroup (fun g => mapLanes g allLanes (fun _ x => { x with wb := 1016 })) (base 0xA200007F)))
    (fun t => (getWing t 0).fqlost != 0) = true := by decide +kernel
-- R409: a window base of 40
theorem test_wbase : grp (step (base 0x120A0000)) (fun g => (laneSt g 63).wb == 40) = true := by decide +kernel
-- R35: a lane that joins a marker is enrolled
theorem test_mjoin : grp (step (base 0x14000002)) (fun g => (getMarker g 2).enr == allLanes) = true := by decide +kernel
-- R250: an event is cleared
theorem test_evsig : out (step (named [(4, 9)] (onTenant (fun t => { t with events := 0x300 }) (base 0xF8000201))))
    (fun t => (getTenant t ⟨0, 0⟩).events == 0x100) = true := by decide +kernel
-- R390: a scale register
theorem test_scale : grp (step (named [(4, 0x7F)] (base 0xEE000202))) (fun g => sget 0 g.scales 2 == 0x7F) = true := by decide +kernel
-- R217: a tile of the cluster
theorem test_tnew : grp (step (base 0xE4000002)) (fun g => (fget g.tiles 2).isSome) = true := by decide +kernel
-- R285: outside a handler RFT is illegal
theorem test_rft_outside : let s := base 0xFC000002
    let u := (fetchWord s 0 ⟨0, 0⟩ (iss s).e.pc).2
    out (step s) (fun t => t == illegal u (iss u) allLanes) = true := by decide +kernel

/-! ### Events -/

theorem test_throttle_down : out (exec (.throttleStep 2401 50 false) State.reset) (fun t => t.clkstep == 15) = true := by decide +kernel
theorem test_grace1_order : out (exec (.grace1Write 0 500) State.reset) (fun t => t == State.reset) = true := by decide +kernel
theorem test_row_reserved : out (exec (.slotRowWrite 0 1 (BitVec.allOnes 128)) State.reset)
    (fun t => getRow (getWing t 0) 1 == 0x00000000FFFF0000FFFFFFFFF1F8FFFF) = true := by decide +kernel
theorem test_host_write : out (exec (.hostWrite .device 64 [1, 2, 3]) State.reset) (fun t => memRead t.mem 63 5 == [0, 1, 2, 3, 0]) = true := by
  decide +kernel
theorem test_enable_empty : out (exec (.wingEnable 0) State.reset) (fun t => (getWing t 0).tblerr && !(getWing t 0).en) = true := by
  decide +kernel
theorem test_attest : out (exec (.attestReport 24) State.reset) (fun t => (getMailbox t 24).captured.length == 320) = true := by decide +kernel

/-! ### Witnesses: a state and operands that meet the hypotheses of each statement -/

/-- `Quiet`, checked on the listed clusters. -/
def quietB (s : State) (c : Nat) : Bool :=
  (getCore s c).sb.isEmpty && (getCore s c).comb.isEmpty && (getCore s c).loads.isEmpty && s.peerOut.isEmpty &&
    s.clusters.all (fun k => k.2.l2.all (fun p => p.2.dirty == 0))

theorem fget_mem {α : Type} {m : FMap α} {n : Nat} {v : α} (h : fget m n = some v) : (n, v) ∈ m := by
  induction m with
  | nil => simp [fget] at h
  | cons p m ih =>
    obtain ⟨k, w⟩ := p
    simp only [fget] at h
    split at h
    · simp_all
    · exact List.mem_cons_of_mem _ (ih h)

theorem clean_of_listed {s : State} (h : s.clusters.all (fun k => k.2.l2.all (fun p => p.2.dirty == 0)) = true) :
    ∀ n, ∀ p ∈ (getCluster s n).l2, p.2.dirty = 0 := by
  intro n p hp
  simp only [getCluster, sget] at hp
  cases hk : fget s.clusters n with
  | none => simp [hk, Cluster.reset] at hp
  | some k =>
    simp only [hk, Option.getD_some] at hp
    have := List.all_eq_true.mp h _ (fget_mem hk)
    simpa using List.all_eq_true.mp this p hp

theorem quiet_of_check {s : State} {c : Nat} (h : quietB s c = true) : Quiet s c := by
  simp only [quietB, Bool.and_eq_true, List.isEmpty_iff] at h
  exact ⟨h.1.1.1.1, h.1.1.1.2, h.1.1.2, h.1.2, clean_of_listed h.2⟩

/-- An issuing group with the names `v1` to `v4` given. -/
def st0 : State := named [(1, 7), (2, 32), (3, 9), (4, 1)] (base 0x20008083)

/-- The same with the issuing lanes given. -/
def withLanes (m : LaneSet) (s : State) : State := onGroup (fun g => { g with active := g.active.map (fun e => { e with lanes := m }) }) s

/-- The same in a handler of all lanes. -/
def handled (s : State) : State := onGroup (fun g => { g with handler := some ⟨allLanes, 0, false, [], []⟩ }) s

/-- The same as access-processor code. -/
def asAp (s : State) : State := onGroup (fun g => { g with kind := .ap }) s

/-- The same with a register of every lane changed. -/
def eachLane (f : LaneSt → LaneSt) (s : State) : State := onGroup (fun g => mapLanes g allLanes (fun _ x => f x)) s

/-- A block of one group for the placed group, with scratchpad of 64 KiB. -/
def theBlock : Block :=
  { ctx := ⟨0, 0⟩, launch := 0, gang := 0, block := 0, cluster := 0, groups := 1, scratch := 65536, apUsed := false,
    mem := [], absent := [], poison := [], ended := false, win := false, books := [] }

def withBlock (s : State) : State := setBlock s 0 0 theBlock

def trapDesc : TrapDesc := ⟨0x2000, 0, BitVec.allOnes 13, 0, 0, [], []⟩

theorem witness_O1 : (Instr.rdlaneImm 63 ⟨true, 127, 127⟩).isCode = true ∧ (Instr.rdlaneImm 63 ⟨true, 127, 127⟩).wf = true := by decide +kernel

theorem witness_O2 : decodeWord 0xFC00000C none = .ok (.rftRestart true true) := by decide +kernel


/-- The issuing entry is ready, and there is room. -/
abbrev Fits (s : State) (names reads writes : List Nat) : Prop :=
  Ready s (iss s) names reads writes ∧ HasRoom s (iss s) writes ∧ isAp (iss s).g = false

theorem witness_O4 : let h : Header := ⟨0xFFF, some 11, some 0, 15, 63, true⟩
    (h.len ≠ 0 ∧ (∀ k, h.seta = some k → k.toNat < 12) ∧ (∀ k, h.setb = some k → k.toNat < 12)) ∧ decodeHeader 0x0011F530 ≠ none := by
  refine ⟨⟨by decide, ?_, ?_⟩, by decide +kernel⟩ <;> intro k h <;> cases h <;> decide

-- a word for each clause of O5: a width of 5, a space of 4, a hint in local space, EP 3 with LU; types 5, SB[0], D[4:3], D[5]; AOP 8 and 13,
-- D[3], scope 5, a control bit with an integer AOP
theorem witness_O5 :
    [0xC1400000, 0xC2010000, 0xC0084000, 0xC2380000].all (fun w => (fld w 25 7 == 0x60 || fld w 25 7 == 0x61) && (decide (5 ≤ fld w 22 3) ||
      decide (4 ≤ fld w 14 4) || (fld w 20 2 != 0 || fld w 19 1 == 1) && fld w 14 4 != 0 || fld w 20 2 == 3 && fld w 19 1 == 1)) = true ∧
    [0xE2000500, 0xE2028000, 0xE2004000, 0xE2000008, 0xE2000020].all (fun w => fld w 25 7 == 0x71 && (decide (5 ≤ fld w 8 3) ||
      decide (5 ≤ fld w 15 3) || fld w 14 1 == 1 || fld w 3 2 != 0 && fld w 6 1 == 0 || fld w 5 1 == 1 && fld w 7 1 == 0)) = true ∧
    [0xCD000000, 0xCDA00000, 0xCC000008, 0xCC000050, 0xCCE00001].all (fun w => fld w 25 7 == 0x66 && (fld w 21 4 == 8 || fld w 21 4 == 9 ||
      decide (13 ≤ fld w 21 4) || fld w 3 1 == 1 || decide (5 ≤ fld w 4 3) || fld w 0 3 != 0 && decide (fld w 21 4 ≤ 7))) = true := by
  decide +kernel

-- O7 and O11: words for each clause on reserved fields
theorem witness_reserved :
    [0x21800000, 0x23800000, 0x25800000, 0x26800000, 0x27800000].all (fun w => (fld w 25 7 == 0x10 || fld w 25 7 == 0x11 || fld w 25 7 == 0x12) && fld w 23 2 == 3 ||
      fld w 25 7 == 0x13 && fld w 23 2 != 0) = true ∧
    [0x3B000000, 0x3B800000, 0x3C800000, 0x43800000, 0x36800000, 0x38004000, 0x381FC000, 0x36400000].all (fun w =>
      fld w 25 7 == 0x1D && decide (2 ≤ fld w 23 2) || (fld w 25 7 == 0x1E || fld w 25 7 == 0x21) && fld w 23 2 != 0 ||
      (fld w 25 7 == 0x1B || fld w 25 7 == 0x1C) && (fld w 23 2 != 0 || fld w 14 7 != 0 || fld w 22 1 != 0)) = true := by decide +kernel
-- LDA and STL: a width, a scope, a space; PRES: a width or scope, a space; types that are no pair, and pairs; SETA 0xF
theorem witness_O5_more :
    [0xC5000000, 0xC4A80000, 0xC6810000].all (fun w => (fld w 25 7 == 0x62 || fld w 25 7 == 0x63) &&
      (fld w 22 3 != 2 && fld w 22 3 != 3 || decide (5 ≤ fld w 19 3) || decide (4 ≤ fld w 14 4))) = true ∧
    [0xD2080000, 0xD2010000].all (fun w => fld w 25 7 == 0x69 && (fld w 19 6 != 0 || decide (4 ≤ fld w 14 4))) = true ∧
    [0xE2000200, 0xE2018200].all (fun w => fld w 25 7 == 0x71 && !(decide (fld w 8 3 ≤ 1) && decide (fld w 15 3 ≤ 1) || fld w 8 3 == fld w 15 3)) = true ∧
    (⟨1, none, none, 1, 0, false⟩ : Header).seta = none ∧
    ∀ lit, decodeWord 0xE20C90EA lit = .ok (.mma ⟨2, .e4m3, true, 3, .e5m2, some 1, true, 2⟩) :=
  ⟨by decide +kernel, by decide +kernel, by decide +kernel, rfl, fun lit => by cases lit <;> rfl⟩

/-! O6: a word, two words, the bytes of a fetch, a boundary, an issue turn and an event turn. -/

theorem witness_O6_word : let s := base 0x20008083
    let i := iss s
    s.turns = [] ∧ s.stopped = false ∧ focusTurn s = s ∧ issuer s = some i ∧ i.g.gpark = .none ∧ i.g.halt = .run ∧ meets i = false ∧
      keepsPlace s i = true ∧ i.cc.unseen = false ∧ selectEntry (pickable s i.core i.g) = none ∧
      (fetchWord (seeClause s i).1 i.core i.g.id.ctx i.e.pc).1 = .word 0x20008083 ∧
      decodeWord 0x20008083 (some 0) = .ok (.iadd .wrap ⟨false, false, 2, 1, 3⟩) ∧
      legalWord (seeClause s i).2 (.iadd .wrap ⟨false, false, 2, 1, 3⟩) = true := by decide +kernel

-- a clause of which a word is to be looked at again
theorem witness_O6_unseen : let s := onGroup (fun g => { g with active := g.active.map (fun e =>
      { e with clause := e.clause.map (fun cc => { cc with unseen := true }) }) }) (base 0x20008083)
    let i := iss s
    i.cc.unseen = true ∧ focusTurn s = s ∧ keepsPlace s i = true ∧
      (fetchWord (seeClause s i).1 i.core i.g.id.ctx i.e.pc).1 = .word 0x20008083 ∧
      legalWord (seeClause s i).2 (.iadd .wrap ⟨false, false, 2, 1, 3⟩) = true := by decide +kernel

theorem witness_O6_two : let s := State.reset.withFetchWord 64 (0x12345678 * 2 ^ 32 + 0xA4000003)
    let i := iss s
    issuer s = some i ∧ focusTurn s = s ∧ meets i = false ∧ keepsPlace s i = true ∧ seeClause s i = (s, i) ∧
      legalWord i (.movl 0x12345678 3) = true ∧
      (fetchWord s i.core i.g.id.ctx i.e.pc).1 = .word 0xA4000003 ∧
      decodeWord 0xA4000003 (some 0x12345678) = .ok (.movl 0x12345678 3) ∧
      (fetchWord (fetchWord s i.core i.g.id.ctx i.e.pc).2 i.core i.g.id.ctx (i.e.pc + 4)).1 = .word 0x12345678 := by decide +kernel

-- an entry that stands where the issuing one does
theorem witness_O6_meets : let s := withLanes 0xFFFFFFFF (base 0x20008083)
    let t := onGroup (fun g => { g with frontier := [{ (iss s).e with lanes := 0xFFFFFFFF00000000 }] }) s
    focusTurn t = t ∧ issuer t = some (iss t) ∧ meets (iss t) = true := by decide +kernel

-- the focus on a slot that its side has left, and on the access processor
theorem witness_O6_focus : let s := onCore (fun c => { c with side0 := some 0, groups := fset c.groups 5 placeGroup }) (running (base 0x20008083))
    let t := { s with focusSlot := 5 }
    let next := (sideTurn t t.focusCore false).or (sideSlot (getCore t t.focusCore) false)
    t.focusSlot < 64 ∧ next = some 0 ∧ (focusTurn t).focusSlot = 0 ∧ focusTurn (focusTurn t) = focusTurn t ∧
      focusTurn ({ s with focusSlot := 64 } : State) = { s with focusSlot := 64 } := by decide +kernel

theorem witness_O6_bytes : let s := base 0x20008083
    apertureAddr 0x10004 = false ∧ tlbLookup s 0 ⟨0, 0⟩ 0x10004 = some placeTlb ∧ rightsOk placeTlb rightsFetch = true ∧
      peerDown s (placeOf placeTlb 0x10004) = false ∧ poisonIn s (placeOf placeTlb 0x10004) 4 = none ∧
      fget (getCore s 0).code (locKey (placeOf placeTlb 0x10004)) = none ∧
      -- once it has been fetched, the core keeps it
      fget (getCore (fetchWord s 0 ⟨0, 0⟩ 0x10004).2 0).code (locKey (placeOf placeTlb 0x10004)) = some 0x20008083 := by decide +kernel

/-- The placed group at the header of its clause. -/
def atHeader (s : State) : State :=
  onGroup (fun g => { g with active := none, frontier := [{ placeEntry with pc := BitVec.ofNat 56 placeVa, clause := none }] }) s

theorem witness_O6_pick : let s := atHeader (base 0x20008083)
    ∃ g, s.turns = [] ∧ s.stopped = false ∧ focusTurn s = s ∧ getGroup s s.focusCore s.focusSlot = some g ∧ g.gpark = .none ∧
      g.halt = .run ∧ g.active = none :=
  ⟨_, by decide +kernel, by decide +kernel, by decide +kernel, rfl, by decide +kernel, by decide +kernel, by decide +kernel⟩

-- a slot that may issue, and one that may not: the other side's slot is not its own
theorem witness_O6_issue : let s := atHeader (running (base 0x20008083))
    mayIssue s 0 0 = true ∧ ((getGroup s 0 0).map (·.active)) = some none ∧
      mayIssue (onCore (fun c => { c with side0 := some 5, groups := fset c.groups 5 placeGroup }) (base 0x20008083)) 0 0 = false := by
  decide +kernel

theorem witness_O6_turns : ({ State.reset with turns := [.issue 0 0, .event (.localityInterval 0)] } : State).turns ≠ [] ∧
    (Instr.localityInterval 0).isCode = false := by decide +kernel

/-! O7 to O15, O17 to O19, O21: names ready, under a full mask and a partial one, with the last name that exists. -/

theorem witness_names : Fits st0 [2, 1, 3] [2, 1] [3] ∧ Fits (withLanes 0x8000000000000001 st0) [1, 2, 3, 3] [1, 2, 3] [3] := by decide +kernel

theorem witness_last_name : Fits (eachLane (fun x => { x with wb := 896 }) (base 0)) [0, 127] [0] [127] := by decide +kernel

theorem witness_ap : Ready (asAp st0) (iss (asAp st0)) [1, 2, 3] [1, 2] [3] ∧ HasRoom (asAp st0) (iss (asAp st0)) [3] ∧
    ApUniform (iss (asAp st0)) [1, 2] := by decide +kernel

theorem witness_no_sources : Fits st0 [5] [] [5] ∧ Fits st0 [1, 2, 4, 5] [1, 2, 4] [5] ∧ Fits st0 [1] [1] [] ∧ Fits st0 [] [] [] := by decide +kernel

-- O12: no exception is enabled as a trap
theorem witness_O12 : (List.range 64).all (fun l => trapEnables (laneSt (iss st0).g l).fmode == 0) = true := by decide +kernel

/-- An overflow, with every exception enabled as a trap. -/
def trapping : State := eachLane (fun x => { x with fmode := 0x3E0 }) (named [(1, 0x7F7FFFFF), (2, 0x7F7FFFFF)] (base 0x64008083))

theorem witness_O16 : Ready trapping (iss trapping) [2, 1, 3] [2, 1] [3] ∧ isAp (iss trapping).g = false ∧
    (opMul .f32 (laneMode (iss trapping) 0) 0x7F7FFFFF 0x7F7FFFFF).2 &&& trapEnables (laneSt (iss trapping).g 0).fmode ≠ 0 := by decide +kernel

-- O18: a partner that has exited, and one that is active
theorem witness_O18 : let s := onGroup (fun g => { g with live := 0xFFFFFFFFFFFFFFFD }) (withLanes 0xFFFFFFFFFFFFFFFD st0)
    Fits s [1, 2, 3] [1, 2] [3] ∧ hasLane (iss s).g.live 1 = false ∧ hasLane (iss s).e.lanes 3 = true := by decide +kernel

theorem witness_O20 : Fits st0 [1, 5, 6] [1] [5, 6] ∧ fieldWord (iss st0).g 0 1 ≠ 0 := by decide +kernel

theorem witness_O22 : Fits (handled st0) [5] [] [5] ∧ Fits st0 [5] [] [5] ∧ isPriv .tword = true ∧ isPriv .laneid = false := by decide +kernel

theorem witness_O23 : Ready st0 (iss st0) [5] [] [5] ∧ (iss st0).g.handler = none := by decide +kernel

/-! O25 to O30 -/

/-- A jump target, in the program's address space and at its top; and two that trap. -/
def jumper (lo hi : Word) : State := named [(1, lo), (2, hi)] (base 0)

theorem witness_O25 : (∀ s ∈ [jumper 0x10000 0, jumper 0xFFFFFFFC 0xFFFFFF, jumper 0 0x1000000, jumper 0xFFFFFFFE 0xFFFFFF],
      Ready s (iss s) [1, 2] [1, 2] []) ∧
    (fieldPair (iss (jumper 0xFFFFFFFC 0xFFFFFF)).g 0 1).toNat < 2 ^ 56 ∧ 2 ^ 56 ≤ (fieldPair (iss (jumper 0 0x1000000)).g 0 1).toNat ∧
    (fieldPair (iss (jumper 0xFFFFFFFE 0xFFFFFF)).g 0 1).toNat % 4 ≠ 0 := by decide +kernel

-- a window that ends at 1016, and one past it
theorem witness_O26_call : let s := eachLane (fun x => { x with wb := 984 }) (base 0)
    let i := iss s
    let j : Iss := { i with g := mapLanes i.g i.e.lanes (fun _ x => { x with wb := 1016 }) }
    Ready s i [] [] [] ∧ i.g.handler = none ∧ isAp i.g = false ∧ interlocked s j [0, 1, 2] = false ∧ toFill j [] [0, 1, 2] = [] ∧
      HasRoom s j [0, 1, 2] ∧ 984 + 8 * (4 : BitVec 5).toNat ≤ 1016 ∧ 1016 < 984 + 8 * (5 : BitVec 5).toNat := by decide +kernel

theorem witness_O26_ret : let s := named [(0, 0x10010), (1, 0xFFFFFF), (2, 1016)] (base 0)
    Ready s (iss s) [0, 1, 2] [0, 1, 2] [] ∧ (iss s).g.handler = none ∧ ∀ l < 64, (fieldWord (iss s).g l 1).toNat < 2 ^ 24 ∧
      (fieldWord (iss s).g l 0).toNat % 4 = 0 ∧ (fieldWord (iss s).g l 2).toNat % 8 = 0 ∧ (fieldWord (iss s).g l 2).toNat ≤ 1016 := by
  decide +kernel

theorem witness_O27 : Fits st0 [5, 6] [] [5, 6] ∧ Ready st0 (iss st0) [] [] [] ∧ (iss st0).g.handler = none ∧ (iss st0).g.frontier = [] := by
  decide +kernel

theorem witness_O28_bar : Ready (withBlock st0) (iss (withBlock st0)) [] [] [] ∧ (iss (withBlock st0)).g.handler = none ∧
    isAp (iss (withBlock st0)).g = false ∧ Quiet (withBlock st0) 0 :=
  ⟨by decide +kernel, by decide +kernel, by decide +kernel, quiet_of_check (by decide +kernel)⟩

theorem witness_O28_exit : let s := withBlock st0
    Ready s (iss s) [] [] [] ∧ (iss s).g.kind = .compute ∧ (getCore s 0).boxes = [] ∧ (getBlock s 0 0).map (·.books) = some [] := by decide +kernel

theorem witness_O29 : let s := onTenant (fun t => { t with trap := some trapDesc }) st0
    Issues s (iss s) ∧ isAp (iss s).g = false ∧ (iss s).g.handler = none ∧ (getTenant s ⟨0, 0⟩).trap = some trapDesc ∧
      trapDesc.tenable.getLsbD causeFpx = true ∧ (getCore s 0).trapOwner = none := by decide +kernel

theorem witness_O30 : let s := handled (named [(1, 0x10000), (2, 0)] (base 0))
    let u := handled (named [(1, 0x10002), (2, 0)] (base 0))
    Ready s (iss s) [17, 18] [17, 18] [] ∧ Ready s (iss s) [] [] [] ∧ (iss s).g.handler = some ⟨allLanes, 0, false, [], []⟩ ∧
      (iss s).g.kind = .compute ∧ (getCore s 0).boxes = [] ∧ getBlock s 0 0 = none ∧
      Ready u (iss u) [17, 18] [17, 18] [] ∧ (fieldPair (iss u).g 0 17).toNat % 4 ≠ 0 := by decide +kernel
-- O13: operands of each kind, a sum and a product that are invalid, and one of each sign
theorem witness_O13 : fmtSpecials .f32 = true ∧ isNanBits .f32 0x7FC00000 = true ∧ isSnanBits .f32 0x7F800001 = true ∧ isSnanBits .f32 0x7FC00000 = false ∧
    isNanBits .e4m3 0x7F = true ∧ isNanBits .e2m1 7 = false ∧ isInfBits .f32 0xFF800000 = true ∧ isInfBits .e4m3 0x78 = false ∧
    zeroByInf .f32 ⟨.rne, false, false, false⟩ 0 0x7F800000 = true ∧ [0x3F800000, 0x80000000].any (isNanBits .f32) = false ∧ signOf .f32 0x80000000 = true ∧
    orderKey .f32 false false 0x3F800000 < orderKey .f32 false false 0x40000000 := by decide +kernel

/-- Two lanes, whose sum overflows where every exception is enabled as a trap. -/
def summing : State := withLanes 3 (eachLane (fun x => { x with fmode := 0x3E0 }) (named [(1, 0x7F7FFFFF), (2, 0xBF800000)] (base 0)))

-- O16: an operation of each family traps: the packed halves by an overflow of one, the rest as said
theorem witness_O16_more : let i := iss summing
    let m := laneMode i 0
    let hit := fun (f : FFlags) => f &&& trapEnables (laneSt i.g 0).fmode ≠ 0
    Fits summing [1, 2, 3] [1, 2] [3] ∧ Fits summing [1, 3] [1] [3] ∧ Fits summing [1, 2, 3, 3] [1, 2, 3] [3] ∧
      hit (opAdd .f32 m 0x7F7FFFFF 0x7F7FFFFF).2 ∧ hit (opFcmp m .lt 0x7FC00000 0).2 ∧ hit (opMinMax .f32 m true false 0x7F800001 0).2 ∧
      hit (opTrans .log2 m 0xBF800000).2 ∧ hit (opConvert m .f32 .e4m3 0x7F7FFFFF).2 ∧ hit (opI2f m false 0x7FFFFFFF).2 ∧
      hit (opF2i m true false 0x7F7FFFFF).2 ∧ hit (opAdd .f16 m 0x7BFF 0x7BFF).2 ∧
      (let xs := (List.range 64).map (fun l => if hasLane i.e.lanes l then some (fieldWord i.g l 1, flagNone) else none)
       hit (treeReduce .fadd (laneMode i (lowLane i.e.lanes)) xs).2 ∧
       ((([1, 2, 4, 8, 16, 32].foldl (scanStep .fadd (laneMode i)) xs).getD 1 none).getD (0, flagNone)).2 &&& trapEnables (laneSt i.g 1).fmode ≠ 0) := by
  decide +kernel

-- O18: lane 1 helps, with a copy that the clause has written
theorem witness_O18_helper : let s := onGroup (fun g => { g with active := g.active.map (fun e => { e with clause := e.clause.map (fun c =>
      { c with swz := true, lastQ := e.pc, hvals := [(1, [(1, 77)])] }) }) }) (withLanes 0x11 st0)
    let i := iss s
    Fits s [1, 3] [1] [3] ∧ hasLane (helperLanes i) 1 = true ∧ hasLane i.e.lanes 1 = false ∧ laneWord i 1 1 = 77 ∧ laneWord i 2 1 = 7 := by decide +kernel

/-! Memory -/

/-- Page tables that map the first GiB of the context to itself, in both stages, and the second to host memory (R297, R298). -/
def mapped (s : State) : State :=
  let m := [(0x100000, 0x101003), (0x101000, 0x102003), (0x102000, 0x1D), (0x103000, 0x104003), (0x104000, 0x105003), (0x105000, 0x1D),
      (0x102008, 0x040000000000001D), (0x105008, 0x4000001D)].foldl
    (fun (m : Memory) (p : Nat × Nat) => memWrite m p.1 (leBytes 8 p.2)) s.mem
  onTenant (fun t => { t with s1root := 0x103000 }) (onWing (fun k => { k with s2root := 0x100000, whq := 1, wchan := BitVec.allOnes 256 }) { s with mem := m })

/-- One lane, a flat address in `v1` and `v2`, an offset in `v4`, and the block of the group. -/
def memSt : State := withLanes 1 (withBlock (named [(1, 0x10020), (2, 0), (3, 9), (4, 32), (5, 0)] (base 0)))

theorem quiet_memSt : Quiet memSt 0 := quiet_of_check (by decide +kernel)

/-- Every lane's access passes, where one lane is active. -/
theorem passes_of_low {s : State} {i : Iss} {k : AccKind} {spc : Space} {a n : Nat} {p : PLoc} (h : i.e.lanes = 1)
    (hc : checkLane s i.core i.g 0 k spc (addrVal i spc 0 a) n = (.ok p, s)) : Passes s i k spc a n (fun _ => p) := by
  intro l hl hm
  have : l = 0 := by
    rw [h] at hm
    exact (by decide : ∀ l < 64, hasLane 1 l = true → l = 0) l hl hm
  rw [this]; exact hc

theorem witness_O31_ld : Fits memSt [4, 6] [4] [6] ∧ Fits memSt [1, 2, 6] [1, 2] [6] ∧ Quiet memSt 0 ∧
    Passes memSt (iss memSt) (kindLoad .loc) .loc 4 4 (fun _ => ⟨.scr 0 0, 32⟩) ∧
    Passes memSt (iss memSt) (kindLoad .flat) .flat 1 4 (fun _ => ⟨.dev, 0x20⟩) :=
  ⟨by decide +kernel, by decide +kernel, quiet_memSt, passes_of_low (by decide +kernel) (by decide +kernel),
    passes_of_low (by decide +kernel) (by decide +kernel)⟩

/-- Access-processor code with one entry of its queue 0 free. -/
def apSt : State := onCore (fun c => { c with apq := some ⟨⟨0, 0⟩, 0, 0, [], [(0, 31)]⟩ }) (asAp memSt)

theorem witness_O31_queue : isAp (iss apSt).g = true ∧ Ready apSt (iss apSt) [1, 2] [1, 2] [] ∧ HasRoom apSt (iss apSt) [] ∧ Quiet apSt 0 ∧
    Passes apSt (iss apSt) (kindLoad .flat) .flat 1 4 (fun _ => ⟨.dev, 0x20⟩) :=
  ⟨by decide +kernel, by decide +kernel, by decide +kernel, quiet_of_check (by decide +kernel),
    passes_of_low (by decide +kernel) (by decide +kernel)⟩

theorem witness_O31_lda : Fits memSt [1, 2, 6, 7] [1, 2] [6, 7] ∧ memSt.lastRel = [] ∧
    Passes memSt (iss memSt) (kindAcq .flat) .flat 1 8 (fun _ => ⟨.dev, 0x20⟩) :=
  ⟨by decide +kernel, by decide +kernel, passes_of_low (by decide +kernel) (by decide +kernel)⟩

theorem witness_O32 : Fits memSt [4, 3] [4, 3] [] ∧ Fits memSt [1, 2, 3] [1, 2, 3] [] ∧
    Passes memSt (iss memSt) (kindStore .loc) .loc 4 4 (fun _ => ⟨.scr 0 0, 32⟩) ∧
    Passes memSt (iss memSt) (kindRel .flat) .flat 1 4 (fun _ => ⟨.dev, 0x20⟩) :=
  ⟨by decide +kernel, by decide +kernel, passes_of_low (by decide +kernel) (by decide +kernel),
    passes_of_low (by decide +kernel) (by decide +kernel)⟩

/-- The aperture's address of scratchpad offset 64 in `v1` and `v2`. -/
def scrSt : State := withLanes 1 (withBlock (named [(1, 0xFF000040), (2, 0xFFFFFF), (3, 9), (5, 0)] (base 0)))

theorem witness_O33 : Fits memSt [1, 2, 3, 6, 6] [1, 2, 3, 6] [6] ∧ Fits memSt [1, 2, 3, 4, 6, 7] [1, 2, 3, 4] [6, 7] ∧
    Fits memSt [1, 2, 3] [1, 2, 3] [] ∧ Fits scrSt [1, 2, 3] [1, 2, 3] [] ∧ Quiet scrSt 0 ∧ (getBlock scrSt 0 0).isSome = true ∧
    Passes memSt (iss memSt) (kindAtom .cas) .flat 1 8 (fun _ => ⟨.dev, 0x20⟩) ∧
    Passes memSt (iss memSt) (kindRed .add) .flat 1 4 (fun _ => ⟨.dev, 0x20⟩) ∧
    Passes scrSt (iss scrSt) (kindRed .add) .flat 1 4 (fun _ => ⟨.scr 0 0, 64⟩) ∧ hasLane (iss memSt).e.lanes 0 = true :=
  ⟨by decide +kernel, by decide +kernel, by decide +kernel, by decide +kernel, quiet_of_check (by decide +kernel), by decide +kernel,
    passes_of_low (by decide +kernel) (by decide +kernel), passes_of_low (by decide +kernel) (by decide +kernel),
    passes_of_low (by decide +kernel) (by decide +kernel), by decide +kernel⟩

-- O34: a range of 2^24 bytes, and one byte more
theorem witness_O34_fence : let s := named [(1, 0), (2, 0), (3, 0x1000000)] (base 0)
    let u := named [(1, 0), (2, 0), (3, 0x1000001)] (base 0)
    Ready s (iss s) [] [] [] ∧ Ready s (iss s) [1, 2, 3] [1, 2, 3] [] ∧ Quiet s 0 ∧ (fieldWord (iss s).g 63 3).toNat ≤ 2 ^ 24 ∧
      Ready u (iss u) [1, 2, 3] [1, 2, 3] [] ∧ 2 ^ 24 < (fieldWord (iss u).g 63 3).toNat :=
  ⟨by decide +kernel, by decide +kernel, quiet_of_check (by decide +kernel), by decide +kernel, by decide +kernel, by decide +kernel⟩

def someLaunch : Launch :=
  { launchId := 0, desc := 0, queue := 0, pri := 0, kentry := 0x10000, ap := some 0x20000, cloak := 0, cloakN := 0, cloakUsed := [], gangs := 1,
    groups := 16, blocks := 1, minRegs := 8, scratch := 131072, args := [], sets := 0, nextGang := 1, resident := 1, apOn := [], aborted := false }

/-- The group's launch has an access processor, whose queue 3 has so many entries. -/
def queueSt (n : Nat) : State :=
  onCore (fun c => { c with apq := some ⟨⟨0, 0⟩, 0, 0, [], sset 0 [] 3 n⟩ })
    (setBlock (onTenant (fun t => { t with launches := [(0, someLaunch)] }) (base 0)) 0 0
      { theBlock with scratch := 131072, apUsed := true })

theorem witness_O34_pop : let s := queueSt 1
    let i := iss s
    Fits s [5] [] [5] ∧ launchHasAp s i.g = true ∧ queueFor s 0 i.g = some ⟨⟨0, 0⟩, 0, 0, [], [(3, 1)]⟩ ∧
      headEntry s 0 ⟨⟨0, 0⟩, 0, 0, [], [(3, 1)]⟩ 3 = some ⟨.scr 0 0, 65536 + 8192 * 3⟩ ∧ poisonIn s ⟨.scr 0 0, 65536 + 8192 * 3⟩ 256 = none := by
  decide +kernel

theorem witness_O34_empty : let s := queueSt 0
    Fits s [5] [] [5] ∧ launchHasAp s (iss s).g = true ∧ queueFor s 0 (iss s).g = some ⟨⟨0, 0⟩, 0, 0, [], []⟩ ∧
      headEntry s 0 ⟨⟨0, 0⟩, 0, 0, [], []⟩ 3 = none := by decide +kernel

theorem witness_O34_pres : Fits memSt [4, 6] [4] [6] ∧ targetOf memSt 0 (iss memSt).g .loc 32 1 = .scr ⟨.scr 0 0, 32⟩ false := by decide +kernel
-- an address of SPC 3 in the aperture, and one in no block that traps
theorem witness_O34_pres_host : (let s := named [(1, 0xFF000040), (2, 0xFFFFFF)] memSt
      Fits s [1, 2, 6] [1, 2] [6] ∧ addrVal (iss s) .host 0 1 < 2 ^ 56 ∧ apertureAddr (addrVal (iss s) .host 0 1) = true) ∧
    (let s := named [(4, 0x10000)] memSt
     Ready s (iss s) [4, 6] [4] [6] ∧ targetOf s 0 (iss s).g .loc (addrVal (iss s) .loc 0 4) 1 = .perm) := by decide +kernel

/-! O53: the checks of an access: one witness for each of its traps. -/

/-- The only lane's outcome of all checks. -/
theorem checks_of_low {s : State} {i : Iss} {k : AccKind} {spc : Space} {a n : Nat} {r : LaneChk} (h : i.e.lanes = 1) (hr : usesGone r = false)
    (hc : checkLane s i.core i.g 0 k spc (addrVal i spc 0 a) n = (r, s)) : Checks s i k spc a n (fun _ => r) := by
  intro l hl hm
  have : l = 0 := by
    rw [h] at hm
    exact (by decide : ∀ l < 64, hasLane 1 l = true → l = 0) l hl hm
  rw [this]; exact ⟨hc, hr⟩

-- a load beyond the scratchpad, an acquire off its width, an atomic off its width, a reduction whose page may not be written
def readOnly (s : State) : State := onCore (fun c => { c with tlb := c.tlb.map (fun e => { e with w := false }) }) s

theorem witness_O53_traps : (let s := named [(4, 0x10000)] memSt
      Ready s (iss s) [4, 6] [4] [6] ∧ isAp (iss s).g = false ∧ Checks s (iss s) (kindLoad .loc) .loc 4 4 (fun _ => .trap causePerm 0x10000 0)) ∧
    (let s := named [(1, 0x10021)] memSt
     Ready s (iss s) [1, 2, 6] [1, 2] [6] ∧ Checks s (iss s) (kindAcq .flat) .flat 1 4 (fun _ => .trap causeMisalign 0x10021 0) ∧
       Ready s (iss s) [1, 2, 3, 6] [1, 2, 3] [6] ∧ Checks s (iss s) (kindAtom .add) .flat 1 4 (fun _ => .trap causeMisalign 0x10021 0)) ∧
    (let s := readOnly memSt
     Ready s (iss s) [1, 2, 3] [1, 2, 3] [] ∧ Checks s (iss s) (kindRed .add) .flat 1 4 (fun _ => .trap causePerm 0x10020 0)) :=
  ⟨⟨by decide +kernel, by decide +kernel, checks_of_low (by decide +kernel) (by decide +kernel) (by decide +kernel)⟩,
    ⟨by decide +kernel, checks_of_low (by decide +kernel) (by decide +kernel) (by decide +kernel), by decide +kernel,
      checks_of_low (by decide +kernel) (by decide +kernel) (by decide +kernel)⟩,
    by decide +kernel, checks_of_low (by decide +kernel) (by decide +kernel) (by decide +kernel)⟩

-- a walk that fails: a root of 0, and an entry that is not valid, which the host may mend
theorem witness_O53_faults : (let s := named [(1, 0x20000)] memSt
      isAp (iss s).g = false ∧ (iss s).e.lanes = laneBit 0 ∧ Ready s (iss s) [1, 2, 6] [1, 2] [6] ∧
        (checkLane s 0 (iss s).g 0 (kindLoad .flat) .flat 0x20000 4).1 = .fault ⟨false, false, false⟩ 0x20000) ∧
    (let s := onWing (fun k => { k with fqlog := 5, whq := 1 }) (mapped (named [(1, 0), (2, 0x1000)] memSt))
     let q := checkLane s 0 (iss s).g 0 (kindLoad .flat) .flat (2 ^ 44) 4
     Ready s (iss s) [1, 2, 6] [1, 2] [6] ∧ q.1 = .fault ⟨true, false, false⟩ (2 ^ 44) ∧
       (addRecord q.2 0 (xlRecord (groupRecord 0x10 0 0 (iss s).g 0 (2 ^ 44) 0) ⟨true, false, false⟩)).1.isSome = true ∧
       tlbLookup s 0 ⟨0, 0⟩ (2 ^ 44) = none ∧ (walk s ⟨0, 0⟩ (2 ^ 44)).isOk = false ∧
       2 ^ 44 % 2 ^ failSpan (walkTouch s ⟨0, 0⟩ (2 ^ 44)) ⟨0, 0⟩ (2 ^ 44) + 4 ≤ 2 ^ failSpan (walkTouch s ⟨0, 0⟩ (2 ^ 44)) ⟨0, 0⟩ (2 ^ 44)) := by
  decide +kernel

-- addresses that break each rule, at the edges of their fields; the last byte of the page, and one beyond
theorem witness_O53_addresses : let g := (iss memSt).g
    (kindAcq .flat).aligned = true ∧ (kindLoad .loc).aligned = false ∧ 0x1FFFD + 4 > 0x20000 ∧ tlbLookup memSt 0 ⟨0, 0⟩ 0x1FFFD = some placeTlb ∧
      apertureAddr (2 ^ 56 - 1) = true ∧ apertureAddr (2 ^ 56 - 2 ^ 24) = true ∧ apertureAddr (2 ^ 56 - 2 ^ 24 - 1) = false ∧
      (2 ^ 56 - 2 ^ 24 + 2 ^ 19) / 2 ^ 23 % 2 = 0 ∧ (2 ^ 56 - 2 ^ 24 + 2 ^ 19) / 2 ^ 19 % 16 ≠ 0 ∧ (2 ^ 56 - 1) / 2 ^ 23 % 2 ≠ 0 ∧
      (2 ^ 56 - 1) / 2 ^ 21 % 4 ≠ 0 ∧ (getBlock memSt 0 g.id.blockKey).map openScratch = some 65536 ∧ gangBlocks memSt g ≤ 2 ^ 21 / 2 ^ 19 ∧
      (kindStore .cluster).store = true ∧ (kindLoad .host).host = true ∧ (kindStore .flat).lazy = true ∧ (kindAtom .fadd).hostOk = false ∧
      (kindLoad .flat).lazy = false ∧ rightsOk placeTlb (kindAtom .add).rights = true ∧ (placeOf placeTlb 0x10020).tgt = .dev ∧
      peerDown memSt (placeOf placeTlb 0x10020) = false := by decide +kernel

-- a place that the vitrine bars, one that is absent, one that is watched, one that is poisoned, and one that is open
theorem witness_O53_places : let g := (iss memSt).g
    let p : PLoc := ⟨.scr 0 0, 32⟩
    let bars := onCluster (fun n => { n with vit := [⟨⟨0, 0⟩, 1, false, ⟨.scr 0 0, 32⟩, 0, 64⟩] }) memSt
    let away := setBlock memSt 0 0 { theBlock with absent := [(0, 1)] }
    let bad := setBlock memSt 0 0 { theBlock with poison := [0] }
    let sees := onTenant (fun t => { t with trap := some { trapDesc with wpen := 2, wp := [(0, 0, false, false), (Config.apertureBase + 34, 4, true, true)] } }) memSt
    let go := fun (s : State) (k : AccKind) => placeChecks s 0 g 0 k (some p) 32 (Config.apertureBase + 32) 4
    go bars (kindStore .loc) = .trap causeVitrine 32 0 ∧ go bars (kindLoad .loc) = .ok p ∧ go away (kindStore .loc) = .trap causeVitrine 32 0 ∧
      (match go away (kindLoad .loc) with | .absent _ => true | _ => false) = true ∧
      go sees (kindLoad .loc) = .trap causeWatch (Config.apertureBase + 34) 1 ∧
      go bad (kindLoad .loc) = .trap causeMemerr (Config.apertureBase + 32) 0 ∧ go memSt (kindLoad .loc) = .ok p := by decide +kernel

/-! O35: a returned load, a store at the head of the buffer, a newer sector, a combined reduction, an absent line, a fill. -/

def someLoad : LoadOp :=
  ⟨3, ⟨0, 0⟩, 0, 0, some 0, .names false false, [⟨0, [6], 0x10020, ⟨.dev, 0x20⟩, 4, some [1, 2, 3, 4]⟩], 1, false, 0, false⟩

theorem witness_O35_load : let s := onCore (fun c => { c with loads := [someLoad] }) memSt
    (getCore s 0).loads[0]? = some someLoad ∧ (∀ p ∈ someLoad.parts, p.val.isSome = true ∧ p.lane < 64 ∧ p.dests.Nodup ∧ ∀ n ∈ p.dests, n < 1024) ∧
      (groupOfAge s 0 0 0).isSome = true ∧ (someLoad.parts.map (·.lane)).Nodup := by decide +kernel

/-- The full-mask, uniform form. -/
theorem witness_O35_uniform : let o := { someLoad with dest := .names true true }
    let s := onCore (fun c => { c with loads := [o] }) memSt
    (getCore s 0).loads[0]? = some o ∧ (groupOfAge s 0 0 0).isSome = true ∧ ∀ p ∈ o.parts, p.val = some [1, 2, 3, 4] ∧ p.dests = [6] := by
  decide +kernel

def someStore (p : PLoc) : SbEntry :=
  { seq := 1, opNo := 0, ctx := ⟨0, 0⟩, slot := 0, age := 0, lane := 0, va := 0x10020, xl := .done p, bytes := [1, 2, 3, 4], op := .store,
    rel := none, flag := some 1, snoop := false, ep := 0, lu := false, frec := FaultRec.blank 0x11 0 0, win := false, launch := 0 }

theorem witness_O35_drain : (∀ p ∈ [(⟨.dev, 0x20⟩ : PLoc), ⟨.scr 0 0, 32⟩],
      let s := onCore (fun c => { c with sb := [someStore p] }) memSt
      (getCore s 0).sb = [someStore p] ∧ (getCore s 0).loads = [] ∧ s.peerOut = [] ∧ (getBlock s 0 0).isSome = true ∧
        l2Slice s ⟨0, 0⟩ 0 0 = none ∧ s.clusters.all (fun k => k.2.l2.all (fun p => p.2.dirty == 0)) = true) ∧
    ∀ n, ∀ x ∈ (getCluster memSt n).l2, x.2.dirty = 0 := ⟨by decide +kernel, clean_of_listed (by decide +kernel)⟩

def someSector : Sector := ⟨⟨0, 0⟩, List.replicate 32 7, BitVec.allOnes 32, 0x80000001, 0, [], 0, false⟩

theorem witness_O35_sector : let s := onCluster (fun n => { n with l2 := [(l2Key ⟨0, 0⟩ 5, someSector)] }) memSt
    fget (getCluster s 0).l2 (l2Key ⟨0, 0⟩ 5) = some someSector ∧ someSector.dirty ≠ 0 ∧ someSector.bytes.length = 32 ∧
      ∀ p ∈ (getCluster s 0).l2, p.1 / 256 = 5 → p.1 = l2Key ⟨0, 0⟩ 5 := by decide +kernel

-- 1,024 cycles old, and one cycle less
theorem witness_O35_combine : let e : CombEntry := ⟨⟨0, 0⟩, 0, 64, .add, false, false, false, [(7, 5)], 0⟩
    let s := onCore (fun c => { c with comb := [e] }) { memSt with clock := 1024 }
    let u := onCore (fun c => { c with comb := [e] }) { memSt with clock := 1023 }
    (getCore s 0).comb = [e] ∧ (getCore s 0).sb = [] ∧ e.born + 1024 ≤ s.clock ∧ (getCore u 0).comb = [e] ∧ u.clock < e.born + 1024 := by
  decide +kernel

theorem witness_O35_line : let s := setBlock memSt 0 0 { theBlock with absent := [(3, 1)] }
    (getBlock s 0 0).map (fun b => sget 0 b.absent 3) = some 1 := by decide +kernel

theorem witness_O35_fill : let s := mapped (onGroup (fun g => { setName g 9 ⟨.uniform 0, true, 0⟩ with gpark := .fill [9], active := none }) (base 0))
    (getGroup s 0 0).map (fun g => g.gpark == .fill [9]) = some true ∧ fillPoison s 0 0 9 = none ∧
      (devRead s ⟨0, 0⟩ (0x1000 + 256 * 9) 4) = .ok [0, 0, 0, 0] ∧
      (match getGroup s 0 0 with
        | some g => payloadLen (getName g 9).val == 4 && (putMaps s (setName g 9 ⟨.uniform 0, false, 0⟩) 9 true).isOk
        | none => false) = true ∧
      (usedSlots (getCore s 0) ⟨0, 0⟩).1 + 2 ≤ (poolRoom (splitWing s 0)).1 ∧
      (usedSlots (getCore s 0) ⟨0, 0⟩).2 + 1 ≤ (poolRoom (splitWing s 0)).2 := by decide +kernel

/-! Engines and messages -/

/-- A descriptor in scratchpad: one row of 32 bytes from 0x1000 to 0x2000, no barrier word. -/
def descBytes : List Byte :=
  leBytes 8 (Config.apertureBase + 0x1000) ++ leBytes 8 (Config.apertureBase + 0x2000) ++ leBytes 4 32 ++ leBytes 4 1 ++ zeroBytes 8 ++
    leBytes 4 0xFFFFFFFF ++ zeroBytes 12

def engSt : State :=
  onWing (fun k => { k with wcopy := 1, wclu := 1 })
    (setBlock (named [(4, 256), (1, 0x20000), (2, 0), (3, 0), (5, 0x1000), (6, 64), (0, 0)] (base 0)) 0 0
      { theBlock with mem := memWrite [] 256 descBytes })

theorem witness_O36_copy : let s := engSt
    let i := iss s
    let bs := loadBytes s 0 ⟨0, 0⟩ ⟨.scr 0 0, 256⟩ 256 48 false
    let d := copyDesc bs
    let so := engOperand s 0 i.g d.saddr (srcSpan d) false
    let dd := engOperand s 0 i.g d.daddr (dstSpan d) true
    ReadyLow s i [4] ∧ HasRoom s i [] ∧ (lowWord i 4).toNat = 256 ∧ scrTarget s 0 i.g.id.blockKey 256 48 false = .scr ⟨.scr 0 0, 256⟩ false ∧
      placeChecks s 0 i.g 0 (kindLoad .loc) (some ⟨.scr 0 0, 256⟩) 256 (watchAddr .loc 256) 48 = .ok ⟨.scr 0 0, 256⟩ ∧
      copyFields d (fieldAt bs 0x24 4) = true ∧ operandsMeet so dd d.saddr (srcSpan d) d.daddr (dstSpan d) = false ∧
      d.cvt = 0 ∧ d.scaled = false ∧ so ≠ .bad ∧ dd ≠ .bad ∧ so ≠ .wait ∧ d.bar = none ∧ ownsCopy s 0 0 = true ∧ vitRoom s 0 3 = true := by
  decide +kernel

theorem witness_O36_queue : let s := asAp (onCore (fun c => { c with apq := some ⟨⟨0, 0⟩, 0, 0, [], [(2, 31)]⟩ }) engSt)
    let i := iss s
    let bs := loadBytes s 0 ⟨0, 0⟩ ⟨.scr 0 0, 256⟩ 256 48 false
    let d := { copyDesc bs with saddr := 0x20000 }
    ReadyLow s i [4] ∧ HasRoom s i [] ∧ isAp i.g = true ∧ scrTarget s 0 0 256 48 false = .scr ⟨.scr 0 0, 256⟩ false ∧
      placeChecks s 0 i.g 0 (kindLoad .loc) (some ⟨.scr 0 0, 256⟩) 256 (watchAddr .loc 256) 48 = .ok ⟨.scr 0 0, 256⟩ ∧
      copyFields d (fieldAt bs 0x24 4) = true ∧ dstTotal d ≤ 8192 ∧ engOperand s 0 i.g d.saddr (srcSpan d) false ≠ .bad ∧
      engOperand s 0 i.g d.saddr (srcSpan d) false ≠ .wait ∧ ownsCopy s 0 0 = true ∧ vitRoom s 0 3 = true ∧ 31 + (dstTotal d + 255) / 256 ≤ Config.queueEntries := by decide +kernel

theorem witness_O36_tld : let s := named [(5, 0x1000), (6, 64)] engSt
    let i := iss s
    let so := engOperand s 0 i.g 0x20000 (63 * 64 + 64) false
    let d := engLocal s 0 i.g 0x1000 4096
    ReadyLow s i [1, 2, 5, 6] ∧ i.g.handler = none ∧ operandsMeet so d 0x20000 (63 * 64 + 64) (Config.apertureBase + 0x1000) 4096 = false ∧
      so ≠ .bad ∧ so ≠ .wait ∧ d ≠ .bad ∧ ownsCopy s 0 0 = true ∧ vitRoom s 0 2 = true := by decide +kernel

/-- Tile `a2` names the physical tile 7. -/
def tileSt : State :=
  onCluster (fun n => { n with tiles := [(7, ⟨⟨0, 0⟩, []⟩)] }) (onGroup (fun g => { g with tiles := [(2, 7)] }) engSt)

theorem seat_free : SeatFree tileSt 0 := by unfold SeatFree; decide +kernel

theorem witness_O36_tst : let s := named [(3, 64)] tileSt
    let i := iss s
    ReadyLow s i [1, 2, 3] ∧ HasRoom s i [] ∧ i.g.handler = none ∧ fget i.g.tiles 2 = some 7 ∧ SeatFree s 0 ∧ tstRow .e4m3 ≤ 64 ∧
      engOperand s 0 i.g 0x20000 (63 * 64 + tstRow .e4m3) true ≠ .bad ∧ vitRoom s 0 1 = true :=
  ⟨by decide +kernel, by decide +kernel, by decide +kernel, by decide +kernel, by unfold SeatFree; decide +kernel, by decide +kernel,
    by decide +kernel, by decide +kernel⟩

theorem witness_O36_gate : let s := named [(4, 0x4000), (5, 0x8000)] tileSt
    let i := iss s
    ReadyLow s i [4, 5] ∧ HasRoom s i [] ∧ i.g.handler = none ∧ fget i.g.tiles 2 = some 7 ∧ vitRoom s 0 3 = true ∧
      engLocal s 0 i.g 0x4000 (256 * gateWidth (.lstm 5)) = .scr ⟨.scr 0 0, 0x4000⟩ ∧
      engLocal s 0 i.g 0x8000 (256 * gateWidth (.lstm 5)) ≠ .bad ∧
      rangesMeet 0x4000 (256 * gateWidth (.lstm 5)) 0x8000 (256 * gateWidth (.lstm 5)) = false := by decide +kernel

theorem witness_O37_tile : let i := iss engSt
    ReadyLow engSt i [4] ∧ ReadyLow engSt i [] ∧ HasRoom engSt i [] ∧ i.g.handler = none ∧ (getCluster engSt 0).tileGrants = [] ∧
      ahead engSt ⟨0, 0⟩ (issReq i) (getCluster engSt 0).tileReqs = [] ∧ freeTile engSt 0 ⟨0, 0⟩ = some 0 := by decide +kernel

/-- A guestbook with the declaration given, signed by lane 1. -/
def book (d : DWord) : Guestbook := ⟨false, d, d, 0, 2, [], [], 0, 2⟩

/-- Lane 0 signs, declaring lanes 0 and 63. -/
def signSt (b : Option Guestbook) : State :=
  withLanes 1 (setBlock (named [(1, 1), (2, 0x80000000)] (base 0)) 0 0 { theBlock with books := b.toList.map (fun b => (1, b)) })

theorem witness_O37_sign : let d : DWord := 0x8000000000000001
    (∀ b ∈ [none, some (book d), some (book 3)],
      let s := signSt b
      let i := iss s
      ReadyLow s i [1, 2] ∧ HasRoom s i [] ∧ i.g.handler = none ∧ (getBlock s 0 0).isSome = true ∧ bookEntries i.g 1 = [] ∧ lowPair i 1 = d ∧
        i.e.lanes &&& ~~~i.g.live = 0 ∧ getBook s 0 0 1 = b) ∧
    (1 : LaneSet) &&& ~~~d = 0 ∧ (book d).owner = 0 ∧ (book d).decl ≠ 0 ∧ (book 3).orig ≠ d := by decide +kernel

-- group mode with 2 and with 16 groups
theorem witness_O37_groups : ∀ n ∈ [2, 16],
    let s := onTenant (fun t => { t with launches := [(0, someLaunch)] }) (withBlock (named [(1, BitVec.ofNat 32 n)] (base 0)))
    let i := iss s
    ReadyLow s i [1] ∧ HasRoom s i [] ∧ i.g.handler = none ∧ i.g.kind = .compute ∧ getBook s 0 0 1 = none ∧
      getLaunch s ⟨0, 0⟩ 0 = some someLaunch ∧ (lowWord i 1).toNat = n ∧ 2 ≤ n ∧ n ≤ 16 ∧ n ≤ someLaunch.groups := by decide +kernel

theorem witness_O37_mma : let m : MmaArgs := ⟨0, .e4m3, false, 1, .e4m3, none, false, 2⟩
    let k : MmaArgs := ⟨0, .e4m3, false, 1, .e4m3, some 1, false, 2⟩
    ReadyLow tileSt (iss tileSt) (mmaFields m) ∧ HasRoom tileSt (iss tileSt) [] ∧ (iss tileSt).g.handler = none ∧
      fget (iss tileSt).g.tiles 2 = some 7 ∧ SeatFree tileSt 0 ∧ k.guest = some 1 ∧ bookEntries (iss tileSt).g 1 = [] ∧
      getBook tileSt 0 0 1 = none :=
  ⟨by decide +kernel, by decide +kernel, by decide +kernel, by decide +kernel, seat_free, by decide +kernel, by decide +kernel, by decide +kernel⟩

theorem witness_O37_scan : Fits st0 [1, 2, 3, 4, 5, 8, 9, 10, 11] [1, 2, 3, 4, 5] [8, 9, 10, 11] ∧ oneView (iss st0) = true ∧
    Fits st0 [1, 2, 3, 4, 8, 9] [1, 2, 3, 4] [8, 9] ∧ ∀ l < 64, trapEnables (laneSt (iss st0).g l).fmode = 0 := by decide +kernel

/-- A window group of stream 0, its context mapped and its stream table at 0x30000. -/
def winSt : State :=
  onTenant (fun t => { t with block := some ⟨0, 0x30000, 4, 0x40000, 0x100000, 0, 0⟩ })
    (onGroup (fun g => { g with kind := .window 0 0 }) (mapped memSt))

theorem witness_O37_stream : let s := putWord (withLanes allLanes winSt) ⟨0, 0⟩ 0x30060 0x38000
    let i := iss s
    let u := (checkLane s 0 i.g 0 (kindAcq .flat) .flat 0x38000 4).2
    i.g.kind = .window 0 0 ∧ i.g.handler = none ∧ streamCarry s ⟨0, 0⟩ 0 = .ok (0x38000, false) ∧
      -- once the translation is at hand
      checkLane u 0 i.g 0 (kindAcq .flat) .flat 0x38000 4 = (.ok ⟨.dev, 0x38000⟩, u) ∧
      checkLane u 0 i.g 0 (kindRel .flat) .flat 0x38000 4 = (.ok ⟨.dev, 0x38000⟩, u) ∧ iss u = i ∧
      Fits u [1, 2, 3, 8, 9] [1, 2, 3] [8, 9] ∧ quietB u 0 = true ∧ u.lastRel = [] ∧
      0x38000 % unitSize .dev + 4 ≤ unitSize .dev := by decide +kernel

def someEq : EqOp :=
  { id := 3, ctx := ⟨0, 0⟩, core := 0, slot := 0, age := 0, block := 0, flag := some 0, fmode := 0, lane := 0,
    kind := .copy (copyDesc descBytes), src := some ⟨.scr 0 0, 0x1000⟩, dst := some ⟨.scr 0 0, 0x2000⟩, scl := none, started := false,
    done := 0, told := 0, rest := none, landed := [], keptSrc := [], keptScl := [], frec := FaultRec.blank 0 0 0, win := false, launch := 0, before := 0 }

def someRt : RtOp :=
  { id := 3, ctx := ⟨0, 0⟩, core := 0, slot := 0, age := 0, block := 0, flags := [0], tile := 7,
    kind := .mma .e4m3 .e4m3 [] [] 0 0, dst := none, fmode := 0, fslot := 0, fage := 0, lane := 0, pri := 0, passes := 0, started := false,
    post := none, rest := none, frec := FaultRec.blank 0 0 0, win := false, launch := 0, before := 0 }

theorem witness_O38_queue : let s := onCluster (fun n => { n with queue := [someEq] }) engSt
    (getCluster s 0).queue = [someEq] ∧ someEq.started = false ∧ (getTenant s ⟨0, 0⟩).saved = none ∧ eqAbsent s someEq = false ∧
      opBlocked (getCluster s 0) someEq.id = false ∧ quietB s 0 = true := by decide +kernel

-- a second copy whose source is the first one's destination
theorem witness_O38_blocked : let o := { someEq with id := 4 }
    let v : VitEntry := ⟨⟨0, 0⟩, 3, true, ⟨.scr 0 0, 0x2000⟩, 0, 32⟩
    let s := onCluster (fun n => { n with queue := [someEq, o], vit := [v, { v with op := 4, dst := false }] }) engSt
    (getCluster s 0).queue[1]? = some o ∧ opBlocked (getCluster s 0) o.id = true := by decide +kernel

def someReq : EngReq := ⟨0, 0, 0, 0x10004, none⟩

theorem witness_O38_places :
    let s := onCluster (fun n => { n with rtReqs := [someReq] }) engSt
    let u := onCluster (fun n => { n with tileReqs := [someReq] }) engSt
    (∀ c ∈ coresOf 0, ∀ b ∈ (getCore s c).blocks, b.2.books = []) ∧ (getCluster s 0).rtReqs = [someReq] ∧ liveReq s someReq = true ∧
      (getCluster s 0).rtGrants = [] ∧ (getCluster s 0).resv.length < Config.reservationEntries ∧
      (∀ c ∈ coresOf 0, ∀ b ∈ (getCore u c).blocks, b.2.books = []) ∧ (getCluster u 0).tileReqs = [someReq] ∧ liveReq u someReq = true ∧
      freeTile u 0 (reqCtx u someReq) = some 0 := by decide +kernel

theorem witness_O38_pass : let o := { someRt with started := true }
    let s := onCluster (fun n => { n with resv := [o] }) tileSt
    let u := onCluster (fun n => { n with resv := [someRt] }) tileSt
    (getCluster u 0).resv = [someRt] ∧ gatePresent u someRt = true ∧ opBlocked (getCluster u 0) someRt.id = false ∧ quietB u 0 = true ∧ (getTenant u ⟨0, 0⟩).saved = none ∧
      (getCluster s 0).queue = [] ∧ (getCluster s 0).resv = [o] ∧ o.rest = none ∧ fget (getCluster s 0).tiles 7 = some ⟨⟨0, 0⟩, []⟩ ∧
      0 ∈ coresOf 0 ∧ (getGroup s 0 0).map (fun g => (fvals g.tiles).contains 7) = some true := by decide +kernel

theorem witness_O38_copy : let o := { someEq with started := true }
    let d := copyDesc descBytes
    let s := onCluster (fun n => { n with queue := [o] }) engSt
    (getCluster s 0).queue = [o] ∧ o.rest = none ∧ o.done = 0 ∧ o.kind = .copy d ∧ d.rows = 1 ∧ 1 ≤ d.rbytes ∧ d.rbytes ≤ 32 ∧ d.cvt = 0 ∧
      d.scaled = false ∧ d.bar = none ∧ (getBlock s 0 0).map (·.poison) = some [] ∧ o.keptSrc = [] ∧
      0x1000 + d.rbytes ≤ 0x2000 := by decide +kernel

theorem witness_O38_progress : let d := { copyDesc descBytes with bar := some 512 }
    let o := { someEq with started := true, rest := some [], kind := .copy d }
    let s := onCluster (fun n => { n with queue := [o] }) engSt
    (getCluster s 0).queue = [o] ∧ (getTenant s ⟨0, 0⟩).saved = none ∧ o.kind = .copy d ∧ (getBlock s 0 0).isSome = true := by decide +kernel

/-! O39: a send of two halves from core 0 to core 1, to a peer, and the receives. -/

theorem witness_O39_send : let s := onWing (fun k => { k with wclu := 1 }) (named [(1, 7), (2, 0x00050001), (3, 256), (4, 0x00050000), (5, 0x1001)] (base 0))
    let i := iss s
    Fits s [1, 2, 3, 8] [1, 2, 3] [8] ∧ quietB s 0 = true ∧ sendLegal (lowWord i 2).toNat (lowWord i 3).toNat = true ∧
      testBit (lowWord i 3).toNat 12 = false ∧ liveCluster s (clusterOf 1) = true ∧ (getWing s 0).wclu.getLsbD 0 = true ∧
      Fits s [1, 4, 5, 8] [1, 4, 5] [8] ∧ sendLegal (lowWord i 4).toNat (lowWord i 5).toNat = true ∧ testBit (lowWord i 5).toNat 12 = true := by
  decide +kernel

def someMsg : Msg := ⟨5, 0, 1, List.replicate 64 7⟩

def boxed (b : MsgBox) (s : State) : State := onCore (fun c => { c with boxes := [b] }) s

theorem witness_O39_rpost : let s := named [(1, 0x00050000), (2, 0)] (base 0)
    let u := boxed ⟨⟨0, 0⟩, [], [], [someMsg]⟩ s
    Fits s [1, 2, 8, 9, 10] [1, 2] [8, 9, 10] ∧ (iss s).g.handler = none ∧ rpostLegal (lowWord (iss s) 1).toNat (lowWord (iss s) 2).toNat = true ∧
      (getBox s 0 ⟨0, 0⟩).overflow = [] ∧ (getBox s 0 ⟨0, 0⟩).posted.length < Config.postedEntries ∧
      Fits u [1, 2, 8, 9, 10] [1, 2] [8, 9, 10] ∧ (getBox u 0 ⟨0, 0⟩).overflow = [someMsg] ∧ someMsg.tag = 5 ∧ someMsg.src = 0 := by decide +kernel

theorem witness_O39_forward : let f : Forward := ⟨0, false, .uniform 7, true⟩
    let s := boxed ⟨⟨0, 0⟩, [f], [], []⟩ st0
    let u := boxed ⟨⟨0, 0⟩, [{ f with arrived := false }], [], []⟩ st0
    Fits st0 [1] [1] [] ∧ (getBox st0 (nextCore st0 0) ⟨0, 0⟩).inbox.length < Config.inboxEntries ∧ Fits s [8] [] [8] ∧
      (getBox s 0 ⟨0, 0⟩).inbox = [f] ∧ forwardFor (iss s).g f = true ∧ (getBox st0 0 ⟨0, 0⟩).inbox = [] ∧
      (getCore u 0).boxes = [⟨⟨0, 0⟩, [{ f with arrived := false }], [], []⟩] := by decide +kernel

def someSend : SendOp := ⟨3, ⟨0, 0⟩, 0, 0, 1, false, [(0, 8)], some 1, none, 0, someMsg, none⟩

def somePosted : Posted := ⟨2, 0, 0, 1, [(0, [8, 9, 10])], 5, 0, false, false, some 0⟩

theorem witness_O39_arrival : let s := onCore (fun c => { c with sends := [someSend] }) (onWing (fun k => { k with running := true }) st0)
    let u := boxed ⟨⟨0, 0⟩, [], [somePosted], []⟩ s
    (getCore s 0).sends = [someSend] ∧ contextRuns s ⟨0, 0⟩ = true ∧ (getBox s 0 ⟨0, 0⟩).posted = [] ∧
      (getBox s 0 ⟨0, 0⟩).overflow.length < Config.overflowEntries ∧ (getCore u 0).sends = [someSend] ∧
      (getBox u 0 ⟨0, 0⟩).posted = [somePosted] ∧ compatible somePosted someMsg = true ∧
      (groupOfAge u 0 0 0).map (fun g => (partNames g somePosted.dests).all (fun n => !(getName g n).spilled)) = some true ∧
      (somePosted.dests.map (·.1)).Nodup ∧ ∀ d ∈ somePosted.dests, d.1 < 64 ∧ d.2.Nodup ∧ ∀ n ∈ d.2, n < 1024 := by decide +kernel

theorem witness_O39_complete : let o := { someSend with status := some 0 }
    let s := onCore (fun c => { c with sends := [o] }) st0
    (getCore s 0).sends = [o] ∧ o.status = some 0 ∧ o.full = false ∧
      (groupOfAge s 0 0 0).map (fun g => (partNames g (o.dests.map (fun d => (d.1, [d.2])))).all (fun n => !(getName g n).spilled)) = some true ∧
      ∀ d ∈ o.dests, d.1 < 64 ∧ d.2 < 1024 := by decide +kernel

/-! Windows and streams -/

/-- A word that the device writes at an address lands there. -/
def wordLands (s : State) (x : Ctx) (va : Nat) : Bool :=
  !noFlat va && (match walk s x va with
    | .ok e => e.w && !peerDown s (placeOf e va) && decide (4 ≤ 65536 - va % 65536) && decide (4 ≤ 2 ^ e.log - (va - e.va))
    | .error _ => false)

theorem devWrite_of_lands {s : State} {x : Ctx} {va : Nat} (h : wordLands s x va = true) (v : Word) :
    ∃ u, devWrite s x va (leBytes 4 v.toNat) = .ok u := by
  unfold wordLands at h
  simp only [Bool.and_eq_true, Bool.not_eq_true'] at h
  obtain ⟨hn, h⟩ := h
  cases hw : walk s x va with
  | error f => simp [hw] at h
  | ok e =>
    simp only [hw, Bool.and_eq_true, decide_eq_true_eq, Bool.not_eq_true'] at h
    obtain ⟨⟨⟨h1, h2⟩, h3⟩, h4⟩ := h
    have hl : (leBytes 4 v.toNat).length = 4 := by rfl
    have hk : min (min 4 (65536 - va % 65536)) (2 ^ e.log - (va - e.va)) = 4 := by omega
    have hd : (leBytes 4 v.toNat).drop 4 = [] := by simp [hl]
    have he : (leBytes 4 v.toNat).isEmpty = false := by rfl
    refine ⟨homeWrite (reachHome s x va (placeOf e va) 4) (placeOf e va) ((leBytes 4 v.toNat).take 4), ?_⟩
    simp [devWrite, devWriteFuel, hl, he, hn, hw, h1, h2, hk, hd]

theorem entryTakes_of {s : State} {x : Ctx} {st off : Nat} (h : wordLands s x (streamAddr s x st + off) = true) : EntryTakes s x st off :=
  fun v => devWrite_of_lands h v

def someCfg (kind : Nat) (pane : Bool) : StreamCfg :=
  { ring := 0x50000, taila := 0x58000, ordered := false, kind := kind, pane := pane, fold := 0, rsize := 32, ringlog := 4, keyoff := 8,
    foldoff := 16, wlen := 8, wstep := 8, wgap := 8, code := 0x60000, entries := [0, 8, 16, 24, 32], minregs := 8, scr := 1, clu := 0,
    outv := false, out := 1, stash := 0x70000, dir := 0x78000, wgmax := 1, statesz := 16, stashn := 4, dirn := 16, idle := 2 }

def someWin : Win :=
  { key := 0, k := 1, start := 8, fin := 16, b := 8, place := .lane 0 0, data := 0, lastTime := 0, panes := 0, paneCnt := 0, touch := 0,
    given := 0, shut := false, trig := false, early := false, ended := false, closed := false }

def someStream (c : StreamCfg) (dir : FMap DirEnt) : Stream :=
  { cfg := c, armed := true, tail := 1, next := 0, head := 0, wmark := 0, late := 0, badkind := 0, dropdir := 0, droplane := 0, taken := 2,
    dir := dir, seen := [], items := [], held := none, status := 0x80000000, owed := false, given := 0, hdr := some [], due := none }

/-- Lane 0 of window group 0 of stream 0 holds window 7, in the record entry of a delivery or resting. -/
def winLane (busy : Bool) (k : Stream) : State :=
  let at7 := fun (x : LaneSt) => { x with win := some ⟨7, busy, 2, 0, none, false⟩ }
  let at9 := fun (x : LaneSt) => { x with win := some ⟨9, false, 0, 0, none, false⟩ }
  onWing (fun w => { w with running := true })
    (onTenant (fun t => { t with streams := [(0, k)] })
      (onGroup (fun g => { g with live := 3, lanes := fmodify (fmodify g.lanes 0 at7) 1 at9 }) winSt))

def oneWin : FMap DirEnt := [(7, .win someWin)]

theorem witness_O40_window : let k := someStream (someCfg 1 false) oneWin
    let s := winLane true k
    let i := iss s
    i.g.kind = .window 0 0 ∧ i.g.handler = none ∧ getStream s ⟨0, 0⟩ 0 = some k ∧ Fits s [] [] [] ∧ quietB s 0 = true ∧
      (laneSt i.g 0).win = some ⟨7, true, 2, 0, none, false⟩ ∧ i.e.lanes = 1 ∧ i.g.live ≠ 0 ∧ i.g.gpark = .none ∧ laneBusy i.g 0 = true ∧
      (∀ l < 64, 0 < l → laneBusy i.g l = false) ∧ getWin k 7 = some someWin ∧ someWin.trig = false ∧ someWin.closed = false ∧
      wordLands s ⟨0, 0⟩ (streamAddr s ⟨0, 0⟩ 0 + 0x78) = true ∧ Fits s [8] [] [8] := by decide +kernel

theorem witness_O40_pane : let k := someStream (someCfg 1 true) oneWin
    getStream (winLane true k) ⟨0, 0⟩ 0 = some k ∧ k.cfg.pane = true ∧ (someCfg 1 false).pane = false := by decide +kernel

/-- Stream 0 emits to stream 1. -/
def emitSt : State :=
  onTenant (fun t => { t with streams := [(0, someStream { someCfg 1 false with outv := true } oneWin), (1, someStream (someCfg 3 false) [])] })
    (winLane true (someStream { someCfg 1 false with outv := true } oneWin))

theorem witness_O40_wemit : let s := emitSt
    let i := iss s
    Fits s [4] [4] [] ∧ quietB s 0 = true ∧ i.g.wemit &&& i.e.lanes = 0 := by decide +kernel

theorem pair_of_fst {α β : Type} {p : α × β} {a : α} (h : p.1 = a) : p = (a, p.2) := by rw [← h]

/-- The ring takes the record of each lane that is left, and one lane is. -/
theorem emits_all {s : State} {w : LaneSet} (hs : s = onGroup (fun g => { g with wemit := w }) emitSt) (hw : w = 0 ∨ w = 1) :
    ∃ u, EmitsAll s (iss s) 4 u := by
  obtain rfl | rfl := hw <;> subst hs <;>
    exact ⟨_, 0, 0, someStream { someCfg 1 false with outv := true } oneWin, theBlock, someCfg 3 false, by decide +kernel, by decide +kernel,
      by decide +kernel, by decide +kernel, by decide +kernel, by decide +kernel, by decide +kernel, pair_of_fst (by decide +kernel)⟩

theorem witness_O40_emits : ∃ u, EmitsAll emitSt (iss emitSt) 4 u := emits_all (w := 0) (by decide +kernel) (.inl rfl)

/-- A stream's entry in memory that passes the check of arming. -/
def entryBytes : List Byte :=
  leBytes 8 0x50000 ++ leBytes 8 0x58000 ++ leBytes 4 0x20240000 ++ leBytes 4 0x00080010 ++ leBytes 8 8 ++ leBytes 8 8 ++ leBytes 8 8 ++
    leBytes 8 0x60000 ++ leBytes 4 0 ++ leBytes 4 8 ++ leBytes 4 16 ++ leBytes 4 24 ++ leBytes 4 32 ++ leBytes 4 0x10800000 ++
    leBytes 8 0x70000 ++ leBytes 8 0x78000 ++ leBytes 8 0 ++ leBytes 4 0x00010010 ++ leBytes 4 4 ++ leBytes 4 16 ++ leBytes 4 2 ++
    leBytes 4 0 ++ leBytes 4 0

-- the last stream of the context's four, and one that it does not have
theorem witness_O40_strctl : let s := named [(4, 3)] winSt
    let u := named [(4, 4)] winSt
    Fits s [4] [4] [] ∧ (fkeys (iss s).g.names).Nodup ∧ quietB s 0 = true ∧ (fieldWord (iss s).g 0 4).toNat < 4 ∧
      Fits s [4, 2, 3] [4, 2, 3] [] ∧ ((getTenant s ⟨0, 0⟩).block.map (·.strn)) = some 4 ∧ streamHeld s ⟨0, 0⟩ 3 = false ∧
      (entryRead s ⟨0, 0⟩ 3 0 128).isOk = true ∧ Fits u [4] [4] [] ∧ 4 ≤ (fieldWord (iss u).g 0 4).toNat := by decide +kernel

-- the group outlives the operations on its streams
theorem witness_O40_lives : let s := named [(4, 3)] winSt
    ∀ f ∈ [fun s => armStream s ⟨0, 0⟩ 3, fun s => statusBits s ⟨0, 0⟩ 3 0 0x40000000, fun s => statusBits s ⟨0, 0⟩ 3 0x40000000 0,
        fun s => stateOf (entryEdit s ⟨0, 0⟩ 3 0x68 0x80000000 0),
        fun s => stateOf (streamWrite s ⟨0, 0⟩ 3 (streamAddr s ⟨0, 0⟩ 3 + 0x60) (leBytes 8 7))],
      (getGroup ((lanesOf (iss s).e.lanes).foldl (fun s _ => f s) s) 0 0).isSome = true := by
  simp only [List.forall_mem_cons, List.not_mem_nil, false_implies, implies_true, and_true]
  exact ⟨by decide +kernel, by decide +kernel, by decide +kernel, by decide +kernel, by decide +kernel⟩

theorem witness_O40_arm : let v := named [(4, 3)] winSt
    let s := onWing (fun k => { k with wweng := 1 }) { v with mem := memWrite v.mem (0x30000 + 128 * 3) entryBytes }
    (entryRead s ⟨0, 0⟩ 3 0 128).toOption = some entryBytes ∧ armCheck s ⟨0, 0⟩ entryBytes = true ∧ getStream s ⟨0, 0⟩ 3 = none ∧
      (match devWrite s ⟨0, 0⟩ (streamAddr s ⟨0, 0⟩ 3 + 0x7C) (leBytes 4 0x80000000) with
        | .ok u => (devWrite u ⟨0, 0⟩ (streamCfg entryBytes).dir (zeroBytes 64)).isOk
        | .error _ => false) = true := by decide +kernel

theorem witness_O40_pause : let k := someStream (someCfg 1 false) oneWin
    let s := named [(4, 0)] (winLane true k)
    getStream s ⟨0, 0⟩ 0 = some k ∧ k.armed = true ∧ (devWrite s ⟨0, 0⟩ (streamAddr s ⟨0, 0⟩ 0 + 0x7C) (leBytes 4 0xC0000000)).isOk = true := by
  decide +kernel

/-- The next record has the kind and event time given, and key 0. -/
def recSt (kind time : Nat) (k : Stream) : State :=
  let s := winLane false k
  { s with mem := memWrite (memWrite s.mem 0x50000 (leBytes 8 time ++ zeroBytes 4 ++ leBytes 4 kind)) 0x58000 (leBytes 4 1) }

def recBytes (kind time : Nat) : List Byte := leBytes 8 time ++ zeroBytes 4 ++ leBytes 4 kind ++ zeroBytes 16

theorem witness_O41 : (∀ p ∈ [(0, 3), (0, 15), (1, 16), (2, 8), (3, 8), (4, 8)],
      let kind := p.1
      let time := p.2
      let k := someStream (someCfg 1 false) oneWin
      let s := recSt kind time k
      getStream s ⟨0, 0⟩ 0 = some k ∧ k.armed = true ∧ k.held = none ∧ k.cfg.kind ≠ 3 ∧ serving s ⟨0, 0⟩ = true ∧ k.owed = false ∧
        k.next ≠ k.tail ∧ k.status.getLsbD 30 = false ∧ wordLands s ⟨0, 0⟩ (streamAddr s ⟨0, 0⟩ 0 + 0x78) = true ∧ quiesced s ⟨0, 0⟩ 0 = true ∧
        (streamRead s ⟨0, 0⟩ 0 (k.cfg.ring + k.next.toNat % 2 ^ k.cfg.ringlog * k.cfg.rsize) k.cfg.rsize).toOption = some (recBytes kind time) ∧
        (recOf k.cfg k.next (recBytes kind time)).kind = kind ∧ (recOf k.cfg k.next (recBytes kind time)).time = time) := by decide +kernel

-- a tail 16 records past the head, and 17
theorem witness_O41_tail : ∀ n ∈ [16, 17], let k := someStream (someCfg 1 false) oneWin
    let v := winLane false k
    let s := { v with mem := memWrite v.mem 0x58000 (leBytes 4 n) }
    s.lastRel = [] ∧ getStream s ⟨0, 0⟩ 0 = some k ∧ (streamRead s ⟨0, 0⟩ 0 k.cfg.taila 4).toOption = some (leBytes 4 n) := by decide +kernel

-- a late record (3 before the watermark 5); a session whose gap ends at 16; a window of time; a pane; a close at the end itself
theorem witness_O41_clauses : 3 < { someStream (someCfg 1 false) oneWin with wmark := 5 }.wmark ∧
    (winsOf (someStream (someCfg 2 false) oneWin) = [(7, someWin)] ∧ someWin.shut = false ∧ someWin.start < 15 + 8 ∧ 15 < someWin.b + 8) ∧
    windowsAt 8 8 8 = [1] ∧ windowsAt 8 8 15 = [1] ∧ someWin.k = 1 ∧ (8 : Nat) / Nat.gcd 8 8 = 1 ∧ someWin.fin ≤ 16 ∧
    (4 : Nat) ≤ (recOf (someCfg 1 false) 0 (recBytes 4 8)).kind := by decide +kernel

-- what a reset record and the end write
theorem witness_O41_end : let k := someStream (someCfg 1 false) oneWin
    let s := recSt 2 8 k
    panesOf k = [] ∧
      (match entryEdit s ⟨0, 0⟩ 0 0x68 0 0x80000000 with
        | .ok u => wordLands u ⟨0, 0⟩ (streamAddr u ⟨0, 0⟩ 0 + 0x78)
        | .error _ => false) = true ∧
      (match devWrite s ⟨0, 0⟩ (streamAddr s ⟨0, 0⟩ 0 + 0x7C) (leBytes 4 0x20000000) with
        | .ok u => wordLands u ⟨0, 0⟩ (streamAddr u ⟨0, 0⟩ 0 + 0x78)
        | .error _ => false) = true := by decide +kernel

def someItem (entry : Nat) : Item :=
  { win := 7, entry := entry, cause := 0, vals := [1, 2, 3, 4], time := 8, v6 := 0, record := [5, 6], stamp := 8, data := 1, last := false, other := 9 }

/-- Stream 0 has one item to deliver, to window 7 in lane 0; window 9 rests in lane 1. -/
def itemSt (entry : Nat) : State :=
  let k := { someStream (someCfg 2 false) [(7, .win someWin), (9, .win { someWin with place := .lane 0 1, start := 14 })] with items := [someItem entry] }
  onGroup (fun g => { g with active := none, gpark := .noDelivery }) (winLane false k)

theorem witness_O42_delivery : ∀ e ∈ [1, 2, 5], let s := itemSt e
    (getStream s ⟨0, 0⟩ 0).map (fun k => !k.owed && k.items == [someItem e] && mayDeliver s ⟨0, 0⟩ 0 k 0 && getWin k 7 == some someWin &&
        (getWin k 9).isSome) = some true ∧
      (winGroup s ⟨0, 0⟩ 0 0).map (fun p => (p.1, p.2.1)) = some (0, 0) ∧ (winGroups s ⟨0, 0⟩ 0).map (fun p => (p.1, p.2.1)) = [(0, 0)] ∧
      (getGroup s 0 0).map (fun g => !laneBusy g 0 && g.id.ctx == ⟨0, 0⟩ && g.handler == none && freeBuffer g == some 0 && busyLanes g == 0 &&
        hasLane g.live 0 && (List.range 7).all (fun n => !(getName g n).spilled)) = some true ∧ (getBlock s 0 0).isSome = true ∧
      (usedSlots (getCore s 0) ⟨0, 0⟩).1 + 14 ≤ (poolRoom (splitWing s 0)).1 ∧ (usedSlots (getCore s 0) ⟨0, 0⟩).2 + 7 ≤ (poolRoom (splitWing s 0)).2 := by
  decide +kernel

-- idle since two records, and since one; the stash and the cloakroom lie in host memory
theorem witness_O42_stash :
    let k := someStream { someCfg 1 false with stash := 0x40070000 } [(7, .win someWin), (9, .win { someWin with place := .lane 0 1, touch := 1 })]
    let s := onGroup (fun g => { g with id := { g.id with cloak := 0x40100000 }, active := none, gpark := .noDelivery, frontier := [{ placeEntry with lanes := 1, park := .resting },
      { placeEntry with lanes := 2, park := .resting }] }) (winLane false k)
    getStream s ⟨0, 0⟩ 0 = some k ∧ getWin k 7 = some someWin ∧ k.cfg.idle ≠ 0 ∧ someWin.touch + k.cfg.idle ≤ k.taken ∧ serving s ⟨0, 0⟩ = true ∧
      k.held = none ∧ (stashWindow s ⟨0, 0⟩ 0 7).isOk = true ∧ k.taken < 1 + k.cfg.idle := by decide +kernel

theorem witness_O42_writeback : let k := someStream (someCfg 1 false) oneWin
    let s := winLane false k
    getStream s ⟨0, 0⟩ 0 = some k ∧ k.held = none ∧ k.owed = false ∧ k.hdr = some [] ∧ k.armed = true ∧
      (devWrite s ⟨0, 0⟩ k.cfg.dir (leBytes 8 k.wmark ++ leBytes 4 k.late.toNat ++ leBytes 4 k.badkind.toNat ++
      leBytes 4 k.dropdir.toNat ++ leBytes 4 k.droplane.toNat ++ leBytes 4 (winsOf k).length ++ leBytes 4 0 ++ zeroBytes 32)).isOk = true := by
  decide +kernel

theorem witness_O42_resume : let s := onGroup (fun g => { g with wemit := 1 }) (onWing (fun k => { k with running := true }) (base 0xF2400200))
    let u := { s with focusCore := 0, focusSlot := 0 }
    let i := iss u
    issuer u = some i ∧ i.g.wemit ≠ 0 ∧ i.g.gpark = .none ∧ i.g.halt = .run ∧ slotRuns s i.g.id.ctx = true ∧
      decodeWord (wordAt u i) (some 0) = .ok (.wemit 4) ∧ (match exec (.wemit 4) u with | .next _ => true | _ => false) = true := by
  decide +kernel
-- one lane, whose record and count land in device memory
theorem witness_O40_one : let s := emitSt
    let i := iss s
    let c := someCfg 3 false
    let a := (fieldWord i.g 0 4).toNat
    i.g.kind = .window 0 0 ∧ getStream s ⟨0, 0⟩ 0 = some (someStream { someCfg 1 false with outv := true } oneWin) ∧
      (outConfig s ⟨0, 0⟩ 0 1).toOption = some c ∧ (streamRead s ⟨0, 0⟩ 0 c.taila 4).isOk = true ∧ (outHead s ⟨0, 0⟩ 0 1).isOk = true ∧
      i.e.lanes = 1 ∧ a % 16 = 0 ∧ a + c.rsize ≤ openScratch theBlock ∧ (poisonIn s ⟨.scr 0 0, a⟩ c.rsize).isNone = true := by decide +kernel

/-- `WritableAt`, checked. -/
def writableB (s : State) (x : Ctx) (va n p : Nat) : Bool :=
  !noFlat va && decide (va % 4096 + n ≤ 4096) && (match walk s x va with
    | .ok e => e.w && placeOf e va == ⟨.dev, p⟩
    | .error _ => false)

theorem writable_of_check {s : State} {x : Ctx} {va n p : Nat} (h : writableB s x va n p = true) : WritableAt s x va n p := by
  simp only [writableB, Bool.and_eq_true, decide_eq_true_eq, Bool.not_eq_true'] at h
  obtain ⟨⟨hf, hp⟩, hw⟩ := h
  refine ⟨hf, hp, ?_⟩
  split at hw <;> simp_all

theorem witness_O40_lands : let c := someCfg 3 false
    WritableAt emitSt ⟨0, 0⟩ c.ring c.rsize c.ring ∧ (∃ v, devWrite emitSt ⟨0, 0⟩ c.ring (zeroBytes c.rsize) = .ok v ∧
      WritableAt v ⟨0, 0⟩ c.taila 4 c.taila) ∧ c.ring + c.rsize ≤ c.taila := by
  refine ⟨writable_of_check (by decide +kernel), ?_, by decide +kernel⟩
  have h : (match devWrite emitSt ⟨0, 0⟩ (someCfg 3 false).ring (zeroBytes (someCfg 3 false).rsize) with
    | .ok v => writableB v ⟨0, 0⟩ (someCfg 3 false).taila 4 (someCfg 3 false).taila
    | .error _ => false) = true := by decide +kernel
  split at h
  · rename_i v hv
    exact ⟨v, hv, writable_of_check h⟩
  · cases h

/-! Launches and service calls -/

/-- Queue 0 of the context, at 0x48000, with the tail, the head and the log of its size given. -/
def queueTab (tail head log : Nat) (s : State) : State :=
  let e := leBytes 8 0x49000 ++ leBytes 4 tail ++ leBytes 4 head ++ leBytes 4 (0xB0000000 + log * 2 ^ 16)
  let d := leBytes 8 0x4B000 ++ leBytes 8 0 ++ leBytes 8 0x800000 ++ leBytes 4 1 ++ leBytes 4 0x101 ++ leBytes 4 1
  let m := memWrite (memWrite (memWrite s.mem 0x48000 e) 0x49000 (leBytes 8 0x4A000)) 0x4A000 d
  onWing (fun k => { k with running := true, wclu := 1 })
    (onTenant (fun t => { t with block := some ⟨0x48000, 0x30000, 4, 0x40000, 0x100000, 0, 0x4D000⟩ })
      { s with mem := memWrite m 0x4B004 (leBytes 4 0x08000000) })

def launchSt (tail head log : Nat) : State := queueTab tail head log (mapped (named [(1, 0x4A000), (2, 0)] (base 0)))

-- a queue of 16 with one entry, a full one of 2, and one that is not served; a bad descriptor address
theorem witness_O43_launch : (∀ q ∈ [(1, 0, 4, true), (2, 0, 1, true), (1, 0, 0, false)],
      let s := launchSt q.1 q.2.1 q.2.2.1
      let i := iss s
      ReadyLow s i [1, 2] ∧ HasRoom s i [] ∧ quietB s 0 = true ∧ badDesc (lowPair i 1).toNat = false ∧ (getQueue s ⟨0, 0⟩ 0).held = none ∧ (getQueue s ⟨0, 0⟩ 0).app = none ∧ devPoison s ⟨0, 0⟩ (queueAddr s ⟨0, 0⟩ 0) 32 = none ∧
        (devRead s ⟨0, 0⟩ (queueAddr s ⟨0, 0⟩ 0) 32).toOption.map (fun bs => (queueEnt bs).served) = some q.2.2.2) ∧
    (let s := launchSt 1 0 4
     let u := (releaseAt (devTouch s ⟨0, 0⟩ 0x48000 32) 0 ⟨0, 0⟩ .device (getCore s 0).seq).1
     ((devWrite u ⟨0, 0⟩ 0x49008 (leBytes 8 0x4A000)).toOption.map (fun v => (devWrite v ⟨0, 0⟩ 0x48008 (leBytes 4 2)).isOk)) = some true) ∧
    badDesc 0x4A010 = true := by decide +kernel

-- the last event, and one past it
theorem witness_O43_evsig : let s := named [(4, 255), (5, 256)] (base 0)
    ReadyLow s (iss s) [4] ∧ ReadyLow s (iss s) [5] ∧ HasRoom s (iss s) [] ∧ quietB s 0 = true ∧ (lowWord (iss s) 4).toNat ≤ 255 ∧
      255 < (lowWord (iss s) 5).toNat := by decide +kernel

-- the read of an entry whose words the queue agrees with, and one whose `QHEAD` a store has changed
theorem witness_O43_entry : let s := launchSt 1 0 4
    s.lastRel = [] ∧ ((devRead s ⟨0, 0⟩ 0x48000 32).toOption.map (fun bs => (queueEnt bs).head == 0 && (queueEnt bs).flags == 0)) = some true ∧
      queueAddr s ⟨0, 0⟩ 0 = 0x48000 ∧ devPoison s ⟨0, 0⟩ 0x48000 32 = none := by decide +kernel

/-- What the scheduler's read of the queue leaves. -/
def entryIn (s : State) : Option (QEnt × State) := (readEntry s ⟨0, 0⟩ 0).toOption

/-- The state from which a head's slot is read. -/
def takingSt (u : State) (e : QEnt) (d : Nat) : State :=
  let v := setQueue u ⟨0, 0⟩ 0 { getQueue u ⟨0, 0⟩ 0 with tail := e.tail }
  setQueue v ⟨0, 0⟩ 0 { getQueue v ⟨0, 0⟩ 0 with qhead := some 0, taking := some d }

theorem witness_O43_tail : let x : Ctx := ⟨0, 0⟩
    queueReady (launchSt 1 0 4) x 0 = true ∧ queueReady (launchSt 0 0 4) x 0 = true ∧
    (entryIn (launchSt 0 0 4)).map (fun p => headOf (getQueue p.2 x 0) p.1 == p.1.tail) = some true ∧
    (entryIn (launchSt 1 0 4)).map (fun p => (getQueue p.2 x 0).head.isNone && p.1.served && headOf (getQueue p.2 x 0) p.1 != p.1.tail) =
      some true ∧
    ((entryIn (launchSt 1 0 4)).bind (fun p => (queueRead (takingSt p.2 p.1 0) x 0 0x49000 8).toOption)).map (·.1) = some (leBytes 8 0x4A000) ∧
    ((entryIn (launchSt 1 0 4)).bind (fun p => (queueRead (takingSt p.2 p.1 0) x 0 0x49000 8).toOption)).bind (fun r =>
      (queueRead (setQueue r.2 x 0 { getQueue r.2 x 0 with taking := some 0x4A000 }) x 0 (0x4A000 + 0x60) 32).toOption.map (·.1.length)) = some 32 := by
  decide +kernel

/-- The head of the queue is taken, waiting for the events given. -/
def headSt (bad : Bool) (waits : BitVec 256) : State :=
  onTenant (fun t => { t with queues := [(0, ⟨1, some 0, false, some ⟨0x4A000, bad, waits, 0⟩, none, none, none, none, true⟩)] })
    (launchSt 1 0 4)

theorem witness_O43_start : let s := headSt false 0
    let x : Ctx := ⟨0, 0⟩
    serving s x = true ∧ queueReady s x 0 = true ∧ (entryIn s).map (fun p => p.1.served && lastPlaced p.2 x 0) = some true ∧
      ((entryIn (headSt true 0)).bind (fun p => (getQueue p.2 x 0).head)) = some ⟨0x4A000, true, 0, 0⟩ ∧
      (entryIn s).map (fun p => (devWrite p.2 x 0x4800C (leBytes 4 1)).isOk) = some true ∧
      ((entryIn s).bind (fun p => (queueRead p.2 x 0 0x4A000 160).toOption.bind (fun r =>
        (queueRead (setQueue r.2 x 0 { getQueue r.2 x 0 with head := some ⟨0x4A000, false, 0, 0⟩ }) x 0 (fieldAt r.1 0 8) 32).toOption.map (fun k =>
          descOk r.1 && (devWrite k.2 x 0x4800C (leBytes 4 1)).isOk && (getQueue k.2 x 0).head == some ⟨0x4A000, false, 0, 0⟩ &&
          kernelOk k.1 && launchFits k.2 x 0 (launchOf 0 0x4A000 0 3 r.1 k.1))))) = some true ∧
      (entryIn (headSt false 1)).map (fun p => (1 : BitVec 256) &&& ~~~(getTenant p.2 x).events != 0) = some true ∧
      descOk (zeroBytes 160) = false ∧ kernelOk (zeroBytes 32) = false := by decide +kernel

def placeSt : State :=
  onTenant (fun t => { t with launches := [(0, { someLaunch with ap := none, nextGang := 0, resident := 0, groups := 1, cloakN := 1, args := [11, 22] })] })
    (onWing (fun k => { k with running := true, wclu := 1 }) State.reset)

theorem witness_O43_place : let l := { someLaunch with ap := none, nextGang := 0, resident := 0, groups := 1, cloakN := 1, args := [11, 22] }
    serving placeSt ⟨0, 0⟩ = true ∧ (getWing placeSt 0).waiting = [] ∧ nextLaunch (getTenant placeSt ⟨0, 0⟩) = some (0, l) ∧
      getLaunch placeSt ⟨0, 0⟩ 0 = some l ∧ chooseCluster placeSt ⟨0, 0⟩ 0 l = some (0, true) ∧ l.blocks = 1 ∧
      (usedSlots (getCore placeSt 0) ⟨0, 0⟩).1 + 4 ≤ (poolRoom (splitWing placeSt 0)).1 ∧
      (usedSlots (getCore placeSt 0) ⟨0, 0⟩).2 + 2 ≤ (poolRoom (splitWing placeSt 0)).2 := by decide +kernel

theorem witness_O43_complete : let l := { someLaunch with resident := 0 }
    let s := onTenant (fun t => { t with launches := [(0, l)] }) State.reset
    getLaunch s ⟨0, 0⟩ 0 = some l ∧ l.aborted = false ∧ l.nextGang = l.gangs ∧ gangWaits s ⟨0, 0⟩ 0 = false ∧ l.resident = 0 ∧
      fkeys s.cores = [] ∧ writesLeft s ⟨0, 0⟩ 0 = false ∧ someLaunch.resident ≠ 0 := by decide +kernel

/-- A service ring at 0x4D000 with its slots in host memory, and the context running. -/
def ringSt (s : State) : State :=
  let v := queueTab 0 0 4 (mapped s)
  { v with mem := memWrite v.mem 0x4D000 (leBytes 8 0x40200000 ++ leBytes 4 0 ++ leBytes 4 0 ++ leBytes 4 3) }

theorem witness_O44_svc : let s := ringSt (onGroup (fun g => { g with id := { g.id with cloak := 0x40900000 } }) st0)
    let i := iss s
    Ready s i [1, 2, 5, 6] [1, 2] [5, 6] ∧ i.g.handler = none ∧ quietB s 0 = true ∧ svcRing s ⟨0, 0⟩ = some 0x4D000 ∧
      firstKindLeft s 0 0 0 i.e.lanes = false ∧ (spillGroup s 0 0 false).isOk = true ∧ svcRing st0 ⟨0, 0⟩ = none ∧
      firstKindLeft (onCore (fun c => { c with loads := [someLoad] }) s) 0 0 0 i.e.lanes = true := by decide +kernel

/-- A pending call of lane 0. -/
def someCall (seq : Option Word) : SvcCall :=
  ⟨seq, 1, 0x10004, 1, [[7]], [5], placeEntry⟩

def callSt (seq : Option Word) (status : Nat) : State :=
  let v := ringSt (onGroup (fun g => { g with active := none, gpark := .svc, svc := some (someCall seq) }) (base 0))
  { v with hostMem := memWrite [] 0x200000 (leBytes 4 status) }

theorem witness_O44_record : let s := callSt none 0
    let x : Ctx := ⟨0, 0⟩
    (getGroup s 0 0).map (fun g => g.svc == some (someCall none) && g.gpark == .svc) = some true ∧ s.lastRel = [] ∧
      svcRing s x = some 0x4D000 ∧ contextRuns s x = true ∧ (getTenant s x).held = none ∧
      ((ringRead s x 0x4D000 64).toOption.map (fun p => svcRoom p.1)) = some true ∧
      ((getGroup s 0 0).bind (fun g => (ringWrites x 0x40200000 (svcPieces 0 g (someCall none) 0) s).toOption.bind (fun u =>
        (ringWrite u x 0x4D008 (leBytes 4 1)).toOption.bind (fun p => (cloakWrite p x (g.id.cloak + 0x18C) (leBytes 4 0) false).toOption)))).isSome = true ∧
      svcRoom (zeroBytes 8 ++ leBytes 4 8 ++ leBytes 4 0 ++ leBytes 4 3) = false := by decide +kernel

theorem witness_O44_reply : (svcAnswered (callSt (some 0) 1) 0 0 1).isOk = true ∧ (svcAnswered (callSt (some 0) 2) 0 0 2).isOk = true ∧
    (ringRead (callSt (some 0) 1) ⟨0, 0⟩ (0x40200000 + 0x1100) 512).isOk = true ∧
    (ringWrite (callSt (some 0) 1) ⟨0, 0⟩ 0x40200000 (leBytes 4 3)).isOk = true ∧ (someCall (some 0)).entry.clause = some placeClause ∧
    (someCall (some 0)).lanes ≠ 0 ∧
    (getGroup (callSt (some 0) 1) 0 0).map (fun g => !(getName g 5).spilled && !(getName g 6).spilled && !(getName g 0).spilled) = some true ∧
    (usedSlots (getCore (callSt (some 0) 1) 0) ⟨0, 0⟩).1 + 6 ≤ (poolRoom (splitWing (callSt (some 0) 1) 0)).1 ∧
    (usedSlots (getCore (callSt (some 0) 1) 0) ⟨0, 0⟩).2 + 3 ≤ (poolRoom (splitWing (callSt (some 0) 1) 0)).2 ∧ (List.range 64).all (fun l => decide ((someCall none).names.getD l 0 + 1 < 1024)) = true := by decide +kernel
/-- Traps of every kind are enabled, and a breakpoint stands at the header. -/
def trapSt (s : State) : State := onTenant (fun t => { t with trap := some { trapDesc with bpen := 0xC, bpa := [0, 0, 7, placeVa] } }) s

-- the trap pool in use, and an earlier trap in the queue
theorem witness_O29_waits : let s := trapSt st0
    (getCore s 0).trapQueue = [] ∧ (getCore (onCore (fun c => { c with trapOwner := some 9 }) s) 0).trapOwner ≠ none ∧
      (getCore (onCore (fun c => { c with trapQueue := [9] }) s) 0).trapQueue ≠ [] := by decide +kernel

-- no descriptor, a cause that is not enabled, a handler, the access processor; with a fault queue, a launch, a stream
theorem witness_O29_aborts : let s := onWing (fun k => { k with fqlog := 5, fqbase := 0x4000, whq := 1 }) (onTenant (fun t => { t with launches := [(0, someLaunch)] }) st0)
    let k := someStream (someCfg 1 false) oneWin
    Issues s (iss s) ∧ (getTenant s ⟨0, 0⟩).trap = none ∧ (iss (handled s)).g.handler.isSome = true ∧ isAp (iss (asAp s)).g = true ∧
      hasFaultQueue (getWing s 0) = true ∧ isWindow (iss s).g = false ∧ (getLaunch s ⟨0, 0⟩ 0).isSome = true ∧
      (iss (winLane true k)).g.kind = .window 0 0 ∧ getStream (winLane true k) ⟨0, 0⟩ 0 = some k := by decide +kernel

-- at a header: a lane that is stepped, and one that meets breakpoint 3
theorem witness_O29_header : let s := trapSt (running (atHeader (base 0x20008083)))
    let u := (fetchWord s 0 ⟨0, 0⟩ (BitVec.ofNat 56 placeVa)).2
    ((getGroup s 0 0).map fun g => (g.active.isNone, decide (g.gpark = .none), decide (g.halt = .run), slotRuns s g.id.ctx, (heldStore s 0 0 g).isNone)) =
        some (true, true, true, true, true) ∧
      ((getGroup s 0 0).map fun g => selectEntry (pickable s 0 g)) = some (some { placeEntry with pc := BitVec.ofNat 56 placeVa, clause := none }) ∧
      (fetchWord s 0 ⟨0, 0⟩ (BitVec.ofNat 56 placeVa)).1 = .word placeHeader ∧ getGroup u 0 0 = getGroup s 0 0 ∧
      ((getGroup s 0 0).map fun g => waitBusy g placeHeader) = some false ∧ breakHit u ⟨0, 0⟩ (BitVec.ofNat 56 placeVa) = some 3 ∧
      ((getGroup s 0 0).map fun g => (laneSt g 5).mute) = some false ∧
      ((getGroup (eachLane (fun x => { x with step := true, fresh := false }) s) 0 0).map fun g => ((laneSt g 5).step, (laneSt g 5).fresh)) = some (true, false) := by
  decide +kernel

/-! Wings, slots and registers -/

/-- A valid row of duration 1 for a tenant, with its own way masks. -/
def someRow (t : Nat) : BitVec 128 :=
  BitVec.ofNat 128 (2 ^ 31 + t * 2 ^ 28 + 1 + 2 ^ (32 + t) + 2 ^ (48 + t))

/-- A running wing with rows 0 and 1 for tenants 0 and `t`, both enabled. -/
def slotSt (t : Nat) : State :=
  onWing (fun k => { k with en := true, running := true, rows := [(0, someRow 0), (1, someRow t)],
                            eff := [(0, someRow 0), (1, someRow t)], curRow := someRow 0,
                            tenants := sset Tenant.reset (sset Tenant.reset k.tenants 0 { Tenant.reset with ctxReg := 1 }) t
                              { Tenant.reset with ctxReg := 1 } }) State.reset

/-- The next row is the same tenant's, and another's. -/
theorem witness_O45_row : ∀ t ∈ [0, 1], let k := getWing (slotSt t) 0
    k.running = true ∧ k.edge = none ∧ validFrom k (k.donated.getD k.row.toNat + 1) = some 1 ∧ rowTenant (getRow k 1) = t := by decide +kernel

def someEdge : Edge := ⟨some 0, some 1, some 1, none, 0, false, false, false⟩

/-- A boundary of two groups under the edge that ends tenant 0's slot. -/
def haltSt : State :=
  onWing (fun k => { k with running := true, edge := some someEdge })
    (let s := onGroup (fun g => { g with active := none, gpark := .svc }) (base 0)
     setGroup s 0 1 { placeGroup with active := none })

theorem witness_O45_halt : let s := haltSt
    (getGroup s 0 0).map (fun g => edgeOf s g.id.ctx == some someEdge && mayHalt s 0 0 g someEdge) = some true ∧ quietB s 0 = true ∧
      (getGroup s 0 1).map (fun g => g.id.ctx == ⟨0, 0⟩ && g.halt == .run) = some true ∧ edgeOf (base 0) ⟨0, 0⟩ = none := by decide +kernel

theorem witness_O45_grace : let s := onWing (fun k => { k with edge := some someEdge }) (slotSt 1)
    (getWing s 0).edge = some someEdge ∧ someEdge.out = some 0 ∧ outGone s 0 someEdge = false ∧
      outGone s 0 { someEdge with grace2 := true, killed := true } = true ∧ hasFaultQueue { getWing s 0 with fqlog := 5, whq := 1 } = true := by decide +kernel

/-- The outgoing tenant is away, and the incoming one's context block is read. -/
def commitSt (saved : Option SavedCtx) : State :=
  let u := onWing (fun k => { k with edge := some { someEdge with grace2 := true, killed := true } }) (slotSt 1)
  let b : CtxBlock := ⟨0, 0, 0, 0, 0, 0, 0⟩
  setTenant u ⟨0, 1⟩ { getTenant u ⟨0, 1⟩ with block := some b, saved := saved }

theorem witness_O45_commit : let e : Edge := { someEdge with grace2 := true, killed := true }
    let v : SavedCtx := ⟨1, [⟨2, [(3, { placeGroup with halt := .halted })], [], none, [], [], none, []⟩], []⟩
    ∀ z ∈ [none, some v], let s := commitSt z
    (getWing s 0).edge = some e ∧ outGone s 0 e = true ∧ ((readBlock s ⟨0, 1⟩).toOption == some s) = true ∧
      ((readTrap s ⟨0, 1⟩).toOption.map (fun u => (getTenant u ⟨0, 1⟩).saved == z && !(getWing u 0).preempt && !(getWing u 0).disabling &&
        halfFor u 0 e 1 == 1 && (getWing u 0).faults.isEmpty)) = some true := by decide +kernel

/-- A pre-emption whose one group has halted. -/
def preemptSt : State :=
  let e : Edge := ⟨some 0, none, none, none, 0, false, false, false⟩
  onWing (fun k => { k with running := true, preempt := true, edge := some e, wclu := 1 })
    (onTenant (fun t => { t with block := some ⟨0, 0, 0, 0x300000, 0x100000, 0, 0⟩ })
      (onGroup (fun g => { g with live := 1, lanes := [], active := none, halt := .halted, id := { g.id with cloak := 0x40100000 } })
        (mapped (base 0))))

theorem witness_O45_preempt : let s := preemptSt
    let e : Edge := ⟨some 0, none, none, none, 0, false, false, false⟩
    (getWing s 0).edge = some e ∧ (getTenant s ⟨0, 0⟩).saved = none ∧ fkeys s.cores = [0] ∧
      (getCore s 0).groups.map (fun p => (p.1, p.2.id.ctx == ⟨0, 0⟩ && p.2.halt == .halted && !isAp p.2 && p.2.handler == none)) = [(0, true)] ∧
      enginesDone s ⟨0, 0⟩ = true ∧ quietB s 0 = true ∧ (getCore s 0).sends = [] ∧ (getCore s 0).boxes = [] ∧
      (getTenant s ⟨0, 0⟩).streams = [] ∧ imageSize s ⟨0, 0⟩ ≤ 0x100000 ∧ (spillGroup s 0 0 true).isOk = true ∧
      (getWing s 0).wclu.getLsbD 0 = true := by decide +kernel

/-- The save area takes the records of the pre-empted tenant. -/
theorem witness_O45_records : let s := preemptSt
    let x : Ctx := ⟨0, 0⟩
    (match spillGroup s 0 0 true with
      | .ok u => (writeRecs x (getTenant s x) (imageOf s x) (recIds (getTenant s x) (imageOf s x)) 0x300000 u).isOk
      | .error _ => false) = true ∧ (getTenant s x).held = none := by decide +kernel

/-- The tenant that was pre-empted there is to run again; what the spill has left in the area of its group is written out. -/
def restSt : State :=
  match exec (.edgeCommit 0) preemptSt with
  | .next t => { onWing (fun k => { k with edge := some { someEdge with out := none, row := some 0, inc := some 0 } }) t with
      hostMem := [(0x100188, 4), (0x100190, 1)] }
  | _ => preemptSt

/-- Its group comes back from what the areas hold. -/
def comesBack (s : State) (v : SavedCtx) (x : Ctx) (g : Group) : Bool :=
  let y := getTenant s x
  (match readRecs s x v (recIds y v) 0x300000 (y, v) with
    | .ok z => z.1 == y && z.2 == v
    | .error _ => false) &&
  (imagePoison s x 0x300000 (recsSize y v)).isNone && !isAp g && g.id.ctx == x && g.handler.isNone &&
  (areaPoison s (resume s.clock g)).isNone && (groupFromArea s (resume s.clock g)).isOk && (getBox s 0 x).inbox.isEmpty &&
  (getWing s 0).faults.isEmpty && (y.block.map (·.save)) == some 0x300000

theorem witness_O45_restore : let s := restSt
    ((getTenant s ⟨0, 0⟩).block.isSome && (getTenant s ⟨0, 0⟩).held.isNone) = true ∧ (getTenant s ⟨0, 0⟩).ctxReg = 0 ∧
      (getWing s 0).edge.map (fun e => outGone s 0 e) = some true := by decide +kernel

theorem witness_O45_back : (match (getTenant restSt ⟨0, 0⟩).saved with
    | some v => (match v.cores with
      | [q] => v.half == 0 && v.tiles.isEmpty && q.core == 0 && q.apq.isNone && q.boxes.isEmpty && q.sends.isEmpty &&
          q.trapOwner.isNone && q.trapQueue.isEmpty && (match q.groups with
            | [p] => p.1 == 0 && comesBack restSt v ⟨0, 0⟩ p.2
            | _ => false)
      | _ => false)
    | none => false) = true := by decide +kernel

theorem witness_O45_donate : let s := onWing (fun k => { k with curRow := someRow 0 ||| 0x1080000 }) (slotSt 1)
    let k := getWing s 0
    k.running = true ∧ k.edge = none ∧ k.donated = none ∧ rowDonates k.curRow = true ∧ tenantIdle s (curCtx s 0) = true ∧
      rowDonates (getWing (slotSt 1) 0).curRow = false := by decide +kernel

theorem witness_O45_timeout : let e : Edge := { someEdge with out := none }
    let s := onWing (fun k => { k with edge := some e, preempt := true }) (slotSt 1)
    (getWing s 0).edge = some e ∧ e.inc ≠ none ∧ e.killed = false ∧ outGone s 0 e = true ∧ (getWing s 0).preempt = true ∧ (getWing (slotSt 1) 0).preempt = false := by
  decide +kernel

theorem witness_O45_enable : let s := onWing (fun k => { k with running := false }) (slotSt 1)
    let k := getWing s 0
    (getWing (slotSt 1) 0).running = true ∧ k.running = false ∧ k.edge = none ∧ consistent k k.rows = true ∧
      consistent (getWing State.reset 0) (getWing State.reset 0).rows = false := by decide +kernel

-- booted, and not
theorem witness_O45_boot : (slotSt 1).booterr = false ∧ ({ slotSt 1 with booterr := true } : State).booterr = true := by decide +kernel

-- O46: an enabled wing's table that a row leaves consistent, and one that it does not; bit words at the last of their range; graces
theorem witness_O46 : let k := getWing (slotSt 1) 0
    k.en = true ∧ consistent k (sset 0 k.rows 2 (someRow 0)) = true ∧ consistent k (sset 0 k.rows 2 (someRow 0 + 2 ^ 40)) = false ∧
      (k.eff.any (fun r => rowValid r.2 && rowTenant r.2 == 1)) = true ∧ (k.eff.any (fun r => rowValid r.2 && rowTenant r.2 == 2)) = false ∧
      (getWing State.reset 0).en = false ∧ 499 < (getWing State.reset 0).grace2.toNat ∧ (500 : Nat) ≤ 500 ∧ 51 > (getWing State.reset 0).grace1.toNat := by
  decide +kernel

theorem witness_O47 : let s := onTenant (fun t => { t with ctxReg := 1, block := some ⟨0, 0x30000, 4, 0, 0, 0, 0⟩ }) (onWing (fun k => { k with wweng := 1 })
      (let v := mapped State.reset; { v with mem := memWrite v.mem (0x30000 + 128 * 3) entryBytes }))
    (getTenant s ⟨0, 0⟩).ctxReg.getLsbD 0 = true ∧ (getTenant State.reset ⟨0, 0⟩).ctxReg.getLsbD 0 = false ∧
      (entryRead s ⟨0, 0⟩ 3 0 128).toOption = some entryBytes ∧ armCheck s ⟨0, 0⟩ entryBytes = true ∧
      armCheck s ⟨0, 0⟩ (zeroBytes 128) = false ∧ getStream s ⟨0, 0⟩ 3 = none ∧
      (match devWrite s ⟨0, 0⟩ (streamAddr s ⟨0, 0⟩ 3 + 0x7C) (leBytes 4 0x80000000) with
        | .ok u => (devWrite u ⟨0, 0⟩ (streamCfg entryBytes).dir (zeroBytes 64)).isOk
        | .error _ => false) = true ∧
      (getWing s 0).en = false ∧ (getWing (slotSt 1) 0).en = true ∧ (600 : Nat) ≤ 600 ∧ (2400 : Nat) ≤ 2400 := by decide +kernel

-- an accepted request of each operation, with and without a path to the host
theorem witness_O47_attest : let s := { State.reset with mailboxes := [(0, { Mailbox.reset with go := true }), (24, { Mailbox.reset with go := true, goOp := true })] }
    (getMailbox s 0).go = true ∧ (getMailbox s 24).go = true ∧ (getMailbox s 24).goOp = true ∧ (getMailbox s 0).goOp = false ∧
      (getMailbox s 1).go = false ∧ (getWing s 0).whq = 0 ∧ (getWing (mapped State.reset) 0).whq ≠ 0 := by decide +kernel

/-! Translation and faults -/

theorem witness_O48_xinv : let s := onWing (fun k => { k with xbusy := true }) (base 0)
    (getWing s 0).xbusy = true ∧ (fkeys s.cores).all (quietB s) = true ∧ s.peerOut = [] ∧ (getWing State.reset 0).xbusy = false := by decide +kernel

/-- A store that awaits its walk, to a mapped address and to one that is not. -/
def walkSt (va : Nat) : State :=
  onCore (fun c => { c with sb := [{ someStore ⟨.dev, 0⟩ with xl := .walking, va := va }] })
    (onWing (fun k => { k with fqlog := 5 }) (mapped (withBlock (base 0))))

theorem witness_O48_walk : let e := { someStore ⟨.dev, 0⟩ with xl := .walking, va := 0x20000 }
    let f := { someStore ⟨.dev, 0⟩ with xl := .walking, va := 0x80000000 }
    (getCore (walkSt 0x20000) 0).sb[0]? = some e ∧ (getTenant (walkSt 0x20000) ⟨0, 0⟩).saved = none ∧
      (resolveEntry (walkSt 0x20000) e).isOk = true ∧ (getCore (walkSt 0x80000000) 0).sb[0]? = some f ∧
      (match resolveEntry (walkSt 0x80000000) f with | .error r => r.replay | .ok _ => false) = true ∧
      hasFaultQueue (getWing (walkSt 0x80000000) 0) = true ∧ walkRecord (getCore (walkSt 0x80000000) 0) f = none ∧
      -- no other entry waits for the walk
      (∀ s ∈ [walkSt 0x20000, walkSt 0x80000000], (fkeys s.cores).Nodup ∧ ∀ d ∈ fkeys s.cores, d = 0 ∧ (getCore s d).sb.length = 1) ∧
      State.reset.booterr = false := by decide +kernel

def someRec : FaultRec := { FaultRec.blank 0x10 10 0 with id := 4, replay := true }

-- a queue of 32 with room, a full one, and none
theorem witness_O48_record :
    let q := fun (tail : Word) (log : BitVec 5) (r : FaultRec) =>
      getWing (onWing (fun k => { k with faults := [r], fqtail := tail, fqlog := log, whq := 1 }) State.reset) 0
    hasFaultQueue (q 31 5 someRec) = true ∧ (q 31 5 someRec).faults.find? (fun r => r.seq.isNone) = some someRec ∧
      ((q 31 5 someRec).fqtail - (q 31 5 someRec).fqhead).toNat ≠ 2 ^ 5 ∧ ((q 32 5 someRec).fqtail - (q 32 5 someRec).fqhead).toNat = 2 ^ 5 ∧
      hasFaultQueue (q 0 4 { someRec with replay := false }) = false ∧
      (q 0 4 { someRec with replay := false }).faults.find? (fun r => r.seq.isNone) = some { someRec with replay := false } := by decide +kernel

theorem witness_O48_answer : let r := { someRec with seq := some 3 }
    let s := onWing (fun k => { k with faults := [r], fqrseq := 3 }) (onGroup (fun g => { g with gpark := .fault 4 allLanes }) (base 0))
    namedRecord (getWing s 0) = some r ∧ namedRecord (getWing State.reset 0) = none ∧ (getTenant s ⟨0, 0⟩).saved = none ∧ r.kind = 0x10 ∧
      (faultGroup (dropRecord s 0 4) 0 4).map (fun p => (p.1, p.2.1, isAp p.2.2.1, p.2.2.1.active.map (·.clause))) =
        some (0, 0, false, some (some placeClause)) ∧
      (getTenant (onTenant (fun t => { t with saved := some ⟨0, [], []⟩ }) s) ⟨0, 0⟩).saved ≠ none := by decide +kernel
theorem ok_of_some {α β : Type} {e : Except α β} {b : β} (h : e.toOption = some b) : e = .ok b := by
  cases e <;> simp_all [Except.toOption]

-- both stages of a walk: the tables that lead to a leaf, and entries that are not valid
theorem witness_O48_tables : let s := mapped (base 0)
    let k := getWing s 0
    k.s2root ≠ 0 ∧ LeadsTo true (fun a => .ok (leNat (memRead s.mem a 8))) k.s2root.toNat 0 2 (fun j => 0x100000 + 0x1000 * j) ∧
      EntryFits true 2 0x1D ∧ ¬EntryFits true 1 0x1D ∧ leNat (memRead s.mem (entryOf 0 2 0x102000) 8) = 0x1D ∧
      leNat (memRead s.mem (entryOf (2 ^ 48) 0 0x100000) 8) % 2 = 0 := by
  refine ⟨by decide +kernel, ⟨by decide +kernel, by decide, fun j hj => ?_⟩, by unfold EntryFits; decide +kernel, by unfold EntryFits; decide +kernel,
    by decide +kernel, by decide +kernel⟩
  interval_cases j
  · exact ⟨0x101003, by decide +kernel, rfl, rfl, by unfold EntryFits; decide +kernel, rfl⟩
  · exact ⟨0x102003, by decide +kernel, rfl, rfl, by unfold EntryFits; decide +kernel, rfl⟩

theorem witness_O48_stages : let s := mapped (base 0)
    let k := getWing s 0
    (getTenant s ⟨0, 0⟩).s1root ≠ 0 ∧ LeadsTo false (readStage1 s k) (getTenant s ⟨0, 0⟩).s1root.toNat 0 2 (fun j => 0x103000 + 0x1000 * j) ∧
      readStage1 s k (entryOf 0 2 0x105000) = .ok 0x1D ∧ EntryFits false 2 0x1D ∧
      walkStage2 s k 0 = .ok ⟨0, 30, 0x1D⟩ ∧ leafTgt s k ⟨0, 30, 0x1D⟩ = .ok .dev ∧ (walk s ⟨0, 0⟩ 0x40000000).isOk = true := by
  refine ⟨by decide +kernel, ⟨by decide +kernel, by decide, fun j hj => ?_⟩, ok_of_some (by decide +kernel), by unfold EntryFits; decide +kernel, ok_of_some (by decide +kernel), ok_of_some (by decide +kernel),
    by decide +kernel⟩
  interval_cases j
  · exact ⟨0x104003, ok_of_some (by decide +kernel), rfl, rfl, by unfold EntryFits; decide +kernel, rfl⟩
  · exact ⟨0x105003, ok_of_some (by decide +kernel), rfl, rfl, by unfold EntryFits; decide +kernel, rfl⟩

/-! The device and what surrounds it -/

-- O49: seven refreshes postponed, and eight; a range that no stage 2 maps, and one in a table
theorem witness_O49 : let s := { State.reset with choices := [1], postponed := [(0, 7), (1, 8)] }
    s.liveChan.getLsbD 0 = true ∧ (choose s 2).1 = 1 ∧ sget 0 s.postponed 0 < 8 ∧ sget 0 s.postponed 1 = 8 ∧ (choose State.reset 2).1 = 0 ∧
      s.stopped = false ∧ (getBlock (withBlock (base 0)) 0 0).isSome = true ∧
      (fkeys State.reset.wings).flatMap (fun w => (stage2Hits State.reset w 0x100000).map (fun h => (w, h))) = [] ∧
      (let v := mapped State.reset
       (fkeys v.wings).flatMap (fun w => (stage2Hits v w 0x100000).map (fun h => (w, h))) ≠ []) := by decide +kernel

-- a clean sector of a slice and a dirty one of device memory; a home sector as DRAM has it; a forced refresh; a hot device
theorem witness_O49_copies : let k := l2Key ⟨0, 0⟩ 5
    let s := onCluster (fun n => { n with l2 := [(k, someSector)] }) (base 0)
    let u := onCluster (fun n => { n with l2 := [(k, { someSector with dirty := 0 })] }) (base 0)
    fget (getCluster s 0).l2 k = some someSector ∧ someSector.dirty ≠ 0 ∧ (sectorLoc (k / 256)).tgt = .dev ∧
      fget (getCluster u 0).l2 k = some { someSector with dirty := 0 } ∧ memRead s.mem 64 32 = memRead s.dram 64 32 ∧
      fget s.correctable 0 = none ∧ (110 : Nat) ≤ 110 ∧ (109 : Nat) < 110 ∧ bankPc 1 = bankPc 0 := by decide +kernel

-- O50: the last bytes of device memory, and one byte more; a wing's window mapped and not; a port that takes peers
theorem witness_O50 : let s := mapped State.reset
    let u := { s with ports := [(2, { Port.reset with jup := true, jen := true })], wings := fmodify s.wings 0 (fun k => { k with en := true, wclu := 1, running := true }) }
    s.booterr = false ∧ (deviceBytes s - 4) + 4 ≤ deviceBytes s ∧ deviceBytes s < (deviceBytes s - 4) + 5 ∧
      wingBytes s 0 0x20000 false true false 4 = some [0x20000, 0x20001, 0x20002, 0x20003] ∧ wingBytes s 0 0x80000000 false true false 4 = none ∧
      wingBytes s 0 0x20000 true false false 4 = some [0x20000, 0x20001, 0x20002, 0x20003] ∧
      takesPeers State.reset 2 = false ∧ takesPeers u 2 = true ∧ u.lastRel = [] ∧
      wingBytes u 0 0x20000 true true true 4 = some [0x20000, 0x20001, 0x20002, 0x20003] ∧ wingBytes u 0 0x80000000 true false true 4 = none ∧
      liveCluster u (clusterOf 0) = true ∧ (getWing u 0).wclu.getLsbD (clusterOf 0) = true ∧ contextRuns u ⟨0, 0⟩ = true ∧
      (getBox u 0 ⟨0, 0⟩).posted = [] ∧ (getBox u 0 ⟨0, 0⟩).overflow.length < Config.overflowEntries ∧ (getWing u 0).wclu.getLsbD (clusterOf 4) = false ∧
      poisonIn s ⟨.dev, 0x20000⟩ 1 = none ∧ poisonIn { s with poison := [0x20000] } ⟨.dev, 0x20000⟩ 1 ≠ none := by decide +kernel

theorem witness_O50_ack : let y : PeerWrite := ⟨⟨0, 0⟩, 0, 0, 0, some 1, 64, [1, 2]⟩
    let s := { base 0 with peerOut := [(2, [y])] }
    sget [] s.peerOut 2 = [y] ∧ (groupOfAge s 0 0 0).isSome = true := by decide +kernel

/-! Issue -/

/-- The placed group at its header, which waits on flag 0 of the header given; one word of a clause follows. -/
def pickSt (hdr w : Nat) (busy : Nat) : State :=
  let s := running (atHeader (base w))
  onGroup (fun g => { g with flags := sset 0 [] 0 busy }) { s with mem := memWrite s.mem 0 (leBytes 4 hdr) }

-- a busy flag, an illegal header, an illegal word, and a clause of one word
theorem witness_O52_pick : (∀ p ∈ [(0x0010F110, 0x20008083, 1), (0x0010F010, 0x20008083, 0), (0x0010F110, 0, 0), (0x0010F110, 0x20008083, 0)],
      let s := pickSt p.1 p.2.1 p.2.2
      let f := fetchWord s 0 ⟨0, 0⟩ (BitVec.ofNat 56 placeVa)
      (getGroup s 0 0).map (fun g => g.active.isNone && g.gpark == .none && g.halt == .run && slotRuns s g.id.ctx && heldStore s 0 0 g == none &&
        selectEntry (pickable s 0 g) == g.frontier.head? && g.frontier.all (fun e => e.clause.isNone && e.fail.isNone) && g.ovfq.isEmpty &&
        (lanesOf allLanes).all (fun l => !(laneSt g l).step) && breakHit s g.id.ctx (BitVec.ofNat 56 placeVa) == none) = some true ∧
      f.1 = .word (BitVec.ofNat 32 p.1) ∧ getGroup f.2 0 0 = getGroup s 0 0 ∧ breakHit f.2 ⟨0, 0⟩ (BitVec.ofNat 56 placeVa) = none) ∧
    (getGroup (pickSt 0x0010F110 0x20008083 1) 0 0).map (fun g => waitBusy g 0x0010F110) = some true ∧
    decodeHeader 0x0010F010 = none ∧ decodeHeader 0x0010F110 = some ⟨1, some 0, none, 1, 4, false⟩ ∧
    (let cl := fun (w : Nat) => decodeClause false ⟨1, some 0, none, 1, 4, false⟩ 16 0x10004
       (clauseWords (fetchWord (pickSt 0x0010F110 w 0) 0 ⟨0, 0⟩ (BitVec.ofNat 56 placeVa)).2 0 ⟨0, 0⟩ (BitVec.ofNat 56 placeVa) 1)
     (cl 0).isOk = false ∧ (cl 0x20008083).toOption = some [(0x10004, .iadd .wrap ⟨false, false, 2, 1, 3⟩)]) := by decide +kernel

theorem witness_O52_resume : let s := running (onGroup (fun g => { g with active := none, frontier := [placeEntry] }) (base 0))
    (getGroup s 0 0).map (fun g => g.active.isNone && g.gpark == .none && g.halt == .run && slotRuns s g.id.ctx && heldStore s 0 0 g == none &&
      selectEntry (pickable s 0 g) == some placeEntry) = some true ∧ placeClause.bad = false ∧ selectEntry [placeEntry] = some placeEntry ∧
    slotRuns (base 0) ⟨0, 0⟩ = false := by decide +kernel

-- a side without a group, one whose group another has waited 32 cycles beside, and one that keeps its group
theorem witness_O52_switch : let s := onCore (fun c => { c with side0 := none }) (pickSt 0x0010F110 0x20008083 0)
    let u := onCore (fun c => { c with side0 := some 0 }) s
    let v := onCore (fun c => { c with side0 := some 1 }) { setGroup s 0 1 placeGroup with clock := 64 }
    let waiting := fun (g : Group) => { g with waits := true, readyAt := 32 }
    let w := onGroup waiting v
    (getCore s 0).side0 = none ∧ (longestWaiting s ((getCore s 0).groups.filter (fun q => ofSide false q.1 && groupReady s 0 q.1))).map (·.1) = some 0 ∧
      (getCore State.reset 0).cap ∈ [64, 48, 32, 16, 8, 4] ∧ (getCore u 0).side0 = some 0 ∧ ofSide false 0 = true ∧
      (getCore u 0).groups.map (fun q => (q.1, groupReady u 0 q.1)) = [(0, true)] ∧
      groupReady w 0 0 = true ∧ ((getGroup w 0 0).map (waitsSince w)) = some 32 := by decide +kernel

-- 256 cycles since the last use, and 255; 65,536 cycles held with a group that waits for a token at a load, and with none
theorem witness_O52_tokens : let hold := fun (clock : Nat) => onGroup (fun g => { g with token := true }) { pickSt 0x0010F110 0xC0800000 0 with clock := clock }
    let two := setGroup (hold 65536) 0 1 { placeGroup with active := none, frontier := [{ placeEntry with pc := BitVec.ofNat 56 placeVa, clause := none }] }
    (getGroup (hold 256) 0 0).map (fun g => g.token && decide (g.tokenLast + 256 ≤ 256)) = some true ∧ (255 : Nat) < placeGroup.tokenLast + 256 ∧
      (getGroup two 0 0).map (fun g => g.token && decide (g.tokenSince + 65536 ≤ two.clock)) = some true ∧
      (getCore two 0).groups.any (fun p => p.1 != 0 && wantsToken two 0 p.2) = true ∧
      (getCore (hold 65536) 0).groups.any (fun p => p.1 != 0 && wantsToken (hold 65536) 0 p.2) = false := by
  decide +kernel

theorem witness_O52_trap : let s := onCore (fun c => { c with trapQueue := [0] }) (onTenant (fun t => { t with trap := some trapDesc })
      (onGroup (fun g => { g with active := none, gpark := .trapPool, pendTrap := some ⟨placeEntry, TrapRegs.zero⟩ }) (base 0)))
    (getCore s 0).trapOwner = none ∧ (getCore s 0).trapQueue = [0] ∧ (getGroup s 0 0).map (·.pendTrap) = some (some ⟨placeEntry, TrapRegs.zero⟩) ∧
      (getTenant s ⟨0, 0⟩).trap = some trapDesc ∧ (getCore (onCore (fun c => { c with trapOwner := some 0 }) s) 0).trapOwner ≠ none := by decide +kernel

-- O53: under WB 1016, v7 is the last name and v8 none
theorem witness_O53 : let s := eachLane (fun x => { x with wb := 1016 }) (base 0)
    let i := iss s
    Issues s i ∧ badLanes i [7] = 0 ∧ badLanes i [8, 7, 7] ≠ 0 ∧ badLanes i [8, 7] ≠ 0 ∧ badLanes i ([7] ++ fieldsFrom 4 (wordsFor 16)) = 0 ∧
      badLanes i ([7] ++ fieldsFrom 5 (wordsFor 16)) ≠ 0 ∧ i.g.handler = none ∧ isAp i.g = false := by decide +kernel

theorem witness_O55 : (getBlock (withBlock (base 0)) 0 0).isSome = true := by decide +kernel

theorem witness_O56 : MemoriesWf State.reset ∧ (match step (base 0x20008083) with | .next _ => true | _ => false) = true :=
  ⟨⟨by decide, by decide, by decide, fun _ => rfl⟩, by decide +kernel⟩

theorem witness_O58 : (issuer (base 0)).isSome = true ∧ (Instr.overtempStop).isCode = false := by decide +kernel

/-! O59 and O60: lanes in a handler, at an address that is legal and with a trapped header; and a `WEMIT` with one record left. -/

theorem witness_O59 : (∀ b ∈ [true, false],
      let s := onGroup (fun g => { g with handler := some ⟨allLanes, 0, b, [], []⟩ }) (named [(1, 0x10000), (2, 0)] (base 0))
      Ready s (iss s) [] [] [] ∧ Ready s (iss s) [17, 18] [17, 18] [] ∧ (iss s).g.handler = some ⟨allLanes, 0, b, [], []⟩ ∧
        (fieldPair (iss s).g (lowLane (iss s).e.lanes) 17).toNat % 4 = 0) := by decide +kernel

/-- Lane 0 has yet to append its record; the word is `WEMIT v4`. -/
def resumeSt : State :=
  let s := onGroup (fun g => { g with wemit := 1 }) emitSt
  { s with mem := memWrite s.mem (placeOf placeTlb ((iss s).e.pc).toNat).a (leBytes 4 0xF2400200) }

theorem witness_O60 : let s := resumeSt
    let i := iss s
    s.focusCore = 0 ∧ s.focusSlot = 0 ∧ Fits s [4] [4] [] ∧ i.g.wemit ≠ 0 ∧ i.g.gpark = .none ∧ i.g.halt = .run ∧
      slotRuns s i.g.id.ctx = true ∧ decodeWord (wordAt s i) (some 0) = .ok (.wemit 4) ∧ quietB s 0 = true := by decide +kernel

theorem witness_O60_emits : ∃ u, EmitsAll resumeSt (iss resumeSt) 4 u :=
  ⟨_, 0, 0, someStream { someCfg 1 false with outv := true } oneWin, theBlock, someCfg 3 false, by decide +kernel, by decide +kernel,
    by decide +kernel, by decide +kernel, by decide +kernel, by decide +kernel, by decide +kernel, pair_of_fst (by decide +kernel)⟩

end Sys2Proof.Tests
end

section
/-!
SUPPORT. Instructions of one result per lane and no exceptions: what they yield with the standard shapes of R56.
-/
namespace Sys2Proof.Machine

/-- A shape that is sound for some values is sound for values that agree with them in the active lanes. -/
theorem ShapeSound.congr {i : Iss} {a b : Nat → Word} {sh : ResShape} (hl : i.e.lanes ≠ 0)
    (hab : ∀ l < 64, hasLane i.e.lanes l = true → a l = b l) (h : ShapeSound i b sh) : ShapeSound i a sh := by
  obtain ⟨low64, lowIn⟩ := mem_lanesOf.1 (lowLane_mem hl)
  cases sh with
  | unalloc => exact fun l h64 ha => (hab l h64 ha).trans (h l h64 ha)
  | uniform => exact fun l h64 ha => by rw [hab l h64 ha, hab _ low64 lowIn]; exact h l h64 ha
  | affine b st => exact fun l h64 ha => (h l h64 ha).trans (hab l h64 ha).symm
  | general => trivial

theorem resCode_stdShape (i : Iss) (srcs : List Nat) : resCode (stdShape (srcs.map (fieldVal i))) = stdCode i srcs := by
  simp only [stdShape, stdCode, List.all_map, Function.comp_def]
  split <;> rfl

theorem stdShape_ne_general {i : Iss} {srcs : List Nat} (h : ∀ f ∈ srcs, isUniform (fieldVal i f) = true) :
    stdShape (srcs.map (fieldVal i)) ≠ .general := by
  have hu : (srcs.map (fieldVal i)).all isUniform = true := by simpa using h
  simp [stdShape, hu]

/-- An instruction run by `runPlain` with the standard shape yields its value on what the lane's sources hold: only active lanes
count, and these read the words that the fields name. -/
theorem yields_of_runPlain {ins : Instr} {srcs rels : List Nat} {d : Nat} {sh : Iss → ResShape} {val : Iss → Nat → Word}
    {f : (Nat → Word) → Word} (hexec : ∀ s, exec ins s = runPlain s srcs rels d sh val)
    (hsh : ∀ i, sh i = stdShape (srcs.map (fieldVal i))) (hval : ∀ i l, val i l = f (readLane i l))
    (hdep : ∀ v w : Nat → Word, (∀ x ∈ srcs, v x = w x) → f v = f w) : Yields ins srcs rels d f := by
  intro s i hready hroom hap
  have hlanes : i.e.lanes ≠ 0 := hready.1.2
  have hact : ∀ l, hasLane i.e.lanes l = true → val i l = f (fieldWord i.g l) := fun l ha => by
    rw [hval]; exact hdep _ _ fun x _ => readLane_active x ha
  have hsound : fullMask i = true → ShapeSound i (val i) (sh i) := fun hfull => by
    rw [hsh]; exact (stdShape_sound hfull hlanes hdep).congr hlanes fun l _ ha => hact l ha
  have hgen : isAp i.g = true → fullMask i = true ∧ sh i ≠ .general := fun h => by
    rw [hsh]; exact ⟨(hap h).1, stdShape_ne_general (hap h).2⟩
  obtain ⟨t, hrun, g, hgrp, honly, hhold, hshape, hrest⟩ :=
    runLanes_spec (rels := rels) (sh := sh) (f := fun i l => (val i l, flagNone)) hready hroom hgen
      (fun _ _ _ => BitVec.zero_and) hsound
  refine ⟨t, (hexec s).trans hrun, g, hgrp, honly, fun x hx l h64 ha => ?_, ?_, hrest⟩
  · rw [hhold x hx l h64 ha]; exact hact l ha
  · simpa only [hsh, resCode_stdShape] using hshape

theorem yields_of_run1 {ins : Instr} {r : R2} {F : Word → Word} {f : (Nat → Word) → Word}
    (hexec : ∀ s, exec ins s = run1 s r stdShape1 F) (hval : ∀ v, F (v r.sa.toNat) = f v) :
    Yields ins [r.sa.toNat] (rels2 r) r.d.toNat f :=
  yields_of_runPlain hexec (fun _ => rfl) (fun i l => hval (readLane i l)) fun v w h => by
    rw [← hval, ← hval, h _ (by simp)]

theorem yields_of_run2 {ins : Instr} {r : R3} {F : Word → Word → Word} {f : (Nat → Word) → Word}
    (hexec : ∀ s, exec ins s = run2 s r stdShape2 F) (hval : ∀ v, F (v r.sa.toNat) (v r.sb.toNat) = f v) :
    Yields ins (srcs3 r) (rels3 r) r.d.toNat f :=
  yields_of_runPlain hexec (fun _ => rfl) (fun i l => hval (readLane i l)) fun v w h => by
    rw [← hval, ← hval, h _ (by simp [srcs3]), h _ (by simp [srcs3])]

end Sys2Proof.Machine
end

section
/-!
SUPPORT. The values of the bit counts (R336) and of the bit fields (R333), in the terms of the rules.
-/
namespace Sys2Proof.Machine

/-! ### Bit counts (R336) -/

theorem testBit_eq (n k : Nat) : testBit n k = n.testBit k := by
  rw [testBit, Nat.testBit_eq_decide_div_mod_eq, beq_eq_decide]

theorem popCount_eq (n k : Nat) : popCount n k = ((List.range k).filter n.testBit).length := by
  induction k with
  | zero => rfl
  | succ k ih =>
    rw [popCount, ih, testBit_eq, List.range_succ, List.filter_append, List.length_append, Nat.add_comm]
    cases h : n.testBit k <;> simp [h]

theorem length_filter_le_range (c n : Nat) : ((List.range n).filter (fun k => decide (c ≤ k))).length = n - c := by
  induction n with
  | zero => simp
  | succ n ih =>
    rw [List.range_succ, List.filter_append, List.length_append, ih]
    by_cases h : c ≤ n
    · simp [h]; omega
    · simp [h]; omega

theorem ushiftRight_eq_zero_iff (a : Word) (k : Nat) : a >>> k = 0 ↔ a.toNat < 2 ^ k := by
  rw [← BitVec.toNat_inj, BitVec.toNat_ushiftRight, Nat.shiftRight_eq_div_pow]
  exact Nat.div_eq_zero_iff_lt (Nat.two_pow_pos k)

/-- The zero bits above the highest set bit are the positions from which nothing of the word is left. -/
theorem clzVal_eq (a : Word) : clzVal a = BitVec.ofNat 32 ((List.range 32).filter (fun k => a >>> k == 0)).length := by
  unfold clzVal
  by_cases ha : a = 0
  · subst ha; rfl
  · have hz : a.toNat ≠ 0 := fun h => ha (BitVec.eq_of_toNat_eq h)
    have hk : (fun k => a >>> k == 0) = fun k => decide (a.toNat.log2 + 1 ≤ k) := by
      funext k
      rw [beq_eq_decide, decide_eq_decide, ushiftRight_eq_zero_iff, ← Nat.log2_lt hz, Nat.succ_le_iff]
    rw [hk, length_filter_le_range, if_neg (by simpa using ha), bw, show 31 - a.toNat.log2 = 32 - (a.toNat.log2 + 1) by omega]

/-! ### Bit fields (R333) -/

theorem fieldLen_add_fieldPos_le (c : Word) : fieldLen c + fieldPos c ≤ 32 := by
  have hpos : fieldPos c < 32 := Nat.mod_lt _ (by decide)
  have hlen : fieldLen c ≤ 32 - fieldPos c := Nat.min_le_right ..
  omega

theorem bfeVal_unsigned (a c : Word) : bfeVal false a c = BitVec.ofNat 32 (a.toNat / 2 ^ fieldPos c % 2 ^ fieldLen c) := by
  unfold bfeVal
  by_cases hn : fieldLen c = 0
  · simp [hn, Nat.mod_one]
  · simp [hn, bw]

theorem testBit_top_eq_msb (n y : Nat) : testBit (y % 2 ^ n) (n - 1) = (BitVec.ofNat n y).msb := by
  rw [testBit_eq, BitVec.msb_eq_getLsbD_last, BitVec.getLsbD, BitVec.toNat_ofNat]

theorem bfeVal_signed (a c : Word) : bfeVal true a c =
    if fieldLen c = 0 then 0 else (BitVec.ofNat (fieldLen c) (a.toNat / 2 ^ fieldPos c)).signExtend 32 := by
  unfold bfeVal
  by_cases hn : fieldLen c = 0
  · simp [hn]
  · rw [if_neg hn, if_neg (by simpa using hn), Bool.true_and, testBit_top_eq_msb, BitVec.signExtend, BitVec.toInt_eq_msb_cond,
      BitVec.toNat_ofNat]
    split
    · simp
    · exact (BitVec.ofInt_natCast 32 _).symm

/-- The mask of a field of `n` bits at bit `p` that ends at bit 31 or below. -/
theorem fieldMask_eq {n p : Nat} (h : n + p ≤ 32) : BitVec.ofNat 32 ((2 ^ n - 1) * 2 ^ p) =
    if n = 0 then (0 : Word) else (0xFFFFFFFF >>> (32 - n)) <<< p := by
  have hmask : BitVec.ofNat 32 ((2 ^ n - 1) * 2 ^ p) = (BitVec.allOnes 32 >>> (32 - n)) <<< p := by
    refine BitVec.eq_of_getLsbD_eq fun k hk => ?_
    have hin : 32 - n + (k - p) < 32 ↔ k - p < n := by omega
    have hlow : decide (k ≥ p) = !decide (k < p) := by rw [← decide_not, decide_eq_decide, Nat.not_lt]
    simp only [BitVec.getLsbD_ofNat, ← Nat.shiftLeft_eq, Nat.testBit_shiftLeft, Nat.testBit_two_pow_sub_one,
      BitVec.getLsbD_shiftLeft, BitVec.getLsbD_ushiftRight, BitVec.getLsbD_allOnes, hin, hlow, Bool.and_assoc]
  split
  · subst_vars; simp
  · exact hmask

theorem bfiVal_eq (a c d : Word) : bfiVal a c d =
    let m : Word := if fieldLen c = 0 then 0 else (0xFFFFFFFF >>> (32 - fieldLen c)) <<< fieldPos c
    (d &&& ~~~m) ||| ((a <<< fieldPos c) &&& m) := by
  rw [bfiVal, fieldMask_eq (fieldLen_add_fieldPos_le c)]

end Sys2Proof.Machine
end

section
/-!
SUPPORT. What the decoder refuses in the words of `POPC`, `CLZ`, `BFE`, `BFI` and `SEL` (R95).
-/
namespace Sys2Proof

theorem whenOk_ne_ok {b : Bool} (h : b = false) (j i : Instr) : whenOk b j ≠ .ok i := by simp [whenOk, h]

theorem whenZero_ne_ok {n : Nat} (h : n ≠ 0) (j i : Instr) : whenZero n j ≠ .ok i := by simp [whenZero, h]

theorem plainR3_ne_ok {w : Nat} (h : fld w 23 2 ≠ 0) (f : R3 → Instr) (i : Instr) : plainR3 w f ≠ .ok i :=
  whenOk_ne_ok (by simpa using h) _ i

theorem plainR2_ne_ok {w : Nat} (h : fld w 23 2 ≠ 0 ∨ fld w 14 7 ≠ 0 ∨ fld w 22 1 ≠ 0) (f : R2 → Instr) (i : Instr) :
    plainR2 w f ≠ .ok i := by
  unfold plainR2
  split
  · exact whenZero_ne_ok (by omega) _ i
  · simp

/-- `MOD` 2 and 3 have the high bit set. -/
theorem modHigh_ne_zero {w : Nat} (h : 2 ≤ fld w 23 2) : fld w 24 1 ≠ 0 := by
  simp only [fld] at h ⊢; omega

section
variable {w : Nat} (lit : Option Word)

theorem decodeNat_popc (h : fld w 25 7 = 0x1B) : decodeNat w lit = plainR2 w .popc := by simp only [decodeNat, h]

theorem decodeNat_clz (h : fld w 25 7 = 0x1C) : decodeNat w lit = plainR2 w .clz := by simp only [decodeNat, h]

theorem decodeNat_bfe (h : fld w 25 7 = 0x1D) :
    decodeNat w lit = whenOk (fld w 24 1 == 0) (.bfe (bitAt w 23) (r3At w)) := by simp only [decodeNat, h]

theorem decodeNat_bfi (h : fld w 25 7 = 0x1E) : decodeNat w lit = plainR3 w .bfi := by simp only [decodeNat, h]

theorem decodeNat_sel (h : fld w 25 7 = 0x21) : decodeNat w lit = plainR3 w .sel := by simp only [decodeNat, h]

end

end Sys2Proof
end

section
/-!
The statement on bit counts, bit fields and selection (O11), one lemma per instruction.
-/
namespace Sys2Proof.Machine

section
variable (s : State)

theorem exec_popc (r : R2) : exec (.popc r) s = execPopc r s := rfl

theorem exec_clz (r : R2) : exec (.clz r) s = execClz r s := rfl

theorem exec_bfe (sgn : Bool) (r : R3) : exec (.bfe sgn r) s = execBfe sgn r s := rfl

theorem exec_bfi (r : R3) : exec (.bfi r) s = execBfi r s := rfl

theorem exec_sel (r : R3) : exec (.sel r) s = execSel r s := rfl

end

theorem popc_yields (r : R2) : Yields (.popc r) [r.sa.toNat] (rels2 r) r.d.toNat
    (fun v => BitVec.ofNat 32 ((List.range 32).filter (fun k => (v r.sa.toNat).getLsbD k)).length) :=
  yields_of_run1 (exec_popc · r) fun v => by rw [popCount_eq]; rfl

theorem clz_yields (r : R2) : Yields (.clz r) [r.sa.toNat] (rels2 r) r.d.toNat
    (fun v => BitVec.ofNat 32 ((List.range 32).filter (fun k => v r.sa.toNat >>> k == 0)).length) :=
  yields_of_run1 (exec_clz · r) fun _ => clzVal_eq _

theorem bfe_unsigned_yields (r : R3) : Yields (.bfe false r) (srcs3 r) (rels3 r) r.d.toNat (fun v =>
    BitVec.ofNat 32 ((v r.sa.toNat).toNat / 2 ^ fieldPos (v r.sb.toNat) % 2 ^ fieldLen (v r.sb.toNat))) :=
  yields_of_run2 (exec_bfe · false r) fun _ => bfeVal_unsigned _ _

theorem bfe_signed_yields (r : R3) : Yields (.bfe true r) (srcs3 r) (rels3 r) r.d.toNat (fun v =>
    if fieldLen (v r.sb.toNat) = 0 then 0
    else (BitVec.ofNat (fieldLen (v r.sb.toNat)) ((v r.sa.toNat).toNat / 2 ^ fieldPos (v r.sb.toNat))).signExtend 32) :=
  yields_of_run2 (exec_bfe · true r) fun _ => bfeVal_signed _ _

theorem bfi_yields (r : R3) : Yields (.bfi r) (srcs3 r ++ [r.d.toNat]) (rels3 r) r.d.toNat (fun v =>
    let m : Word := if fieldLen (v r.sb.toNat) = 0 then 0
      else (0xFFFFFFFF >>> (32 - fieldLen (v r.sb.toNat))) <<< fieldPos (v r.sb.toNat)
    (v r.d.toNat &&& ~~~m) ||| ((v r.sa.toNat <<< fieldPos (v r.sb.toNat)) &&& m)) :=
  yields_of_runPlain (exec_bfi · r) (fun _ => rfl) (fun _ _ => bfiVal_eq _ _ _) fun v w h => by
    have ha : v r.sa.toNat = w r.sa.toNat := h _ (by simp [srcs3])
    have hb : v r.sb.toNat = w r.sb.toNat := h _ (by simp [srcs3])
    have hd : v r.d.toNat = w r.d.toNat := h _ (by simp)
    rw [ha, hb, hd]

theorem sel_yields (r : R3) : Yields (.sel r) [r.sa.toNat, r.sa.toNat + 1, r.sb.toNat]
    ((if r.lra then [r.sa.toNat, r.sa.toNat + 1] else []) ++ (if r.lrb then [r.sb.toNat] else [])) r.d.toNat
    (fun v => if v r.sb.toNat ≠ 0 then v r.sa.toNat else v (r.sa.toNat + 1)) :=
  yields_of_runPlain (exec_sel · r) (fun _ => rfl) (fun _ _ => by simp only [bne_iff_ne]) fun v w h => by
    have ha : v r.sa.toNat = w r.sa.toNat := h _ (by simp)
    have hnext : v (r.sa.toNat + 1) = w (r.sa.toNat + 1) := h _ (by simp)
    have hb : v r.sb.toNat = w r.sb.toNat := h _ (by simp)
    rw [ha, hnext, hb]

/-- The reserved fields of `BFE`, of `BFI` and `SEL`, and of `POPC` and `CLZ`. -/
theorem bitField_reserved (w : Word) (h : fld w.toNat 25 7 = 0x1D ∧ 2 ≤ fld w.toNat 23 2 ∨
    (fld w.toNat 25 7 = 0x1E ∨ fld w.toNat 25 7 = 0x21) ∧ fld w.toNat 23 2 ≠ 0 ∨
    (fld w.toNat 25 7 = 0x1B ∨ fld w.toNat 25 7 = 0x1C) ∧
      (fld w.toNat 23 2 ≠ 0 ∨ fld w.toNat 14 7 ≠ 0 ∨ fld w.toNat 22 1 ≠ 0))
    (lit : Option Word) (i : Instr) : decodeWord w lit ≠ .ok i := by
  unfold decodeWord
  rcases h with ⟨hop, hmod⟩ | ⟨hop | hop, hmod⟩ | ⟨hop | hop, hres⟩
  · rw [decodeNat_bfe lit hop]; exact whenOk_ne_ok (by simpa using modHigh_ne_zero hmod) _ i
  · rw [decodeNat_bfi lit hop]; exact plainR3_ne_ok hmod _ i
  · rw [decodeNat_sel lit hop]; exact plainR3_ne_ok hmod _ i
  · rw [decodeNat_popc lit hop]; exact plainR2_ne_ok hres _ i
  · rw [decodeNat_clz lit hop]; exact plainR2_ne_ok hres _ i

/-- Settles O11, instruction by instruction: each runs as an operation of one result per lane, whose value is that of its rule. -/
theorem bitFieldAndSelectResults : Obligations.BitFieldAndSelectResults :=
  ⟨popc_yields, clz_yields, bfe_unsigned_yields, bfe_signed_yields, bfi_yields, sel_yields, bitField_reserved⟩

end Sys2Proof.Machine
end

section
/-!
SUPPORT. Instructions of one result per lane and no exceptions: what they yield with any shape that is sound (R56).
-/
namespace Sys2Proof.Machine

/-- An instruction run by `runPlain` yields its value on what the lane's sources hold, with a shape that is sound for those values under
a full mask and not general where every source is uniform. -/
theorem yieldsAs_of_runPlain {code : Iss → Nat} {ins : Instr} {srcs rels : List Nat} {d : Nat} {sh : Iss → ResShape}
    {val : Iss → Nat → Word} {f : (Nat → Word) → Word} (hexec : ∀ s, exec ins s = runPlain s srcs rels d sh val)
    (hcode : ∀ i, resCode (sh i) = code i) (hval : ∀ i l, val i l = f (readLane i l))
    (hdep : ∀ v w : Nat → Word, (∀ x ∈ srcs, v x = w x) → f v = f w)
    (hsound : ∀ i, fullMask i = true → i.e.lanes ≠ 0 → ShapeSound i (fun l => f (fieldWord i.g l)) (sh i))
    (hgen : ∀ i, (∀ x ∈ srcs, isUniform (fieldVal i x) = true) → sh i ≠ .general) :
    YieldsAs code ins srcs rels d f := by
  intro s i hready hroom hap
  have hact : ∀ l, hasLane i.e.lanes l = true → val i l = f (fieldWord i.g l) := fun l ha => by
    rw [hval]; exact hdep _ _ fun x _ => readLane_active x ha
  obtain ⟨t, hrun, g, hgrp, honly, hhold, hshape, hrest⟩ :=
    runLanes_spec (rels := rels) (sh := sh) (f := fun i l => (val i l, flagNone)) hready hroom
      (fun h => ⟨(hap h).1, hgen i (hap h).2⟩) (fun _ _ _ => BitVec.zero_and)
      (fun hfull => (hsound i hfull hready.1.2).congr hready.1.2 fun l _ ha => hact l ha)
  refine ⟨t, (hexec s).trans hrun, g, hgrp, honly, fun x hx l h64 ha => ?_, ?_, hrest⟩
  · rw [hhold x hx l h64 ha]; exact hact l ha
  · simpa only [hcode] using hshape

section
variable {ins : Instr} {f : (Nat → Word) → Word}

/-- The same of an operation of one source: its shape must be sound for every value that the source can have. -/
theorem yieldsAs_of_run1 {r : R2} {sh : Shaped → ResShape} {F : Word → Word} {code : Shaped → Nat}
    (hexec : ∀ s, exec ins s = run1 s r sh F) (hval : ∀ v, F (v r.sa.toNat) = f v) (hcode : ∀ a, resCode (sh a) = code a)
    (hsound : ∀ i : Iss, i.e.lanes ≠ 0 → ∀ a, ShapeSound i (fun l => F (shapedAt a l)) (sh a))
    (hgen : ∀ a, isUniform a = true → sh a ≠ .general) :
    YieldsAs (fun i => code (fieldVal i r.sa.toNat)) ins [r.sa.toNat] (rels2 r) r.d.toNat f := by
  refine yieldsAs_of_runPlain hexec (fun _ => hcode _) (fun i l => hval (readLane i l)) ?dep ?sound ?gen
  case dep => exact fun v w h => by rw [← hval, ← hval, h _ (by simp)]
  case sound =>
    refine fun i hfull hl => (hsound i hl _).congr hl fun l h64 ha => ?_
    rw [← hval, fieldWord_full hfull h64 ha]
  case gen => exact fun i hu => hgen _ (hu _ (by simp))

/-- The same of an operation of two sources. -/
theorem yieldsAs_of_run2 {r : R3} {sh : Shaped → Shaped → ResShape} {F : Word → Word → Word} {code : Shaped → Shaped → Nat}
    (hexec : ∀ s, exec ins s = run2 s r sh F) (hval : ∀ v, F (v r.sa.toNat) (v r.sb.toNat) = f v)
    (hcode : ∀ a b, resCode (sh a b) = code a b)
    (hsound : ∀ i : Iss, i.e.lanes ≠ 0 → ∀ a b, ShapeSound i (fun l => F (shapedAt a l) (shapedAt b l)) (sh a b))
    (hgen : ∀ a b, isUniform a = true → isUniform b = true → sh a b ≠ .general) :
    YieldsAs (fun i => code (fieldVal i r.sa.toNat) (fieldVal i r.sb.toNat)) ins (srcs3 r) (rels3 r) r.d.toNat f := by
  refine yieldsAs_of_runPlain hexec (fun _ => hcode _ _) (fun i l => hval (readLane i l)) ?dep ?sound ?gen
  case dep => exact fun v w h => by rw [← hval, ← hval, h _ (by simp [srcs3]), h _ (by simp [srcs3])]
  case sound =>
    refine fun i hfull hl => (hsound i hl _ _).congr hl fun l h64 ha => ?_
    rw [← hval, fieldWord_full hfull h64 ha, fieldWord_full hfull h64 ha]
  case gen => exact fun i hu => hgen _ _ (hu _ (by simp [srcs3])) (hu _ (by simp [srcs3]))

end

end Sys2Proof.Machine
end

section
/-!
SUPPORT. Affine shapes, and that the shape of a left shift is sound (R56, R361).
-/
namespace Sys2Proof.Machine

/-! ### Affine shapes -/

theorem affineOf_shapedAt {v : Shaped} {b s : Word} (h : affineOf v = some (b, s)) (l : Nat) :
    shapedAt v l = b + BitVec.ofNat 32 l * s := by
  cases v with
  | general ws => simp [affineOf] at h
  | unalloc | uniform u | affine x p =>
    simp only [affineOf, Option.some.injEq, Prod.mk.injEq] at h
    obtain ⟨rfl, rfl⟩ := h
    simp [shapedAt]

theorem affineOf_isSome_of_isUniform {v : Shaped} (h : isUniform v = true) : (affineOf v).isSome = true := by
  cases v <;> simp_all [isUniform, affineOf]

theorem uniformVal_shapedAt {v : Shaped} {k : Word} (h : uniformVal v = some k) (l : Nat) : shapedAt v l = k := by
  cases v <;> simp_all [uniformVal, shapedAt]

theorem uniformVal_isSome_of_isUniform {v : Shaped} (h : isUniform v = true) : (uniformVal v).isSome = true := by
  cases v <;> simp_all [isUniform, uniformVal]

theorem mkAffine_zero (b : Word) : mkAffine b 0 = .uniform := rfl

theorem mkAffine_of_ne {s : Word} (h : s ≠ 0) (b : Word) : mkAffine b s = .affine b s := if_neg (by simpa using h)

theorem resCode_mkAffine (b s : Word) : resCode (mkAffine b s) = strideCode s := by
  unfold strideCode
  split
  next h => rw [h, mkAffine_zero, resCode]
  next h => rw [mkAffine_of_ne h, resCode]

theorem mkAffine_ne_general (b s : Word) : mkAffine b s ≠ .general := by
  by_cases h : s = 0
  · rw [h, mkAffine_zero]; simp
  · simp [mkAffine_of_ne h]

/-- An affine result is sound, also where its stride is zero and it is stored as uniform. -/
theorem mkAffine_sound {i : Iss} {vals : Nat → Word} {b s : Word} (hl : i.e.lanes ≠ 0)
    (h : ∀ l < 64, hasLane i.e.lanes l = true → vals l = b + BitVec.ofNat 32 l * s) : ShapeSound i vals (mkAffine b s) := by
  obtain ⟨low64, lowIn⟩ := mem_lanesOf.1 (lowLane_mem hl)
  have zeroStride (m : Word) : b + m * 0 = b := by simp
  by_cases hs : s = 0
  · subst hs
    exact fun l h64 ha => by simp only [h l h64 ha, h _ low64 lowIn, zeroStride]
  · rw [mkAffine_of_ne hs]
    exact fun l h64 ha => (h l h64 ha).symm

/-! ### The shape of a left shift -/

theorem shlVal_eq_zero {c : Word} (h : 32 ≤ c.toNat) (a : Word) : shlVal a c = 0 := if_pos h

theorem shlVal_eq_shiftLeft {c : Word} (h : c.toNat < 32) (a : Word) : shlVal a c = a <<< c.toNat := if_neg (by omega)

theorem mul_shiftLeft (m p : Word) (n : Nat) : (m * p) <<< n = m * (p <<< n) := by
  simp only [BitVec.shiftLeft_eq_mul_twoPow, BitVec.mul_assoc]

theorem resCode_shlShape (a : Shaped) (cnt : Option Word) : resCode (shlShape a cnt) = shlCode a cnt := by
  unfold shlShape shlCode
  cases affineOf a with
  | none => rfl
  | some q =>
    cases cnt with
    | none => rfl
    | some c =>
      by_cases hc : c.toNat < 32
      · simp only [hc, if_true, resCode_mkAffine]
      · simp only [hc, if_false, resCode]

theorem shlShape_ne_general {a : Shaped} (ha : isUniform a = true) {cnt : Option Word} (hcnt : cnt.isSome = true) :
    shlShape a cnt ≠ .general := by
  obtain ⟨q, hq⟩ := Option.isSome_iff_exists.1 (affineOf_isSome_of_isUniform ha)
  obtain ⟨c, rfl⟩ := Option.isSome_iff_exists.1 hcnt
  simp only [shlShape, hq]
  split
  · exact mkAffine_ne_general _ _
  · simp

/-- The shape of a left shift is sound where the count, if it is one value, is the count of every lane. -/
theorem shlShape_sound {i : Iss} {a : Shaped} {cnt : Option Word} {c : Nat → Word} (hl : i.e.lanes ≠ 0)
    (hcnt : ∀ k, cnt = some k → ∀ l, c l = k) :
    ShapeSound i (fun l => shlVal (shapedAt a l) (c l)) (shlShape a cnt) := by
  unfold shlShape
  cases haff : affineOf a with
  | none => trivial
  | some q =>
    cases cnt with
    | none => trivial
    | some k =>
      obtain rfl : c = fun _ => k := funext (hcnt k rfl)
      by_cases hk : k.toNat < 32
      · simp only [hk, if_true]
        refine mkAffine_sound hl fun l _ _ => ?_
        rw [shlVal_eq_shiftLeft hk, affineOf_shapedAt haff, BitVec.shiftLeft_add_distrib, mul_shiftLeft]
      · simp only [hk, if_false]
        exact fun l _ _ => (shlVal_eq_zero (by omega) _).trans (shlVal_eq_zero (by omega) _).symm

end Sys2Proof.Machine
end

section
/-!
The statement on shifts (O8): the values of R361, and one lemma per instruction.
-/
namespace Sys2Proof.Machine

/-! ### The values of the shifts (R361) -/

theorem toNat_shiftImm (n : BitVec 5) : (n.setWidth 32 : Word).toNat = n.toNat := by
  have := n.isLt
  rw [BitVec.toNat_setWidth, Nat.mod_eq_of_lt (by omega)]

theorem shiftImm_lt (n : BitVec 5) : (n.setWidth 32 : Word).toNat < 32 := by
  rw [toNat_shiftImm]; exact n.isLt

theorem shlVal_imm (a : Word) (n : BitVec 5) : shlVal a (n.setWidth 32) = a <<< n.toNat := by
  rw [shlVal_eq_shiftLeft (shiftImm_lt n), toNat_shiftImm]

theorem shrVal_imm (a : Word) (n : BitVec 5) : shrVal a (n.setWidth 32) = a >>> n.toNat := by
  rw [shrVal, if_neg (Nat.not_le.2 (shiftImm_lt n)), toNat_shiftImm]

theorem sarVal_imm (a : Word) (n : BitVec 5) : sarVal a (n.setWidth 32) = a.sshiftRight n.toNat := by
  rw [sarVal, if_neg (Nat.not_le.2 (shiftImm_lt n)), toNat_shiftImm]

theorem sarVal_eq (a c : Word) : sarVal a c =
    if 32 ≤ c.toNat then (if a.msb then 0xFFFFFFFF else 0) else a.sshiftRight c.toNat := by
  rw [sarVal, BitVec.msb_eq_getLsbD_last]

/-! ### Instruction by instruction -/

section
variable (s : State)

theorem exec_ishl (r : R3) : exec (.ishl r) s = execIshl r s := rfl

theorem exec_ishr (sgn : Bool) (r : R3) : exec (.ishr sgn r) s = execIshr sgn r s := rfl

theorem exec_ishli (n : BitVec 5) (r : R2) : exec (.ishli n r) s = execIshli n r s := rfl

theorem exec_ishri (n : BitVec 5) (r : R2) : exec (.ishri n r) s = execIshri n r s := rfl

theorem exec_isari (n : BitVec 5) (r : R2) : exec (.isari n r) s = execIsari n r s := rfl

end

theorem ishl_yields (r : R3) : YieldsAs (fun i => shlCode (fieldVal i r.sa.toNat) (uniformVal (fieldVal i r.sb.toNat))) (.ishl r)
    (srcs3 r) (rels3 r) r.d.toNat (fun v => if 32 ≤ (v r.sb.toNat).toNat then 0 else v r.sa.toNat <<< (v r.sb.toNat).toNat) :=
  yieldsAs_of_run2 (code := fun a b => shlCode a (uniformVal b)) (exec_ishl · r) (fun _ => rfl)
    (fun a b => resCode_shlShape a (uniformVal b)) (fun _ hl _ _ => shlShape_sound hl fun _ => uniformVal_shapedAt)
    fun _ _ ha hb => shlShape_ne_general ha (uniformVal_isSome_of_isUniform hb)

theorem ishr_yields (r : R3) : Yields (.ishr false r) (srcs3 r) (rels3 r) r.d.toNat (fun v =>
    if 32 ≤ (v r.sb.toNat).toNat then 0 else v r.sa.toNat >>> (v r.sb.toNat).toNat) :=
  yields_of_run2 (exec_ishr · false r) fun _ => rfl

theorem ishr_signed_yields (r : R3) : Yields (.ishr true r) (srcs3 r) (rels3 r) r.d.toNat (fun v =>
    if 32 ≤ (v r.sb.toNat).toNat then (if (v r.sa.toNat).msb then 0xFFFFFFFF else 0)
    else (v r.sa.toNat).sshiftRight (v r.sb.toNat).toNat) :=
  yields_of_run2 (exec_ishr · true r) fun _ => sarVal_eq _ _

theorem ishli_yields (n : BitVec 5) (r : R2) : YieldsAs (fun i => shlCode (fieldVal i r.sa.toNat) (some (n.setWidth 32))) (.ishli n r)
    [r.sa.toNat] (rels2 r) r.d.toNat (fun v => v r.sa.toNat <<< n.toNat) :=
  yieldsAs_of_run1 (code := fun a => shlCode a (some (n.setWidth 32))) (exec_ishli · n r) (fun _ => shlVal_imm _ n)
    (fun a => resCode_shlShape a _) (fun _ hl _ => shlShape_sound hl fun _ hk _ => Option.some.inj hk)
    fun _ ha => shlShape_ne_general ha rfl

theorem ishri_yields (n : BitVec 5) (r : R2) : Yields (.ishri n r) [r.sa.toNat] (rels2 r) r.d.toNat
    (fun v => v r.sa.toNat >>> n.toNat) :=
  yields_of_run1 (exec_ishri · n r) fun _ => shrVal_imm _ n

theorem isari_yields (n : BitVec 5) (r : R2) : Yields (.isari n r) [r.sa.toNat] (rels2 r) r.d.toNat
    (fun v => (v r.sa.toNat).sshiftRight n.toNat) :=
  yields_of_run1 (exec_isari · n r) fun _ => sarVal_imm _ n

/-- Settles O8, instruction by instruction: the left shifts by the soundness of their affine shape, the right shifts as operations of
the standard shapes. -/
theorem shiftsUseTheFullCount : Obligations.ShiftsUseTheFullCount :=
  ⟨ishl_yields, ishr_yields, ishr_signed_yields, ishli_yields, ishri_yields, isari_yields⟩

end Sys2Proof.Machine
end

section
/-!
SUPPORT. What the decoder refuses in the words of `IAND`, `IOR` and `IXOR` (R95, R358).
-/
namespace Sys2Proof

section
variable {w : Nat} (lit : Option Word)

theorem decodeNat_iand (h : fld w 25 7 = 0x16) : decodeNat w lit = plainR3 w .iand := by simp only [decodeNat, h]

theorem decodeNat_ior (h : fld w 25 7 = 0x17) : decodeNat w lit = plainR3 w .ior := by simp only [decodeNat, h]

theorem decodeNat_ixor (h : fld w 25 7 = 0x18) : decodeNat w lit = plainR3 w .ixor := by simp only [decodeNat, h]

end

/-- `MOD` 1 to 3 of `IAND`, `IOR` and `IXOR` are reserved. -/
theorem bitwise_reserved (w : Word) (hop : fld w.toNat 25 7 = 0x16 ∨ fld w.toNat 25 7 = 0x17 ∨ fld w.toNat 25 7 = 0x18)
    (hmod : fld w.toNat 23 2 ≠ 0) (lit : Option Word) (i : Instr) : decodeWord w lit ≠ .ok i := by
  unfold decodeWord
  rcases hop with hop | hop | hop
  · rw [decodeNat_iand lit hop]; exact plainR3_ne_ok hmod _ i
  · rw [decodeNat_ior lit hop]; exact plainR3_ne_ok hmod _ i
  · rw [decodeNat_ixor lit hop]; exact plainR3_ne_ok hmod _ i

end Sys2Proof
end

section
/-!
The statement on bitwise instructions (O9), one lemma per instruction.
-/
namespace Sys2Proof.Machine

section
variable (s : State)

theorem exec_iand (r : R3) : exec (.iand r) s = execIand r s := rfl

theorem exec_ior (r : R3) : exec (.ior r) s = execIor r s := rfl

theorem exec_ixor (r : R3) : exec (.ixor r) s = execIxor r s := rfl

theorem exec_iandi (imm : BitVec 10) (r : R2) : exec (.iandi imm r) s = execIandi imm r s := rfl

end

theorem iand_yields (r : R3) : Yields (.iand r) (srcs3 r) (rels3 r) r.d.toNat (fun v => v r.sa.toNat &&& v r.sb.toNat) :=
  yields_of_run2 (exec_iand · r) fun _ => rfl

theorem ior_yields (r : R3) : Yields (.ior r) (srcs3 r) (rels3 r) r.d.toNat (fun v => v r.sa.toNat ||| v r.sb.toNat) :=
  yields_of_run2 (exec_ior · r) fun _ => rfl

theorem ixor_yields (r : R3) : Yields (.ixor r) (srcs3 r) (rels3 r) r.d.toNat (fun v => v r.sa.toNat ^^^ v r.sb.toNat) :=
  yields_of_run2 (exec_ixor · r) fun _ => rfl

theorem iandi_yields (imm : BitVec 10) (r : R2) : Yields (.iandi imm r) [r.sa.toNat] (rels2 r) r.d.toNat
    (fun v => v r.sa.toNat &&& imm.setWidth 32) :=
  yields_of_run1 (exec_iandi · imm r) fun _ => rfl

/-- Settles O9, instruction by instruction: each runs as an operation of one result per lane with the standard shapes, and the decoder
refuses the reserved values. -/
theorem bitwiseResults : Obligations.BitwiseResults :=
  ⟨iand_yields, ior_yields, ixor_yields, iandi_yields, bitwise_reserved⟩

end Sys2Proof.Machine
end

section
/-!
The statement on comparisons and extrema (O10): the values of R359 and R360, and one lemma per instruction.
-/
namespace Sys2Proof.Machine

/-! ### The values of the comparisons (R359) and of the extrema (R360) -/

theorem boolWord_eq_ite {b : Bool} {p : Prop} [Decidable p] (h : b = true ↔ p) : boolWord b = if p then 1 else 0 := by
  simp only [boolWord, h]

theorem wordLt_signed (a b : Word) : wordLt false a b = true ↔ a.toInt < b.toInt := decide_eq_true_iff

theorem wordLt_unsigned (a b : Word) : wordLt true a b = true ↔ a.toNat < b.toNat := decide_eq_true_iff

theorem cmpHolds_eq (u : Bool) (a b : Word) : cmpHolds u .eq a b = true ↔ a = b := beq_iff_eq

theorem cmpHolds_ne (u : Bool) (a b : Word) : cmpHolds u .ne a b = true ↔ a ≠ b := bne_iff_ne

theorem cmpHolds_lt_signed (a b : Word) : cmpHolds false .lt a b = true ↔ a.toInt < b.toInt := wordLt_signed a b

theorem cmpHolds_lt_unsigned (a b : Word) : cmpHolds true .lt a b = true ↔ a.toNat < b.toNat := wordLt_unsigned a b

theorem cmpHolds_le_signed (a b : Word) : cmpHolds false .le a b = true ↔ a.toInt ≤ b.toInt := by
  rw [cmpHolds, Bool.not_eq_true', ← Bool.not_eq_true, wordLt_signed, Int.not_lt]

theorem cmpHolds_le_unsigned (a b : Word) : cmpHolds true .le a b = true ↔ a.toNat ≤ b.toNat := by
  rw [cmpHolds, Bool.not_eq_true', ← Bool.not_eq_true, wordLt_unsigned, Nat.not_lt]

theorem boolWord_cmpHolds_ne (u : Bool) (a b : Word) : boolWord (cmpHolds u .ne a b) = if a = b then 0 else 1 := by
  rw [boolWord_eq_ite (cmpHolds_ne u a b), ite_not]

theorem min_signed (a b : Word) : (if wordLt false b a then b else a) = BitVec.ofInt 32 (min a.toInt b.toInt) := by
  simp only [wordLt_signed]
  split
  next h => rw [min_eq_right h.le, BitVec.ofInt_toInt]
  next h => rw [min_eq_left (not_lt.1 h), BitVec.ofInt_toInt]

theorem min_unsigned (a b : Word) : (if wordLt true b a then b else a) = BitVec.ofNat 32 (min a.toNat b.toNat) := by
  simp only [wordLt_unsigned]
  split
  next h => rw [min_eq_right h.le, BitVec.ofNat_toNat, BitVec.setWidth_eq]
  next h => rw [min_eq_left (not_lt.1 h), BitVec.ofNat_toNat, BitVec.setWidth_eq]

theorem max_signed (a b : Word) : (if wordLt false a b then b else a) = BitVec.ofInt 32 (max a.toInt b.toInt) := by
  simp only [wordLt_signed]
  split
  next h => rw [max_eq_right h.le, BitVec.ofInt_toInt]
  next h => rw [max_eq_left (not_lt.1 h), BitVec.ofInt_toInt]

theorem max_unsigned (a b : Word) : (if wordLt true a b then b else a) = BitVec.ofNat 32 (max a.toNat b.toNat) := by
  simp only [wordLt_unsigned]
  split
  next h => rw [max_eq_right h.le, BitVec.ofNat_toNat, BitVec.setWidth_eq]
  next h => rw [max_eq_left (not_lt.1 h), BitVec.ofNat_toNat, BitVec.setWidth_eq]

/-! ### Instruction by instruction -/

section
variable (s : State)

theorem exec_icmp (c : IntCmp) (r : R3) : exec (.icmp c r) s = execIcmp c r s := rfl

theorem exec_icmpu (c : IntCmp) (r : R3) : exec (.icmpu c r) s = execIcmpu c r s := rfl

theorem exec_imin (u : Bool) (r : R3) : exec (.imin u r) s = execImin u r s := rfl

theorem exec_imax (u : Bool) (r : R3) : exec (.imax u r) s = execImax u r s := rfl

end

/-- `ICMP` yields its condition, taken as int32, as a word. -/
theorem icmp_yields {c : IntCmp} {F : Word → Word → Word} (hval : ∀ a b, boolWord (cmpHolds false c a b) = F a b) (r : R3) :
    Yields (.icmp c r) (srcs3 r) (rels3 r) r.d.toNat (fun v => F (v r.sa.toNat) (v r.sb.toNat)) :=
  yields_of_run2 (exec_icmp · c r) fun _ => hval _ _

/-- `ICMPU` yields its condition, taken as uint32, as a word. -/
theorem icmpu_yields {c : IntCmp} {F : Word → Word → Word} (hval : ∀ a b, boolWord (cmpHolds true c a b) = F a b) (r : R3) :
    Yields (.icmpu c r) (srcs3 r) (rels3 r) r.d.toNat (fun v => F (v r.sa.toNat) (v r.sb.toNat)) :=
  yields_of_run2 (exec_icmpu · c r) fun _ => hval _ _

theorem imin_signed_yields (r : R3) : Yields (.imin false r) (srcs3 r) (rels3 r) r.d.toNat
    (fun v => BitVec.ofInt 32 (min (v r.sa.toNat).toInt (v r.sb.toNat).toInt)) :=
  yields_of_run2 (exec_imin · false r) fun _ => min_signed _ _

theorem imin_unsigned_yields (r : R3) : Yields (.imin true r) (srcs3 r) (rels3 r) r.d.toNat
    (fun v => BitVec.ofNat 32 (min (v r.sa.toNat).toNat (v r.sb.toNat).toNat)) :=
  yields_of_run2 (exec_imin · true r) fun _ => min_unsigned _ _

theorem imax_signed_yields (r : R3) : Yields (.imax false r) (srcs3 r) (rels3 r) r.d.toNat
    (fun v => BitVec.ofInt 32 (max (v r.sa.toNat).toInt (v r.sb.toNat).toInt)) :=
  yields_of_run2 (exec_imax · false r) fun _ => max_signed _ _

theorem imax_unsigned_yields (r : R3) : Yields (.imax true r) (srcs3 r) (rels3 r) r.d.toNat
    (fun v => BitVec.ofNat 32 (max (v r.sa.toNat).toNat (v r.sb.toNat).toNat)) :=
  yields_of_run2 (exec_imax · true r) fun _ => max_unsigned _ _

/-- Settles O10: a comparison yields the word of its condition, which each condition's lemma states on the two integers; the extrema
yield the chosen word, which is that of the smaller or the larger integer. -/
theorem comparisonAndExtremaResults : Obligations.ComparisonAndExtremaResults :=
  ⟨icmp_yields fun a b => boolWord_eq_ite (cmpHolds_eq false a b),
    icmp_yields (boolWord_cmpHolds_ne false),
    icmp_yields fun a b => boolWord_eq_ite (cmpHolds_lt_signed a b),
    icmp_yields fun a b => boolWord_eq_ite (cmpHolds_le_signed a b),
    icmpu_yields fun a b => boolWord_eq_ite (cmpHolds_eq true a b),
    icmpu_yields (boolWord_cmpHolds_ne true),
    icmpu_yields fun a b => boolWord_eq_ite (cmpHolds_lt_unsigned a b),
    icmpu_yields fun a b => boolWord_eq_ite (cmpHolds_le_unsigned a b),
    imin_signed_yields, imin_unsigned_yields, imax_signed_yields, imax_unsigned_yields⟩

end Sys2Proof.Machine
end
